-- ==== Sys2Proof/Word.lean ====
section
/-! DEFINITION. The word types of the line: bytes on the wire, and service-timer values. -/

namespace Sys2Proof

/-- One byte of frame data (spec 11_telegram_and_record_formats.md, section 11.1). -/
abbrev Byte := BitVec 8

/-- A value of the service timer: a 32-bit count of milliseconds that wraps (R23). -/
abbrev Ticks := BitVec 32

end Sys2Proof
end

