-- ==== Sys2Proof/Syntax.lean ====
section
/-! DEFINITION. The commands of the unit: one constructor for each row of spec/opcode_table.json, and the
frames and headers that they carry. -/

namespace Sys2Proof

/-- The two ports: Port C faces the control centre, Port F the field (section 1.1). -/
inductive Port where
  | c
  | f
  deriving DecidableEq, Repr

/-- A received Ethernet frame: the bytes before the frame type (its addresses), the frame type, the frame data
(the bytes after the frame type, without the frame check sequence), and whether the frame check sequence is
right (R2). -/
structure Frame where
  addresses : BitVec 96
  frameType : BitVec 16
  data : List Byte
  fcsGood : Bool
  deriving DecidableEq, Repr

/-- What a telegram command says of its frame beside the fields of its kind: the Ethernet addresses, the
destination, source and sequence of the telegram header (R172), and the payload bytes beyond the last field
that the kind defines (R4 accepts and ignores them). -/
structure Head where
  addresses : BitVec 96
  dst : BitVec 16
  src : BitVec 16
  sequence : Byte
  extra : List Byte
  deriving DecidableEq, Repr

/-- The commands, in the order of spec/opcode_table.json. A telegram command is one frame received on a port that
carries that telegram. The commands from `tableRead` to `lineRestart` serve the request at the head of the
request queue (R156), which holds their arguments (R173). -/
inductive Instr where
  /-- POWER_ON (R165), with the value of the eight address strap pins. -/
  | powerOn (strap : Byte)
  /-- PORT_UP (R20). -/
  | portUp (port : Port)
  /-- LINK_LOSS (R19). -/
  | linkLoss (port : Port)
  /-- FRAME_RECEIVED (R2). -/
  | frameReceived (port : Port) (frame : Frame)
  /-- TRANSMIT_COMPLETE (R18). -/
  | transmitComplete (port : Port)
  /-- TIME (R26): day number and line time. -/
  | time (port : Port) (head : Head) (day : BitVec 16) (lineTime : BitVec 32)
  /-- LINE_TIME_ADVANCE (R24). -/
  | lineTimeAdvance
  /-- POSITION (R51): event time and segment. -/
  | position (port : Port) (head : Head) (eventTime : BitVec 32) (segment : BitVec 16)
  /-- STOP_EVENT (R45): train unit address, event code and event time. -/
  | stopEvent (port : Port) (head : Head) (trainUnit : BitVec 16) (event : Byte) (eventTime : BitVec 32)
  /-- LOSS_DEADLINE (R58) of a vehicle set. -/
  | lossDeadline (vehicle : Nat)
  /-- RTU_POINTS (R106): the four feeder indications, the rectifier current and the echoed image. -/
  | rtuPoints (port : Port) (head : Head) (f0 f1 f2 f3 : Byte) (current echo : BitVec 16)
  /-- RTU_ACK (R106): the applied image. -/
  | rtuAck (port : Port) (head : Head) (image : BitVec 16)
  /-- BREAKER_CMD (R91): feeder, command and FORCE. -/
  | breakerCmd (port : Port) (head : Head) (feeder command force : Byte)
  /-- PULSE_END (R94) of a breaker. -/
  | pulseEnd (breaker : Nat)
  /-- EXPECT_UNTIL (R95) of a breaker. -/
  | expectUntil (breaker : Nat)
  /-- RESTORE_DEADLINE (R96) of a section. -/
  | restoreDeadline (sect : Nat)
  /-- SCAN_TIME (R104) of a substation. -/
  | scanTime (substation : Nat)
  /-- REPLY_DEADLINE (R107) of a substation. -/
  | replyDeadline (substation : Nat)
  /-- PA_STATUS (R146): tag and outcome. -/
  | paStatus (port : Port) (head : Head) (tag outcome : Byte)
  /-- AIRTIME_DEADLINE (R149) of a zone. -/
  | airtimeDeadline (zone : Nat)
  /-- RETRY_TIME (R148) of a zone. -/
  | retryTime (zone : Nat)
  /-- SWEEP (R143). -/
  | sweep
  /-- PA_REQUEST (R152): template, priority, repeat count, parameter present, parameter and lifetime. -/
  | paRequest (port : Port) (head : Head) (template prio repeats parameterPresent : Byte)
      (parameter lifetime : BitVec 16)
  /-- FIELD_ALARM (R129): alarm code, indication and event time. -/
  | fieldAlarm (port : Port) (head : Head) (code indication : Byte) (eventTime : BitVec 32)
  /-- MGMT_REQUEST (R156): the request header of R173 and its data. -/
  | mgmtRequest (port : Port) (head : Head) (operation space table count : Byte) (index mask : BitVec 16)
      (data : List Byte)
  /-- TABLE_READ (R158). -/
  | tableRead
  /-- TABLE_WRITE (R159). -/
  | tableWrite
  /-- STATUS_READ (R163). -/
  | statusRead
  /-- IDENTIFY (R163). -/
  | identify
  /-- LATCH_READ (R133). -/
  | latchRead
  /-- BIND (R47). -/
  | bind
  /-- UNBIND (R48). -/
  | unbind
  /-- HOLD_PLATFORM (R69). -/
  | holdPlatform
  /-- RELEASE_PLATFORM (R69). -/
  | releasePlatform
  /-- INCIDENT_ACK (R131). -/
  | incidentAck
  /-- INCIDENT_CLEAR (R132). -/
  | incidentClear
  /-- INCIDENT_DECLARE (R130). -/
  | incidentDeclare
  /-- TT_ACTIVATE (R32). -/
  | ttActivate
  /-- VALIDATION_END (R33). -/
  | validationEnd
  /-- TT_CANCEL (R35). -/
  | ttCancel
  /-- JOB_STOP (R162). -/
  | jobStop
  /-- JOB_START (R162). -/
  | jobStart
  /-- LINE_RESTART (R164). -/
  | lineRestart
  /-- SCRUB_VISIT (R170). -/
  | scrubVisit
  deriving DecidableEq, Repr

end Sys2Proof
end

