-- ==== Sys2Proof/Machine/State.lean ====
section
/-! DEFINITION. The state of the unit: every record, queue, flag and counter that the spec names, as plain data,
and the state right after power-on. Value ranges and reset values are the spec's; INVENTORY.md lists them. -/

namespace Sys2Proof.Machine

open Sys2Proof

/-! ## Tables as sparse data -/

/-- A table of entries by index: a list of (index, entry) pairs with strictly rising indices that lists no entry
equal to the one an unlisted index reads as (the power-on entry). -/
abbrev Table (α : Type) := List (Nat × α)

/-! ## Codes and sets (section 11.4) -/

/-- The four jobs (section 1.2), in the order of the job code. -/
inductive Job where
  | timetable
  | power
  | incident
  | announce
  deriving DecidableEq, Repr

/-- The five placers of injected telegrams (section 1.6), in the order of R16. -/
inductive Placer where
  | timetable
  | power
  | incident
  | announce
  | management
  deriving DecidableEq, Repr

/-- Kinds of Unit Map entries (section 1.3). -/
inductive UnitKind where
  | unassigned
  | trainUnit
  | platform
  | paController
  | rtu
  | workstation
  | clock
  deriving DecidableEq, Repr

inductive Privilege where
  | view
  | control
  deriving DecidableEq, Repr

/-- Train states (R44). -/
inductive TrainState where
  | running
  | dwelling
  | held
  | lost
  deriving DecidableEq, Repr

/-- Run Status states (R46). -/
inductive RunState where
  | notStarted
  | active
  | complete
  | cancelled
  deriving DecidableEq, Repr

/-- Section states (R85). -/
inductive SectionState where
  | energised
  | dead
  | isolated
  | restoring
  | unknown
  deriving DecidableEq, Repr

/-- Breaker states (R84). -/
inductive BreakerState where
  | closed
  | opened
  | tripped
  | unknown
  deriving DecidableEq, Repr

/-- A pending command (R84), and the output of a feeder (R103): nothing, CLOSE or OPEN. -/
inductive Switching where
  | none
  | close
  | opening
  deriving DecidableEq, Repr

/-- Scan states (R102). -/
inductive ScanState where
  | idle
  | awaitReply
  | silent
  deriving DecidableEq, Repr

/-- Outstanding requests (R102). -/
inductive ScanRequest where
  | none
  | read
  | write
  deriving DecidableEq, Repr

/-- Severities, which are also the latch tiers (R119, R133). -/
inductive Severity where
  | advisory
  | minor
  | major
  | critical
  deriving DecidableEq, Repr

/-- Incident states (R121). -/
inductive IncidentState where
  | opened
  | acknowledged
  | cleared
  deriving DecidableEq, Repr

/-- Location kinds (R121). -/
inductive LocationKind where
  | line
  | sect
  | substation
  | station
  | timingPoint
  | train
  deriving DecidableEq, Repr

/-- Priorities of announcements (R141). -/
inductive Priority where
  | emergency
  | service
  | routine
  deriving DecidableEq, Repr

/-- Play states (R140). -/
inductive PlayState where
  | idle
  | playing
  | retryWait
  deriving DecidableEq, Repr

/-- Zone retry limits (R140). -/
inductive RetryLimit where
  | one
  | three
  | eight
  | unlimited
  deriving DecidableEq, Repr

/-- Reply statuses (R155). -/
inductive Status where
  | done
  | privilege
  | range
  | state
  | busy
  | invalid
  | integrity
  deriving DecidableEq, Repr

/-- Reasons for refusing a breaker command, in the order of R92. -/
inductive Refused where
  | jobStopped
  | range
  | noRtu
  | noBreaker
  | localControl
  | isolated
  | occupied
  | busy
  deriving DecidableEq, Repr

/-- The set of hold causes (R66). -/
structure HoldCauses where
  power : Bool
  overload : Bool
  incident : Bool
  operator : Bool
  deriving DecidableEq, Repr

/-- The set of incident effects (R119). -/
structure Effects where
  isolate : Bool
  hold : Bool
  announce : Bool
  alarm : Bool
  deriving DecidableEq, Repr

/-- One value for each of the four feeders of a substation. -/
structure Quad (α : Type) where
  f0 : α
  f1 : α
  f2 : α
  f3 : α
  deriving DecidableEq, Repr

/-! ## Tables by name (section 11.3) -/

/-- The tables of the TABLE space, in the order of their identifiers 1 to 18. -/
inductive TableId where
  | lineConfig
  | unitMap
  | run0
  | run1
  | passage0
  | passage1
  | segment
  | train
  | runStatus
  | timingPoint
  | sect
  | breaker
  | substation
  | incidentClass
  | incident
  | template
  | zone
  | zoneQueue
  deriving DecidableEq, Repr

/-! ## Loaded entries -/

/-- A Unit Map entry (section 1.3). -/
structure UnitEntry where
  kind : UnitKind
  object : Nat
  privilege : Privilege
  deriving DecidableEq, Repr

/-- A run record (R30). -/
structure RunRecord where
  valid : Bool
  number : Nat
  firstPassage : Nat
  passages : Nat
  deriving DecidableEq, Repr

/-- A passage record (R30). -/
structure Passage where
  timingPoint : Nat
  departure : Nat
  dwell : Nat
  pass : Bool
  deriving DecidableEq, Repr

/-- A Segment Table entry (R41). -/
structure Segment where
  sect : Nat
  timingPoint : Option Nat
  station : Option Nat
  deriving DecidableEq, Repr

/-- A Timing Point Table entry, configured part (R64). -/
structure TimingPoint where
  station : Nat
  controller : Option Nat
  departureSection : Nat
  dmin : Nat
  dmax : Nat
  weight : Nat
  gain : Nat
  horizon : Nat
  threshold : Nat
  releaseDwell : Nat
  deriving DecidableEq, Repr

/-- A Section Table entry, configured part (R83). -/
structure SectionEntry where
  feeders : List Nat
  i1 : Nat
  i2 : Nat
  restoreTimeout : Nat
  deriving DecidableEq, Repr

/-- A Breaker Table entry, configured part (R84). -/
structure BreakerEntry where
  sect : Option Nat
  deriving DecidableEq, Repr

/-- A Substation Table entry, configured part (R101). -/
structure SubstationEntry where
  rtu : Option Nat
  scanPeriod : Nat
  replyTimeout : Nat
  retryLimit : Nat
  pulseLength : Nat
  l1 : Nat
  l2 : Nat
  l3 : Nat
  hysteresis : Nat
  deriving DecidableEq, Repr

/-- An Incident Class Table entry (R119). -/
structure ClassEntry where
  defined : Bool
  severity : Severity
  effects : Effects
  announceTemplate : Option Nat
  announcePriority : Priority
  allClear : Option Nat
  autoClear : Bool
  escalation : Nat
  deriving DecidableEq, Repr

/-- A Template Table entry (R139). -/
structure Template where
  fragments : List Nat
  position : Option Nat
  defaultPriority : Priority
  airtime : Nat
  repeats : Nat
  lifetime : Nat
  deriving DecidableEq, Repr

/-- A Zone Table entry, configured part (R140). -/
structure ZoneEntry where
  controller : Option Nat
  timingPoints : List Nat
  retryLimit : RetryLimit
  retryDelay : Nat
  rotation : Nat
  deriving DecidableEq, Repr

/-! ## Power-on entries -/

def UnitEntry.initial : UnitEntry := ⟨.unassigned, 0, .view⟩
def RunRecord.initial : RunRecord := ⟨false, 0, 0, 0⟩
def Passage.initial : Passage := ⟨0, 0, 0, false⟩
def Segment.initial : Segment := ⟨0, none, none⟩
def TimingPoint.initial : TimingPoint := ⟨0, none, 0, 0, 2550, 16, 0, 0, 0, 0⟩
def SectionEntry.initial : SectionEntry := ⟨[], 0, 0, 10⟩
def BreakerEntry.initial : BreakerEntry := ⟨none⟩
def SubstationEntry.initial : SubstationEntry := ⟨none, 1000, 200, 2, 500, 14000, 15000, 16000, 500⟩
def Template.initial : Template := ⟨[], none, .routine, 10, 1, 300⟩
def ZoneEntry.initial : ZoneEntry := ⟨none, [], .three, 5, 2⟩

def Effects.empty : Effects := ⟨false, false, false, false⟩
def Effects.alarmOnly : Effects := ⟨false, false, false, true⟩
def HoldCauses.empty : HoldCauses := ⟨false, false, false, false⟩

/-- A class as power-on leaves classes 16 to 63 (R120), and class 0, whose entry the spec gives no contents (DESIGN CHOICE, log entry 58). -/
def ClassEntry.initial : ClassEntry := ⟨false, .advisory, .empty, none, .service, none, false, 0⟩

/-- A class that is undefined or poisoned is handled as this one (R120). -/
def ClassEntry.undefinedClass : ClassEntry := ⟨false, .major, .alarmOnly, none, .service, none, false, 0⟩

/-- A class of the LX4 itself at power-on: no templates, announce priority SERVICE (R120). -/
def ClassEntry.internal (severity : Severity) (effects : Effects) (autoClear : Bool) (escalation : Nat) : ClassEntry :=
  ⟨true, severity, effects, none, .service, none, autoClear, escalation⟩

/-- The Incident Class Table at power-on: classes 1 to 15 (R120). -/
def powerOnClasses : Table ClassEntry :=
  [(1, .internal .major .alarmOnly false 0),
   (2, .internal .critical ⟨true, true, false, true⟩ false 0),
   (3, .internal .major .alarmOnly true 0),
   (4, .internal .major .alarmOnly true 0),
   (5, .internal .major .alarmOnly true 0),
   (6, .internal .critical .alarmOnly false 0),
   (7, .internal .major .alarmOnly true 0),
   (8, .internal .minor .empty false 5),
   (9, .internal .minor .empty false 0),
   (10, .internal .minor .empty true 0),
   (11, .internal .minor .empty false 3),
   (12, .internal .minor .empty false 3),
   (13, .internal .major .alarmOnly false 0),
   (14, .internal .major .alarmOnly true 0),
   (15, .internal .minor .empty false 3)]

/-- The loaded tables (section 10.1). -/
structure Tables where
  unitMap : Table UnitEntry
  run0 : Table RunRecord
  run1 : Table RunRecord
  passage0 : Table Passage
  passage1 : Table Passage
  segment : Table Segment
  timingPoint : Table TimingPoint
  sect : Table SectionEntry
  breaker : Table BreakerEntry
  substation : Table SubstationEntry
  incidentClass : Table ClassEntry
  template : Table Template
  zone : Table ZoneEntry
  deriving DecidableEq, Repr

/-- The loaded tables at power-on (R171). -/
def Tables.powerOn : Tables := ⟨[], [], [], [], [], [], [], [], [], [], powerOnClasses, [], []⟩

/-! ## The Table Store (chapter 10) -/

/-- The condition of an entry's words: how many hold a one-bit error, whether one holds a two-bit error, and
the entry's poison mark (R166). Log entry 7. -/
structure Health where
  singles : Nat
  double : Bool
  poison : Bool
  deriving DecidableEq, Repr

/-- Every word without error and the mark clear. -/
def Health.clean : Health := ⟨0, false, false⟩

/-- A last-error record (R171). -/
structure ErrorRecord where
  table : TableId
  entry : Nat
  time : Ticks
  deriving DecidableEq, Repr

/-- The Table Store beside the entries' contents: the entries' health by place in the scrubber's order, the
counters per table by table code, the last-error records and the scrubber (R166 to R171). `awaiting` is set between the last visit of
a pass and the first visit of the next: `passStart` is then still the start of the pass that has been made (R170). -/
structure Store where
  health : Table Health
  corrected : Table Nat
  uncorrectable : Table Nat
  lastCorrected : Option ErrorRecord
  lastUncorrectable : Option ErrorRecord
  scrubPasses : Nat
  scrubPosition : Nat
  passStart : Ticks
  awaiting : Bool
  deriving DecidableEq, Repr

def Store.powerOn : Store := ⟨[], [], [], none, none, 0, 0, 0, false⟩

/-! ## Line configuration, jobs and clock -/

/-- The line configuration (R161). -/
structure LineConfig where
  windowBase : Nat
  windowSize : Nat
  ownAddress : Nat
  noticeAddress : Nat
  alarmAddress : Nat
  ratio : Nat
  lossTimeout : Nat
  majorDelay : Nat
  scrubPeriod : Nat
  deriving DecidableEq, Repr

def LineConfig.powerOn (strap : Byte) : LineConfig := ⟨0, 0, 65024 + strap.toNat, 0, 0, 4, 60, 1800, 10⟩

/-- Which jobs are RUNNING (R162). -/
structure Jobs where
  timetable : Bool
  power : Bool
  incident : Bool
  announce : Bool
  deriving DecidableEq, Repr

def Jobs.stopped : Jobs := ⟨false, false, false, false⟩

/-- The Line Clock: its state and anchor (R24, R25). -/
structure Clock where
  isSet : Bool
  anchorLine : Nat
  anchorDay : Nat
  anchorTimer : Ticks
  deriving DecidableEq, Repr

def Clock.powerOn : Clock := ⟨false, 0, 0, 0⟩

/-- A pending activation (R30). -/
structure Activation where
  bank : Nat
  day : Nat
  line : Nat
  deriving DecidableEq, Repr

/-- The Timetable Store beside its banks (R30). -/
structure Timetable where
  active : Nat
  activation : Option Activation
  deriving DecidableEq, Repr

def Timetable.powerOn : Timetable := ⟨0, none⟩

/-! ## Train Tracker (chapter 3) -/

/-- A Train Table entry (R43). -/
structure Train where
  active : Bool
  run : Option Nat
  state : TrainState
  stateBeforeLoss : TrainState
  nextPassage : Nat
  lastSegment : Option Nat
  sect : Option Nat
  timingPoint : Option Nat
  holds : HoldCauses
  lateness : Option Int
  announcedDelay : Nat
  lastReport : Ticks
  deriving DecidableEq, Repr

/-- An entry that is not active (R43). -/
def Train.inactive : Train := ⟨false, none, .running, .running, 0, none, none, none, .empty, none, 0, 0⟩

/-- A Run Status entry (R46). -/
structure RunStatus where
  state : RunState
  vehicle : Option Nat
  deriving DecidableEq, Repr

def RunStatus.initial : RunStatus := ⟨.notStarted, none⟩

/-- The Train Tracker's records beside the Segment Table (section 3.1). -/
structure Tracker where
  trains : Table Train
  runStatus : Table RunStatus
  occupancy : Table Nat
  deriving DecidableEq, Repr

def Tracker.powerOn : Tracker := ⟨[], [], []⟩

/-! ## Regulator (chapter 4) -/

/-- A last departure (R65). -/
structure LastDeparture where
  number : Nat
  actual : Nat
  departure : Nat
  deriving DecidableEq, Repr

/-- The Regulator's dynamic state (R65). -/
structure Regulator where
  lastDeparture : Table (Option LastDeparture)
  operatorHold : Table Bool
  reserved : Table (Option Nat)
  majorDelay : Table Bool
  deriving DecidableEq, Repr

def Regulator.powerOn : Regulator := ⟨[], [], [], []⟩

/-! ## Traction Section Controller (chapter 5) -/

/-- A section's dynamic fields (R83). -/
structure SectionDyn where
  state : SectionState
  isolation : Nat
  restoreDeadline : Option Ticks
  restoreFailed : Bool
  deriving DecidableEq, Repr

def SectionDyn.initial : SectionDyn := ⟨.unknown, 0, none, false⟩

/-- A breaker's dynamic fields (R84). -/
structure BreakerDyn where
  state : BreakerState
  localControl : Bool
  pending : Switching
  commandSection : Option Nat
  pulseEnd : Option Ticks
  expectUntil : Option Ticks
  deriving DecidableEq, Repr

def BreakerDyn.initial : BreakerDyn := ⟨.unknown, false, .none, none, none, none⟩

structure Traction where
  sections : Table SectionDyn
  breakers : Table BreakerDyn
  deriving DecidableEq, Repr

def Traction.powerOn : Traction := ⟨[], []⟩

/-! ## Substation Scanner (chapter 6) -/

/-- An output image: one output for each feeder, and the indicator (R103). -/
structure Image where
  outputs : Quad Switching
  indicator : Bool
  deriving DecidableEq, Repr

def Image.idle : Image := ⟨⟨.none, .none, .none, .none⟩, false⟩

/-- A feeder's closed and local-control indications (R110). -/
structure Indication where
  closed : Bool
  localControl : Bool
  deriving DecidableEq, Repr

/-- Where an incident is (R121). -/
structure Location where
  kind : LocationKind
  index : Nat
  deriving DecidableEq, Repr

/-- A substation's dynamic fields (R102). The last acknowledged image is kept as the RTU coded it (log entry 34). -/
structure SubstationDyn where
  scan : ScanState
  outstanding : ScanRequest
  replyDeadline : Option Ticks
  retries : Nat
  nextScan : Option Ticks
  level : Nat
  lowCount : Nat
  image : Image
  acknowledged : Option (BitVec 16)
  previous : Option (Quad Indication)
  earthFault : Quad (Option Location)
  heldFeeders : Quad Bool
  deriving DecidableEq, Repr

def SubstationDyn.initial : SubstationDyn :=
  ⟨.idle, .none, none, 0, none, 0, 0, .idle, none, none, ⟨none, none, none, none⟩, ⟨false, false, false, false⟩⟩

/-- The Scanner's dynamic state: scan records, and the load level of each section (R102). -/
structure Scanner where
  substations : Table SubstationDyn
  levels : Table Nat
  deriving DecidableEq, Repr

def Scanner.powerOn : Scanner := ⟨[], []⟩

/-! ## Incident Manager (chapter 7) -/

/-- The detail of a record: a table and an entry (R121). -/
structure Detail where
  table : TableId
  entry : Nat
  deriving DecidableEq, Repr

/-- What a record's effects cover: sections, timing points and zones in index order (R122). -/
structure Coverage where
  sections : List Nat
  timingPoints : List Nat
  zones : List Nat
  deriving DecidableEq, Repr

/-- An incident record (R121). `holdTold` is set from the moment the Regulator is told of a record carrying
HOLD until it is told of its release (R66). `escalated` is set once the record has escalated, which it does at most once (R124; log
entry 27). -/
structure IncidentRecord where
  serial : Nat
  cls : Nat
  severity : Severity
  effects : Effects
  location : Location
  coverage : Coverage
  source : Nat
  detail : Option Detail
  firstTime : Option Nat
  lastTime : Option Nat
  lastUpdate : Ticks
  count : Nat
  state : IncidentState
  conditionEnded : Bool
  holdTold : Bool
  escalated : Bool
  deriving DecidableEq, Repr

/-- What a latch captures (R133). -/
structure Captured where
  serial : Nat
  cls : Nat
  location : Location
  time : Option Nat
  deriving DecidableEq, Repr

/-- A first-incident latch (R133). -/
structure Latch where
  captured : Option Captured
  nextCount : Nat
  deriving DecidableEq, Repr

def Latch.empty : Latch := ⟨none, 0⟩

/-- The Incident Manager's records beside the class table (R138). -/
structure Incidents where
  slots : Table IncidentRecord
  nextSerial : Nat
  latches : Quad Latch
  overflow : Bool
  overflowCount : Nat
  asserted : Bool
  deriving DecidableEq, Repr

def Incidents.powerOn : Incidents := ⟨[], 1, ⟨.empty, .empty, .empty, .empty⟩, false, 0, false⟩

/-! ## Announcement Scheduler (chapter 8) -/

/-- Where an announcement entry comes from (R141). -/
inductive Origin where
  | incident (serial : Nat)
  | regulation (vehicle : Nat)
  | centre (address : Nat)
  | system
  deriving DecidableEq, Repr

/-- A queue entry (R141). -/
structure Entry where
  template : Nat
  parameter : Option Nat
  prio : Priority
  origin : Origin
  repeatsLeft : Nat
  expiry : Ticks
  deriving DecidableEq, Repr

/-- The current play: an entry with its final mark (R140, R151). -/
structure Play where
  entry : Entry
  final : Bool
  deriving DecidableEq, Repr

/-- A zone's dynamic fields (R140). -/
structure ZoneDyn where
  queue : List Entry
  state : PlayState
  current : Option Play
  tag : Byte
  airtimeDeadline : Option Ticks
  retryTime : Option Ticks
  retries : Nat
  consecutive : Nat
  deriving DecidableEq, Repr

def ZoneDyn.initial : ZoneDyn := ⟨[], .idle, none, 0, none, none, 0, 0⟩

structure Announcer where
  zones : Table ZoneDyn
  deriving DecidableEq, Repr

def Announcer.powerOn : Announcer := ⟨[]⟩

/-! ## Counters of the line's blocks -/

/-- Every counter of the Line Clock (R29), the Train Tracker (R63), the Regulator (R82), the Traction Section
Controller (R100), the Substation Scanner (R118, per substation `u`), the Incident Manager (R138) and the
Announcement Scheduler (R154, per zone `z`). -/
inductive Counter where
  | clockStep
  | clockReject
  | timeSkew
  | unknownTrain
  | badEvent
  | invalidSegment
  | missedPassage
  | duplicateArrival
  | unseenDeparture
  | unexpectedDeparture
  | fieldOverride
  | autoBind
  | unregulatedArrival
  | headwayDropped
  | staggerUnmet
  | dwellOrder
  | holdOrder
  | releaseOrder
  | unaddressedOrder
  | delayAnnouncement
  | unplacedAnnouncement
  | acceptedCommand
  | refusedCommand (reason : Refused)
  | trip
  | closeAgainstIsolation
  | unassignedReport
  | cutPulse
  | isolationPulse
  | unconfirmedCommand
  | restoreFailed
  | foreignReply
  | stoppedReply
  | creation
  | collapse
  | reopen
  | escalation
  | displacement
  | clear
  | lostWhileStopped
  | badAlarmCode
  | unmatchedEnd
  | unsentNotice
  | unsentAlarm
  | foreignStatus
  | readsSent (u : Nat)
  | writesSent (u : Nat)
  | scanOverrun (u : Nat)
  | retry (u : Nat)
  | silence (u : Nat)
  | recovery (u : Nat)
  | unsolicitedReply (u : Nat)
  | imageMismatch (u : Nat)
  | earthFault (u : Nat)
  | levelChange (u : Nat)
  | overload (u : Nat)
  | admission (z : Nat)
  | merge (z : Nat)
  | playDisplacement (z : Nat)
  | fullDrop (z : Nat)
  | badTemplate (z : Nat)
  | expiry (z : Nat)
  | purge (z : Nat)
  | playsSent (z : Nat)
  | playRetry (z : Nat)
  | completedPlay (z : Nat)
  | busy (z : Nat)
  | unavailable (z : Nat)
  | noCompletion (z : Nat)
  | preEmption (z : Nat)
  | staleStatus (z : Nat)
  deriving DecidableEq, Repr

/-! ## The Telegram Path (chapter 1) -/

/-- An injected telegram as its placer sets it: kind, destination and payload (R17). -/
structure Injected where
  kind : Byte
  dst : Nat
  payload : List Byte
  deriving DecidableEq, Repr

/-- A telegram produced in a step, with its placer and port (R15). -/
structure Outgoing where
  placer : Placer
  port : Port
  telegram : Injected
  deriving DecidableEq, Repr

/-- What a transmitter is sending: a frame, and whether it carries an injected telegram (R18). -/
structure Transmission where
  frame : Frame
  injected : Bool
  deriving DecidableEq, Repr

/-- The five holding places of a port (section 1.6). -/
structure Holding where
  timetable : Option Injected
  power : Option Injected
  incident : Option Injected
  announce : Option Injected
  management : Option Injected
  deriving DecidableEq, Repr

def Holding.empty : Holding := ⟨none, none, none, none, none⟩

/-- The counters of a port (R21). The forward overflow counter is the one of the direction that the port transmits. -/
inductive PathCounter where
  | frameError
  | otherFrame
  | telegram
  | dropLength
  | dropCheck
  | dropVersion
  | dropShort
  | good
  | invalidAddress
  | unmappedSource
  | kindMismatch
  | unhandled
  | forwardOverflow
  | flushed
  | suppressed (p : Placer)
  | injected
  | forwarded
  | down
  deriving DecidableEq, Repr

/-- One port: its link, the forward queue that feeds it, its inject queue and holding places, its
transmitter, sequence counter, consecutive-inject count and counters. -/
structure PortState where
  up : Bool
  forward : List Frame
  inject : List Injected
  holding : Holding
  transmitting : Option Transmission
  sequence : Byte
  consecutive : Nat
  counters : Table Nat
  deriving DecidableEq, Repr

def PortState.powerOn : PortState := ⟨false, [], [], .empty, none, 0, 0, []⟩

structure Path where
  portC : PortState
  portF : PortState
  linkCondition : Bool
  deriving DecidableEq, Repr

def Path.powerOn : Path := ⟨.powerOn, .powerOn, false⟩

/-! ## The Management Agent (chapter 9) -/

/-- A management request as handed to the agent: its source, the translation of its source made at classification
(absent, or an entry; R12), its sequence, and its header and data (R173). -/
structure Request where
  source : Nat
  translation : Option UnitEntry
  sequence : Byte
  operation : Nat
  space : Nat
  table : Nat
  count : Nat
  index : Nat
  mask : BitVec 16
  data : List Byte
  deriving DecidableEq, Repr

/-- A validation under way: the activation asked for, and when its service began (R33). -/
structure Validation where
  wanted : Activation
  since : Ticks
  deriving DecidableEq, Repr

/-- The Management Agent: the request queue, its head being the request in service (R156), and its counters (R165). -/
structure Mgmt where
  queue : List Request
  validating : Option Validation
  served : Nat
  busy : Nat
  privilege : Nat
  refused : Nat
  deriving DecidableEq, Repr

def Mgmt.powerOn : Mgmt := ⟨[], none, 0, 0, 0, 0⟩

/-! ## The whole unit -/

/-- Everything of the unit but the Telegram Path and the Management Agent's queue. The last three fields are the model's own
work lists within a step and are empty between steps (log entries 8, 9, 10). -/
structure Line where
  timer : Ticks
  strap : Byte
  config : LineConfig
  jobs : Jobs
  clock : Clock
  tables : Tables
  store : Store
  timetable : Timetable
  tracker : Tracker
  regulator : Regulator
  traction : Traction
  scanner : Scanner
  incidents : Incidents
  announcer : Announcer
  counters : Table Nat
  outbox : List Outgoing
  poisonWork : List Detail
  writeChecks : List Nat
  deriving DecidableEq, Repr

/-- The line right after power-on with the strap pins at `strap` (R165). -/
def Line.powerOn (strap : Byte) : Line :=
  { timer := 0, strap := strap, config := .powerOn strap, jobs := .stopped, clock := .powerOn,
    tables := .powerOn, store := .powerOn, timetable := .powerOn, tracker := .powerOn, regulator := .powerOn,
    traction := .powerOn, scanner := .powerOn, incidents := .powerOn, announcer := .powerOn, counters := [],
    outbox := [], poisonWork := [], writeChecks := [] }

/-- The state of the machine: the Telegram Path, the Management Agent, the line's blocks, and the commands that wait,
first in first out. -/
structure State where
  path : Path
  mgmt : Mgmt
  line : Line
  pending : List Instr
  deriving DecidableEq, Repr

/-- Why a step could stop the unit: never. The spec gives the unit no fault state, and every command's effect ends in
a next state; safe. -/
inductive Fault where
  deriving DecidableEq, Repr

/-- Why a command is refused. -/
inductive Refusal where
  /-- A command with no meaning yet, raised by `exec`'s arm of that command, by its mnemonic. No arm raises it; safe. -/
  | notModelled (mnemonic : String)
  deriving DecidableEq, Repr

/-- The state right after power-on with the strap pins at `strap` (R165). -/
def State.powerOn (strap : Byte) : State :=
  { path := .powerOn, mgmt := .powerOn, line := .powerOn strap, pending := [] }

/-- The machine right after reset: power-on with the strap pins at 0 (DESIGN CHOICE, log entry 3). -/
def State.reset : State := State.powerOn 0

end Sys2Proof.Machine
end

