-- ==== Sys2Proof/Machine/Flags.lean ====
section
/-! DEFINITION. The codes of names and the bytes of sets and flags, as section 11.4 of
spec/11_telegram_and_record_formats.md lists them (R172). -/

namespace Sys2Proof.Machine

open Sys2Proof

/-- A true or false field, and a set or clear flag, is 1 or 0 (R172). -/
def boolCode (b : Bool) : Nat := if b then 1 else 0

/-- A flag byte of a telegram or of a table field that is written as given: set exactly when it is 1
(DESIGN CHOICE, log entry 16). -/
def flagSet (n : Nat) : Bool := n == 1

/-- A range-checked flag field: 0 or 1. -/
def boolOf? (n : Nat) : Option Bool :=
  match n with
  | 0 => some false
  | 1 => some true
  | _ => none

def UnitKind.code : UnitKind → Nat
  | .unassigned => 0
  | .trainUnit => 1
  | .platform => 2
  | .paController => 3
  | .rtu => 4
  | .workstation => 5
  | .clock => 6

def UnitKind.ofCode? : Nat → Option UnitKind
  | 0 => some .unassigned
  | 1 => some .trainUnit
  | 2 => some .platform
  | 3 => some .paController
  | 4 => some .rtu
  | 5 => some .workstation
  | 6 => some .clock
  | _ => none

def Privilege.code : Privilege → Nat
  | .view => 0
  | .control => 1

def Privilege.ofCode? : Nat → Option Privilege
  | 0 => some .view
  | 1 => some .control
  | _ => none

def Job.ofCode? : Nat → Option Job
  | 0 => some .timetable
  | 1 => some .power
  | 2 => some .incident
  | 3 => some .announce
  | _ => none

def TrainState.code : TrainState → Nat
  | .running => 0
  | .dwelling => 1
  | .held => 2
  | .lost => 3

def RunState.code : RunState → Nat
  | .notStarted => 0
  | .active => 1
  | .complete => 2
  | .cancelled => 3

def SectionState.code : SectionState → Nat
  | .energised => 0
  | .dead => 1
  | .isolated => 2
  | .restoring => 3
  | .unknown => 4

def BreakerState.code : BreakerState → Nat
  | .closed => 0
  | .opened => 1
  | .tripped => 2
  | .unknown => 3

/-- A pending command's code, and an output's code: none or idle 0, CLOSE 1, OPEN 2. -/
def Switching.code : Switching → Nat
  | .none => 0
  | .close => 1
  | .opening => 2

def ScanState.code : ScanState → Nat
  | .idle => 0
  | .awaitReply => 1
  | .silent => 2

def ScanRequest.code : ScanRequest → Nat
  | .none => 0
  | .read => 1
  | .write => 2

def Severity.code : Severity → Nat
  | .advisory => 0
  | .minor => 1
  | .major => 2
  | .critical => 3

def Severity.ofCode? : Nat → Option Severity
  | 0 => some .advisory
  | 1 => some .minor
  | 2 => some .major
  | 3 => some .critical
  | _ => none

/-- The severity one step higher; CRITICAL has none (R124 step 5). -/
def Severity.next? : Severity → Option Severity
  | .advisory => some .minor
  | .minor => some .major
  | .major => some .critical
  | .critical => none

/-- MAJOR or CRITICAL (R119, R125). -/
def Severity.high (s : Severity) : Bool := 2 ≤ s.code

def IncidentState.code : IncidentState → Nat
  | .opened => 0
  | .acknowledged => 1
  | .cleared => 2

def LocationKind.code : LocationKind → Nat
  | .line => 0
  | .sect => 1
  | .substation => 2
  | .station => 3
  | .timingPoint => 4
  | .train => 5

def LocationKind.ofCode? : Nat → Option LocationKind
  | 0 => some .line
  | 1 => some .sect
  | 2 => some .substation
  | 3 => some .station
  | 4 => some .timingPoint
  | 5 => some .train
  | _ => none

/-- How many indices a location kind has (R121). -/
def LocationKind.size : LocationKind → Nat
  | .line => 1
  | .sect => 24
  | .substation => 12
  | .station => 40
  | .timingPoint => 96
  | .train => 64

def Priority.code : Priority → Nat
  | .emergency => 0
  | .service => 1
  | .routine => 2

def Priority.ofCode? : Nat → Option Priority
  | 0 => some .emergency
  | 1 => some .service
  | 2 => some .routine
  | _ => none

def PlayState.code : PlayState → Nat
  | .idle => 0
  | .playing => 1
  | .retryWait => 2

def RetryLimit.code : RetryLimit → Nat
  | .one => 0
  | .three => 1
  | .eight => 2
  | .unlimited => 3

def RetryLimit.ofCode? : Nat → Option RetryLimit
  | 0 => some .one
  | 1 => some .three
  | 2 => some .eight
  | 3 => some .unlimited
  | _ => none

/-- The number of re-sends allowed after BUSY; none for UNLIMITED (R140). -/
def RetryLimit.number? : RetryLimit → Option Nat
  | .one => some 1
  | .three => some 3
  | .eight => some 8
  | .unlimited => none

def Status.code : Status → Nat
  | .done => 0
  | .privilege => 1
  | .range => 2
  | .state => 3
  | .busy => 4
  | .invalid => 5
  | .integrity => 6

/-- Hold causes as a byte: POWER bit 0, OVERLOAD bit 1, INCIDENT bit 2, OPERATOR bit 3. -/
def HoldCauses.code (h : HoldCauses) : Nat :=
  boolCode h.power + 2 * boolCode h.overload + 4 * boolCode h.incident + 8 * boolCode h.operator

/-- No hold cause. -/
def HoldCauses.isEmpty (h : HoldCauses) : Bool := !(h.power || h.overload || h.incident || h.operator)

/-- Effects as a byte: ISOLATE bit 0, HOLD bit 1, ANNOUNCE bit 2, ALARM bit 3. -/
def Effects.code (e : Effects) : Nat :=
  boolCode e.isolate + 2 * boolCode e.hold + 4 * boolCode e.announce + 8 * boolCode e.alarm

/-- The effects of a byte, which may set the four lowest bits only. -/
def Effects.ofCode? (n : Nat) : Option Effects :=
  if n < 16 then some ⟨n % 2 == 1, n / 2 % 2 == 1, n / 4 % 2 == 1, n / 8 % 2 == 1⟩ else none

/-- DWELL_ORDER and ADHERENCE flags: HEADWAY_USED bit 0, STAGGER_UNMET bit 1 (R172). -/
def dwellFlags (headwayUsed staggerUnmet : Bool) : Nat := boolCode headwayUsed + 2 * boolCode staggerUnmet

/-- An image as its two bytes (R172): feeder f's output in bits 2f and 2f + 1 of the first byte, the indicator in
the second. -/
def Image.bits (i : Image) : BitVec 16 :=
  BitVec.ofNat 16
    (256 * (i.outputs.f0.code + 4 * i.outputs.f1.code + 16 * i.outputs.f2.code + 64 * i.outputs.f3.code)
      + boolCode i.indicator)

/-- The closed and local-control indications of a feeder indication byte (R172): bits 0 and 1. -/
def indicationOf (b : Byte) : Indication := ⟨b.getLsbD 0, b.getLsbD 1⟩

/-- The earth-fault indication of a feeder indication byte (R172): bit 2. -/
def earthFaultOf (b : Byte) : Bool := b.getLsbD 2

def Indication.code (i : Indication) : Nat := boolCode i.closed + 2 * boolCode i.localControl

end Sys2Proof.Machine
end

