-- ==== Sys2Proof/Machine/Operands.lean ====
section
/-! DEFINITION. The operand forms of the wire: big-endian fields, the telegram frame as it is built and as the receive
checks read it (R3, R4, R172). -/

namespace Sys2Proof.Machine

open Sys2Proof

/-! ## Fields -/

def u8 (n : Nat) : Byte := BitVec.ofNat 8 n

/-- A two-byte field, big-endian. -/
def be16 (n : Nat) : List Byte := [u8 (n / 256), u8 n]

/-- A four-byte field, big-endian. -/
def be32 (n : Nat) : List Byte := [u8 (n / 16777216), u8 (n / 65536), u8 (n / 256), u8 n]

/-- The byte at a place of a payload; a place beyond the end reads 0, which no caller relies on. -/
def rd8 (p : List Byte) (i : Nat) : Nat := (p.getD i 0).toNat

def rd16 (p : List Byte) (i : Nat) : Nat := 256 * rd8 p i + rd8 p (i + 1)

def rd32 (p : List Byte) (i : Nat) : Nat := 65536 * rd16 p i + rd16 p (i + 2)

/-- An optional one-byte field: absent is 255 (R172). -/
def opt8 (o : Option Nat) : List Byte := [u8 (o.getD 255)]

/-- An optional two-byte field: absent is 65,535 (R172). -/
def opt16 (o : Option Nat) : List Byte := be16 (o.getD 65535)

/-- An optional four-byte field: absent is 4,294,967,295 (R172). -/
def opt32 (o : Option Nat) : List Byte := be32 (o.getD 4294967295)

/-- A two-byte two's complement field. -/
def int16 (n : Int) : List Byte := be16 (n % 65536).toNat

/-- Lateness: absent is −32,768 (R172). -/
def latenessBytes (o : Option Int) : List Byte := int16 (o.getD (-32768))

/-- A list field: its count byte, then the largest number of items, unused items 0 (R174). -/
def listField (width : Nat → List Byte) (largest : Nat) (items : List Nat) : List Byte :=
  u8 items.length :: (items ++ List.replicate (largest - items.length) 0).flatMap width

/-- A set of indices as bits, bit 0 of the first byte standing for index 0 (R174). -/
def bitSet (bytes : Nat) (members : List Nat) : List Byte :=
  (List.range bytes).map fun k =>
    u8 (((List.range 8).filter fun j => members.contains (8 * k + j)).foldl (fun n j => n + 2 ^ j) 0)

/-! ## Telegrams -/

/-- The sum of big-endian 16-bit words, an odd final byte completed by a zero byte (R3). -/
def wordSum : List Byte → Nat
  | [] => 0
  | [a] => 256 * a.toNat
  | a :: b :: rest => 256 * a.toNat + b.toNat + wordSum rest

/-- The check word of header and payload (R172). -/
def checkWord (bytes : List Byte) : Nat := wordSum bytes % 65536

/-- Header and payload (R172). -/
def headerAndPayload (kind : Byte) (dst src : Nat) (sequence : Byte) (payload : List Byte) : List Byte :=
  [1, kind] ++ be16 dst ++ be16 src ++ [sequence, u8 payload.length] ++ payload

/-- The frame data of a telegram: header, payload and check word, followed by zero padding when it is shorter than
46 bytes (R17, R172). -/
def telegramData (kind : Byte) (dst src : Nat) (sequence : Byte) (payload : List Byte) : List Byte :=
  let body := headerAndPayload kind dst src sequence payload
  let telegram := body ++ be16 (checkWord body)
  telegram ++ List.replicate (46 - telegram.length) 0

/-- The line's telegram frame type (R172). -/
def telegramType : BitVec 16 := 0x88B5

/-- A frame that carries a telegram of a kind, with a command's head and the bytes of the kind's fields. -/
def headFrame (h : Head) (kind : Byte) (fields : List Byte) : Frame :=
  ⟨h.addresses, telegramType, telegramData kind h.dst.toNat h.src.toNat h.sequence (fields ++ h.extra), true⟩

/-! ## Kinds (R9, R172) -/

def kindTime : Byte := 0x05
def kindPosition : Byte := 0x11
def kindStopEvent : Byte := 0x12
def kindDwellOrder : Byte := 0x15
def kindAdherence : Byte := 0x16
def kindRtuPoints : Byte := 0x21
def kindRtuAck : Byte := 0x22
def kindScanRead : Byte := 0x23
def kindScanWrite : Byte := 0x24
def kindBreakerCmd : Byte := 0x25
def kindCmdResult : Byte := 0x26
def kindPaStatus : Byte := 0x31
def kindPaPlay : Byte := 0x33
def kindPaAbort : Byte := 0x34
def kindPaRequest : Byte := 0x35
def kindPaResult : Byte := 0x36
def kindFieldAlarm : Byte := 0x41
def kindIncidentNotice : Byte := 0x45
def kindAlarmState : Byte := 0x46
def kindMgmtRequest : Byte := 0x50
def kindMgmtReply : Byte := 0x51

/-- The least payload length of a kind: the total of the fields of its layout for the kinds of R9's table, 0 for any
other kind (R4, R172). A PA_PLAY's is that of its fixed fields (log entry 42). -/
def leastPayload (kind : Byte) : Nat :=
  if kind = kindTime then 6
  else if kind = kindPosition then 6
  else if kind = kindStopEvent then 7
  else if kind = kindDwellOrder then 8
  else if kind = kindAdherence then 10
  else if kind = kindRtuPoints then 8
  else if kind = kindRtuAck then 2
  else if kind = kindScanRead then 0
  else if kind = kindScanWrite then 2
  else if kind = kindBreakerCmd then 3
  else if kind = kindCmdResult then 8
  else if kind = kindPaStatus then 2
  else if kind = kindPaPlay then 6
  else if kind = kindPaAbort then 1
  else if kind = kindPaRequest then 8
  else if kind = kindPaResult then 5
  else if kind = kindFieldAlarm then 6
  else if kind = kindIncidentNotice then 28
  else if kind = kindAlarmState then 3
  else if kind = kindMgmtRequest then 8
  else if kind = kindMgmtReply then 5
  else 0

/-! ## The receive checks -/

/-- The drop reasons, in the order of R3. -/
inductive DropReason where
  | length
  | check
  | version
  | short
  deriving DecidableEq, Repr

/-- A telegram that has passed the receive checks. -/
structure Telegram where
  kind : Byte
  dst : Nat
  src : Nat
  sequence : Byte
  payload : List Byte
  deriving DecidableEq, Repr

/-- What the receive checks make of the frame data of a telegram frame. -/
inductive Checked where
  | dropped (reason : DropReason)
  | good (telegram : Telegram)
  deriving DecidableEq, Repr

/-- The receive checks of R3, the first that fails deciding. -/
def receiveChecks (data : List Byte) : Checked :=
  let n := data.length
  let len := rd8 data 7
  if n < 10 ∨ 56 < len ∨ n < 10 + len ∨ (10 + len < n ∧ 46 < n) then .dropped .length
  else if rd16 data (8 + len) ≠ checkWord (data.take (8 + len)) then .dropped .check
  else if rd8 data 0 ≠ 1 then .dropped .version
  else if len < leastPayload (data.getD 1 0) then .dropped .short
  else .good ⟨data.getD 1 0, rd16 data 2, rd16 data 4, data.getD 6 0, (data.drop 8).take len⟩

/-- The notice copy of R13: the destination replaced and the check word computed again, every other byte as
received. -/
def readdress (data : List Byte) (dst : Nat) : List Byte :=
  let len := rd8 data 7
  let body := data.take 2 ++ be16 dst ++ (data.drop 4).take (4 + len)
  body ++ be16 (checkWord body) ++ data.drop (10 + len)

end Sys2Proof.Machine
end

