-- ==== Sys2Proof/Config.lean ====
section
/-! DEFINITION. What the spec leaves open for good: values the unit uses and the spec does not state.
Each is an opaque constant, so that no proof can rest on a choice of it. -/

namespace Sys2Proof.Config

/-- The Ethernet addresses (the twelve bytes before the frame type) of a frame that carries an injected
telegram. R17 and R172 give the frame's type and data only. FREE VALUE, log entry 11. -/
opaque injectedAddresses : BitVec 96

/-- The unit address taken for the PA controller of zone `z` when the zone's entry cannot be read or names
no controller, so that "the PA controller's address" (R148, R149, R150) is not determined.
FREE VALUE, log entry 12. -/
opaque unknownController (z : Nat) : BitVec 16

end Sys2Proof.Config
end

