-- ==== Sys2Proof/Machine/Ops.lean ====
section
/-! DEFINITION. The named operations over the state: sparse tables, counters, the service timer and line time,
checked reads of the Table Store, the records by index, and the production of a telegram. -/

namespace Sys2Proof.Machine

open Sys2Proof

/-! ## Sparse tables -/

/-- The entry listed at an index. -/
def tfind {α : Type} : Table α → Nat → Option α
  | [], _ => none
  | (k, v) :: rest, i => if k = i then some v else tfind rest i

/-- The entry at an index: the listed one, else what an unlisted index reads as. -/
def tget {α : Type} (initial : α) (t : Table α) (i : Nat) : α := (tfind t i).getD initial

/-- The table without any entry at an index. -/
def terase {α : Type} (t : Table α) (i : Nat) : Table α := t.filter fun entry => entry.1 != i

/-- An entry put before the first entry of a higher index. -/
def tinsert {α : Type} : Table α → Nat → α → Table α
  | [], i, v => [(i, v)]
  | (k, w) :: rest, i, v => if i < k then (i, v) :: (k, w) :: rest else (k, w) :: tinsert rest i v

/-- The table with an entry listed at an index, whatever its value. -/
def tput {α : Type} (t : Table α) (i : Nat) (v : α) : Table α := tinsert (terase t i) i v

/-- The table with the entry at an index changed, keeping the canonical form. -/
def tset {α : Type} [DecidableEq α] (initial : α) (t : Table α) (i : Nat) (v : α) : Table α :=
  if v = initial then terase t i else tput t i v

/-- Indices strictly rise. -/
def trising {α : Type} : Table α → Bool
  | [] => true
  | [_] => true
  | (i, _) :: (j, w) :: rest => i < j && trising ((j, w) :: rest)

/-- The canonical form of a table: indices strictly rise, and no entry equals what an unlisted index reads as. -/
def twf {α : Type} [DecidableEq α] (initial : α) (t : Table α) : Bool :=
  trising t && t.all fun entry => entry.2 != initial

/-! ## Four feeders -/

def Quad.get {α : Type} (q : Quad α) : Nat → α
  | 0 => q.f0
  | 1 => q.f1
  | 2 => q.f2
  | _ => q.f3

def Quad.set {α : Type} (q : Quad α) (f : Nat) (v : α) : Quad α :=
  match f with
  | 0 => { q with f0 := v }
  | 1 => { q with f1 := v }
  | 2 => { q with f2 := v }
  | _ => { q with f3 := v }

def Quad.toList {α : Type} (q : Quad α) : List α := [q.f0, q.f1, q.f2, q.f3]

/-! ## Counters -/

/-- The largest value of a counter, at which it stays (section 3.3, R21). -/
def counterMax : Nat := 4294967295

/-- A counter increased by one, saturating. -/
def saturate (n : Nat) : Nat := if n < counterMax then n + 1 else counterMax

/-- The place of a reason in the order of R92, from 0. -/
def Refused.code : Refused → Nat
  | .jobStopped => 0
  | .range => 1
  | .noRtu => 2
  | .noBreaker => 3
  | .localControl => 4
  | .isolated => 5
  | .occupied => 6
  | .busy => 7

/-- The place of a counter in the counter table: counters of the unit, of a substation and of a zone fall in three
classes modulo 3, so that no two counters share a place. -/
def Counter.key : Counter → Nat
  | .clockStep => 0
  | .clockReject => 3
  | .timeSkew => 6
  | .unknownTrain => 9
  | .badEvent => 12
  | .invalidSegment => 15
  | .missedPassage => 18
  | .duplicateArrival => 21
  | .unseenDeparture => 24
  | .unexpectedDeparture => 27
  | .fieldOverride => 30
  | .autoBind => 33
  | .unregulatedArrival => 36
  | .headwayDropped => 39
  | .staggerUnmet => 42
  | .dwellOrder => 45
  | .holdOrder => 48
  | .releaseOrder => 51
  | .unaddressedOrder => 54
  | .delayAnnouncement => 57
  | .unplacedAnnouncement => 60
  | .acceptedCommand => 63
  | .trip => 66
  | .closeAgainstIsolation => 69
  | .unassignedReport => 72
  | .cutPulse => 75
  | .isolationPulse => 78
  | .unconfirmedCommand => 81
  | .restoreFailed => 84
  | .foreignReply => 87
  | .stoppedReply => 90
  | .creation => 93
  | .collapse => 96
  | .reopen => 99
  | .escalation => 102
  | .displacement => 105
  | .clear => 108
  | .lostWhileStopped => 111
  | .badAlarmCode => 114
  | .unmatchedEnd => 117
  | .unsentNotice => 120
  | .unsentAlarm => 123
  | .foreignStatus => 126
  | .refusedCommand reason => 129 + 3 * reason.code
  | .readsSent u => 3 * (11 * u) + 1
  | .writesSent u => 3 * (11 * u + 1) + 1
  | .scanOverrun u => 3 * (11 * u + 2) + 1
  | .retry u => 3 * (11 * u + 3) + 1
  | .silence u => 3 * (11 * u + 4) + 1
  | .recovery u => 3 * (11 * u + 5) + 1
  | .unsolicitedReply u => 3 * (11 * u + 6) + 1
  | .imageMismatch u => 3 * (11 * u + 7) + 1
  | .earthFault u => 3 * (11 * u + 8) + 1
  | .levelChange u => 3 * (11 * u + 9) + 1
  | .overload u => 3 * (11 * u + 10) + 1
  | .admission z => 3 * (15 * z) + 2
  | .merge z => 3 * (15 * z + 1) + 2
  | .playDisplacement z => 3 * (15 * z + 2) + 2
  | .fullDrop z => 3 * (15 * z + 3) + 2
  | .badTemplate z => 3 * (15 * z + 4) + 2
  | .expiry z => 3 * (15 * z + 5) + 2
  | .purge z => 3 * (15 * z + 6) + 2
  | .playsSent z => 3 * (15 * z + 7) + 2
  | .playRetry z => 3 * (15 * z + 8) + 2
  | .completedPlay z => 3 * (15 * z + 9) + 2
  | .busy z => 3 * (15 * z + 10) + 2
  | .unavailable z => 3 * (15 * z + 11) + 2
  | .noCompletion z => 3 * (15 * z + 12) + 2
  | .preEmption z => 3 * (15 * z + 13) + 2
  | .staleStatus z => 3 * (15 * z + 14) + 2

def Line.counter (l : Line) (c : Counter) : Nat := tget 0 l.counters c.key

/-- One event counted. -/
def Line.bump (c : Counter) (l : Line) : Line :=
  { l with counters := tset 0 l.counters c.key (saturate (l.counter c)) }

/-- `n` events counted. -/
def Line.bumpBy (c : Counter) : Nat → Line → Line
  | 0, l => l
  | n + 1, l => Line.bumpBy c n (l.bump c)

/-! ## Service timer -/

/-- A number of milliseconds as a service-timer interval. -/
def ms (n : Nat) : Ticks := BitVec.ofNat 32 n

/-- A deadline is reached when the timer minus the deadline, modulo 2^32, is below 2^31 (R23). -/
def reached (deadline now : Ticks) : Bool := (now - deadline).toNat < 2147483648

/-- An optional deadline that is present and reached. -/
def due (deadline : Option Ticks) (now : Ticks) : Bool :=
  match deadline with
  | some d => reached d now
  | none => false

/-- The later of two deadlines (R93 step 5, R142 step 2). -/
def later (a b : Ticks) : Ticks := if reached a b then b else a

/-! ## Line time -/

/-- The number of deciseconds of a service day (section 3.1). -/
def dayLength : Nat := 864000

/-- The modular difference of two line times, from −432,000 to 431,999 (R24). -/
def diff (a b : Nat) : Int := ((a : Int) - (b : Int) + 432000) % 864000 - 432000

/-- Line time formed by addition or subtraction, taken on the circle of the service day. -/
def lineTimePlus (a : Nat) (b : Int) : Nat := (((a : Int) + b) % 864000).toNat

/-- The anchor line time plus the whole 100 ms intervals since the anchor (R24), before any rollover. -/
def Line.sinceAnchor (l : Line) : Nat := l.clock.anchorLine + (l.timer - l.clock.anchorTimer).toNat / 100

/-- The current line time: 0 while UNSET (R25), else derived from the anchor (R24). -/
def Line.lineTime (l : Line) : Nat := if l.clock.isSet then l.sinceAnchor % dayLength else 0

/-- The current day number: 0 while UNSET (R25). -/
def Line.dayNumber (l : Line) : Nat :=
  if l.clock.isSet then (l.clock.anchorDay + l.sinceAnchor / dayLength) % 65536 else 0

/-- The line time to stamp on an incident: absent while the clock is UNSET (R25). -/
def Line.lineTime? (l : Line) : Option Nat := if l.clock.isSet then some l.lineTime else none

/-! ## Table identifiers and the Table Store -/

/-- The table identifier of section 11.3. -/
def TableId.code : TableId → Nat
  | .lineConfig => 1
  | .unitMap => 2
  | .run0 => 3
  | .run1 => 4
  | .passage0 => 5
  | .passage1 => 6
  | .segment => 7
  | .train => 8
  | .runStatus => 9
  | .timingPoint => 10
  | .sect => 11
  | .breaker => 12
  | .substation => 13
  | .incidentClass => 14
  | .incident => 15
  | .template => 16
  | .zone => 17
  | .zoneQueue => 18

/-- The loaded tables in the order of their identifiers, which is the scrubber's order (section 10.1, R170). -/
def storeTables : List TableId :=
  [.unitMap, .run0, .run1, .passage0, .passage1, .segment, .timingPoint, .sect, .breaker, .substation,
    .incidentClass, .template, .zone]

/-- The entries of each table (sections 9.4, 10.1, 11.3). -/
def TableId.size : TableId → Nat
  | .lineConfig => 1
  | .unitMap => 4096
  | .run0 => 1024
  | .run1 => 1024
  | .passage0 => 16384
  | .passage1 => 16384
  | .segment => 512
  | .train => 64
  | .runStatus => 1024
  | .timingPoint => 96
  | .sect => 24
  | .breaker => 48
  | .substation => 12
  | .incidentClass => 64
  | .incident => 32
  | .template => 128
  | .zone => 40
  | .zoneQueue => 320

/-- The place of a loaded table's first entry in the scrubber's order; none for a table that is not in the Store. -/
def TableId.base? : TableId → Option Nat
  | .unitMap => some 0
  | .run0 => some 4096
  | .run1 => some 5120
  | .passage0 => some 6144
  | .passage1 => some 22528
  | .segment => some 38912
  | .timingPoint => some 39424
  | .sect => some 39520
  | .breaker => some 39544
  | .substation => some 39592
  | .incidentClass => some 39604
  | .template => some 39668
  | .zone => some 39796
  | .lineConfig => none
  | .train => none
  | .runStatus => none
  | .incident => none
  | .zoneQueue => none

/-- The number of entries of the Store (section 10.1). -/
def storeEntries : Nat := 39836

/-- The place of an entry in the scrubber's order, for an entry that the Store holds. -/
def storePlace (t : TableId) (i : Nat) : Option Nat :=
  match t.base? with
  | some b => if i < t.size then some (b + i) else none
  | none => none

/-- The health of the entry at a place of the Store. -/
def Line.health (l : Line) (place : Nat) : Health := tget .clean l.store.health place

/-- The poison mark of an entry. -/
def Line.poisoned (l : Line) (t : TableId) (i : Nat) : Bool :=
  match storePlace t i with
  | some p => (l.health p).poison
  | none => false

/-- An entry that exists in the Store and whose poison mark is clear, so that its contents may be used (R166). -/
def Line.usable (l : Line) (t : TableId) (i : Nat) : Bool :=
  match storePlace t i with
  | some p => !(l.health p).poison
  | none => false

/-- A counter of one table increased by `n`, saturating. -/
def addPerTable (counters : Table Nat) (t : TableId) (n : Nat) : Table Nat :=
  tset 0 counters t.code (Nat.min (tget 0 counters t.code + n) counterMax)

/-- The correction of every one-bit error of an entry (R167). -/
def correctWords (t : TableId) (i place : Nat) (l : Line) : Line :=
  let h := l.health place
  if h.singles = 0 then l
  else
    { l with
      store :=
        { l.store with
          health := tset .clean l.store.health place { h with singles := 0 }
          corrected := addPerTable l.store.corrected t h.singles
          lastCorrected := some ⟨t, i, l.timer⟩ } }

/-- The poisoning of an entry in which a read has found a two-bit error: mark, counter and last record (R168
steps 1 to 3). The report to the owner and the raise (steps 4 and 5) are left to the end of the step
(DESIGN CHOICE, log entry 8). -/
def poisonEntry (t : TableId) (i place : Nat) (l : Line) : Line :=
  { l with
    store :=
      { l.store with
        health := tset .clean l.store.health place { l.health place with poison := true }
        uncorrectable := addPerTable l.store.uncorrectable t 1
        lastUncorrectable := some ⟨t, i, l.timer⟩ }
    poisonWork := l.poisonWork ++ [⟨t, i⟩] }

/-- The effect of a read of an entry through the Table Store (R166): nothing at a poisoned entry; else every
one-bit error is corrected, and a two-bit error poisons the entry. After it, the entry's contents may be used exactly
when `Line.usable` holds. -/
def touch (t : TableId) (i : Nat) (l : Line) : Line :=
  match storePlace t i with
  | none => l
  | some p =>
    if (l.health p).poison then l
    else
      let l := correctWords t i p l
      if (l.health p).double then poisonEntry t i p l else l

/-- Reads of several entries of one table, in order. -/
def touchAll (t : TableId) (is : List Nat) (l : Line) : Line := is.foldl (fun l i => touch t i l) l

/-! ## Loaded entries, as a block finds them after reading: absent when poisoned -/

def Line.unitEntry? (l : Line) (i : Nat) : Option UnitEntry :=
  if l.usable .unitMap i then some (tget .initial l.tables.unitMap i) else none

/-- The Run Table of a bank. -/
def runId (bank : Nat) : TableId := if bank = 0 then .run0 else .run1

/-- The Passage Table of a bank. -/
def passageId (bank : Nat) : TableId := if bank = 0 then .passage0 else .passage1

def Tables.runs (t : Tables) (bank : Nat) : Table RunRecord := if bank = 0 then t.run0 else t.run1

def Tables.passages (t : Tables) (bank : Nat) : Table Passage := if bank = 0 then t.passage0 else t.passage1

def Line.run? (l : Line) (bank i : Nat) : Option RunRecord :=
  if l.usable (runId bank) i then some (tget .initial (l.tables.runs bank) i) else none

def Line.passage? (l : Line) (bank i : Nat) : Option Passage :=
  if l.usable (passageId bank) i then some (tget .initial (l.tables.passages bank) i) else none

def Line.segment? (l : Line) (i : Nat) : Option Segment :=
  if l.usable .segment i then some (tget .initial l.tables.segment i) else none

def Line.timingPoint? (l : Line) (i : Nat) : Option TimingPoint :=
  if l.usable .timingPoint i then some (tget .initial l.tables.timingPoint i) else none

def Line.section? (l : Line) (i : Nat) : Option SectionEntry :=
  if l.usable .sect i then some (tget .initial l.tables.sect i) else none

def Line.breaker? (l : Line) (i : Nat) : Option BreakerEntry :=
  if l.usable .breaker i then some (tget .initial l.tables.breaker i) else none

def Line.substation? (l : Line) (i : Nat) : Option SubstationEntry :=
  if l.usable .substation i then some (tget .initial l.tables.substation i) else none

def Line.class? (l : Line) (i : Nat) : Option ClassEntry :=
  if l.usable .incidentClass i then some (tget .initial l.tables.incidentClass i) else none

def Line.template? (l : Line) (i : Nat) : Option Template :=
  if l.usable .template i then some (tget .initial l.tables.template i) else none

def Line.zone? (l : Line) (i : Nat) : Option ZoneEntry :=
  if l.usable .zone i then some (tget .initial l.tables.zone i) else none

/-! ## Dynamic records by index -/

def Line.train (l : Line) (v : Nat) : Train := tget .inactive l.tracker.trains v

def Line.setTrain (v : Nat) (t : Train) (l : Line) : Line :=
  { l with tracker := { l.tracker with trains := tset .inactive l.tracker.trains v t } }

def Line.runStatus (l : Line) (slot : Nat) : RunStatus := tget .initial l.tracker.runStatus slot

def Line.setRunStatus (slot : Nat) (r : RunStatus) (l : Line) : Line :=
  { l with tracker := { l.tracker with runStatus := tset .initial l.tracker.runStatus slot r } }

def Line.occupancy (l : Line) (x : Nat) : Nat := tget 0 l.tracker.occupancy x

/-- One train more in a section, when a section is given (R57). -/
def Line.enterSection (sect : Option Nat) (l : Line) : Line :=
  match sect with
  | none => l
  | some x => { l with tracker := { l.tracker with occupancy := tset 0 l.tracker.occupancy x (l.occupancy x + 1) } }

/-- One train fewer in a section, when a section is given (R57). -/
def Line.leaveSection (sect : Option Nat) (l : Line) : Line :=
  match sect with
  | none => l
  | some x => { l with tracker := { l.tracker with occupancy := tset 0 l.tracker.occupancy x (l.occupancy x - 1) } }

def Line.lastDeparture (l : Line) (p : Nat) : Option LastDeparture := tget none l.regulator.lastDeparture p

def Line.setLastDeparture (p : Nat) (d : LastDeparture) (l : Line) : Line :=
  { l with regulator := { l.regulator with lastDeparture := tset none l.regulator.lastDeparture p (some d) } }

def Line.operatorHold (l : Line) (p : Nat) : Bool := tget false l.regulator.operatorHold p

def Line.setOperatorHold (p : Nat) (b : Bool) (l : Line) : Line :=
  { l with regulator := { l.regulator with operatorHold := tset false l.regulator.operatorHold p b } }

def Line.reserved (l : Line) (x : Nat) : Option Nat := tget none l.regulator.reserved x

def Line.setReserved (x : Nat) (time : Nat) (l : Line) : Line :=
  { l with regulator := { l.regulator with reserved := tset none l.regulator.reserved x (some time) } }

def Line.majorDelay (l : Line) (v : Nat) : Bool := tget false l.regulator.majorDelay v

def Line.setMajorDelay (v : Nat) (b : Bool) (l : Line) : Line :=
  { l with regulator := { l.regulator with majorDelay := tset false l.regulator.majorDelay v b } }

def Line.sectionDyn (l : Line) (x : Nat) : SectionDyn := tget .initial l.traction.sections x

def Line.setSectionDyn (x : Nat) (d : SectionDyn) (l : Line) : Line :=
  { l with traction := { l.traction with sections := tset .initial l.traction.sections x d } }

def Line.breakerDyn (l : Line) (b : Nat) : BreakerDyn := tget .initial l.traction.breakers b

def Line.setBreakerDyn (b : Nat) (d : BreakerDyn) (l : Line) : Line :=
  { l with traction := { l.traction with breakers := tset .initial l.traction.breakers b d } }

def Line.substationDyn (l : Line) (u : Nat) : SubstationDyn := tget .initial l.scanner.substations u

def Line.setSubstationDyn (u : Nat) (d : SubstationDyn) (l : Line) : Line :=
  { l with scanner := { l.scanner with substations := tset .initial l.scanner.substations u d } }

/-- The load level of a section (R115). -/
def Line.level (l : Line) (x : Nat) : Nat := tget 0 l.scanner.levels x

def Line.setLevel (x : Nat) (n : Nat) (l : Line) : Line :=
  { l with scanner := { l.scanner with levels := tset 0 l.scanner.levels x n } }

def Line.zoneDyn (l : Line) (z : Nat) : ZoneDyn := tget .initial l.announcer.zones z

def Line.setZoneDyn (z : Nat) (d : ZoneDyn) (l : Line) : Line :=
  { l with announcer := { l.announcer with zones := tset .initial l.announcer.zones z d } }

/-! ## Addresses and telegrams -/

/-- The unit address of a Unit Map index: the window base plus the index, for an index that is present and less than the
window size (R76, R101, R140). -/
def Line.unitAddress? (l : Line) (index : Option Nat) : Option Nat :=
  match index with
  | some k => if k < l.config.windowSize then some (l.config.windowBase + k) else none
  | none => none

/-- A telegram produced in this step by a placer for a port. Placement under R15 follows at the end of the step, in the order
of production (log entry 9). -/
def emit (placer : Placer) (port : Port) (kind : Byte) (dst : Nat) (payload : List Byte) (l : Line) : Line :=
  { l with outbox := l.outbox ++ [⟨placer, port, ⟨kind, dst, payload⟩⟩] }

/-- The write check of a substation (R103) asked for: it is made at the end of the step (log entry 10). -/
def askWriteCheck (u : Nat) (l : Line) : Line :=
  if l.writeChecks.contains u then l else { l with writeChecks := l.writeChecks ++ [u] }

end Sys2Proof.Machine
end

