-- ==== Sys2Proof/Machine/Announce.lean ====
section
/-! DEFINITION. Zone queues and plays: admission, selection, sending, pre-emption, purge and the sweep
(08_announcements.md, R141 to R145, R150, R151). -/

namespace Sys2Proof.Machine

open Sys2Proof

def zoneNumbers : List Nat := List.range 40

/-! ## The queue of a zone (R141) -/

/-- Two entries are equal when their templates, parameters and origins are (R141). -/
def Entry.sameAs (a b : Entry) : Bool := a.template == b.template && a.parameter == b.parameter && a.origin == b.origin

/-- An entry at the tail of its priority group; the queue is in the order EMERGENCY, SERVICE, ROUTINE. -/
def joinTail (e : Entry) (q : List Entry) : List Entry :=
  q.takeWhile (fun x => x.prio.code ≤ e.prio.code) ++ e :: q.dropWhile (fun x => x.prio.code ≤ e.prio.code)

/-- An entry at the head of its priority group. -/
def joinHead (e : Entry) (q : List Entry) : List Entry :=
  q.takeWhile (fun x => x.prio.code < e.prio.code) ++ e :: q.dropWhile (fun x => x.prio.code < e.prio.code)

def Line.setQueue (z : Nat) (q : List Entry) (l : Line) : Line := l.setZoneDyn z { l.zoneDyn z with queue := q }

/-- The entry chosen next (R144): EMERGENCY first; ROUTINE when the consecutive-service count has reached the rotation limit and
both groups wait; else SERVICE, else ROUTINE. -/
def chosen (rotation : Nat) (d : ZoneDyn) : Option Entry :=
  match d.queue.find? (fun e => e.prio == .emergency) with
  | some e => some e
  | none =>
    match d.queue.find? (fun e => e.prio == .service), d.queue.find? (fun e => e.prio == .routine) with
    | some s, some r => if rotation ≤ d.consecutive then some r else some s
    | some s, none => some s
    | none, r => r

/-! ## PA controllers -/

/-- A zone is playable: its entry is not poisoned, its PA controller is present and the index is less than the window size
(R140). -/
def Line.playable (l : Line) (z : Nat) : Bool :=
  match l.zone? z with
  | some e => (l.unitAddress? e.controller).isSome
  | none => false

/-- The PA controller's address: the window base plus the index (R140); a free value when the entry cannot be read or names no
controller (log entry 12). -/
def Line.paAddress (l : Line) (z : Nat) : Nat :=
  match l.zone? z with
  | some e =>
    match e.controller with
    | some k => l.config.windowBase + k
    | none => (Config.unknownController z).toNat
  | none => (Config.unknownController z).toNat

/-! ## Sending and starting plays -/

/-- The position and parameter fields of a PA_PLAY: both when both are present, else 255 and 0 (R145, R172). -/
def spoken (position parameter : Option Nat) : List Byte :=
  match position, parameter with
  | some k, some n => u8 k :: be16 n
  | _, _ => u8 255 :: be16 0

/-- The PA_PLAY of a zone's current play under a new tag, and the airtime deadline (R145). -/
def sendPlay (z : Nat) (l : Line) : Line :=
  let d := l.zoneDyn z
  match d.current with
  | none => l
  | some play =>
    let t := tget Template.initial l.tables.template play.entry.template
    let tag := d.tag + 1
    let l := emit .announce .f kindPaPlay (l.paAddress z)
      ([tag, u8 play.entry.prio.code, u8 t.fragments.length] ++ spoken t.position play.entry.parameter
        ++ t.fragments.flatMap be16) l
    (l.setZoneDyn z
      { d with
        tag := tag
        state := .playing
        airtimeDeadline := some (l.timer + ms (1000 * t.airtime + 2000))
        retryTime := none }).bump (.playsSent z)

/-- The consecutive-service count after a play of a priority (R144). -/
def consecutiveAfter (p : Priority) (n : Nat) : Nat :=
  match p with
  | .emergency => n
  | .service => Nat.min (n + 1) 4
  | .routine => 0

/-- The choice of R144, made again each time the head chosen is expired (R143) or its template is poisoned; at most as often as
entries are queued. -/
def selectPlay (rotation z : Nat) : Nat → Line → Line
  | 0, l => l
  | fuel + 1, l =>
    let d := l.zoneDyn z
    match chosen rotation d with
    | none => l
    | some e =>
      if reached e.expiry l.timer then
        selectPlay rotation z fuel ((l.setQueue z (d.queue.erase e)).bump (.expiry z))
      else
        let l := touch .template e.template l
        match l.template? e.template with
        | none => selectPlay rotation z fuel ((l.setQueue z (d.queue.erase e)).bump (.badTemplate z))
        | some _ =>
          sendPlay z
            (l.setZoneDyn z
              { d with
                queue := d.queue.erase e
                current := some ⟨e, false⟩
                consecutive := consecutiveAfter e.prio d.consecutive
                retries := 0 })

/-- A play started if one can be: ANNOUNCE is RUNNING, the zone is IDLE with an entry queued, and it is playable (R144). -/
def startPlay (z : Nat) (l : Line) : Line :=
  let d := l.zoneDyn z
  if l.jobs.announce && d.state == .idle && !d.queue.isEmpty then
    let l := touch .zone z l
    match l.zone? z with
    | some e => if l.playable z then selectPlay e.rotation z d.queue.length l else l
    | none => l
  else l

/-- The zone becomes IDLE: no current play and neither time running. -/
def Line.idleZone (z : Nat) (l : Line) : Line :=
  l.setZoneDyn z { l.zoneDyn z with current := none, state := .idle, airtimeDeadline := none, retryTime := none }

/-! ## Returning a play to the queue -/

/-- A play returned to the head of its group, with the space handling of R150 step 3: a full queue gives up its youngest ROUTINE
entry, or the play is dropped. -/
def returnToHead (z : Nat) (e : Entry) (l : Line) : Line :=
  let q := (l.zoneDyn z).queue
  if q.length < 8 then l.setQueue z (joinHead e q)
  else if q.any (fun x => x.prio == .routine) then
    (l.setQueue z (joinHead e q.dropLast)).bump (.playDisplacement z)
  else l.bump (.fullDrop z)

/-- A full queue and an entry that wants in (R142 steps 4 and 5): the youngest entry of the lowest priority present, which is the
last of the queue, gives way to a higher priority. `none` when it does not. -/
def displaceFor (e : Entry) (q : List Entry) : Option (List Entry) :=
  match q.getLast? with
  | some last => if e.prio.code < last.prio.code then some (joinTail e q.dropLast) else none
  | none => none

/-! ## Pre-emption (R150) -/

/-- The current play aborted for an EMERGENCY entry already admitted, and the next play started. -/
def preEmpt (z : Nat) (l : Line) : Line :=
  let d := l.zoneDyn z
  match d.current with
  | none => l
  | some play =>
    let l := touch .zone z l
    let l := (emit .announce .f kindPaAbort (l.paAddress z) [d.tag] l).bump (.preEmption z)
    let l := l.setZoneDyn z { d with airtimeDeadline := none, retryTime := none, retries := 0 }
    let l := if play.final then l else returnToHead z play.entry l
    startPlay z (l.idleZone z)

/-- The three conditions of R150. -/
def Line.preEmptible (l : Line) (z : Nat) : Bool :=
  let d := l.zoneDyn z
  l.jobs.announce && d.state != .idle && d.current.any fun play => play.entry.prio != .emergency

/-! ## Admission (R142) -/

/-- What became of an entry handed to a zone. -/
inductive Admission where
  | queued
  | merged
  | refusedFull
  | refusedTemplate
  deriving DecidableEq, Repr

/-- What follows an admission at step 3 or 4 of R142: an EMERGENCY entry may pre-empt, and an IDLE zone starts a play. -/
def afterAdmission (z : Nat) (e : Entry) (l : Line) : Line :=
  let l := l.bump (.admission z)
  if e.prio == .emergency && l.preEmptible z then preEmpt z l else startPlay z l

/-- The entry with its expiry moved to that of an equal entry handed later, whichever is later (R142 step 2). -/
def mergeInto (new : Entry) (old : Entry) : Entry := { old with expiry := later old.expiry new.expiry }

/-- An entry handed to zone `z` (R142), by the first step that applies. -/
def admission (z : Nat) (e : Entry) (l : Line) : Line × Admission :=
  let l := touch .template e.template l
  match l.template? e.template with
  | none => (l.bump (.badTemplate z), .refusedTemplate)
  | some t =>
    let d := l.zoneDyn z
    if t.fragments.isEmpty then (l.bump (.badTemplate z), .refusedTemplate)
    else if d.queue.any fun x => x.sameAs e then
      ((l.setQueue z (d.queue.map fun x => if x.sameAs e then mergeInto e x else x)).bump (.merge z), .merged)
    else if d.current.any fun play => play.entry.sameAs e then
      ((l.setZoneDyn z { d with current := d.current.map fun play => { play with entry := mergeInto e play.entry } }).bump
        (.merge z), .merged)
    else if d.queue.length < 8 then (afterAdmission z e (l.setQueue z (joinTail e d.queue)), .queued)
    else
      match displaceFor e d.queue with
      | some q => (afterAdmission z e ((l.setQueue z q).bump (.playDisplacement z)), .queued)
      | none => (l.bump (.fullDrop z), .refusedFull)

/-- An entry handed by the Incident Manager or the Regulator: repeats left and expiry are the template's (R141). An undefined or
poisoned template is refused at step 1 of R142. -/
def handEntry (z template : Nat) (parameter : Option Nat) (prio : Priority) (origin : Origin) (l : Line) : Line :=
  let l := touch .template template l
  match l.template? template with
  | some t => (admission z ⟨template, parameter, prio, origin, t.repeats, l.timer + ms (1000 * t.lifetime)⟩ l).1
  | none => l.bump (.badTemplate z)

/-! ## Purge and sweep -/

/-- The purge of serial `k` in one zone (R151). -/
def purgeZone (k z : Nat) (l : Line) : Line :=
  let d := l.zoneDyn z
  let gone := d.queue.filter fun e => e.origin == .incident k
  let l := (l.setQueue z (d.queue.filter fun e => e.origin != .incident k)).bumpBy (.purge z) gone.length
  match d.current with
  | some play =>
    if play.entry.origin == .incident k then
      if d.state == .retryWait then startPlay z ((l.idleZone z).bump (.purge z))
      else l.setZoneDyn z { l.zoneDyn z with current := some { play with final := true } }
    else l
  | none => if gone.isEmpty then l else startPlay z l

/-- Every entry of incident serial `k` removed from every zone (R151). -/
def purge (k : Nat) (l : Line) : Line := zoneNumbers.foldl (fun l z => purgeZone k z l) l

/-- The sweep of one zone (R143): every expired entry removed and counted; an IDLE zone with entries left checks whether a play can
start (R144). -/
def sweepZone (z : Nat) (l : Line) : Line :=
  let d := l.zoneDyn z
  let gone := d.queue.filter fun e => reached e.expiry l.timer
  if gone.isEmpty then l
  else
    startPlay z
      ((l.setQueue z (d.queue.filter fun e => !reached e.expiry l.timer)).bumpBy (.expiry z) gone.length)

end Sys2Proof.Machine
end

