-- ==== Sys2Proof/Machine/Holds.lean ====
section
/-! DEFINITION. Hold causes and dwell orders: how the Regulator evaluates a standing train, and the orders that an evaluation
sends (04_regulation_and_dwell_orders.md, R66 to R68 and R76). -/

namespace Sys2Proof.Machine

open Sys2Proof

/-- Every vehicle set, in order. -/
def vehicles : List Nat := List.range 64

/-- The codes of a DWELL_ORDER's kind (section 11.4). -/
def orderDwell : Nat := 0
def orderHold : Nat := 1
def orderRelease : Nat := 2

/-- The run number of a train's run as the Regulator puts it in its telegrams: 0 for an unbound train (R76), and 0 when the run
record is poisoned (DESIGN CHOICE, log entry 20). The record is read through the Table Store. -/
def Line.runNumber (l : Line) (v : Nat) : Nat :=
  match (l.train v).run with
  | some slot =>
    match l.run? l.timetable.active slot with
    | some r => r.number
    | none => 0
  | none => 0

/-- The Regulator's read of a train's run record for the run number of a telegram. A record found poisoned by it does not drop the train,
which the Tracker drops at its own next read (R39; DESIGN CHOICE, log entry 51). -/
def touchRun (v : Nat) (l : Line) : Line :=
  match (l.train v).run with
  | some slot => touch (runId l.timetable.active) slot l
  | none => l

/-- The unit address of a timing point's platform controller, when orders can be addressed to it (R76). -/
def Line.controllerAddress? (l : Line) (p : Nat) : Option Nat :=
  match l.timingPoint? p with
  | some e => l.unitAddress? e.controller
  | none => none

/-- The counter of an order kind (R82). -/
def orderCounter (kind : Nat) : Counter :=
  if kind = orderDwell then .dwellOrder else if kind = orderHold then .holdOrder else .releaseOrder

/-- A DWELL_ORDER to the platform controller of timing point `p`, or the unaddressed-order counter when it cannot be addressed
(R76). The timing point's entry has been read by the caller. -/
def sendOrder (kind v p dwell flags : Nat) (holds : HoldCauses) (l : Line) : Line :=
  let l := touchRun v l
  match l.controllerAddress? p with
  | some address =>
    (emit .timetable .f kindDwellOrder address
      ([u8 kind, u8 v] ++ be16 (l.runNumber v) ++ [u8 p, u8 dwell, u8 flags, u8 holds.code]) l).bump (orderCounter kind)
  | none => l.bump .unaddressedOrder

/-- Some incident record whose HOLD the Regulator has been told of covers timing point `p` (R66). -/
def Line.incidentHolds (l : Line) (p : Nat) : Bool :=
  l.incidents.slots.any fun slot => slot.2.holdTold && slot.2.coverage.timingPoints.contains p

/-- The hold-cause set of a train at timing point `p` from the inputs as they stand (R66). The timing point's entry has been
read; poisoned, it gives neither POWER nor OVERLOAD. -/
def Line.holdCauses (l : Line) (p : Nat) : HoldCauses :=
  match l.timingPoint? p with
  | some e =>
    let state := (l.sectionDyn e.departureSection).state
    ⟨state == .dead || state == .isolated, l.level e.departureSection == 3, l.incidentHolds p, l.operatorHold p⟩
  | none => ⟨false, false, l.incidentHolds p, l.operatorHold p⟩

/-- The RELEASE of a train at `p` and the reserved start it writes; a poisoned timing point has no section to write (R67). -/
def sendRelease (v p : Nat) (l : Line) : Line :=
  match l.timingPoint? p with
  | some e =>
    (sendOrder orderRelease v p e.releaseDwell 0 .empty l).setReserved e.departureSection
      (lineTimePlus l.lineTime (10 * e.releaseDwell))
  | none => sendOrder orderRelease v p 0 0 .empty l

/-- The orders of an evaluation that took a train's set from `old` to `new`: HOLD, RELEASE or nothing (R67); none while
the clock is UNSET (R81). -/
def ordersOf (v p : Nat) (old new : HoldCauses) (l : Line) : Line :=
  if !l.clock.isSet then l
  else if old.isEmpty && !new.isEmpty then sendOrder orderHold v p 0 0 new l
  else if !old.isEmpty && new.isEmpty then sendRelease v p l
  else l

/-- The evaluation of a train's hold causes (R67): of a train DWELLING or HELD at a timing point, while TIMETABLE is RUNNING
(R81). The new set is written in every case, and the train is HELD exactly when it is not empty. -/
def evaluate (v : Nat) (l : Line) : Line :=
  let t := l.train v
  match t.timingPoint with
  | none => l
  | some p =>
    if l.jobs.timetable && (t.state == .dwelling || t.state == .held) then
      let l := touch .timingPoint p l
      let new := l.holdCauses p
      let l := l.setTrain v { t with holds := new, state := if new.isEmpty then .dwelling else .held }
      ordersOf v p t.holds new l
    else l

/-- The evaluation of the trains standing at any of the timing points `ps` (R68), in vehicle set order (log entry 19). -/
def evaluateAt (ps : List Nat) (l : Line) : Line :=
  vehicles.foldl (fun l v =>
    match (l.train v).timingPoint with
    | some p => if ps.contains p then evaluate v l else l
    | none => l) l

/-- The evaluation of the trains at the timing points whose departure section is `x` (R68). Each standing train's timing point
is read through the Table Store; a poisoned one names no section. -/
def evaluateSection (x : Nat) (l : Line) : Line :=
  if l.jobs.timetable then
    vehicles.foldl (fun l v =>
      match (l.train v).timingPoint with
      | some p =>
        let l := touch .timingPoint p l
        match l.timingPoint? p with
        | some e => if e.departureSection = x then evaluate v l else l
        | none => l
      | none => l) l
  else l

end Sys2Proof.Machine
end

