-- ==== Sys2Proof/Machine/Sections.lean ====
section
/-! DEFINITION. Sections, breakers, output images and isolation: derivation of section states and load levels, pulses, and what
an application and a release of isolation do (05_traction_sections_and_breaker_commands.md, R85, R86, R93, R97, R98; R103 and R115 of
06_substation_scanning_and_load_levels.md). -/

namespace Sys2Proof.Machine

open Sys2Proof

def sectionNumbers : List Nat := List.range 24
def breakerNumbers : List Nat := List.range 48
def substationNumbers : List Nat := List.range 12

/-- Breaker `b` is feeder b mod 4 of substation b div 4 (R84). -/
def substationOf (b : Nat) : Nat := b / 4
def feederOf (b : Nat) : Nat := b % 4

/-! ## Feeders -/

/-- The feeder breakers of section `x`: its feeder list, or, when its entry is poisoned, the breakers whose unpoisoned section field
names it (R97, R115). -/
def Line.feeders (l : Line) (x : Nat) : List Nat :=
  match l.section? x with
  | some e => e.feeders
  | none => breakerNumbers.filter fun b => (l.breaker? b).any fun e => e.sect == some x

/-- The reads that finding the feeders of a section takes: its own entry and its breakers' entries, or every breaker's entry
when its own is poisoned. -/
def touchFeeders (x : Nat) (l : Line) : Line :=
  let l := touch .sect x l
  match l.section? x with
  | some e => touchAll .breaker e.feeders l
  | none => touchAll .breaker breakerNumbers l

/-- The reads that finding the feeders of every section takes, without the entries of the breakers that a list names: each section's
own entry, and every breaker's entry for a section whose own is poisoned (R166; log entry 48). -/
def touchLists (l : Line) : Line :=
  sectionNumbers.foldl (fun l x =>
    let l := touch .sect x l
    if l.usable .sect x then l else touchAll .breaker breakerNumbers l) l

/-! ## Output images (R103) -/

/-- The output of a breaker's feeder in its substation's image. -/
def Line.output (l : Line) (b : Nat) : Switching := (l.substationDyn (substationOf b)).image.outputs.get (feederOf b)

/-- An image replaced; a change of it is an occasion for the write check. -/
def setImage (u : Nat) (image : Image) (l : Line) : Line :=
  let d := l.substationDyn u
  if d.image = image then l else askWriteCheck u (l.setSubstationDyn u { d with image := image })

def setOutput (b : Nat) (out : Switching) (l : Line) : Line :=
  let image := (l.substationDyn (substationOf b)).image
  setImage (substationOf b) { image with outputs := image.outputs.set (feederOf b) out } l

/-- A pulse is outstanding on a breaker (R84), and it is a pulse of the given kind. -/
def Line.pulsing (l : Line) (b : Nat) (kind : Switching) : Bool :=
  (l.breakerDyn b).pulseEnd.isSome && l.output b == kind

/-- The indicator of substation `u`: ON while one of its breakers is a feeder of an ISOLATED section (R86). The lists have been read. -/
def Line.indicatorOf (l : Line) (u : Nat) : Bool :=
  sectionNumbers.any fun x => 0 < (l.sectionDyn x).isolation && (l.feeders x).any fun b => substationOf b == u

/-- The indicators set again after an isolation count went from 0 to 1 or from 1 to 0 (R86; log entry 24). -/
def setIndicators (l : Line) : Line :=
  substationNumbers.foldl (fun l u => setImage u { (l.substationDyn u).image with indicator := l.indicatorOf u } l) (touchLists l)

/-! ## Derivation -/

/-- The state of a section from its records (R85). The entries have been read. -/
def Line.derivedState (l : Line) (x : Nat) : SectionState :=
  let d := l.sectionDyn x
  if 0 < d.isolation then .isolated
  else
    match l.section? x with
    | none => .unknown
    | some e =>
      if e.feeders.isEmpty then .unknown
      else if d.restoreDeadline.isSome || e.feeders.any fun b => l.pulsing b .close then .restoring
      else if e.feeders.any fun b => l.usable .breaker b && (l.breakerDyn b).state == .closed then .energised
      else if e.feeders.any fun b => !l.usable .breaker b || (l.breakerDyn b).state == .unknown then .unknown
      else .dead

/-- A section derived again; a change of its state is reported to the Regulator (R85, R86). -/
def deriveSection (x : Nat) (l : Line) : Line :=
  let l := touchFeeders x l
  let d := l.sectionDyn x
  if l.derivedState x = d.state then l
  else evaluateSection x (l.setSectionDyn x { d with state := l.derivedState x })

/-- A substation feeds through breaker `b` (R115): its entry is not poisoned, and it is CLOSED or held as feeding. -/
def Line.feeds (l : Line) (b : Nat) : Bool :=
  l.usable .breaker b
    && ((l.breakerDyn b).state == .closed || (l.substationDyn (substationOf b)).heldFeeders.get (feederOf b))

/-- The load level of a section: the highest among the substations that feed it, or 0 (R115). -/
def Line.derivedLevel (l : Line) (x : Nat) : Nat :=
  ((l.feeders x).filter l.feeds).foldl (fun n b => Nat.max n (l.substationDyn (substationOf b)).level) 0

/-- A section's load level derived again; a change is reported to the Regulator (R115). -/
def deriveLevel (x : Nat) (l : Line) : Line :=
  let l := touchFeeders x l
  if l.derivedLevel x = l.level x then l else evaluateSection x (l.setLevel x (l.derivedLevel x))

def deriveSections (xs : List Nat) (l : Line) : Line := xs.foldl (fun l x => deriveSection x l) l
def deriveLevels (xs : List Nat) (l : Line) : Line := xs.foldl (fun l x => deriveLevel x l) l

/-- The sections that a change of breaker `b` concerns: those it feeds, and a section named beside them. The lists
have been read. -/
def Line.concerned (l : Line) (b : Nat) (named : Option Nat) : List Nat :=
  sectionNumbers.filter fun x => named == some x || (l.feeders x).contains b

/-- The sections that a change of breaker `b` concerns, derived again (R88, R89, R94). -/
def deriveConcerned (b : Nat) (named : Option Nat) (l : Line) : Line :=
  let l := touchLists l
  deriveSections (l.concerned b named) l

/-- The sections with a feeder of substation `u`. The lists have been read. -/
def Line.sectionsOf (l : Line) (u : Nat) : List Nat :=
  sectionNumbers.filter fun x => (l.feeders x).any fun b => substationOf b == u

/-! ## Pulses -/

/-- The breaker state that a command asks for already stands: CLOSED for CLOSE, OPEN or TRIPPED for OPEN (R93 step 4). -/
def alreadyThere (command : Switching) (state : BreakerState) : Bool :=
  match command with
  | .close => state == .closed
  | .opening => state == .opened || state == .tripped
  | .none => true

/-- The pulse length of a substation: 500 ms when its entry is poisoned (R93). -/
def Line.pulseLength (l : Line) (u : Nat) : Nat := ((l.substation? u).map SubstationEntry.pulseLength).getD 500

/-- The restore timeout of a section in ms: 10 s when its entry is poisoned (R93). -/
def Line.restoreTimeout (l : Line) (x : Nat) : Nat := 1000 * ((l.section? x).map SectionEntry.restoreTimeout).getD 10

/-- Steps 2 to 4 of R93: the output becomes the command, the pulse end and command section are set, and the command becomes
pending unless its result already stands. -/
def startPulse (b : Nat) (command : Switching) (x : Nat) (l : Line) : Line :=
  let l := touch .sect x (touch .substation (substationOf b) l)
  let l := setOutput b command l
  let d := l.breakerDyn b
  let stop := l.timer + ms (l.pulseLength (substationOf b))
  let waits := !alreadyThere command d.state
  l.setBreakerDyn b
    { d with
      pulseEnd := some stop
      commandSection := some x
      pending := if waits then command else .none
      expectUntil := if waits then some (stop + ms (l.restoreTimeout x)) else none }

/-- A pulse ended: the output returns to idle, pulse end and command section become absent (R94). -/
def endPulse (b : Nat) (l : Line) : Line :=
  let l := setOutput b .none l
  l.setBreakerDyn b { l.breakerDyn b with pulseEnd := none, commandSection := none }

/-- A CLOSE pulse of section `x` cut by isolation (R97 step 2). -/
def cutPulse (x b : Nat) (l : Line) : Line :=
  let d := l.breakerDyn b
  if d.commandSection = some x && l.pulsing b .close then
    let l := endPulse b l
    (l.setBreakerDyn b { l.breakerDyn b with pending := .none, expectUntil := none }).bump .cutPulse
  else l

/-- The OPEN pulse owed to one feeder of an isolated section, for a breaker that is not OPEN and has none (R97 step 4). -/
def isolationPulse (x b : Nat) (l : Line) : Line :=
  if (l.breakerDyn b).state == .opened || l.pulsing b .opening then l
  else (startPulse b .opening x l).bump .isolationPulse

/-- Step 4 of R97: an OPEN pulse for every feeder of `x` that needs one, in the order of its feeder list, or of the breakers' numbers when
its entry is poisoned (DESIGN CHOICE, log entry 19). -/
def isolationPulses (x : Nat) (l : Line) : Line :=
  let l := touchFeeders x l
  (l.feeders x).foldl (fun l b => isolationPulse x b l) l

/-! ## Isolation -/

/-- Isolation applied to a section once (R97). -/
def applyIsolation (x : Nat) (l : Line) : Line :=
  let d := l.sectionDyn x
  let l := deriveSection x (l.setSectionDyn x { d with isolation := d.isolation + 1 })
  let l := if d.isolation = 0 then setIndicators l else l
  let l := breakerNumbers.foldl (fun l b => cutPulse x b l) l
  let l := l.setSectionDyn x { l.sectionDyn x with restoreDeadline := none }
  if l.jobs.power then isolationPulses x l else l

/-- Isolation of a section released once (R98). -/
def releaseIsolation (x : Nat) (l : Line) : Line :=
  let d := l.sectionDyn x
  let l := l.setSectionDyn x { d with isolation := d.isolation - 1 }
  if d.isolation = 1 then setIndicators (deriveSection x l) else l

end Sys2Proof.Machine
end

