-- ==== Sys2Proof/Machine/Incidents.lean ====
section
/-! DEFINITION. The Incident Manager: coverage, raises, collapse, allocation, effects, clearing, condition ends, latches and the alarm
summary (07_incidents.md, R120 to R128, R132 to R136), and the station of a train (R61). -/

namespace Sys2Proof.Machine

open Sys2Proof

/-! ## The station of a train (R61) -/

/-- The passages of a run from a passage to the run's last. -/
def passagesFrom (r : RunRecord) (next : Nat) : List Nat := List.range' next (r.firstPassage + r.passages - next)

/-- The station of the first passage of a list that is not a PASS passage; poisoned passages and timing points are passed over. -/
def findStation (bank : Nat) : List Nat → Line → Line × Option Nat
  | [], l => (l, none)
  | k :: rest, l =>
    let l := touch (passageId bank) k l
    match l.passage? bank k with
    | none => findStation bank rest l
    | some p =>
      if p.pass then findStation bank rest l
      else
        let l := touch .timingPoint p.timingPoint l
        match l.timingPoint? p.timingPoint with
        | some e => (l, some e.station)
        | none => findStation bank rest l

/-- The station of the first stopping passage from a bound train's next passage on, if there is one (R61). A run record found poisoned
gives none, and drops the train after the raise that asked (R60; `dropPoisonedRun`, log entry 45). -/
def stationAhead (v : Nat) (l : Line) : Line × Option Nat :=
  match (l.train v).run with
  | none => (l, none)
  | some slot =>
    let bank := l.timetable.active
    let l := touch (runId bank) slot l
    match l.run? bank slot with
    | some r => findStation bank (passagesFrom r (l.train v).nextPassage) l
    | none => (l, none)

/-- The station of a train: of its next stopping passage, else of its last segment, else absent (R61). -/
def stationOfTrain (v : Nat) (l : Line) : Line × Option Nat :=
  match stationAhead v l with
  | (l, some n) => (l, some n)
  | (l, none) =>
    match (l.train v).lastSegment with
    | none => (l, none)
    | some i =>
      let l := touch .segment i l
      (l, (l.segment? i).bind Segment.station)

/-! ## Coverage (R122) -/

def timingPointNumbers : List Nat := List.range 96

/-- The timing points whose unpoisoned entries satisfy a condition. -/
def Line.timingPointsWhere (l : Line) (p : TimingPoint → Bool) : List Nat :=
  timingPointNumbers.filter fun i => (l.timingPoint? i).any p

/-- The stations of timing points, in zone order. -/
def Line.stationsOf (l : Line) (ps : List Nat) : List Nat :=
  zoneNumbers.filter fun z => ps.any fun i => (l.timingPoint? i).any fun e => e.station == z

/-- The departure sections of timing points, in section order. -/
def Line.departureSectionsOf (l : Line) (ps : List Nat) : List Nat :=
  sectionNumbers.filter fun x => ps.any fun i => (l.timingPoint? i).any fun e => e.departureSection == x

/-- The coverage of the timing points that depart into any of the sections `xs`, with those sections. -/
def Line.coverSections (l : Line) (xs : List Nat) : Coverage :=
  let ps := l.timingPointsWhere fun e => xs.contains e.departureSection
  ⟨xs, ps, l.stationsOf ps⟩

/-- The coverage of a location, with the reads it takes (R122). -/
def coverageOf (loc : Location) (l : Line) : Line × Coverage :=
  match loc.kind with
  | .line => (l, ⟨sectionNumbers, timingPointNumbers, zoneNumbers⟩)
  | .sect =>
    let l := touchAll .timingPoint timingPointNumbers l
    (l, l.coverSections [loc.index])
  | .substation =>
    let bs := List.range' (4 * loc.index) 4
    let l := touchAll .timingPoint timingPointNumbers (touchAll .breaker bs l)
    (l, l.coverSections
      (sectionNumbers.filter fun x => bs.any fun b => (l.breaker? b).any fun e => e.sect == some x))
  | .station =>
    let l := touchAll .timingPoint timingPointNumbers l
    let ps := l.timingPointsWhere fun e => e.station == loc.index
    (l, ⟨l.departureSectionsOf ps, ps, [loc.index]⟩)
  | .timingPoint =>
    let l := touch .timingPoint loc.index l
    (l, ⟨l.departureSectionsOf [loc.index], [loc.index], l.stationsOf [loc.index]⟩)
  | .train =>
    let l := touchAll .timingPoint timingPointNumbers l
    let xs := (l.train loc.index).sect.toList
    let ps := l.timingPointsWhere fun e => xs.contains e.departureSection
    match stationOfTrain loc.index l with
    | (l, station) => (l, ⟨xs, ps, station.toList⟩)

/-! ## Classes, serials and slots -/

/-- The class as the Incident Manager handles it: an undefined or poisoned class is MAJOR with ALARM only (R120). The entry has been
read. -/
def Line.classAs (l : Line) (c : Nat) : ClassEntry :=
  match l.class? c with
  | some e => if e.defined then e else .undefinedClass
  | none => .undefinedClass

def slotNumbers : List Nat := List.range 32

def Line.record? (l : Line) (slot : Nat) : Option IncidentRecord := tfind l.incidents.slots slot

def Line.setRecord (slot : Nat) (r : IncidentRecord) (l : Line) : Line :=
  { l with incidents := { l.incidents with slots := tput l.incidents.slots slot r } }

def Line.removeRecord (slot : Nat) (l : Line) : Line :=
  { l with incidents := { l.incidents with slots := terase l.incidents.slots slot } }

/-- A record is live when it is not CLEARED. -/
def IncidentRecord.live (r : IncidentRecord) : Bool := r.state != .cleared

/-- The live record of a collapse key, with its slot (R123). -/
def Line.liveRecord? (l : Line) (cls : Nat) (loc : Location) : Option (Nat × IncidentRecord) :=
  l.incidents.slots.find? fun slot => slot.2.live && slot.2.cls == cls && slot.2.location == loc

/-- The record that holds a serial, with its slot. -/
def Line.recordOf? (l : Line) (serial : Nat) : Option (Nat × IncidentRecord) :=
  l.incidents.slots.find? fun slot => slot.2.serial == serial

/-- The serial after a serial, wrapping from 65,535 to 1 (R121). -/
def serialAfter (n : Nat) : Nat := if n = 65535 then 1 else n + 1

/-- The first serial from `n` on that no record holds; a table of 32 records is passed in at most 32 tries (R121). -/
def freeSerial (held : List Nat) : Nat → Nat → Nat
  | 0, n => n
  | fuel + 1, n => if held.contains n then freeSerial held fuel (serialAfter n) else n

def Line.nextFreeSerial (l : Line) : Nat :=
  freeSerial (l.incidents.slots.map fun slot => slot.2.serial) 32 l.incidents.nextSerial

/-- Of the records that satisfy a condition, the slot of the one with the oldest last update, the lowest slot among equals
(R125; ages are modular, log entry 28). -/
def Line.oldestSlot? (l : Line) (p : IncidentRecord → Bool) : Option Nat :=
  ((l.incidents.slots.filter fun slot => p slot.2).foldl
    (fun best slot =>
      let age := (l.timer - slot.2.lastUpdate).toNat
      match best with
      | some (_, oldest) => if oldest < age then some (slot.1, age) else best
      | none => some (slot.1, age))
    (none : Option (Nat × Nat))).map Prod.fst

/-! ## Telegrams to the centre (R135, R136) -/

/-- The events of an INCIDENT_NOTICE (section 11.4). -/
inductive NoticeEvent where
  | raised
  | reopened
  | escalated
  | acknowledged
  | conditionEnded
  | cleared
  | displaced
  | unrecorded
  deriving DecidableEq, Repr

def NoticeEvent.code : NoticeEvent → Nat
  | .raised => 0
  | .reopened => 1
  | .escalated => 2
  | .acknowledged => 3
  | .conditionEnded => 4
  | .cleared => 5
  | .displaced => 6
  | .unrecorded => 7

def detailBytes (d : Option Detail) : List Byte :=
  opt8 (d.map fun d => d.table.code) ++ opt16 (d.map fun d => d.entry)

/-- The incident body of R174: 23 bytes of fields, and four bytes 0. -/
def incidentBody (r : IncidentRecord) : List Byte :=
  be16 r.serial
    ++ [u8 r.cls, u8 r.severity.code, u8 r.effects.code, u8 r.state.code, u8 (boolCode r.conditionEnded),
        u8 r.location.kind.code, u8 r.location.index]
    ++ be16 r.source ++ [u8 r.count] ++ detailBytes r.detail ++ opt32 r.firstTime ++ opt32 r.lastTime ++ [0, 0, 0, 0]

/-- An INCIDENT_NOTICE to the centre notice address, or the unsent-notice counter while that address is 0 (R136). -/
def sendNotice (event : NoticeEvent) (body : List Byte) (l : Line) : Line :=
  if l.config.noticeAddress = 0 then l.bump .unsentNotice
  else emit .incident .c kindIncidentNotice l.config.noticeAddress (u8 event.code :: body) l

def noticeOf (event : NoticeEvent) (r : IncidentRecord) (l : Line) : Line := sendNotice event (incidentBody r) l

/-- The number of OPEN records carrying ALARM (R135). -/
def Line.openAlarms (l : Line) : Nat :=
  (l.incidents.slots.filter fun slot => slot.2.state == .opened && slot.2.effects.alarm).length

/-- The alarm summary as the records give it: some OPEN record carries ALARM, or the overflow flag is set (R135). -/
def Line.alarmNow (l : Line) : Bool :=
  (l.incidents.slots.any fun slot => slot.2.state == .opened && slot.2.effects.alarm) || l.incidents.overflow

/-- The alarm summary evaluated at the end of an event; a change sends ALARM_STATE to the alarm address, or is counted while that
address is 0 (R135). -/
def evaluateAlarm (l : Line) : Line :=
  let now := l.alarmNow
  if now = l.incidents.asserted then l
  else
    let l := { l with incidents := { l.incidents with asserted := now } }
    if l.config.alarmAddress = 0 then l.bump .unsentAlarm
    else
      emit .incident .c kindAlarmState l.config.alarmAddress
        [u8 (boolCode now), u8 l.openAlarms, u8 (boolCode l.incidents.overflow)] l

/-! ## Latches (R133) -/

/-- The latch of a severity considered: an empty latch captures, a full one counts up to 65,535. -/
def considerLatch (severity : Severity) (captured : Captured) (l : Line) : Line :=
  let latch := l.incidents.latches.get severity.code
  let latch :=
    match latch.captured with
    | none => { latch with captured := some captured }
    | some _ => { latch with nextCount := Nat.min (latch.nextCount + 1) 65535 }
  { l with incidents := { l.incidents with latches := l.incidents.latches.set severity.code latch } }

/-! ## Release of effects (R132 step 2) -/

/-- The Regulator told that a record no longer holds its timing points, and the trains there evaluated. -/
def releaseHold (slot : Nat) (r : IncidentRecord) (l : Line) : Line :=
  match l.record? slot with
  | some now => evaluateAt r.coverage.timingPoints (l.setRecord slot { now with holdTold := false })
  | none => evaluateAt r.coverage.timingPoints l

/-- The effects of a record released: isolation in section order, then the hold, then its announcements purged, whatever its
effects (R132 step 2). -/
def releaseEffects (slot : Nat) (r : IncidentRecord) (l : Line) : Line :=
  let l := if r.effects.isolate then r.coverage.sections.foldl (fun l x => releaseIsolation x l) l else l
  let l := if r.effects.hold then releaseHold slot r l else l
  purge r.serial l

/-- The all-clear entry for each zone of the coverage (R132 step 3). -/
def handAllClear (r : IncidentRecord) (l : Line) : Line :=
  let l := touch .incidentClass r.cls l
  match (l.classAs r.cls).allClear with
  | some t => r.coverage.zones.foldl (fun l z => handEntry z t none .service .system l) l
  | none => l

/-- A record cleared, by a request, an acknowledgement or a condition end (R132). -/
def clearRecord (slot : Nat) (r : IncidentRecord) (l : Line) : Line :=
  let cleared := { r with state := .cleared, lastUpdate := l.timer }
  let l := (l.setRecord slot cleared).bump .clear
  let l := handAllClear r (releaseEffects slot r l)
  let l := noticeOf .cleared cleared l
  let l := { l with incidents := { l.incidents with overflow := false } }
  evaluateAlarm l

/-! ## Raises (R123 to R128) -/

/-- What a raise carries. -/
structure Raise where
  cls : Nat
  location : Location
  source : Nat
  time : Option Nat
  detail : Option Detail
  deriving DecidableEq, Repr

/-- What became of a raise (R130). -/
inductive RaiseOutcome where
  | created (serial : Nat)
  | collapsed (serial : Nat)
  | unrecorded
  deriving DecidableEq, Repr

/-- The record after a collapse, before reopening and escalation (R124 steps 1 to 4). -/
def collapsedRecord (raise : Raise) (now : Ticks) (r : IncidentRecord) : IncidentRecord :=
  { r with
    count := Nat.min (r.count + 1) 255
    lastTime := raise.time
    detail := raise.detail.or r.detail
    lastUpdate := now
    conditionEnded := false
    state := .opened }

/-- The severity to which a collapse escalates a record, if it does: its count after the collapse equals the class's escalation
count, it is below CRITICAL, and it has not escalated before (R124 step 5; log entry 27). -/
def escalatesTo (escalation : Nat) (r : IncidentRecord) : Option Severity :=
  if escalation ≠ 0 ∧ Nat.min (r.count + 1) 255 = escalation ∧ r.escalated = false then r.severity.next? else none

/-- A raise that collapses into a live record (R124). -/
def collapseInto (raise : Raise) (slot : Nat) (r : IncidentRecord) (l : Line) : Line :=
  let l := touch .incidentClass raise.cls l
  let reopened := r.state == .acknowledged
  let new := collapsedRecord raise l.timer r
  let l := if reopened then (l.bump .collapse).bump .reopen else l.bump .collapse
  match escalatesTo (l.classAs raise.cls).escalation r with
  | some severity =>
    let new := { new with severity := severity, escalated := true }
    let l := ((l.setRecord slot new).bump .escalation)
    noticeOf .escalated new (considerLatch severity ⟨new.serial, new.cls, new.location, new.lastTime⟩ l)
  | none =>
    let l := l.setRecord slot new
    if reopened then noticeOf .reopened new l else l

/-- The effects of a new record applied: isolation in section order, the hold, the announcements in zone order (R128). -/
def applyEffects (slot : Nat) (r : IncidentRecord) (entry : ClassEntry) (l : Line) : Line :=
  let l := if r.effects.isolate then r.coverage.sections.foldl (fun l x => applyIsolation x l) l else l
  let l :=
    if r.effects.hold then evaluateAt r.coverage.timingPoints (l.setRecord slot { r with holdTold := true }) else l
  if r.effects.announce then
    match entry.announceTemplate with
    | some t =>
      r.coverage.zones.foldl (fun l z => handEntry z t none entry.announcePriority (.incident r.serial) l) l
    | none => l
  else l

/-- A record created in a slot (R128). -/
def createRecord (raise : Raise) (entry : ClassEntry) (slot : Nat) (l : Line) : Line × RaiseOutcome :=
  let serial := l.nextFreeSerial
  let l := { l with incidents := { l.incidents with nextSerial := serialAfter serial } }
  match coverageOf raise.location l with
  | (l, coverage) =>
    let r : IncidentRecord :=
      { serial := serial, cls := raise.cls, severity := entry.severity, effects := entry.effects,
        location := raise.location, coverage := coverage, source := raise.source, detail := raise.detail,
        firstTime := raise.time, lastTime := raise.time, lastUpdate := l.timer, count := 1, state := .opened,
        conditionEnded := false, holdTold := false, escalated := false }
    let l := applyEffects slot r entry ((l.setRecord slot r).bump .creation)
    let l := considerLatch r.severity ⟨serial, r.cls, r.location, r.firstTime⟩ l
    (noticeOf .raised r l, .created serial)

/-- A record displaced to make room (R126): its effects released with no all-clear, a DISPLACED notice, and its slot freed. -/
def displaceRecord (slot : Nat) (l : Line) : Line :=
  match l.record? slot with
  | some r => ((noticeOf .displaced r (releaseEffects slot r l)).bump .displacement).removeRecord slot
  | none => l

/-- The body of an UNRECORDED notice: serial 0 and the fields that R127 names; its one time stands as first and as last time, and the
fields it has none of are absent values, coded as R172 gives (DESIGN CHOICE, log entry 15). -/
def unrecordedBody (raise : Raise) (severity : Severity) : List Byte :=
  be16 0 ++ [u8 raise.cls, u8 severity.code, 255, 255, 255, u8 raise.location.kind.code, u8 raise.location.index]
    ++ be16 raise.source ++ [255] ++ detailBytes raise.detail ++ opt32 raise.time ++ opt32 raise.time ++ [0, 0, 0, 0]

/-- A raise given no slot (R127). -/
def loseRaise (raise : Raise) (severity : Severity) (l : Line) : Line :=
  let l := { l with
    incidents := { l.incidents with overflow := true, overflowCount := saturate l.incidents.overflowCount } }
  sendNotice .unrecorded (unrecordedBody raise severity) l

/-- The slot of a new record and the step of R125 that gives it. -/
inductive Allocation where
  | free (slot : Nat)
  | evict (slot : Nat)
  | displace (slot : Nat)
  | lost
  deriving DecidableEq, Repr

/-- The first of the four steps of R125 that applies to a new record of a severity. -/
def Line.allocate (l : Line) (severity : Severity) : Allocation :=
  match slotNumbers.find? fun i => (l.record? i).isNone with
  | some slot => .free slot
  | none =>
    match l.oldestSlot? fun r => r.state == .cleared with
    | some slot => .evict slot
    | none =>
      if severity.high then
        match l.oldestSlot? fun r => r.live && !r.severity.high with
        | some slot => .displace slot
        | none => .lost
      else .lost

/-- A raise that finds no record to collapse into (R125 to R128). -/
def recordRaise (raise : Raise) (l : Line) : Line × RaiseOutcome :=
  let l := touch .incidentClass raise.cls l
  let entry := l.classAs raise.cls
  match l.allocate entry.severity with
  | .free slot => createRecord raise entry slot l
  | .evict slot => createRecord raise entry slot (l.removeRecord slot)
  | .displace slot => createRecord raise entry slot (displaceRecord slot l)
  | .lost => (loseRaise raise entry.severity l, .unrecorded)

/-- A raise taken by the Incident Manager, with its outcome (R123); the alarm summary is evaluated at its end (R135). -/
def raiseOnce (raise : Raise) (l : Line) : Line × RaiseOutcome :=
  if l.jobs.incident then
    match l.liveRecord? raise.cls raise.location with
    | some (slot, r) => (evaluateAlarm (collapseInto raise slot r l), .collapsed r.serial)
    | none =>
      match recordRaise raise l with
      | (l, outcome) => (evaluateAlarm l, outcome)
  else (l.bump .lostWhileStopped, .unrecorded)

/-! ## Condition ends (R134) -/

/-- The end of the condition of a class at a location. -/
def conditionEnd (cls : Nat) (loc : Location) (l : Line) : Line :=
  match l.liveRecord? cls loc with
  | none => l.bump .unmatchedEnd
  | some (slot, r) =>
    if r.conditionEnded then l
    else
      let l := touch .incidentClass cls l
      if r.state == .acknowledged && (l.classAs cls).autoClear then clearRecord slot r l
      else
        let r := { r with conditionEnded := true, lastUpdate := l.timer }
        evaluateAlarm (noticeOf .conditionEnded r (l.setRecord slot r))

/-! ## A train whose run record is poisoned (R39, R60) -/

/-- The state of a run whose train is unbound before the run's last passage (R46). -/
def RunState.unbound : RunState → RunState
  | .active => .cancelled
  | s => s

/-- The train's side of an unbinding. -/
def Line.clearRun (v : Nat) (l : Line) : Line :=
  l.setTrain v { l.train v with run := none, lateness := none, announcedDelay := 0 }

/-- A bound train unbound from its run (R48): both directions; its major-delay flag is left to the caller. -/
def unbindTrain (v slot : Nat) (l : Line) : Line :=
  (l.setRunStatus slot ⟨(l.runStatus slot).state.unbound, none⟩).clearRun v

/-- The end of a train's major delay, if it has one: its flag cleared and the condition end of class 10 (R80). -/
def endMajorDelay (v : Nat) (l : Line) : Line :=
  if l.majorDelay v then conditionEnd 10 ⟨.train, v⟩ (l.setMajorDelay v false) else l

/-- The raise of class 9 RUN_DROPPED for a train that is no longer bound. Its time is the current line time, absent while UNSET
(DESIGN CHOICE, log entry 44: R37 and R60 give its location and source alone). -/
def raiseRunDropped (v : Nat) (l : Line) : Line :=
  (raiseOnce ⟨9, ⟨.train, v⟩, l.config.ownAddress, l.lineTime?, none⟩ l).1

/-- A bound train dropped because its run record is poisoned (R60): RUN_DROPPED is raised, then the end of its major delay reported (R80;
log entry 18). -/
def dropTrain (v slot : Nat) (l : Line) : Line := endMajorDelay v (raiseRunDropped v (unbindTrain v slot l))

/-- The run slot of a bound train whose run record is poisoned, while TIMETABLE is RUNNING: with the job STOPPED no train is dropped
(R62). -/
def Line.poisonedRun? (l : Line) (v : Nat) : Option Nat :=
  (l.train v).run.filter fun slot => l.jobs.timetable && !l.usable (runId l.timetable.active) slot

/-- The train dropped whose station a new record has asked for (R61): the search read the train's run record and found it poisoned
(R39, R60). The drop follows the raise that made the record (DESIGN CHOICE, log entry 45). -/
def dropPoisonedRun (loc : Location) (outcome : RaiseOutcome) (l : Line) : Line :=
  match outcome, loc.kind, l.poisonedRun? loc.index with
  | .created _, .train, some slot => dropTrain loc.index slot l
  | _, _, _ => l

/-! ## Raises by the blocks -/

/-- A raise taken by the Incident Manager, with what the search for a train's station brings about. -/
def takeRaise (raise : Raise) (l : Line) : Line × RaiseOutcome :=
  match raiseOnce raise l with
  | (l, outcome) => (dropPoisonedRun raise.location outcome l, outcome)

/-- A raise by a block, without detail. -/
def raiseIncident (cls : Nat) (kind : LocationKind) (index source : Nat) (time : Option Nat) (l : Line) : Line :=
  (takeRaise ⟨cls, ⟨kind, index⟩, source, time, none⟩ l).1

end Sys2Proof.Machine
end

