-- ==== Sys2Proof/Machine/Regulation.lean ====
section
/-! DEFINITION. The Regulator: regulated arrivals, departures and passings, delay announcements and major delay
(04_regulation_and_dwell_orders.md, R69 to R81). -/

namespace Sys2Proof.Machine

open Sys2Proof

/-! ## Arithmetic (R71 to R75) -/

/-- Lateness saturated to −32,767 to 32,767 (R71, R78). -/
def saturateLateness (n : Int) : Int := if n < -32767 then -32767 else if 32767 < n then 32767 else n

/-- The projected departure P (R71). -/
def projectedDeparture (t d0 : Nat) : Nat := lineTimePlus t d0

/-- The schedule error Es (R71). -/
def scheduleError (t s d0 : Nat) : Int := diff (projectedDeparture t d0) s

/-- The lateness of a regulated arrival (R71). -/
def arrivalLateness (t s d0 : Nat) : Int := saturateLateness (diff t (lineTimePlus s (-(d0 : Int))))

/-- The headway error Eh, when the headway term is available (R72). -/
def headwayError (t s d0 horizon : Nat) (last : Option LastDeparture) : Option Int :=
  match last with
  | none => none
  | some d =>
    if 0 < diff s d.departure ∧ diff t d.actual ≤ horizon then
      some (diff (projectedDeparture t d0) d.actual - diff s d.departure)
    else none

/-- The blended error B (R73), with w taken as 16 when there is no headway term (R72). -/
def blendedError (w : Nat) (es : Int) (eh : Option Int) : Int :=
  match eh with
  | some eh => (w * es + (16 - w) * eh).tdiv 16
  | none => (16 * es).tdiv 16

/-- The correction C (R73). -/
def correction (b : Int) (g : Nat) : Int := (b * g).tdiv 32

/-- A dwell clamped to the range Dmin to Dmax (R73). -/
def clampDwell (dmin dmax : Nat) (d : Int) : Nat := if d < dmin then dmin else if dmax < d then dmax else d.toNat

/-- The target dwell Dt before the stagger (R73). -/
def targetDwell (e : TimingPoint) (d0 : Nat) (es : Int) (eh : Option Int) : Nat :=
  clampDwell e.dmin e.dmax (d0 - correction (blendedError e.weight es eh) e.gain)

/-- The dwell after the stagger, and whether the stagger is unmet (R74). -/
def stagger (t dt interval dmax : Nat) (reserved : Option Nat) : Nat × Bool :=
  match reserved with
  | none => (dt, false)
  | some q =>
    let d := diff (lineTimePlus t dt) q
    if 0 < interval ∧ d < interval then
      let longer := (dt : Int) + (interval - d)
      if (dmax : Int) < longer then (dmax, true) else (longer.toNat, false)
    else (dt, false)

/-- The stagger interval of a section at its load level; 0 when the section's record is poisoned (R74). -/
def Line.staggerInterval (l : Line) (x : Nat) : Nat :=
  match l.section? x with
  | some e => if l.level x = 1 then e.i1 else if l.level x = 2 then e.i2 else 0
  | none => 0

/-- The dwell in whole seconds, rounded half up (R75). -/
def dwellSeconds (dt : Nat) : Nat := (dt + 5) / 10

/-! ## ADHERENCE (R77) -/

/-- The codes of an ADHERENCE's order given (section 11.4). -/
def givenNone : Nat := 0
def givenDwell : Nat := 1
def givenHold : Nat := 2

/-- An ADHERENCE report to the centre notice address, or none while that address is 0 (R77). -/
def sendAdherence (v p given dwell flags : Nat) (holds : HoldCauses) (lateness : Int) (l : Line) : Line :=
  let l := touchRun v l
  if l.config.noticeAddress = 0 then l
  else
    emit .timetable .c kindAdherence l.config.noticeAddress
      ([u8 v, u8 p] ++ be16 (l.runNumber v) ++ int16 lateness ++ [u8 given, u8 dwell, u8 flags, u8 holds.code]) l

/-! ## Delay announcements (R79) -/

/-- The minutes of a delay announcement. -/
def delayMinutes (lateness : Int) : Nat := Nat.min ((lateness + 599) / 600).toNat 99

def Line.setAnnouncedDelay (v n : Nat) (l : Line) : Line := l.setTrain v { l.train v with announcedDelay := n }

/-- The delay entry handed to the zone of the train's station, or counted as unplaced. -/
def handDelay (v minutes : Nat) (l : Line) : Line :=
  match stationOfTrain v l with
  | (l, some z) => (handEntry z 1 (some minutes) .service (.regulation v) l).bump .delayAnnouncement
  | (l, none) => l.bump .unplacedAnnouncement

/-- The delay announcement considered for a lateness measured at timing point `p` (R79); not considered when the timing point's
entry is poisoned, for then it has no threshold (log entry 21). -/
def considerDelay (v p : Nat) (lateness : Int) (l : Line) : Line :=
  let l := touch .timingPoint p l
  match l.timingPoint? p with
  | none => l
  | some e =>
    if e.threshold = 0 ∨ lateness < e.threshold then l.setAnnouncedDelay v 0
    else if delayMinutes lateness = (l.train v).announcedDelay then l
    else (handDelay v (delayMinutes lateness) l).setAnnouncedDelay v (delayMinutes lateness)

/-! ## Major delay (R80) -/

/-- The major delay considered for a lateness just written. -/
def considerMajorDelay (v : Nat) (lateness : Int) (time : Option Nat) (l : Line) : Line :=
  if l.majorDelay v then
    if lateness < (l.config.majorDelay / 2 : Nat) then endMajorDelay v l else l
  else if (l.config.majorDelay : Int) ≤ lateness then
    raiseIncident 10 .train v l.config.ownAddress time (l.setMajorDelay v true)
  else l

/-- What follows a lateness that the Regulator has written (R79, R80). -/
def latenessWritten (v p : Nat) (lateness : Int) (time : Option Nat) (l : Line) : Line :=
  considerMajorDelay v lateness time (considerDelay v p lateness l)

def Line.setLateness (v : Nat) (n : Option Int) (l : Line) : Line := l.setTrain v { l.train v with lateness := n }

/-! ## Regulated arrivals (R70) -/

/-- Steps R72 to R75: the dwell ordered, with the flags of the order; the reserved start is written. -/
def orderDwellAt (v p t : Nat) (e : TimingPoint) (k : Passage) (lateness : Int) (l : Line) : Line :=
  let last := l.lastDeparture p
  let eh := headwayError t k.departure k.dwell e.horizon last
  let l := if eh.isNone && last.isSome then l.bump .headwayDropped else l
  let dt := targetDwell e k.dwell (scheduleError t k.departure k.dwell) eh
  let l := touch .sect e.departureSection l
  let chosen := stagger t dt (l.staggerInterval e.departureSection) e.dmax (l.reserved e.departureSection)
  let l := if chosen.2 then l.bump .staggerUnmet else l
  let l := l.setReserved e.departureSection (lineTimePlus t chosen.1)
  let flags := dwellFlags (eh.isSome && e.weight < 16) chosen.2
  let l := sendOrder orderDwell v p (dwellSeconds chosen.1) flags .empty l
  sendAdherence v p givenDwell (dwellSeconds chosen.1) flags .empty lateness l

/-- A regulated arrival after its hold evaluation (R70): computed when the clock is SET and neither the timing point nor the passage
read again is poisoned, else counted. -/
def regulate (v p passage : Nat) (time : Option Nat) (l : Line) : Line :=
  let l := touch (passageId l.timetable.active) passage (touch .timingPoint p l)
  match time, l.timingPoint? p, l.passage? l.timetable.active passage with
  | some t, some e, some k =>
    let lateness := arrivalLateness t k.departure k.dwell
    let l := l.setLateness v (some lateness)
    let holds := (l.train v).holds
    let l :=
      if holds.isEmpty then orderDwellAt v p t e k lateness l
      else sendAdherence v p givenHold 0 0 holds lateness l
    latenessWritten v p lateness time l
  | _, _, _ => l.bump .unregulatedArrival

/-- An arrival handed by the Train Tracker (R53): the hold evaluation in every case, then the computation when it is a regulated
arrival. `passage` is present for a matched stopping passage. -/
def arrival (v p : Nat) (passage : Option Nat) (time : Option Nat) (l : Line) : Line :=
  let l := evaluate v l
  match passage with
  | some k => regulate v p k time l
  | none => l

/-! ## Departures and passings (R78) -/

/-- A departure with a passage: the last departure recorded, when its time is present and the passage is not poisoned. -/
def departed (p number : Nat) (passage : Passage) (time : Option Nat) (l : Line) : Line :=
  match time with
  | some t => l.setLastDeparture p ⟨number, t, passage.departure⟩
  | none => l

/-- A passing at a PASS passage: the last departure and the lateness written, the ADHERENCE with order NONE, then R79 and R80. -/
def passed (v p number : Nat) (passage : Passage) (time : Option Nat) (l : Line) : Line :=
  match time with
  | some t =>
    let lateness := saturateLateness (diff t passage.departure)
    let l := (l.setLastDeparture p ⟨number, t, passage.departure⟩).setLateness v (some lateness)
    latenessWritten v p lateness time (sendAdherence v p givenNone 0 0 .empty lateness l)
  | none => l

/-! ## Operator holds (R69) -/

/-- An operator hold flag set or cleared; a change is evaluated while TIMETABLE is RUNNING. -/
def changeOperatorHold (p : Nat) (b : Bool) (l : Line) : Line :=
  if l.operatorHold p = b then l else evaluateAt [p] (l.setOperatorHold p b)

end Sys2Proof.Machine
end

