-- ==== Sys2Proof/Machine/Tracking.lean ====
section
/-! DEFINITION. The Train Tracker: event times, binding, matching, passages, stop events, positions, loss and return, and the effects of
Segment Table writes and poisonings (03_train_tracking.md, R42 to R62; R28 of 02_line_time_and_the_timetable_store.md). -/

namespace Sys2Proof.Machine

open Sys2Proof

/-! ## Event times (R28) -/

/-- The event time used for a field event: absent while UNSET, the carried time when it is within range, else the line time at arrival,
counted as a skew. -/
def eventTime (carried : Nat) (l : Line) : Line × Option Nat :=
  if !l.clock.isSet then (l, none)
  else if carried < dayLength ∧ (diff carried l.lineTime).natAbs ≤ 300 then (l, some carried)
  else (l.bump .timeSkew, some l.lineTime)

/-! ## Binding and unbinding (R46 to R48, R60) -/

/-- A train bound to a run slot whose first passage is `first` (R47). -/
def bindTrain (v slot first : Nat) (l : Line) : Line :=
  (l.setTrain v
    { l.train v with run := some slot, nextPassage := first, lateness := none, announcedDelay := 0 }).setRunStatus slot
    { l.runStatus slot with vehicle := some v }

/-- The Tracker's read of run slot `slot` of the active bank as it searches the slots (R47, R49). A record found poisoned drops the train
bound to it at once, before the search goes on (R39, R60); none is dropped while TIMETABLE is STOPPED (DESIGN CHOICE, log entry 51). -/
def searchRun (slot : Nat) (l : Line) : Line :=
  let l := touch (runId l.timetable.active) slot l
  match (l.runStatus slot).vehicle with
  | some w => if l.poisonedRun? w = some slot then dropTrain w slot l else l
  | none => l

/-- The first run slot of a list whose record of a bank is valid, not poisoned and carries a run number, with its record. The records are
read, each by `read`, until it is found; a poisoned one does not match (R47, R37). -/
def findRun (read : Nat → Line → Line) (bank number : Nat) : List Nat → Line → Line × Option (Nat × RunRecord)
  | [], l => (l, none)
  | slot :: rest, l =>
    let l := read slot l
    match l.run? bank slot with
    | some r => if r.valid && r.number == number then (l, some (slot, r)) else findRun read bank number rest l
    | none => findRun read bank number rest l

def runSlots : List Nat := List.range 1024

/-- BIND of a vehicle set to a run number (R47). A train dropped by the search stays dropped when a later check refuses the request
(DESIGN CHOICE, log entry 51). -/
def bindRequest (v number : Nat) (l : Line) : Line × Status :=
  if 64 ≤ v ∨ number = 0 then (l, .range)
  else
    match findRun searchRun l.timetable.active number runSlots l with
    | (l, none) => (l, .invalid)
    | (l, some (slot, r)) =>
      if (l.runStatus slot).state ≠ .notStarted then (l, .state)
      else if (l.runStatus slot).vehicle.isSome then (l, .state)
      else if (l.train v).run.isSome then (l, .state)
      else (bindTrain v slot r.firstPassage l, .done)

/-- UNBIND of a vehicle set (R48), with the end of its major delay (R80). -/
def unbindRequest (v : Nat) (l : Line) : Line × Status :=
  if 64 ≤ v then (l, .range)
  else
    match (l.train v).run with
    | some slot => (endMajorDelay v (unbindTrain v slot l), .done)
    | none => (l, .state)

/-! ## Auto-bind (R49) -/

/-- The candidate that a run slot is for an auto-bind at `p` at time `t`: its distance and first passage. -/
def candidate (p t slot : Nat) (l : Line) : Line × Option (Nat × Nat) :=
  let bank := l.timetable.active
  let l := searchRun slot l
  match l.run? bank slot with
  | some r =>
    if r.valid && (l.runStatus slot).state == .notStarted && (l.runStatus slot).vehicle.isNone then
      let l := touch (passageId bank) r.firstPassage l
      match l.passage? bank r.firstPassage with
      | some k =>
        if k.timingPoint = p ∧ (diff t k.departure).natAbs ≤ 1200 then
          (l, some ((diff t k.departure).natAbs, r.firstPassage))
        else (l, none)
      | none => (l, none)
    else (l, none)
  | none => (l, none)

/-- The candidate with the smallest distance, the lowest slot among equals: (slot, distance, first passage). -/
def bestCandidate (p t : Nat) : List Nat → Option (Nat × Nat × Nat) → Line → Line × Option (Nat × Nat × Nat)
  | [], best, l => (l, best)
  | slot :: rest, best, l =>
    match candidate p t slot l, best with
    | (l, some (d, first)), some (b, e, f) => bestCandidate p t rest (if d < e then some (slot, d, first) else some (b, e, f)) l
    | (l, some (d, first)), none => bestCandidate p t rest (some (slot, d, first)) l
    | (l, none), best => bestCandidate p t rest best l

/-- An auto-bind tried for an unbound train departing from `p` (R49). -/
def autoBind (v p : Nat) (time : Option Nat) (l : Line) : Line :=
  match (l.train v).run, time with
  | none, some t =>
    match bestCandidate p t runSlots none l with
    | (l, some (slot, _, first)) => (bindTrain v slot first l).bump .autoBind
    | (l, none) => l
  | _, _ => l

/-! ## Matching and doing passages (R50, R52) -/

/-- The first unpoisoned passage of a list with timing point `p`, and how many passages stand before it. -/
def findPassage (bank p : Nat) : List Nat → Nat → Line → Line × Option (Nat × Nat × Passage)
  | [], _, l => (l, none)
  | k :: rest, skipped, l =>
    let l := touch (passageId bank) k l
    match l.passage? bank k with
    | some e => if e.timingPoint = p then (l, some (k, skipped, e)) else findPassage bank p rest (skipped + 1) l
    | none => findPassage bank p rest (skipped + 1) l

/-- What a match gives (R50): the train was unbound or has been dropped, a remaining passage matches, or none does. -/
inductive Match where
  | unbound
  | found (passage : Nat) (entry : Passage)
  | offRoute
  deriving DecidableEq, Repr

/-- The match of a bound train reported at `p` (R50): skipped passages are counted and the match becomes the next passage. -/
def matchPassage (v p : Nat) (l : Line) : Line × Match :=
  match (l.train v).run with
  | none => (l, .unbound)
  | some slot =>
    let bank := l.timetable.active
    let l := touch (runId bank) slot l
    match l.run? bank slot with
    | none => (dropTrain v slot l, .unbound)
    | some r =>
      match findPassage bank p (passagesFrom r (l.train v).nextPassage) 0 l with
      | (l, some (k, skipped, e)) =>
        ((l.bumpBy .missedPassage skipped).setTrain v { l.train v with nextPassage := k }, .found k e)
      | (l, none) => (l, .offRoute)

/-- The index of a run's last passage. -/
def RunRecord.lastPassage (r : RunRecord) : Nat := r.firstPassage + r.passages - 1

/-- Passage `k` of a bound train done (R52). -/
def passageDone (v slot k : Nat) (r : RunRecord) (l : Line) : Line :=
  let status := l.runStatus slot
  if k = r.lastPassage then endMajorDelay v ((l.setRunStatus slot ⟨.complete, none⟩).clearRun v)
  else
    let l := l.setRunStatus slot
      { status with state := if status.state = .notStarted then .active else status.state }
    l.setTrain v { l.train v with nextPassage := k + 1 }

/-! ## Loss and return (R45, R58, R59) -/

/-- The state that a returning train takes from its state before loss and its hold causes (R59 step 1). -/
def stateAfterLoss (before : TrainState) (holds : HoldCauses) : TrainState :=
  match before with
  | .dwelling => if holds.isEmpty then .dwelling else .held
  | .held => if holds.isEmpty then .dwelling else .held
  | .running => .running
  | .lost => .running

/-- The return of a LOST train (R59). -/
def returnFromLoss (v : Nat) (l : Line) : Line :=
  let t := l.train v
  let l := (l.setTrain v { t with state := stateAfterLoss t.stateBeforeLoss t.holds }).enterSection t.sect
  evaluate v (conditionEnd 7 ⟨.train, v⟩ l)

/-- Steps 1 to 3 of R45 for a tracked telegram of vehicle set `v`. -/
def heard (v : Nat) (l : Line) : Line :=
  let l := l.setTrain v { l.train v with active := true, lastReport := l.timer }
  if (l.train v).state = .lost then returnFromLoss v l else l

/-- The loss deadline of a train (R58). -/
def Line.lossDeadline (l : Line) (v : Nat) : Ticks := (l.train v).lastReport + ms (1000 * l.config.lossTimeout)

/-- The loss deadline of a train runs and is reached (R58). -/
def Line.lossDue (l : Line) (v : Nat) : Bool :=
  l.jobs.timetable && (l.train v).active && (l.train v).state != .lost && reached (l.lossDeadline v) l.timer

/-- A train becomes LOST (R58). -/
def loseTrain (v : Nat) (l : Line) : Line :=
  let t := l.train v
  let l := (l.setTrain v { t with stateBeforeLoss := t.state, state := .lost }).leaveSection t.sect
  raiseIncident 7 .train v l.config.ownAddress l.lineTime? l

/-! ## Positions (R51) -/

/-- The train taken into a segment's section (R51 steps 1 and 2). -/
def takeSegment (v n : Nat) (e : Segment) (l : Line) : Line :=
  let old := (l.train v).sect
  let l := l.setTrain v { l.train v with lastSegment := some n, sect := some e.sect }
  if old = some e.sect then l else (l.leaveSection old).enterSection (some e.sect)

/-- The PASS passage done when a RUNNING bound train reports in the segment of its timing point (R51 step 3). -/
def passAt (v p : Nat) (time : Option Nat) (l : Line) : Line :=
  match (l.train v).run with
  | none => l
  | some slot =>
    let bank := l.timetable.active
    let k := (l.train v).nextPassage
    let l := touch (passageId bank) k l
    match l.passage? bank k with
    | none => l
    | some e =>
      if e.pass && e.timingPoint == p then
        let l := touch (runId bank) slot l
        match l.run? bank slot with
        | some r => passageDone v slot k r (passed v p r.number e time l)
        | none => dropTrain v slot l
      else l

/-- A POSITION of a train in segment `n` (R51). A repeat in the segment the train already stands on does nothing more (log entry 38). -/
def position (v n : Nat) (time : Option Nat) (l : Line) : Line :=
  let l := touch .segment n l
  match l.segment? n with
  | none => l.bump .invalidSegment
  | some e =>
    if (l.train v).lastSegment = some n then l
    else
      let l := takeSegment v n e l
      match e.timingPoint with
      | some p => if (l.train v).state = .running then passAt v p time l else l
      | none => l

/-! ## Stop events (R54 to R56) -/

/-- The departure of a train that the Tracker takes: causes empty, no timing point, RUNNING. -/
def Line.setRunning (v : Nat) (l : Line) : Line :=
  l.setTrain v { l.train v with holds := .empty, timingPoint := none, state := .running }

/-- A HELD train has left against its hold (R55 step 1, R56 step 1). -/
def overrideHold (v source : Nat) (time : Option Nat) (l : Line) : Line :=
  if (l.train v).state = .held then raiseIncident 15 .train v source time (l.bump .fieldOverride) else l

/-- A train leaves its timing point unseen (R55). -/
def leaveUnseen (v source : Nat) (time : Option Nat) (l : Line) : Line :=
  ((overrideHold v source time l).setRunning v).bump .unseenDeparture

/-- An ARRIVE of a RUNNING train at `p` (R54). -/
def arriveRunning (v p source : Nat) (time : Option Nat) (l : Line) : Line :=
  let l := l.setTrain v { l.train v with state := .dwelling, timingPoint := some p }
  match matchPassage v p l with
  | (l, .unbound) => arrival v p none time l
  | (l, .found k e) => arrival v p (if e.pass then none else some k) time l
  | (l, .offRoute) => arrival v p none time (raiseIncident 8 .train v source time l)

/-- A train stands at its timing point: DWELLING or HELD. -/
def Train.standing (t : Train) : Bool := t.state == .dwelling || t.state == .held

/-- An ARRIVE at `p` (R54). -/
def arrive (v p source : Nat) (time : Option Nat) (l : Line) : Line :=
  let t := l.train v
  if t.standing then
    if t.timingPoint = some p then l.bump .duplicateArrival
    else arriveRunning v p source time (leaveUnseen v source time l)
  else arriveRunning v p source time l

/-- Step 3 of R56: the passage of a bound train done and its departure recorded; the record is read before R52 unbinds the train. A
train dropped for a poisoned run is not tried for an auto-bind, whose step has passed (DESIGN CHOICE, log entry 46). -/
def departBound (v p : Nat) (time : Option Nat) (l : Line) : Line :=
  match (l.train v).run with
  | none => l
  | some slot =>
    let bank := l.timetable.active
    let l := touch (runId bank) slot l
    match l.run? bank slot with
    | none => dropTrain v slot l
    | some r =>
      let k := (l.train v).nextPassage
      let l := touch (passageId bank) k l
      match l.passage? bank k with
      | some e =>
        if e.timingPoint = p then passageDone v slot k r (departed p r.number e time l) else l
      | none => l

/-- A DEPART at `p` (R56). -/
def depart (v p source : Nat) (time : Option Nat) (l : Line) : Line :=
  let t := l.train v
  if t.standing then
    if t.timingPoint = some p then
      (departBound v p time (autoBind v p time (overrideHold v source time l))).setRunning v
    else (leaveUnseen v source time l).bump .unexpectedDeparture
  else l.bump .unexpectedDeparture

/-! ## Segment Table writes and poisonings (R42) -/

/-- A train's section changed by a write to the segment it stands on. -/
def moveTrain (n new v : Nat) (l : Line) : Line :=
  let t := l.train v
  if t.lastSegment = some n then
    let l := l.setTrain v { t with sect := some new }
    if t.active && t.state != .lost && t.sect != some new then (l.leaveSection t.sect).enterSection (some new) else l
  else l

/-- An accepted write to Segment Table entry `n` (R42). -/
def segmentWritten (n : Nat) (l : Line) : Line :=
  vehicles.foldl (fun l v => moveTrain n (tget Segment.initial l.tables.segment n).sect v l) l

/-- A train whose segment is poisoned loses its place (R42). -/
def displaceTrain (n v : Nat) (l : Line) : Line :=
  let t := l.train v
  if t.lastSegment = some n then
    let l := l.setTrain v { t with lastSegment := none, sect := none }
    if t.active && t.state != .lost then l.leaveSection t.sect else l
  else l

/-- The report of a poisoned Segment Table entry to the Tracker (R42). It is followed whatever the TIMETABLE job's state, although R62 has no
occupancy change while the job is STOPPED (DESIGN CHOICE, log entry 59). -/
def segmentPoisoned (n : Nat) (l : Line) : Line := vehicles.foldl (fun l v => displaceTrain n v l) l

/-! ## TIMETABLE started (R62, R81) -/

/-- The loss deadlines restarted: every active train that is not LOST has reported now. -/
def restartLoss (l : Line) : Line :=
  vehicles.foldl (fun l v =>
    let t := l.train v
    if t.active && t.state != .lost then l.setTrain v { t with lastReport := l.timer } else l) l

/-- What JOB_START of TIMETABLE does after the job has become RUNNING. -/
def startTimetable (l : Line) : Line := vehicles.foldl (fun l v => evaluate v l) (restartLoss l)

end Sys2Proof.Machine
end

