-- ==== Sys2Proof/Machine/Timetables.lean ====
section
/-! DEFINITION. The Timetable Store: validation, the pending activation, activation and rebinding
(02_line_time_and_the_timetable_store.md, R32 to R37). -/

namespace Sys2Proof.Machine

open Sys2Proof

/-! ## Validation (R33) -/

/-- The checks of validation, in the order of the code table of section 11.4. -/
inductive ValidationCheck where
  | poisonedRun
  | runNumber
  | passageRange
  | duplicateRun
  | poisonedPassage
  | timingPoint
  | order
  deriving DecidableEq, Repr

def ValidationCheck.code : ValidationCheck → Nat
  | .poisonedRun => 0
  | .runNumber => 1
  | .passageRange => 2
  | .duplicateRun => 3
  | .poisonedPassage => 4
  | .timingPoint => 5
  | .order => 6

/-- A failed validation: the run slot being checked, the check that failed, and the passage index, 0 for a run check (R33, R173). -/
structure Failure where
  slot : Nat
  check : ValidationCheck
  passage : Nat
  deriving DecidableEq, Repr

/-- A timing point is configured when its entry is not poisoned and has a platform controller (R33). -/
def Line.configured (l : Line) (p : Nat) : Bool := (l.timingPoint? p).any fun e => e.controller.isSome

/-- The passage checks of a run (checks 5a to 5c), with the departure of the passage before. -/
def checkPassages (bank slot : Nat) : List Nat → Option Nat → Line → Line × Option Failure
  | [], _, l => (l, none)
  | k :: rest, before, l =>
    let l := touch (passageId bank) k l
    match l.passage? bank k with
    | none => (l, some ⟨slot, .poisonedPassage, k⟩)
    | some e =>
      let l := touch .timingPoint e.timingPoint l
      if !l.configured e.timingPoint then (l, some ⟨slot, .timingPoint, k⟩)
      else if before.any fun b => diff e.departure b ≤ 0 then (l, some ⟨slot, .order, k⟩)
      else checkPassages bank slot rest (some e.departure) l

/-- The checks of the run slots of a list, with the numbers of the valid runs in lower slots (checks 1 to 5). -/
def checkRuns (bank : Nat) : List Nat → List Nat → Line → Line × Option Failure
  | [], _, l => (l, none)
  | slot :: rest, numbers, l =>
    let l := touch (runId bank) slot l
    match l.run? bank slot with
    | none => (l, some ⟨slot, .poisonedRun, 0⟩)
    | some r =>
      if !r.valid then checkRuns bank rest numbers l
      else if r.number = 0 then (l, some ⟨slot, .runNumber, 0⟩)
      else if r.passages = 0 ∨ 64 < r.passages ∨ 16384 < r.firstPassage + r.passages then (l, some ⟨slot, .passageRange, 0⟩)
      else if numbers.contains r.number then (l, some ⟨slot, .duplicateRun, 0⟩)
      else
        match checkPassages bank slot (List.range' r.firstPassage r.passages) none l with
        | (l, some f) => (l, some f)
        | (l, none) => checkRuns bank rest (r.number :: numbers) l

/-- The validation of a bank: the first failure, or none (R33). -/
def validate (bank : Nat) (l : Line) : Line × Option Failure := checkRuns bank runSlots [] l

/-! ## Rebinding (R37) -/

/-- What a bound train's run and next passage are in the old bank: its run number and expected timing point, unless one of
the two records is poisoned. -/
def expectation (old slot next : Nat) (l : Line) : Line × Option (Nat × Nat) :=
  let l := touch (passageId old) next (touch (runId old) slot l)
  match l.run? old slot, l.passage? old next with
  | some r, some k => (l, some (r.number, k.timingPoint))
  | _, _ => (l, none)

/-- The run slot and passage of the new bank to which a train is carried over. -/
def successor (new number p : Nat) (l : Line) : Line × Option (Nat × Nat) :=
  match findRun (touch (runId new)) new number runSlots l with
  | (l, none) => (l, none)
  | (l, some (slot, r)) =>
    match findPassage new p (List.range' r.firstPassage r.passages) 0 l with
    | (l, some (k, _, _)) => (l, some (slot, k))
    | (l, none) => (l, none)

/-- One bound train carried over to the new bank, or unbound and added to the trains dropped. `status` is the Run Status of the
old bank. -/
def rebindTrain (old new : Nat) (status : Table RunStatus) (v : Nat) (work : Line × List Nat) : Line × List Nat :=
  match work with
  | (l, dropped) =>
    match (l.train v).run with
    | none => (l, dropped)
    | some slot =>
      match expectation old slot (l.train v).nextPassage l with
      | (l, none) => (l.clearRun v, dropped ++ [v])
      | (l, some (number, p)) =>
        match successor new number p l with
        | (l, none) => (l.clearRun v, dropped ++ [v])
        | (l, some (slot', k)) =>
          ((l.setTrain v { l.train v with run := some slot', nextPassage := k }).setRunStatus slot'
            ⟨(tget RunStatus.initial status slot).state, some v⟩, dropped)

/-! ## Activation (R34 to R36) -/

/-- A train that rebinding has unbound: RUN_DROPPED at the current line time (DESIGN CHOICE, log entry 44), then the end of its major
delay (R37, R80; log entry 18). -/
def runDropped (v : Nat) (l : Line) : Line := endMajorDelay v (raiseRunDropped v l)

/-- A pending activation takes place (R36): the marker, the Run Status and every binding change as one, then the incidents of
the dropped trains follow. -/
def activate (a : Activation) (l : Line) : Line :=
  let old := l.timetable.active
  let status := l.tracker.runStatus
  let l := { l with timetable := ⟨a.bank, none⟩, tracker := { l.tracker with runStatus := [] } }
  match vehicles.foldl (fun work v => rebindTrain old a.bank status v work) (l, []) with
  | (l, dropped) => dropped.foldl (fun l v => runDropped v l) l

/-- The day offset of an activation (R34). -/
def dayOffset (current wanted : Nat) : Int := ((current : Int) - wanted + 32768) % 65536 - 32768

/-- A pending activation is due (R34). -/
def Line.activationDue (l : Line) (a : Activation) : Bool :=
  l.clock.isSet
    && (0 < dayOffset l.dayNumber a.day || (dayOffset l.dayNumber a.day == 0 && a.line ≤ l.lineTime))

/-- The check of the pending activation at one of the three events of R34. -/
def checkActivation (l : Line) : Line :=
  match l.timetable.activation with
  | some a => if l.activationDue a then activate a l else l
  | none => l

/-! ## TT_ACTIVATE and TT_CANCEL (R32, R35) -/

/-- The checks of R32: the status of a refusal, none when the bank is to be validated. -/
def Line.activationRefusal (l : Line) (a : Activation) : Option Status :=
  if 2 ≤ a.bank ∨ dayLength ≤ a.line then some .range
  else if l.timetable.activation.isSome then some .state
  else if a.bank = l.timetable.active then some .state
  else none

/-- TT_CANCEL (R35). -/
def cancelActivation (l : Line) : Line × Status :=
  match l.timetable.activation with
  | some _ => ({ l with timetable := { l.timetable with activation := none } }, .done)
  | none => (l, .state)

end Sys2Proof.Machine
end

