-- ==== Sys2Proof/Machine/Clock.lean ====
section
/-! DEFINITION. The Line Clock: TIME telegrams, their step, and the advance of line time with its rollover
(02_line_time_and_the_timetable_store.md, R24 to R27). -/

namespace Sys2Proof.Machine

open Sys2Proof

/-- The step that an accepted TIME makes from the current day and line time, in deciseconds; absent when it is larger than 50 because
the days are further apart (R27). -/
def clockStep (day line carriedDay carried : Nat) : Option Nat :=
  if carriedDay = day then some (diffAbs carried line)
  else if carriedDay = (day + 1) % 65536 then some (carried + dayLength - line)
  else if day = (carriedDay + 1) % 65536 then some (line + dayLength - carried)
  else none
where
  /-- The absolute difference of two line times. -/
  diffAbs (a b : Nat) : Nat := if a ≤ b then b - a else a - b

/-- A step is counted when it is larger than 50 ds (R27). -/
def stepCounted (step : Option Nat) : Bool :=
  match step with
  | some n => 50 < n
  | none => true

/-- The clock set by an accepted TIME (R26 steps 1 to 3). -/
def setClock (day line : Nat) (l : Line) : Line :=
  let l :=
    if l.clock.isSet && stepCounted (clockStep l.dayNumber l.lineTime day line) then l.bump .clockStep else l
  { l with clock := ⟨true, line, day, l.timer⟩ }

/-- A TIME telegram handed to the Line Clock (R26). -/
def takeTime (day line : Nat) (l : Line) : Line :=
  if dayLength ≤ line then l.bump .clockReject else checkActivation (setClock day line l)

/-- The service day rolled over when the sum of R24 has reached 864,000: the clock re-anchors at line time 0 and at the service-timer value
at which it was reached. -/
def rollover (l : Line) : Line :=
  if l.sinceAnchor < dayLength then l
  else
    { l with
      clock :=
        { l.clock with
          anchorLine := 0
          anchorDay := (l.clock.anchorDay + 1) % 65536
          anchorTimer := l.clock.anchorTimer + ms (100 * (dayLength - l.clock.anchorLine)) } }

/-- Line time advances at this service-timer value: the clock is SET, and a whole number of 100 ms intervals, one at least, has just been
completed since the anchor (R24). -/
def Line.advancing (l : Line) : Bool :=
  l.clock.isSet && (l.timer - l.clock.anchorTimer).toNat % 100 == 0 && l.timer != l.clock.anchorTimer

/-- LINE_TIME_ADVANCE: the rollover, then the check of the pending activation (R24, R34). -/
def advanceLineTime (l : Line) : Line := if l.advancing then checkActivation (rollover l) else l

end Sys2Proof.Machine
end

