-- ==== Sys2Proof/Machine/Plays.lean ====
section
/-! DEFINITION. What ends a play, retries, centre requests, and the ANNOUNCE job's start
(08_announcements.md, R146 to R149, R152, R154). -/

namespace Sys2Proof.Machine

open Sys2Proof

/-! ## The end of a play -/

/-- The zone becomes IDLE and starts its next play, if one can be started (R147 to R149). -/
def endPlay (z : Nat) (l : Line) : Line := startPlay z (l.idleZone z)

/-- The current play dropped and an incident raised for the zone's station, with the PA controller's address as source (R148, R149). -/
def dropPlay (cls : Nat) (counter : Counter) (z : Nat) (l : Line) : Line :=
  let l := touch .zone z l
  let l := l.setZoneDyn z { l.zoneDyn z with current := none, airtimeDeadline := none }
  endPlay z ((raiseIncident cls .station z (l.paAddress z) l.lineTime? l).bump counter)

/-- A completed play with repeats left returned to a full queue by steps 4 and 5 of R142 (R147; log entry 32). -/
def returnFull (z : Nat) (e : Entry) (l : Line) : Line :=
  match displaceFor e (l.zoneDyn z).queue with
  | some q => ((l.setQueue z q).bump (.playDisplacement z)).bump (.admission z)
  | none => l.bump (.fullDrop z)

/-- A completed play: finished, expired, or returned to the queue (R147). -/
def returnPlay (z : Nat) (play : Play) (l : Line) : Line :=
  let e := { play.entry with repeatsLeft := play.entry.repeatsLeft - 1 }
  if play.final || e.repeatsLeft == 0 then l
  else if reached e.expiry l.timer then l.bump (.expiry z)
  else if (l.zoneDyn z).queue.length < 8 then l.setQueue z (joinTail e (l.zoneDyn z).queue)
  else returnFull z e l

/-- COMPLETE (R147). -/
def playComplete (z : Nat) (play : Play) (l : Line) : Line :=
  endPlay z (returnPlay z play (l.bump (.completedPlay z)))

/-- A re-send is allowed after BUSY: UNLIMITED, or retries used below the limit (R148; log entry 33). -/
def mayRetry (limit : RetryLimit) (used : Nat) : Bool :=
  match limit.number? with
  | some n => used < n
  | none => true

/-- RETRY_WAIT with one retry more used (R148). -/
def waitRetry (z delay : Nat) (l : Line) : Line :=
  let d := l.zoneDyn z
  l.setZoneDyn z
    { d with
      state := .retryWait, airtimeDeadline := none, retries := Nat.min (d.retries + 1) 255
      retryTime := some (l.timer + ms (1000 * delay)) }

/-- BUSY (R148), with the zone's entry as read. While ANNOUNCE is STOPPED an expired play is found where it would return to the queue, and
is removed and counted instead, as R143 says of R148 (DEDUCED, log entry 52). -/
def playBusy (z : Nat) (e : ZoneEntry) (play : Play) (l : Line) : Line :=
  let l := l.bump (.busy z)
  if play.final then endPlay z l
  else if !l.jobs.announce then
    if reached play.entry.expiry l.timer then endPlay z (l.bump (.expiry z)) else l |> returnToHead z play.entry |>.idleZone z
  else if mayRetry e.retryLimit (l.zoneDyn z).retries then waitRetry z e.retryDelay l
  else dropPlay 11 (.unavailable z) z l

/-- The codes of a PA_STATUS outcome that act (section 11.4). -/
inductive PlayOutcome where
  | complete
  | busy
  | fault
  deriving DecidableEq, Repr

def PlayOutcome.ofCode? : Nat → Option PlayOutcome
  | 0 => some .complete
  | 1 => some .busy
  | 2 => some .fault
  | _ => none

/-- A PA_STATUS taken for zone `z` (R146). -/
def statusTaken (z : Nat) (e : ZoneEntry) (tag : Byte) (outcome : Nat) (l : Line) : Line :=
  let d := l.zoneDyn z
  match d.current, PlayOutcome.ofCode? outcome with
  | some play, some o =>
    if d.state = .playing ∧ d.tag = tag then
      match o with
      | .complete => playComplete z play l
      | .busy => playBusy z e play l
      | .fault => dropPlay 12 (.noCompletion z) z l
    else l.bump (.staleStatus z)
  | _, _ => l.bump (.staleStatus z)

/-- A PA_STATUS handed for zone `z` (R146). -/
def paStatus (z source : Nat) (tag : Byte) (outcome : Nat) (l : Line) : Line :=
  let l := touch .zone z l
  match l.zone? z with
  | some e => if l.unitAddress? e.controller = some source then statusTaken z e tag outcome l else l.bump .foreignStatus
  | none => l.bump .foreignStatus

/-! ## Deadlines of a zone -/

/-- AIRTIME_DEADLINE of zone `z` (R149). -/
def airtimeReached (z : Nat) (l : Line) : Line :=
  let d := l.zoneDyn z
  if d.state = .playing ∧ due d.airtimeDeadline l.timer then dropPlay 12 (.noCompletion z) z l else l

/-- A play in RETRY_WAIT whose retry time is reached (R148). -/
def retryPlay (z : Nat) (play : Play) (l : Line) : Line :=
  let l := touch .zone z l
  if reached play.entry.expiry l.timer then endPlay z (l.bump (.expiry z))
  else if !l.playable z then endPlay z l
  else if !l.jobs.announce then l |> returnToHead z play.entry |>.idleZone z
  else
    let l := touch .template play.entry.template l
    if (l.template? play.entry.template).isNone then endPlay z (l.bump (.badTemplate z))
    else (sendPlay z l).bump (.playRetry z)

/-- RETRY_TIME of zone `z` (R148). -/
def retryReached (z : Nat) (l : Line) : Line :=
  let d := l.zoneDyn z
  match d.current with
  | some play => if d.state = .retryWait ∧ due d.retryTime l.timer then retryPlay z play l else l
  | none => l

/-- SWEEP: at every whole multiple of 1,000 ms, expired entries are removed from every queue (R143). -/
def sweepAll (l : Line) : Line :=
  if l.timer.toNat % 1000 = 0 then zoneNumbers.foldl (fun l z => sweepZone z l) l else l

/-! ## Centre requests (R152) -/

/-- The fields of a PA_REQUEST. -/
structure PaRequest where
  template : Nat
  prio : Nat
  repeats : Nat
  parameter : Option Nat
  lifetime : Nat
  deriving DecidableEq, Repr

/-- A number clamped to a range. -/
def clampNat (low high n : Nat) : Nat := if n < low then low else if high < n then high else n

/-- The entry that a PA_REQUEST forms, from the template's entry where it is read for DEFAULT or a lifetime of 0. -/
def PaRequest.entry (r : PaRequest) (source : Nat) (t : Template) (now : Ticks) : Entry :=
  { template := r.template
    parameter := r.parameter
    prio := (Priority.ofCode? r.prio).getD t.defaultPriority
    origin := .centre source
    repeatsLeft := clampNat 1 4 r.repeats
    expiry := now + ms (1000 * (if r.lifetime = 0 then t.lifetime else clampNat 10 3600 r.lifetime)) }

/-- The PA_RESULT outcome codes, by the admission step that decided (R152). -/
def Admission.code : Admission → Nat
  | .queued => 0
  | .merged => 1
  | .refusedFull => 2
  | .refusedTemplate => 3

/-- The admission of a PA_REQUEST's entry: an undefined or poisoned template that has to be read goes to step 1 of R142 at once. -/
def admitRequest (z source : Nat) (r : PaRequest) (l : Line) : Line × Admission :=
  if 128 ≤ r.template then (l.bump (.badTemplate z), .refusedTemplate)
  else if (Priority.ofCode? r.prio).isNone ∨ r.lifetime = 0 then
    let l := touch .template r.template l
    match l.template? r.template with
    | some t =>
      if t.fragments.isEmpty then (l.bump (.badTemplate z), .refusedTemplate)
      else admission z (r.entry source t l.timer) l
    | none => (l.bump (.badTemplate z), .refusedTemplate)
  else admission z (r.entry source .initial l.timer) l

/-- A PA_REQUEST intercepted for zone `z`, sent to unit address `dst` (R152). -/
def paRequest (z dst source : Nat) (sequence : Byte) (r : PaRequest) (l : Line) : Line :=
  match admitRequest z source r l with
  | (l, outcome) => emit .announce .c kindPaResult source (be16 dst ++ [u8 r.template, sequence, u8 outcome.code]) l

/-! ## The ANNOUNCE job started (R154) -/

/-- The unpoisoned entry of timing point `p` names another station than `z`. -/
def Line.misplaced (l : Line) (z p : Nat) : Bool := (l.timingPoint? p).any fun t => t.station != z

/-- The first timing point of zone `z` whose unpoisoned entry names another station. -/
def Line.zoneDisagrees (l : Line) (z : Nat) : Option Nat :=
  match l.zone? z with
  | some e => e.timingPoints.find? (l.misplaced z)
  | none => none

/-- The reads of the check of one zone's timing points, which stop at the first that disagrees. -/
def touchStations (z : Nat) : List Nat → Line → Line
  | [], l => l
  | p :: rest, l =>
    let l := touch .timingPoint p l
    if l.misplaced z p then l else touchStations z rest l

/-- The reads of the zone check, which stop at the first disagreement (log entry 25). -/
def touchZones : List Nat → Line → Line
  | [], l => l
  | z :: rest, l =>
    let l := touch .zone z l
    match l.zone? z with
    | some e =>
      let l := touchStations z e.timingPoints l
      if (l.zoneDisagrees z).isSome then l else touchZones rest l
    | none => touchZones rest l

/-- The first disagreement of the zones with the Timing Point Table: the zone and the timing point. -/
def Line.zoneDisagreement (l : Line) : Option (Nat × Nat) :=
  zoneNumbers.findSome? fun z => (l.zoneDisagrees z).map fun p => (z, p)

/-- What JOB_START of ANNOUNCE does after the job has become RUNNING. -/
def startAnnounce (l : Line) : Line := zoneNumbers.foldl (fun l z => startPlay z l) l

end Sys2Proof.Machine
end

