-- ==== Sys2Proof/Machine/Path.lean ====
section
/-! DEFINITION. The Telegram Path's queues and transmitters: forwarding, placement, holding places, the transmit arbiter, link loss
(01_the_telegram_path.md, R14 to R20). -/

namespace Sys2Proof.Machine

open Sys2Proof

/-! ## Counters of a port (R21) -/

def Placer.code : Placer → Nat
  | .timetable => 0
  | .power => 1
  | .incident => 2
  | .announce => 3
  | .management => 4

/-- The place of a path counter in a port's counter table. -/
def PathCounter.key : PathCounter → Nat
  | .frameError => 0
  | .otherFrame => 1
  | .telegram => 2
  | .dropLength => 3
  | .dropCheck => 4
  | .dropVersion => 5
  | .dropShort => 6
  | .good => 7
  | .invalidAddress => 8
  | .unmappedSource => 9
  | .kindMismatch => 10
  | .unhandled => 11
  | .forwardOverflow => 12
  | .flushed => 13
  | .injected => 14
  | .forwarded => 15
  | .down => 16
  | .suppressed p => 17 + p.code

def PortState.counter (p : PortState) (c : PathCounter) : Nat := tget 0 p.counters c.key

def PortState.bump (c : PathCounter) (p : PortState) : PortState :=
  { p with counters := tset 0 p.counters c.key (saturate (p.counter c)) }

def PortState.bumpBy (c : PathCounter) : Nat → PortState → PortState
  | 0, p => p
  | n + 1, p => PortState.bumpBy c n (p.bump c)

/-! ## Holding places (R15, R16) -/

def Holding.get (h : Holding) : Placer → Option Injected
  | .timetable => h.timetable
  | .power => h.power
  | .incident => h.incident
  | .announce => h.announce
  | .management => h.management

def Holding.set (h : Holding) (p : Placer) (t : Option Injected) : Holding :=
  match p with
  | .timetable => { h with timetable := t }
  | .power => { h with power := t }
  | .incident => { h with incident := t }
  | .announce => { h with announce := t }
  | .management => { h with management := t }

/-- The placers in the order of R16. -/
def placers : List Placer := [.timetable, .power, .incident, .announce, .management]

/-- How many holding places are occupied. -/
def Holding.count (h : Holding) : Nat := (placers.filter fun p => (h.get p).isSome).length

def forwardCapacity : Nat := 32
def injectCapacity : Nat := 16

/-- A place freed in the inject queue taken by the first occupied holding place in placer order (R16). -/
def PortState.promote (p : PortState) : PortState :=
  match placers.find? fun placer => (p.holding.get placer).isSome with
  | some placer =>
    match p.holding.get placer with
    | some t =>
      if p.inject.length < injectCapacity then
        { p with inject := p.inject ++ [t], holding := p.holding.set placer none }
      else p
    | none => p
  | none => p

/-! ## The transmit arbiter (R17, R18) -/

/-- What the arbiter needs of the line configuration at a grant: the ratio R and the own address. -/
structure Arbiter where
  ratio : Nat
  own : Nat
  deriving DecidableEq, Repr

def Line.arbiter (l : Line) : Arbiter := ⟨l.config.ratio, l.config.ownAddress⟩

/-- The frame of an injected telegram, its header completed at the grant (R17). -/
def injectedFrame (own : Nat) (sequence : Byte) (t : Injected) : Frame :=
  ⟨Config.injectedAddresses, telegramType, telegramData t.kind t.dst own sequence t.payload, true⟩

/-- The head of the inject queue granted, with the consecutive-inject count after it. -/
def PortState.grantInject (own : Nat) (t : Injected) (rest : List Injected) (count : Nat) (p : PortState) : PortState :=
  { p with
    inject := rest
    transmitting := some ⟨injectedFrame own p.sequence t, true⟩
    sequence := p.sequence + 1
    consecutive := count }.promote

/-- The head of the forward queue granted; the consecutive-inject count becomes 0. -/
def PortState.grantForward (frame : Frame) (rest : List Frame) (p : PortState) : PortState :=
  { p with forward := rest, transmitting := some ⟨frame, false⟩, consecutive := 0 }

/-- The arbiter's choice at an UP port with an idle transmitter (R18). -/
def PortState.grant (a : Arbiter) (p : PortState) : PortState :=
  if p.up && p.transmitting.isNone then
    match p.inject, p.forward with
    | [], [] => p
    | [], frame :: rest => p.grantForward frame rest
    | t :: rest, [] => p.grantInject a.own t rest 0
    | t :: ts, frame :: frames =>
      if p.consecutive < a.ratio then p.grantInject a.own t ts (p.consecutive + 1) else p.grantForward frame frames
  else p

/-! ## Placement (R14, R15) -/

/-- A frame to be forwarded through a port (R14). -/
def PortState.enqueue (a : Arbiter) (frame : Frame) (p : PortState) : PortState :=
  if !p.up then p.bump .flushed
  else if forwardCapacity ≤ p.forward.length then p.bump .forwardOverflow
  else { p with forward := p.forward ++ [frame] }.grant a

/-- A telegram that a placer produces for a port (R15). -/
def PortState.produce (a : Arbiter) (placer : Placer) (t : Injected) (p : PortState) : PortState :=
  if !p.up then p.bump .flushed
  else if (p.holding.get placer).isSome then p.bump (.suppressed placer)
  else if p.inject.length < injectCapacity then { p with inject := p.inject ++ [t] }.grant a
  else { p with holding := p.holding.set placer (some t) }

/-- A transmission completed (R18); an idle transmitter has none to complete. -/
def PortState.complete (a : Arbiter) (p : PortState) : PortState :=
  match p.transmitting with
  | some t =>
    ({ p with transmitting := none }.bump (if t.injected then .injected else .forwarded)).grant a
  | none => p

/-- What a link loss discards at a port: the telegram being transmitted, both queues and the holding places (R19). -/
def PortState.queued (p : PortState) : Nat :=
  (if p.transmitting.isSome then 1 else 0) + p.forward.length + p.inject.length + p.holding.count

/-- An UP port loses its link (R19 steps 1 to 5). -/
def PortState.loseLink (p : PortState) : PortState :=
  { p with
    up := false, forward := [], inject := [], holding := .empty, transmitting := none
    consecutive := 0 } |>.bump .down |>.bumpBy .flushed p.queued

/-! ## Ports of the state -/

/-- The opposite port. -/
def opposite : Port → Port
  | .c => .f
  | .f => .c

def Path.port (p : Path) : Port → PortState
  | .c => p.portC
  | .f => p.portF

def Path.setPort (p : Path) (port : Port) (q : PortState) : Path :=
  match port with
  | .c => { p with portC := q }
  | .f => { p with portF := q }

/-- One port of the state changed. -/
def State.onPort (port : Port) (f : PortState → PortState) (s : State) : State :=
  { s with path := s.path.setPort port (f (s.path.port port)) }

def State.countAt (port : Port) (c : PathCounter) (s : State) : State := s.onPort port (PortState.bump c)

/-- A frame received on a port placed in the forward queue of its direction (R14). -/
def State.forwardFrom (port : Port) (frame : Frame) (s : State) : State :=
  s.onPort (opposite port) (PortState.enqueue s.line.arbiter frame)

/-- One telegram of the step placed (R15). -/
def State.place (o : Outgoing) (s : State) : State :=
  s.onPort o.port (PortState.produce s.line.arbiter o.placer o.telegram)

/-- Every telegram of the step placed, in the order of production (log entry 9). -/
def State.flushOutbox (s : State) : State :=
  { s.line.outbox.foldl (fun s o => s.place o) s with line := { s.line with outbox := [] } }

/-- The line's blocks changed by a function of the line. -/
def State.onLine (f : Line → Line) (s : State) : State := { s with line := f s.line }

end Sys2Proof.Machine
end

