-- ==== Sys2Proof/Machine/Records.lean ====
section
/-! DEFINITION. The record layouts of R174: each table's configured fields as they are read and as they are decoded from a write, with
the range checks of the owning chapters (check 4 of R159), and each table's dynamic fields. -/

namespace Sys2Proof.Machine

open Sys2Proof

/-! ## Field widths -/

/-- The bytes of each field of a table, configured fields first (R174). -/
def TableId.widths : TableId → List Nat
  | .lineConfig => [2, 2, 2, 2, 2, 1, 2, 2, 1]
  | .unitMap => [1, 1, 1]
  | .run0 => [1, 2, 2, 1]
  | .run1 => [1, 2, 2, 1]
  | .passage0 => [1, 4, 2, 1]
  | .passage1 => [1, 4, 2, 1]
  | .segment => [1, 1, 1]
  | .train => [1, 2, 1, 1, 2, 2, 1, 1, 1, 2, 1, 4]
  | .runStatus => [1, 1]
  | .timingPoint => [1, 2, 1, 2, 2, 1, 1, 2, 2, 1, 2, 4, 4, 1]
  | .sect => [5, 2, 2, 1, 1, 1, 4, 1]
  | .breaker => [1, 1, 1, 1, 1, 4, 4]
  | .substation => [2, 2, 2, 1, 2, 2, 2, 2, 2, 1, 1, 4, 1, 4, 1, 1, 2, 2, 4, 1, 1]
  | .incidentClass => [1, 1, 1, 1, 1, 1, 1, 1]
  | .incident => [1, 27, 4, 3, 12, 5]
  | .template => [17, 1, 1, 1, 1, 2]
  | .zone => [2, 5, 1, 1, 1, 1, 1, 4, 4, 1, 1, 1, 14, 1]
  | .zoneQueue => [1, 1, 1, 2, 1, 2, 1, 4, 1]

/-- How many of a table's fields are configured, that is, written by TABLE_WRITE; none for the tables it does not write. -/
def TableId.configured : TableId → Nat
  | .lineConfig => 9
  | .unitMap => 3
  | .run0 => 4
  | .run1 => 4
  | .passage0 => 4
  | .passage1 => 4
  | .segment => 3
  | .train => 0
  | .runStatus => 0
  | .timingPoint => 10
  | .sect => 4
  | .breaker => 1
  | .substation => 9
  | .incidentClass => 8
  | .incident => 0
  | .template => 6
  | .zone => 5
  | .zoneQueue => 0

/-- The table of an identifier (section 11.3). -/
def TableId.ofCode? : Nat → Option TableId
  | 1 => some .lineConfig
  | 2 => some .unitMap
  | 3 => some .run0
  | 4 => some .run1
  | 5 => some .passage0
  | 6 => some .passage1
  | 7 => some .segment
  | 8 => some .train
  | 9 => some .runStatus
  | 10 => some .timingPoint
  | 11 => some .sect
  | 12 => some .breaker
  | 13 => some .substation
  | 14 => some .incidentClass
  | 15 => some .incident
  | 16 => some .template
  | 17 => some .zone
  | 18 => some .zoneQueue
  | _ => none

/-! ## Field values -/

/-- An optional index field of one byte: 255 is absent, else it is below `size`. -/
def index8? (size : Nat) (f : List Byte) : Option (Option Nat) :=
  if rd8 f 0 = 255 then some none else if rd8 f 0 < size then some (some (rd8 f 0)) else none

/-- An optional index field of two bytes: 65,535 is absent, else it is below `size`. -/
def index16? (size : Nat) (f : List Byte) : Option (Option Nat) :=
  if rd16 f 0 = 65535 then some none else if rd16 f 0 < size then some (some (rd16 f 0)) else none

/-- The items of a list field of one-byte items; the bytes of unused items are ignored (log entry 37). -/
def items8 (f : List Byte) : List Nat := (List.range (rd8 f 0)).map fun k => rd8 f (1 + k)

/-- The items of a list field of two-byte items. -/
def items16 (f : List Byte) : List Nat := (List.range (rd8 f 0)).map fun k => rd16 f (1 + 2 * k)

/-- A list without repeats, each item below `size`, of at most `largest` items. -/
def distinctBelow (size largest : Nat) (xs : List Nat) : Bool :=
  xs.length ≤ largest && (xs.all fun x => x < size) && xs.Nodup

/-! ## Configured fields of each table -/

def LineConfig.fields (c : LineConfig) : List (List Byte) :=
  [be16 c.windowBase, be16 c.windowSize, be16 c.ownAddress, be16 c.noticeAddress, be16 c.alarmAddress, [u8 c.ratio],
    be16 c.lossTimeout, be16 c.majorDelay, [u8 c.scrubPeriod]]

/-- A window size: 0, or a power of two from 64 to 4,096 (R161). -/
def windowSizes : List Nat := [0, 64, 128, 256, 512, 1024, 2048, 4096]

/-- The line configuration's checks (R161). -/
def LineConfig.valid (c : LineConfig) : Bool :=
  c.windowBase ≤ 65472 && windowSizes.contains c.windowSize
    && (c.windowSize == 0 || c.windowBase % c.windowSize == 0) && c.windowBase + c.windowSize ≤ 65536
    && 1 ≤ c.ownAddress && c.ownAddress ≤ 65534 && 1 ≤ c.ratio && c.ratio ≤ 8 && 5 ≤ c.lossTimeout
    && c.lossTimeout ≤ 300 && 600 ≤ c.majorDelay && c.majorDelay ≤ 9000 && 1 ≤ c.scrubPeriod && c.scrubPeriod ≤ 60

def LineConfig.ofFields : List (List Byte) → Option LineConfig
  | [a, b, c, d, e, f, g, h, i] =>
    let r : LineConfig :=
      ⟨rd16 a 0, rd16 b 0, rd16 c 0, rd16 d 0, rd16 e 0, rd8 f 0, rd16 g 0, rd16 h 0, rd8 i 0⟩
    if r.valid then some r else none
  | _ => none

def UnitEntry.fields (e : UnitEntry) : List (List Byte) := [[u8 e.kind.code], [u8 e.object], [u8 e.privilege.code]]

/-- How many objects a Unit Map kind numbers; the kinds without objects number one, so that the object index is 0 (R160). -/
def UnitKind.objects : UnitKind → Nat
  | .trainUnit => 64
  | .platform => 96
  | .paController => 40
  | .rtu => 12
  | .unassigned => 1
  | .workstation => 1
  | .clock => 1

/-- The privilege is checked only for a WORKSTATION, and is VIEW for the other kinds (R160). -/
def UnitEntry.ofFields : List (List Byte) → Option UnitEntry
  | [a, b, c] =>
    match UnitKind.ofCode? (rd8 a 0) with
    | some kind =>
      if rd8 b 0 < kind.objects then
        if kind = .workstation then (Privilege.ofCode? (rd8 c 0)).map fun p => ⟨kind, rd8 b 0, p⟩
        else some ⟨kind, rd8 b 0, .view⟩
      else none
    | none => none
  | _ => none

def RunRecord.fields (r : RunRecord) : List (List Byte) :=
  [[u8 (boolCode r.valid)], be16 r.number, be16 r.firstPassage, [u8 r.passages]]

/-- No range check is made on a run record (R31). -/
def RunRecord.ofFields : List (List Byte) → Option RunRecord
  | [a, b, c, d] => some ⟨flagSet (rd8 a 0), rd16 b 0, rd16 c 0, rd8 d 0⟩
  | _ => none

def Passage.fields (p : Passage) : List (List Byte) :=
  [[u8 p.timingPoint], be32 p.departure, be16 p.dwell, [u8 (boolCode p.pass)]]

/-- The two range checks of R31. -/
def Passage.ofFields : List (List Byte) → Option Passage
  | [a, b, c, d] =>
    if rd32 b 0 < dayLength ∧ rd16 c 0 ≤ 2550 then some ⟨rd8 a 0, rd32 b 0, rd16 c 0, flagSet (rd8 d 0)⟩ else none
  | _ => none

def Segment.fields (s : Segment) : List (List Byte) := [[u8 s.sect], opt8 s.timingPoint, opt8 s.station]

def Segment.ofFields : List (List Byte) → Option Segment
  | [a, b, c] =>
    match index8? 96 b, index8? 40 c with
    | some p, some n => if rd8 a 0 < 24 then some ⟨rd8 a 0, p, n⟩ else none
    | _, _ => none
  | _ => none

def TimingPoint.fields (e : TimingPoint) : List (List Byte) :=
  [[u8 e.station], opt16 e.controller, [u8 e.departureSection], be16 e.dmin, be16 e.dmax, [u8 e.weight], [u8 e.gain],
    be16 e.horizon, be16 e.threshold, [u8 e.releaseDwell]]

def TimingPoint.valid (e : TimingPoint) : Bool :=
  e.station < 40 && e.departureSection < 24 && e.dmin ≤ 2550 && e.dmax ≤ 2550 && e.weight ≤ 16 && e.gain ≤ 32
    && e.horizon ≤ 36000 && e.threshold ≤ 36000 && e.dmin ≤ e.dmax

def TimingPoint.ofFields : List (List Byte) → Option TimingPoint
  | [a, b, c, d, e, f, g, h, i, j] =>
    match index16? 4096 b with
    | some controller =>
      let r : TimingPoint :=
        ⟨rd8 a 0, controller, rd8 c 0, rd16 d 0, rd16 e 0, rd8 f 0, rd8 g 0, rd16 h 0, rd16 i 0, rd8 j 0⟩
      if r.valid then some r else none
    | none => none
  | _ => none

def byteItem (n : Nat) : List Byte := [u8 n]

def SectionEntry.fields (e : SectionEntry) : List (List Byte) :=
  [listField byteItem 4 e.feeders, be16 e.i1, be16 e.i2, [u8 e.restoreTimeout]]

def SectionEntry.ofFields : List (List Byte) → Option SectionEntry
  | [a, b, c, d] =>
    let r : SectionEntry := ⟨items8 a, rd16 b 0, rd16 c 0, rd8 d 0⟩
    if distinctBelow 48 4 r.feeders && r.i1 ≤ 600 && r.i2 ≤ 600 && 1 ≤ r.restoreTimeout && r.restoreTimeout ≤ 30 then some r
    else none
  | _ => none

def BreakerEntry.fields (e : BreakerEntry) : List (List Byte) := [opt8 e.sect]

def BreakerEntry.ofFields : List (List Byte) → Option BreakerEntry
  | [a] => (index8? 24 a).map .mk
  | _ => none

def SubstationEntry.fields (e : SubstationEntry) : List (List Byte) :=
  [opt16 e.rtu, be16 e.scanPeriod, be16 e.replyTimeout, [u8 e.retryLimit], be16 e.pulseLength, be16 e.l1, be16 e.l2,
    be16 e.l3, be16 e.hysteresis]

def SubstationEntry.valid (e : SubstationEntry) : Bool :=
  100 ≤ e.scanPeriod && e.scanPeriod ≤ 5000 && 10 ≤ e.replyTimeout && e.replyTimeout ≤ 1000 && e.retryLimit ≤ 3
    && 100 ≤ e.pulseLength && e.pulseLength ≤ 2000 && e.l1 < e.l2 && e.l2 < e.l3 && e.l3 ≤ 16000 && e.hysteresis ≤ 2000
    && e.hysteresis < e.l1

def SubstationEntry.ofFields : List (List Byte) → Option SubstationEntry
  | [a, b, c, d, e, f, g, h, i] =>
    match index16? 4096 a with
    | some rtu =>
      let r : SubstationEntry :=
        ⟨rtu, rd16 b 0, rd16 c 0, rd8 d 0, rd16 e 0, rd16 f 0, rd16 g 0, rd16 h 0, rd16 i 0⟩
      if r.valid then some r else none
    | none => none
  | _ => none

def ClassEntry.fields (e : ClassEntry) : List (List Byte) :=
  [[u8 (boolCode e.defined)], [u8 e.severity.code], [u8 e.effects.code], opt8 e.announceTemplate, [u8 e.announcePriority.code],
    opt8 e.allClear, [u8 (boolCode e.autoClear)], [u8 e.escalation]]

/-- The combined checks of an Incident Class Table entry of class `i` (R119). -/
def ClassEntry.valid (i : Nat) (e : ClassEntry) : Bool :=
  i != 0 && e.escalation != 1 && (16 ≤ i || e.defined) && (e.severity.high || !(e.effects.isolate || e.effects.hold))
    && (!e.effects.announce || e.announceTemplate.isSome)

def ClassEntry.ofFields (i : Nat) : List (List Byte) → Option ClassEntry
  | [a, b, c, d, e, f, g, h] =>
    match boolOf? (rd8 a 0), Severity.ofCode? (rd8 b 0), Effects.ofCode? (rd8 c 0), index8? 128 d, Priority.ofCode? (rd8 e 0),
        index8? 128 f, boolOf? (rd8 g 0) with
    | some defined, some severity, some effects, some announce, some prio, some allClear, some auto =>
      let r : ClassEntry := ⟨defined, severity, effects, announce, prio, allClear, auto, rd8 h 0⟩
      if r.valid i then some r else none
    | _, _, _, _, _, _, _ => none
  | _ => none

def Template.fields (t : Template) : List (List Byte) :=
  [listField be16 8 t.fragments, opt8 t.position, [u8 t.defaultPriority.code], [u8 t.airtime], [u8 t.repeats], be16 t.lifetime]

/-- The checks of a Template Table entry (R139); an empty fragment list covers the template never written. -/
def Template.valid (t : Template) : Bool :=
  1 ≤ t.fragments.length && t.fragments.length ≤ 8 && (t.fragments.all fun n => n < 4096)
    && (t.position.all fun k => k ≤ t.fragments.length) && 1 ≤ t.airtime && t.airtime ≤ 60 && 1 ≤ t.repeats && t.repeats ≤ 4
    && 10 ≤ t.lifetime && t.lifetime ≤ 3600

def Template.ofFields : List (List Byte) → Option Template
  | [a, b, c, d, e, f] =>
    match index8? 9 b, Priority.ofCode? (rd8 c 0) with
    | some position, some prio =>
      let r : Template := ⟨items16 a, position, prio, rd8 d 0, rd8 e 0, rd16 f 0⟩
      if r.valid then some r else none
    | _, _ => none
  | _ => none

def ZoneEntry.fields (e : ZoneEntry) : List (List Byte) :=
  [opt16 e.controller, listField byteItem 4 e.timingPoints, [u8 e.retryLimit.code], [u8 e.retryDelay], [u8 e.rotation]]

def ZoneEntry.ofFields : List (List Byte) → Option ZoneEntry
  | [a, b, c, d, e] =>
    match index16? 4096 a, RetryLimit.ofCode? (rd8 c 0) with
    | some controller, some limit =>
      let r : ZoneEntry := ⟨controller, items8 b, limit, rd8 d 0, rd8 e 0⟩
      if distinctBelow 96 4 r.timingPoints && 1 ≤ r.retryDelay && r.retryDelay ≤ 30 && 1 ≤ r.rotation && r.rotation ≤ 4 then
        some r
      else none
    | _, _ => none
  | _ => none

/-! ## Dynamic fields of each table -/

def ticks (t : Option Ticks) : List Byte := opt32 (t.map BitVec.toNat)

def Train.fields (t : Train) : List (List Byte) :=
  [[u8 (boolCode t.active)], opt16 t.run, [u8 t.state.code], [u8 t.stateBeforeLoss.code], be16 t.nextPassage, opt16 t.lastSegment,
    opt8 t.sect, opt8 t.timingPoint, [u8 t.holds.code], latenessBytes t.lateness, [u8 t.announcedDelay], be32 t.lastReport.toNat]

def RunStatus.fields (r : RunStatus) : List (List Byte) := [[u8 r.state.code], opt8 r.vehicle]

def departureFields (d : Option LastDeparture) : List (List Byte) :=
  [opt16 (d.map LastDeparture.number), opt32 (d.map LastDeparture.actual), opt32 (d.map LastDeparture.departure)]

def SectionDyn.fields (d : SectionDyn) : List (List Byte) :=
  [[u8 d.state.code], [u8 d.isolation], ticks d.restoreDeadline, [u8 (boolCode d.restoreFailed)]]

def BreakerDyn.fields (d : BreakerDyn) : List (List Byte) :=
  [[u8 d.state.code], [u8 (boolCode d.localControl)], [u8 d.pending.code], opt8 d.commandSection, ticks d.pulseEnd,
    ticks d.expectUntil]

/-- One flag for each feeder, feeder f in bit f (DESIGN CHOICE, log entry 55). -/
def feederBits (q : Quad Bool) : Nat := boolCode q.f0 + 2 * boolCode q.f1 + 4 * boolCode q.f2 + 8 * boolCode q.f3

/-- The dynamic fields of a Substation Table entry (R174). The previous points are one byte for each feeder, feeder 0 first, with the
bits of an RTU_POINTS indication; the earth-fault flags and the held feeders are one bit for each feeder (DESIGN CHOICE, log entry 55). -/
def SubstationDyn.fields (d : SubstationDyn) : List (List Byte) :=
  [[u8 d.scan.code], [u8 d.outstanding.code], ticks d.replyDeadline, [u8 d.retries], ticks d.nextScan, [u8 d.level], [u8 d.lowCount],
    be16 d.image.bits.toNat, opt16 (d.acknowledged.map BitVec.toNat),
    match d.previous with
    | some q => q.toList.map fun i => u8 i.code
    | none => opt32 none,
    [u8 (feederBits ⟨d.earthFault.f0.isSome, d.earthFault.f1.isSome, d.earthFault.f2.isSome, d.earthFault.f3.isSome⟩)],
    [u8 (feederBits d.heldFeeders)]]

def Origin.code : Origin → Nat
  | .incident _ => 0
  | .regulation _ => 1
  | .centre _ => 2
  | .system => 3

def Origin.value : Origin → Nat
  | .incident k => k
  | .regulation v => v
  | .centre a => a
  | .system => 0

/-- A queue entry's fields, the last one telling that it is present (R174). An absent parameter is coded as an absent value of two bytes
(R172). -/
def Entry.fields (e : Entry) : List (List Byte) :=
  [[u8 e.template], [u8 e.prio.code], [u8 e.origin.code], be16 e.origin.value, [u8 (boolCode e.parameter.isSome)],
    opt16 e.parameter, [u8 e.repeatsLeft], be32 e.expiry.toNat, [1]]

/-- A place without an entry: present 0, every other byte 0 (log entry 15). -/
def entryBytes (e : Option Entry) : List Byte := (e.map fun e => e.fields.flatten).getD (List.replicate 14 0)

def ZoneDyn.fields (d : ZoneDyn) : List (List Byte) :=
  [[u8 d.state.code], [d.tag], ticks d.airtimeDeadline, ticks d.retryTime, [u8 d.retries], [u8 d.consecutive], [u8 d.queue.length],
    entryBytes (d.current.map Play.entry), [u8 (boolCode (d.current.any Play.final))]]

/-- An Incident Table slot as a read returns it: slot in use and the incident body; a free slot is all 0 (R174). -/
def slotBytes (r : Option IncidentRecord) : List Byte := (r.map fun r => 1 :: incidentBody r).getD (List.replicate 28 0)

/-! ## Records -/

/-- The configured fields of an entry as stored (R174). -/
def Line.configuredFields (l : Line) (t : TableId) (i : Nat) : List (List Byte) :=
  match t with
  | .lineConfig => l.config.fields
  | .unitMap => (tget UnitEntry.initial l.tables.unitMap i).fields
  | .run0 => (tget RunRecord.initial l.tables.run0 i).fields
  | .run1 => (tget RunRecord.initial l.tables.run1 i).fields
  | .passage0 => (tget Passage.initial l.tables.passage0 i).fields
  | .passage1 => (tget Passage.initial l.tables.passage1 i).fields
  | .segment => (tget Segment.initial l.tables.segment i).fields
  | .train => []
  | .runStatus => []
  | .timingPoint => (tget TimingPoint.initial l.tables.timingPoint i).fields
  | .sect => (tget SectionEntry.initial l.tables.sect i).fields
  | .breaker => (tget BreakerEntry.initial l.tables.breaker i).fields
  | .substation => (tget SubstationEntry.initial l.tables.substation i).fields
  | .incidentClass => (tget ClassEntry.initial l.tables.incidentClass i).fields
  | .incident => []
  | .template => (tget Template.initial l.tables.template i).fields
  | .zone => (tget ZoneEntry.initial l.tables.zone i).fields
  | .zoneQueue => []

/-- The dynamic fields of an entry as its owner holds them (R174). -/
def Line.dynamicFields (l : Line) (t : TableId) (i : Nat) : List (List Byte) :=
  match t with
  | .lineConfig => []
  | .unitMap => []
  | .run0 => []
  | .run1 => []
  | .passage0 => []
  | .passage1 => []
  | .segment => []
  | .train => (l.train i).fields
  | .runStatus => (l.runStatus i).fields
  | .timingPoint => departureFields (l.lastDeparture i) ++ [[u8 (boolCode (l.operatorHold i))]]
  | .sect => (l.sectionDyn i).fields
  | .breaker => (l.breakerDyn i).fields
  | .substation => (l.substationDyn i).fields
  | .incidentClass => []
  | .incident => [slotBytes (l.record? i)]
  | .template => []
  | .zone => (l.zoneDyn i).fields
  | .zoneQueue => [entryBytes (l.zoneDyn (i / 8)).queue[i % 8]?]

/-- A record as TABLE_READ returns it. -/
def Line.recordBytes (l : Line) (t : TableId) (i : Nat) : List Byte :=
  (l.configuredFields t i ++ l.dynamicFields t i).flatten

/-- The length that a record counts for the fit of R158: its full length, but 28 bytes for the Incident Table. -/
def TableId.recordSize (t : TableId) : Nat := if t = .incident then 28 else t.widths.sum

/-- The loaded tables with the entry at an index of a table replaced. -/
def Line.mapTables (f : Tables → Tables) (l : Line) : Line := { l with tables := f l.tables }

/-- An entry written from its configured fields: none when a check of its owning chapter fails (check 4 of R159), or when the table is
not written by TABLE_WRITE. -/
def writeEntry (t : TableId) (i : Nat) (fields : List (List Byte)) (l : Line) : Option Line :=
  match t with
  | .lineConfig => (LineConfig.ofFields fields).map fun c => { l with config := c }
  | .unitMap => (UnitEntry.ofFields fields).map fun e => l.mapTables fun x => { x with unitMap := tset .initial x.unitMap i e }
  | .run0 => (RunRecord.ofFields fields).map fun e => l.mapTables fun x => { x with run0 := tset .initial x.run0 i e }
  | .run1 => (RunRecord.ofFields fields).map fun e => l.mapTables fun x => { x with run1 := tset .initial x.run1 i e }
  | .passage0 => (Passage.ofFields fields).map fun e => l.mapTables fun x => { x with passage0 := tset .initial x.passage0 i e }
  | .passage1 => (Passage.ofFields fields).map fun e => l.mapTables fun x => { x with passage1 := tset .initial x.passage1 i e }
  | .segment => (Segment.ofFields fields).map fun e => l.mapTables fun x => { x with segment := tset .initial x.segment i e }
  | .train => none
  | .runStatus => none
  | .timingPoint =>
    (TimingPoint.ofFields fields).map fun e => l.mapTables fun x => { x with timingPoint := tset .initial x.timingPoint i e }
  | .sect => (SectionEntry.ofFields fields).map fun e => l.mapTables fun x => { x with sect := tset .initial x.sect i e }
  | .breaker => (BreakerEntry.ofFields fields).map fun e => l.mapTables fun x => { x with breaker := tset .initial x.breaker i e }
  | .substation =>
    (SubstationEntry.ofFields fields).map fun e => l.mapTables fun x => { x with substation := tset .initial x.substation i e }
  | .incidentClass =>
    (ClassEntry.ofFields i fields).map fun e =>
      l.mapTables fun x => { x with incidentClass := tset .initial x.incidentClass i e }
  | .incident => none
  | .template => (Template.ofFields fields).map fun e => l.mapTables fun x => { x with template := tset .initial x.template i e }
  | .zone => (ZoneEntry.ofFields fields).map fun e => l.mapTables fun x => { x with zone := tset .initial x.zone i e }
  | .zoneQueue => none

end Sys2Proof.Machine
end

