-- ==== Sys2Proof/Machine/Traction.lean ====
section
/-! DEFINITION. The Traction Section Controller: breaker reports, centre commands, pulse ends and deadlines, the agreement of the
wiring, and the POWER job's stop and start (05_traction_sections_and_breaker_commands.md, R84, R87 to R96, R99). -/

namespace Sys2Proof.Machine

open Sys2Proof

/-! ## Breaker reports (R87 to R89) -/

/-- The section of a breaker: its field, absent when the entry is poisoned (R87). -/
def Line.sectionOf (l : Line) (b : Nat) : Option Nat := (l.breaker? b).bind BreakerEntry.sect

/-- A section is ISOLATED: its isolation count is greater than 0 (R85). -/
def Line.isolated (l : Line) (x : Nat) : Bool := 0 < (l.sectionDyn x).isolation

/-- A pending command confirmed: none, with expect until absent. -/
def BreakerDyn.settled (d : BreakerDyn) : BreakerDyn := { d with pending := .none, expectUntil := none }

/-- The FEEDER_TRIP of a breaker in its section; a breaker with no section raises and counts nothing (R87, R88). -/
def raiseTrip (b source : Nat) (l : Line) : Line :=
  match l.sectionOf b with
  | some x => (raiseIncident 1 .sect x source l.lineTime? l).bump .trip
  | none => l

/-- An open report that is a state change or confirms a pending OPEN (R88). -/
def openReport (b source : Nat) (l : Line) : Line :=
  let d := l.breakerDyn b
  let l :=
    if d.pending = .opening then l.setBreakerDyn b { d.settled with state := .opened }
    else if d.state = .closed then raiseTrip b source (l.setBreakerDyn b { d with state := .tripped })
    else l.setBreakerDyn b { d with state := .opened }
  deriveConcerned b none l

/-- A closing in an ISOLATED section: CLOSE_AGAINST_ISOLATION, and an OPEN pulse unless one is outstanding (R89). -/
def closedAgainst (b x source : Nat) (l : Line) : Line :=
  let l := l.setBreakerDyn b { l.breakerDyn b with state := .closed }
  let l := (raiseIncident 6 .sect x source l.lineTime? l).bump .closeAgainstIsolation
  if l.jobs.power && !l.pulsing b .opening then (startPulse b .opening x l).bump .isolationPulse else l

/-- A section fed again: its restore deadline is removed, and a RESTORE_FAILED condition ends (R89 steps 4 and 5). -/
def sectionFed (x : Nat) (l : Line) : Line :=
  let d := l.sectionDyn x
  let l := l.setSectionDyn x { d with restoreDeadline := none, restoreFailed := false }
  if d.restoreFailed then conditionEnd 4 ⟨.sect, x⟩ l else l

/-- A closing in a section that is not ISOLATED, or of a breaker with no section (R89 steps 1 to 5). -/
def closedNormally (b : Nat) (l : Line) : Line :=
  let d := l.breakerDyn b
  let d := if d.pending = .close then d.settled else d
  let l := l.setBreakerDyn b { d with state := .closed }
  match l.sectionOf b with
  | some x => sectionFed x l
  | none => l

/-- A closed report that is a state change (R89). -/
def closedReport (b source : Nat) (l : Line) : Line :=
  let named := l.sectionOf b
  let l :=
    match named with
    | some x => if l.isolated x then closedAgainst b x source l else closedNormally b l
    | none => closedNormally b l
  deriveConcerned b named l

/-- A breaker report from the RTU with address `source` (R87), taken while POWER is RUNNING (R99). -/
def breakerReport (b source : Nat) (now : Indication) (l : Line) : Line :=
  let l := touch .breaker b l
  let l := if (l.sectionOf b).isNone then l.bump .unassignedReport else l
  let l := l.setBreakerDyn b { l.breakerDyn b with localControl := now.localControl }
  let d := l.breakerDyn b
  if now.closed then
    if d.state = .closed then l else closedReport b source l
  else if d.state = .closed ∨ d.state = .unknown ∨ d.pending = .opening then openReport b source l
  else l

/-- The four breakers of a substation. -/
def breakersOf (u : Nat) : List Nat := List.range' (4 * u) 4

/-- The silence of a substation's RTU (R90): its breakers become UNKNOWN and their sections are derived again, then the load
levels of those sections (R86, R115; states before levels: DESIGN CHOICE, log entry 56). A poisoned entry silences its substation whatever the POWER job's state, as R117 says, although
R99 has the breaker records stand while POWER is STOPPED (DESIGN CHOICE, log entry 49). -/
def silenceBreakers (u : Nat) (l : Line) : Line :=
  let l := (breakersOf u).foldl (fun l b => l.setBreakerDyn b { l.breakerDyn b with state := .unknown }) l
  let l := touchLists l
  deriveLevels (l.sectionsOf u) (deriveSections (l.sectionsOf u) l)

/-! ## Centre commands (R91 to R93) -/

/-- The substation is in service (R101). The entry has been read. -/
def Line.inService (l : Line) (u : Nat) : Bool := ((l.substation? u).bind fun e => l.unitAddress? e.rtu).isSome

/-- The command codes of a BREAKER_CMD (section 11.4). -/
def commandOf? (n : Nat) : Option Switching :=
  match n with
  | 0 => some .opening
  | 1 => some .close
  | _ => none

/-- Check 3 of R92: the substation cannot be commanded. Its entry has been read. -/
def Line.unreachable (l : Line) (u : Nat) : Bool := (l.substationDyn u).scan == .silent || !l.inService u

/-- The checks of R92 in their order: the first reason that holds. The entries have been read. -/
def Line.commandRefusal (l : Line) (u feeder command : Nat) (force : Bool) : Option Refused :=
  let b := 4 * u + feeder
  if !l.jobs.power then some .jobStopped
  else if 4 ≤ feeder ∨ (commandOf? command).isNone then some .range
  else if l.unreachable u then some .noRtu
  else
    match l.sectionOf b with
    | none => some .noBreaker
    | some x =>
      if (l.breakerDyn b).localControl then some .localControl
      else if commandOf? command = some .close ∧ l.isolated x then some .isolated
      else if commandOf? command = some .opening ∧ !force ∧ 0 < l.occupancy x then some .occupied
      else if (l.breakerDyn b).pulseEnd.isSome then some .busy
      else none

/-- Step 1 of R93: an OPEN withdraws the breaker's pending CLOSE, and removes the section's restore deadline unless another feeder has a
pending CLOSE. -/
def withdrawClose (b x : Nat) (l : Line) : Line :=
  if (l.breakerDyn b).pending = .close then
    let l := touchFeeders x (l.setBreakerDyn b (l.breakerDyn b).settled)
    if (l.feeders x).any fun other => (l.breakerDyn other).pending == .close then l
    else l.setSectionDyn x { l.sectionDyn x with restoreDeadline := none }
  else l

/-- Step 5 of R93: the restore deadline of a section whose breaker waits for a CLOSE. -/
def extendRestore (b x : Nat) (l : Line) : Line :=
  let d := l.sectionDyn x
  match (l.breakerDyn b).expectUntil with
  | some t =>
    l.setSectionDyn x { d with restoreDeadline := some (match d.restoreDeadline with | some old => later old t | none => t) }
  | none => l

/-- An accepted command carried out (R93 steps 1 to 6). -/
def carryOut (b : Nat) (command : Switching) (x : Nat) (l : Line) : Line :=
  let l := if command = .opening then withdrawClose b x l else l
  let l := startPulse b command x l
  let l := if command = .close ∧ (l.breakerDyn b).pending = .close then extendRestore b x l else l
  deriveConcerned b (some x) l

/-- The CMD_RESULT of a command (R91). -/
def sendCmdResult (rtu source : Nat) (feeder command force sequence : Byte) (reason : Option Refused) (l : Line) : Line :=
  emit .power .c kindCmdResult source
    (be16 rtu ++ [feeder, command, force, sequence, u8 (boolCode reason.isSome), u8 ((reason.map fun r => r.code + 1).getD 0)]) l

/-- The reads that the checks of a command take (R92): the substation's entry at check 3, the breaker's at check 4, each only where no
earlier check refuses the command (log entry 25). -/
def touchCommand (u feeder command : Nat) (l : Line) : Line :=
  if l.jobs.power ∧ feeder < 4 ∧ (commandOf? command).isSome then
    let l := touch .substation u l
    if l.unreachable u then l else touch .breaker (4 * u + feeder) l
  else l

/-- A BREAKER_CMD intercepted for substation `u` (R91). -/
def breakerCommand (u rtu source : Nat) (feeder command force sequence : Byte) (l : Line) : Line :=
  let l := touchCommand u feeder.toNat command.toNat l
  match l.commandRefusal u feeder.toNat command.toNat (flagSet force.toNat), commandOf? command.toNat,
      l.sectionOf (4 * u + feeder.toNat) with
  | none, some c, some x =>
    sendCmdResult rtu source feeder command force sequence none
      ((carryOut (4 * u + feeder.toNat) c x l).bump .acceptedCommand)
  | some reason, _, _ => sendCmdResult rtu source feeder command force sequence (some reason) (l.bump (.refusedCommand reason))
  | none, _, _ => l

/-! ## Pulse ends and deadlines (R94 to R96) -/

/-- PULSE_END of breaker `b` (R94). -/
def pulseEnded (b : Nat) (l : Line) : Line :=
  if due (l.breakerDyn b).pulseEnd l.timer then
    let named := (l.breakerDyn b).commandSection
    deriveConcerned b named (endPulse b l)
  else l

/-- EXPECT_UNTIL of breaker `b` (R95). -/
def expectEnded (b : Nat) (l : Line) : Line :=
  if due (l.breakerDyn b).expectUntil l.timer then
    (l.setBreakerDyn b (l.breakerDyn b).settled).bump .unconfirmedCommand
  else l

/-- RESTORE_DEADLINE of section `x` (R96). -/
def restoreEnded (x : Nat) (l : Line) : Line :=
  if due (l.sectionDyn x).restoreDeadline l.timer then
    let l := deriveSection x (l.setSectionDyn x { l.sectionDyn x with restoreDeadline := none })
    let l := raiseIncident 4 .sect x l.config.ownAddress l.lineTime? l
    (l.setSectionDyn x { l.sectionDyn x with restoreFailed := true }).bump .restoreFailed
  else l

/-! ## The agreement of the wiring (R84) -/

/-- Section `x` disagrees: a breaker of its list stands in another list, or its section field names another section or none. Poisoned
entries are not checked. -/
def Line.sectionDisagrees (l : Line) (x : Nat) : Bool :=
  (l.section? x).any fun e =>
    e.feeders.any fun b =>
      (sectionNumbers.any fun y => y != x && (l.section? y).any fun other => other.feeders.contains b)
        || (l.breaker? b).any fun entry => entry.sect != some x

/-- Breaker `b` disagrees: its section field names a section whose list does not name it. -/
def Line.breakerDisagrees (l : Line) (b : Nat) : Bool :=
  (l.sectionOf b).any fun x => (l.section? x).any fun e => !e.feeders.contains b

/-- The reads of the agreement check: every section's list, which the lists of the others are held against, then every breaker's entry, all
of them before the first disagreement is looked for (DESIGN CHOICE, log entry 25). -/
def touchWiring (l : Line) : Line := touchAll .breaker breakerNumbers (touchAll .sect sectionNumbers l)

/-- The first disagreement, sections first: the item kind (0 a section, 1 a breaker) and its index (R84, R173). -/
def Line.wiringDisagreement (l : Line) : Option (Nat × Nat) :=
  match sectionNumbers.find? l.sectionDisagrees with
  | some x => some (0, x)
  | none => (breakerNumbers.find? l.breakerDisagrees).map fun b => (1, b)

/-! ## The POWER job stopped and started (R99) -/

/-- JOB_STOP of POWER is refused while a section is ISOLATED or a pulse is outstanding. -/
def Line.powerBusy (l : Line) : Bool :=
  sectionNumbers.any l.isolated || breakerNumbers.any fun b => (l.breakerDyn b).pulseEnd.isSome

/-- What a JOB_STOP of POWER does to the controller's records, before POWER becomes STOPPED. -/
def stopTraction (l : Line) : Line :=
  let l := breakerNumbers.foldl (fun l b => l.setBreakerDyn b (l.breakerDyn b).settled) l
  let l := sectionNumbers.foldl (fun l x => l.setSectionDyn x { l.sectionDyn x with restoreDeadline := none }) l
  deriveSections sectionNumbers l

/-- What a JOB_START of POWER does to the controller's records, before POWER becomes RUNNING. -/
def startTraction (l : Line) : Line :=
  let l := deriveSections sectionNumbers l
  sectionNumbers.foldl (fun l x => if l.isolated x then isolationPulses x l else l) l

end Sys2Proof.Machine
end

