-- ==== Sys2Proof/Machine/Scanning.lean ====
section
/-! DEFINITION. The Substation Scanner: requests, replies, silence and recovery, load levels, and the POWER job's stop and start
(06_substation_scanning_and_load_levels.md, R103 to R117). -/

namespace Sys2Proof.Machine

open Sys2Proof

/-! ## Requests (R104, R105) -/

/-- The RTU's address of a substation in service. -/
def Line.rtuAddress? (l : Line) (u : Nat) : Option Nat := (l.substation? u).bind fun e => l.unitAddress? e.rtu

/-- The reply deadline of a request sent now. -/
def Line.replyDeadlineFor (l : Line) (u : Nat) : Option Ticks := (l.substation? u).map fun e => l.timer + ms e.replyTimeout

/-- A SCAN_READ placed to an RTU, outstanding from now; the scan state and the retries are the caller's. -/
def sendRead (u address : Nat) (l : Line) : Line :=
  let l := l.setSubstationDyn u { l.substationDyn u with outstanding := .read, replyDeadline := l.replyDeadlineFor u }
  (emit .power .f kindScanRead address [] l).bump (.readsSent u)

/-- A SCAN_WRITE with the image as it stands, outstanding from now; the scan state and the retries are the caller's. -/
def sendWrite (u address : Nat) (l : Line) : Line :=
  let l := l.setSubstationDyn u { l.substationDyn u with outstanding := .write, replyDeadline := l.replyDeadlineFor u }
  (emit .power .f kindScanWrite address (be16 (l.substationDyn u).image.bits.toNat) l).bump (.writesSent u)

/-- A request begins an exchange: AWAIT_REPLY, no retries used. -/
def beginExchange (u : Nat) (l : Line) : Line :=
  l.setSubstationDyn u { l.substationDyn u with scan := .awaitReply, retries := 0 }

/-- A write is owed to a substation (R103). -/
def Line.writeOwed (l : Line) (u : Nat) : Bool :=
  let d := l.substationDyn u
  d.acknowledged != some d.image.bits

/-- The write check of R103. -/
def writeCheck (u : Nat) (l : Line) : Line :=
  if l.jobs.power && (l.substationDyn u).scan == .idle && l.writeOwed u then
    let l := touch .substation u l
    match l.rtuAddress? u with
    | some address => sendWrite u address (beginExchange u l)
    | none => l
  else l

/-! ## Silence (R108, R117) -/

/-- The feeders of a substation whose breaker is CLOSED in the controller's records. -/
def Line.closedFeeders (l : Line) (u : Nat) : Quad Bool :=
  let closed := fun f => (l.breakerDyn (4 * u + f)).state == .closed
  ⟨closed 0, closed 1, closed 2, closed 3⟩

/-- An RTU declared SILENT (R108). -/
def declareSilent (u : Nat) (l : Line) : Line :=
  let l := l.setSubstationDyn u
    { l.substationDyn u with
      scan := .silent, outstanding := .none, replyDeadline := none, retries := 0, lowCount := 0, acknowledged := none,
      previous := none, heldFeeders := l.closedFeeders u }
  let l := silenceBreakers u l
  (raiseIncident 3 .substation u l.config.ownAddress l.lineTime? l).bump (.silence u)

/-- A substation that leaves service: next scan time, outstanding request and reply deadline absent (R104). -/
def leaveService (u : Nat) (l : Line) : Line :=
  let d := l.substationDyn u
  l.setSubstationDyn u
    { d with
      nextScan := none, outstanding := .none, replyDeadline := none
      scan := if d.scan = .awaitReply then .idle else d.scan }

/-- The report of a poisoned Substation Table entry: the substation leaves service and is declared SILENT if it is not (R117), also while
POWER is STOPPED (DESIGN CHOICE, log entry 49). -/
def substationPoisoned (u : Nat) (l : Line) : Line :=
  let l := leaveService u l
  if (l.substationDyn u).scan = .silent then l else declareSilent u l

/-- What stands in the way of a substation's scanning when its entry is read: poisoned, it is treated under R117; out of service, under
R104. -/
def notScanned (u : Nat) (l : Line) : Line :=
  if l.usable .substation u then leaveService u l else substationPoisoned u l

/-! ## Scan times and reply deadlines (R104, R107) -/

/-- A scan time's request or overrun, by the scan state (R104). -/
def scanNow (u address : Nat) (l : Line) : Line :=
  let d := l.substationDyn u
  if d.scan = .idle then sendRead u address (beginExchange u l)
  else if d.scan = .silent ∧ d.outstanding = .none then sendRead u address l
  else l.bump (.scanOverrun u)

/-- SCAN_TIME of substation `u` (R104). -/
def scanTimeReached (u : Nat) (l : Line) : Line :=
  match (l.substationDyn u).nextScan with
  | none => l
  | some t =>
    if l.jobs.power && reached t l.timer then
      let l := touch .substation u l
      match l.substation? u, l.rtuAddress? u with
      | some e, some address =>
        let l := scanNow u address l
        l.setSubstationDyn u { l.substationDyn u with nextScan := some (t + ms e.scanPeriod) }
      | _, _ => notScanned u l
    else l

/-- An unanswered request of a substation in AWAIT_REPLY: re-sent, or the RTU is declared SILENT (R107). Retries
above a limit lowered meanwhile count as the limit reached (DESIGN CHOICE, log entry 33). -/
def retryRequest (u address limit : Nat) (l : Line) : Line :=
  let d := l.substationDyn u
  if d.retries < limit then
    let l := (l.setSubstationDyn u { d with retries := d.retries + 1 }).bump (.retry u)
    if l.writeOwed u then sendWrite u address l else sendRead u address l
  else declareSilent u l

/-- REPLY_DEADLINE of substation `u` (R107). -/
def replyDeadlineReached (u : Nat) (l : Line) : Line :=
  if due (l.substationDyn u).replyDeadline l.timer then
    let l := touch .substation u l
    match l.substation? u, l.rtuAddress? u with
    | some e, some address =>
      let d := l.substationDyn u
      if d.scan = .awaitReply then retryRequest u address e.retryLimit l
      else l.setSubstationDyn u { d with outstanding := .none, replyDeadline := none }
    | _, _ => notScanned u l
  else l

/-! ## Processing a reply (R110 to R115) -/

/-- What an RTU_POINTS carries (R172). -/
structure Points where
  feeders : Quad Byte
  current : Nat
  echo : BitVec 16
  deriving DecidableEq, Repr

/-- The breaker report of feeder `f`, when the previous points are absent or differ (R110). -/
def reportFeeder (u source : Nat) (before : Option (Quad Indication)) (p : Points) (f : Nat) (l : Line) : Line :=
  let now := indicationOf (p.feeders.get f)
  if before.any fun q => q.get f == now then l else breakerReport (4 * u + f) source now l

def feederNumbers : List Nat := List.range 4

/-- R110: breaker reports in feeder order, then the previous points. -/
def takePoints (u source : Nat) (p : Points) (l : Line) : Line :=
  let before := (l.substationDyn u).previous
  let l := feederNumbers.foldl (fun l f => reportFeeder u source before p f l) l
  l.setSubstationDyn u
    { l.substationDyn u with
      previous := some ⟨indicationOf p.feeders.f0, indicationOf p.feeders.f1, indicationOf p.feeders.f2, indicationOf p.feeders.f3⟩ }

/-- R111: an echo that differs from a known acknowledged image. -/
def compareEcho (u : Nat) (p : Points) (l : Line) : Line :=
  let d := l.substationDyn u
  if d.acknowledged.any fun a => a != p.echo then
    (l.setSubstationDyn u { d with acknowledged := none }).bump (.imageMismatch u)
  else l

def setEarthFault (u f : Nat) (flag : Option Location) (l : Line) : Line :=
  let d := l.substationDyn u
  l.setSubstationDyn u { d with earthFault := d.earthFault.set f flag }

/-- R112 for one feeder. -/
def earthFault (u source : Nat) (p : Points) (f : Nat) (l : Line) : Line :=
  match (l.substationDyn u).earthFault.get f, earthFaultOf (p.feeders.get f) with
  | none, true =>
    let l := touch .breaker (4 * u + f) l
    let loc : Location :=
      match l.sectionOf (4 * u + f) with
      | some x => ⟨.sect, x⟩
      | none => ⟨.substation, u⟩
    let l := raiseIncident 2 loc.kind loc.index source l.lineTime? l
    (setEarthFault u f (some loc) l).bump (.earthFault u)
  | some loc, false => setEarthFault u f none (conditionEnd 2 loc l)
  | _, _ => l

/-- The highest level whose threshold a current meets or exceeds (R113). -/
def SubstationEntry.levelOf (e : SubstationEntry) (current : Nat) : Nat :=
  if e.l3 ≤ current then 3 else if e.l2 ≤ current then 2 else if e.l1 ≤ current then 1 else 0

/-- The threshold at which a level begins. -/
def SubstationEntry.threshold (e : SubstationEntry) (level : Nat) : Nat :=
  if level = 1 then e.l1 else if level = 2 then e.l2 else e.l3

/-- The level and low-count after a reply with a rectifier current (R113). -/
def levelAfter (e : SubstationEntry) (level lowCount current : Nat) : Nat × Nat :=
  if level < e.levelOf current then (e.levelOf current, 0)
  else if 0 < level ∧ current + e.hysteresis < e.threshold level then
    if 3 ≤ lowCount + 1 then (level - 1, 0) else (level, lowCount + 1)
  else (level, 0)

/-- R114: the incident of a rise to 3, or the end of its condition on a fall from 3. -/
def levelChanged (u source old new : Nat) (l : Line) : Line :=
  let l := l.bump (.levelChange u)
  if old < 3 ∧ new = 3 then (raiseIncident 5 .substation u source l.lineTime? l).bump (.overload u)
  else if old = 3 ∧ new < 3 then conditionEnd 5 ⟨.substation, u⟩ l
  else l

/-- R113 and R114. -/
def moveLevel (u source : Nat) (p : Points) (l : Line) : Line :=
  match l.substation? u with
  | none => l
  | some e =>
    let d := l.substationDyn u
    let after := levelAfter e d.level d.lowCount p.current
    let l := l.setSubstationDyn u { d with level := after.1, lowCount := after.2 }
    if after.1 = d.level then l else levelChanged u source d.level after.1 l

/-- A reply processed (R106): R110, R111 when it ended a READ or recovers the substation, R112, R113, and R115 for every section with a
feeder of the substation. -/
def processReply (u source : Nat) (p : Points) (solicited : Bool) (l : Line) : Line :=
  let l := takePoints u source p l
  let l := if solicited then compareEcho u p l else l
  let l := feederNumbers.foldl (fun l f => earthFault u source p f l) l
  let l := touchLists (moveLevel u source p l)
  deriveLevels (l.sectionsOf u) l

/-! ## RTU telegrams (R106, R109) -/

/-- An outstanding request ended by its reply. -/
def endRequest (u : Nat) (l : Line) : Line :=
  l.setSubstationDyn u
    { l.substationDyn u with outstanding := .none, replyDeadline := none, retries := 0, scan := .idle }

/-- The recovery of a SILENT substation (R109); its SCAN_WRITE follows by the write check. -/
def recover (u source : Nat) (p : Points) (l : Line) : Line :=
  let l := l.setSubstationDyn u
    { l.substationDyn u with
      scan := .idle, outstanding := .none, replyDeadline := none, heldFeeders := ⟨false, false, false, false⟩ }
  let l := processReply u source p true l
  (conditionEnd 3 ⟨.substation, u⟩ l).bump (.recovery u)

/-- The Scanner takes an RTU telegram for substation `u` (R106); the entry has been read. -/
def Line.takesReply (l : Line) (u source : Nat) : Bool := l.rtuAddress? u == some source

/-- An RTU_POINTS taken while POWER is RUNNING (R106). -/
def pointsTaken (u source : Nat) (p : Points) (l : Line) : Line :=
  let d := l.substationDyn u
  askWriteCheck u
    (if d.scan = .silent then recover u source p l
    else if d.outstanding = .read then processReply u source p true (endRequest u l)
    else processReply u source p false (l.bump (.unsolicitedReply u)))

/-- An RTU_ACK taken while POWER is RUNNING (R106). -/
def ackTaken (u : Nat) (image : BitVec 16) (l : Line) : Line :=
  let d := l.substationDyn u
  askWriteCheck u
    (if d.scan = .silent then l.bump (.unsolicitedReply u)
    else
      let l := l.setSubstationDyn u { d with acknowledged := some image }
      if d.outstanding = .write then endRequest u l else l.bump (.unsolicitedReply u))

/-- An RTU telegram handed for substation `u`, with what a taken one does (R106). A reply whose read finds the entry poisoned declares the
substation SILENT if it is not, and is foreign (R117). -/
def rtuTelegram (u source : Nat) (taken : Line → Line) (l : Line) : Line :=
  let l := touch .substation u l
  if l.poisoned .substation u then (substationPoisoned u l).bump .foreignReply
  else if !l.takesReply u source then l.bump .foreignReply
  else if !l.jobs.power then l.bump .stoppedReply
  else taken l

/-! ## The POWER job stopped and started (R116) -/

def stopScanning (l : Line) : Line :=
  substationNumbers.foldl (fun l u =>
    let d := l.substationDyn u
    l.setSubstationDyn u
      { d with
        outstanding := .none, replyDeadline := none, retries := 0, nextScan := none
        scan := if d.scan = .awaitReply then .idle else d.scan }) l

/-- A substation that scanning takes up: its next scan time is now, and the write check follows (R103, R104, R116). One whose
entry is poisoned is left as it stands, IDLE after a LINE_RESTART, until a reply declares it SILENT (DESIGN CHOICE, log entry 57). -/
def takeUp (u : Nat) (l : Line) : Line :=
  let l := touch .substation u l
  if l.inService u then askWriteCheck u (l.setSubstationDyn u { l.substationDyn u with nextScan := some l.timer }) else l

def startScanning (l : Line) : Line := substationNumbers.foldl (fun l u => takeUp u l) l

/-- A write of a substation's RTU field: the acknowledged image unknown, the previous points absent (R117). -/
def rtuFieldWritten (u : Nat) (l : Line) : Line :=
  l.setSubstationDyn u { l.substationDyn u with acknowledged := none, previous := none }

end Sys2Proof.Machine
end

