-- ==== Sys2Proof/Machine/Settle.lean ====
section
/-! DEFINITION. What a step leaves for its end: the reports and raises of the entries poisoned in it (R168 steps 4 and 5) and the write
checks asked for in it (R103). Log entries 8 and 10. -/

namespace Sys2Proof.Machine

open Sys2Proof

/-- A breaker's entry poisoned, cleared or rewritten: the sections that list it, and the poisoned sections, whose feeders are found through
the breakers, are derived again, and then their levels (R85, R115; the order of the two is a DESIGN CHOICE, log entry 56). -/
def breakerEntryChanged (b : Nat) (l : Line) : Line :=
  let l := touchLists l
  let xs := sectionNumbers.filter fun x => !l.usable .sect x || (l.feeders x).contains b
  deriveLevels xs (deriveSections xs l)

/-- A section's entry poisoned, cleared or rewritten: its state is derived again, and then its level (R85, R115; the order of the two is a
DESIGN CHOICE, log entry 56). -/
def sectionEntryChanged (x : Nat) (l : Line) : Line := deriveLevels [x] (deriveSections [x] l)

/-- The owner told that an entry has become poisoned, where the owner acts at once (R168 step 4), whatever the state of
its job (DESIGN CHOICE for a segment, log entry 59, and for a substation, log entry 49). -/
def ownerReport (d : Detail) (l : Line) : Line :=
  match d.table with
  | .segment => segmentPoisoned d.entry l
  | .timingPoint => evaluateAt [d.entry] l
  | .sect => sectionEntryChanged d.entry l
  | .breaker => breakerEntryChanged d.entry l
  | .substation => substationPoisoned d.entry l
  | .lineConfig => l
  | .unitMap => l
  | .run0 => l
  | .run1 => l
  | .passage0 => l
  | .passage1 => l
  | .train => l
  | .runStatus => l
  | .incidentClass => l
  | .incident => l
  | .template => l
  | .zone => l
  | .zoneQueue => l

/-- The report and the raise of class 13 for a poisoned entry (R168 steps 4 and 5). -/
def poisonReport (d : Detail) (l : Line) : Line :=
  let l := ownerReport d l
  (takeRaise ⟨13, ⟨.line, 0⟩, l.config.ownAddress, l.lineTime?, some d⟩ l).1

/-- Reports first, in the order of poisoning, then write checks, in the order asked, until nothing is left. -/
def settleFor : Nat → Line → Line
  | 0, l => l
  | fuel + 1, l =>
    match l.poisonWork, l.writeChecks with
    | d :: rest, _ => settleFor fuel (poisonReport d { l with poisonWork := rest })
    | [], u :: rest => settleFor fuel (writeCheck u { l with writeChecks := rest })
    | [], [] => l

/-- Enough rounds for everything that can come up: each entry whose words hold an error is poisoned once at most, and each report asks for
the write check of each of the twelve substations once at most. -/
def Line.settleRounds (l : Line) : Nat := 13 * (l.store.health.length + l.poisonWork.length + 1) + l.writeChecks.length

/-- The end of a step for the line's blocks. The rounds suffice, so that no report and no write check is left over; the work lists are
empty afterwards. -/
def settle (l : Line) : Line := { settleFor l.settleRounds l with poisonWork := [], writeChecks := [] }

end Sys2Proof.Machine
end

