-- ==== Sys2Proof/Machine/Writing.lean ====
section
/-! DEFINITION. TABLE_READ and TABLE_WRITE: the checks of R158 and R159, the write windows of R160, and the effects of a write on the owning
blocks (09_management_telegrams.md; 10_the_table_store.md, R169). -/

namespace Sys2Proof.Machine

open Sys2Proof

/-- A management reply before it is laid out: status, refusal index and data (R155). -/
structure Reply where
  status : Status
  index : Nat
  data : List Byte
  deriving DecidableEq, Repr

def Reply.done (data : List Byte) : Reply := ⟨.done, 0, data⟩
def Reply.refuse (status : Status) : Reply := ⟨status, 0, []⟩
def Reply.refuseAt (status : Status) (index : Nat) : Reply := ⟨status, index, []⟩

/-- The entries of a run of `count` from `index`. -/
def entryRun (index count : Nat) : List Nat := List.range' index count

/-- A run of entries exists: 1 to 8 of them, inside the table (R158, R159 check 1). -/
def TableId.hasRun (t : TableId) (index count : Nat) : Bool := 1 ≤ count && count ≤ 8 && index + count ≤ t.size

/-! ## TABLE_READ (R158) -/

/-- The reads of a run up to the first poisoned entry, and that entry. -/
def readRun (t : TableId) : List Nat → Line → Line × Option Nat
  | [], l => (l, none)
  | i :: rest, l =>
    let l := touch t i l
    if l.poisoned t i then (l, some i) else readRun t rest l

/-- The largest data of a reply: a payload of 56 bytes less the reply header (R173). -/
def replyRoom : Nat := 51

def tableRead (r : Request) (l : Line) : Line × Reply :=
  match TableId.ofCode? r.table with
  | none => (l, .refuseAt .range r.index)
  | some t =>
    if !t.hasRun r.index r.count || replyRoom < r.count * t.recordSize then (l, .refuseAt .range r.index)
    else
      match readRun t (entryRun r.index r.count) l with
      | (l, some i) => (l, .refuseAt .integrity i)
      | (l, none) => (l, .done ((entryRun r.index r.count).flatMap fun i => l.recordBytes t i))

/-! ## Masks -/

/-- Bit `k` of the field mask. -/
def masked (mask : BitVec 16) (k : Nat) : Bool := mask.getLsbD k

/-- The bytes of the masked fields of one entry. -/
def maskedWidth (mask : BitVec 16) (widths : List Nat) : Nat :=
  ((List.range widths.length).map fun k => if masked mask k then widths.getD k 0 else 0).sum

/-- The fields of an entry with the masked ones replaced from the data, in field order, from field `k` on. -/
def combine (mask : BitVec 16) : Nat → List (List Byte) → List Byte → List (List Byte)
  | _, [], _ => []
  | k, f :: fs, data =>
    if masked mask k then data.take f.length :: combine mask (k + 1) fs (data.drop f.length)
    else f :: combine mask (k + 1) fs data

/-- The mask sets a bit at or beyond a field number, of the sixteen it has. -/
def masksFrom (mask : BitVec 16) (k : Nat) : Bool := (List.range 16).any fun j => k ≤ j && masked mask j

/-- The mask covers every configured field of a table. -/
def coversAll (mask : BitVec 16) (t : TableId) : Bool := (List.range t.configured).all fun k => masked mask k

/-! ## The write windows (R160) -/

/-- The job that a Unit Map kind belongs to is STOPPED, or it belongs to none. -/
def kindFree (jobs : Jobs) (kind : Option UnitKind) : Bool :=
  match kind with
  | some .trainUnit => !jobs.timetable
  | some .platform => !jobs.timetable
  | some .rtu => !jobs.power
  | some .paController => !jobs.announce
  | some .unassigned => true
  | some .workstation => true
  | some .clock => true
  | none => true

/-- All four jobs are STOPPED. -/
def Jobs.allStopped (j : Jobs) : Bool := !(j.timetable || j.power || j.incident || j.announce)

/-- A Run or Passage Table of a bank may be written: the bank is neither active nor pending (R31). -/
def Line.bankWritable (l : Line) (bank : Nat) : Bool :=
  l.timetable.active != bank && !(l.timetable.activation.any fun a => a.bank == bank)

/-- The kind of a Unit Map entry before a write: UNASSIGNED when it is poisoned (R160). The entry has been read. -/
def Line.kindBefore (l : Line) (i : Nat) : UnitKind := ((l.unitEntry? i).map UnitEntry.kind).getD .unassigned

/-- The kind of a Unit Map entry after a write: the one written, or the one the entry keeps (R160); absent for a code that is no kind,
which check 4 refuses. -/
def Line.kindAfter (l : Line) (i : Nat) (mask : BitVec 16) (fields : List (List Byte)) : Option UnitKind :=
  if masked mask 0 then UnitKind.ofCode? (rd8 (fields.getD 0 []) 0) else some (l.kindBefore i)

/-- The write window is open for an entry whose fields would become `fields` (R160, and R31 for the banks). A poisoned breaker entry
is no exception to its window: with POWER RUNNING its write is answered STATE at check 2, where event 3 of the worked example of section
10.5 shows INTEGRITY (DESIGN CHOICE, log entry 54). -/
def Line.windowOpen (l : Line) (t : TableId) (i : Nat) (mask : BitVec 16) (fields : List (List Byte)) : Bool :=
  match t with
  | .lineConfig => l.jobs.allStopped || !(masked mask 0 || masked mask 1 || masked mask 2)
  | .unitMap =>
    kindFree l.jobs (some (l.kindBefore i)) && kindFree l.jobs (l.kindAfter i mask fields)
  | .run0 => l.bankWritable 0
  | .run1 => l.bankWritable 1
  | .passage0 => l.bankWritable 0
  | .passage1 => l.bankWritable 1
  | .segment => !l.jobs.timetable
  | .train => false
  | .runStatus => false
  | .timingPoint => !l.jobs.timetable || !(masked mask 0 || masked mask 1 || masked mask 2)
  | .sect => !l.jobs.power || !masked mask 0
  | .breaker => !l.jobs.power
  | .substation => !l.jobs.power || !masked mask 0 || (l.poisoned .substation i && coversAll mask .substation)
  | .incidentClass => true
  | .incident => false
  | .template => true
  | .zone => !l.jobs.announce || !(masked mask 0 || masked mask 1)
  | .zoneQueue => false

/-! ## TABLE_WRITE (R159) -/

/-- The new fields of the entry at place `j` of a run. -/
def newFields (t : TableId) (r : Request) (j : Nat) (l : Line) : List (List Byte) :=
  let width := maskedWidth r.mask t.widths
  combine r.mask 0 (l.configuredFields t (r.index + j)) ((r.data.drop (j * width)).take width)

/-- Check 1: the request fits the table. -/
def writeFits (t : TableId) (r : Request) : Bool :=
  t.hasRun r.index r.count && r.mask != 0 && !masksFrom r.mask t.widths.length
    && r.count * maskedWidth r.mask t.widths ≤ r.data.length

/-- Check 2: the first entry for which the table is not written, a dynamic field is masked, or the window is closed. -/
def Line.windowClosedAt (l : Line) (t : TableId) (r : Request) : Option Nat :=
  if t.configured = 0 ∨ masksFrom r.mask t.configured then some r.index
  else ((List.range r.count).find? fun j => !l.windowOpen t (r.index + j) r.mask (newFields t r j l)).map (r.index + ·)

/-- Check 3, after the check reads: the first poisoned entry that the mask does not cover. -/
def Line.integrityAt (l : Line) (t : TableId) (r : Request) : Option Nat :=
  if coversAll r.mask t then none else (entryRun r.index r.count).find? fun i => l.poisoned t i

/-- Check 4 made and the fields written, entry by entry: the first entry that fails, or the line with every entry written. -/
def writeRun (t : TableId) (r : Request) : List Nat → Line → Line ⊕ Nat
  | [], l => .inl l
  | j :: rest, l =>
    match writeEntry t (r.index + j) (newFields t r j l) l with
    | some l => writeRun t r rest l
    | none => .inr (r.index + j)

/-- A template is in use: an entry in any zone queue or a current play names it (R139). -/
def Line.templateInUse (l : Line) (t : Nat) : Bool :=
  l.announcer.zones.any fun z =>
    (z.2.queue.any fun e => e.template == t)
      || (z.2.state != .idle && z.2.current.any fun play => play.entry.template == t)

/-- Check 5: the first template of the run that is in use, unless the write is a full write of a poisoned entry. -/
def Line.busyAt (l : Line) (t : TableId) (r : Request) : Option Nat :=
  if t = .template then
    (entryRun r.index r.count).find? fun i => l.templateInUse i && !(l.poisoned t i && coversAll r.mask t)
  else none

/-- An entry's words written with fresh check codes, its mark clear (R166, R169). -/
def freshWords (t : TableId) (i : Nat) (l : Line) : Line :=
  match storePlace t i with
  | some p => { l with store := { l.store with health := tset .clean l.store.health p .clean } }
  | none => l

/-- Every zone checks whether a play can start (R144). -/
def startPlays (l : Line) : Line := zoneNumbers.foldl (fun l z => startPlay z l) l

/-- A substation that a full write brings back into service while POWER is RUNNING takes the present time as its next scan time (R104). -/
def substationCleared (u : Nat) (l : Line) : Line :=
  if l.jobs.power && l.inService u then
    l.setSubstationDyn u { l.substationDyn u with nextScan := some l.timer }
  else l

/-- What the owning block does with a written entry (R159, R169); `cleared` says that the write cleared its poison mark. -/
def writtenEffect (t : TableId) (i : Nat) (mask : BitVec 16) (cleared : Bool) (l : Line) : Line :=
  match t with
  | .segment => segmentWritten i l
  | .timingPoint => if cleared then evaluateAt [i] l else l
  | .sect => if cleared || masked mask 0 then sectionEntryChanged i l else l
  | .breaker => breakerEntryChanged i l
  | .substation =>
    let l := if masked mask 0 && !l.jobs.power then rtuFieldWritten i l else l
    if cleared then substationCleared i l else l
  | .template => if cleared then startPlays l else l
  | .zone => if cleared || masked mask 0 then startPlay i l else l
  | .lineConfig => if masked mask 1 then startPlays l else l
  | .unitMap => l
  | .run0 => l
  | .run1 => l
  | .passage0 => l
  | .passage1 => l
  | .train => l
  | .runStatus => l
  | .incidentClass => l
  | .incident => l
  | .zoneQueue => l

/-- The owners' effects of a write, entry by entry; `marks` lists the entries whose mark the write has cleared. -/
def writtenEffects (t : TableId) (r : Request) (marks : List Nat) (l : Line) : Line :=
  (entryRun r.index r.count).foldl (fun l i => writtenEffect t i r.mask (marks.contains i) l) l

/-- Checks 3 to 5 and the write (R159), after checks 1 and 2. `l` is the line after the check reads
and the reports of what they poisoned. -/
def writeChecked (t : TableId) (r : Request) (l : Line) : Line × Reply :=
  match l.integrityAt t r with
  | some i => (l, .refuseAt .integrity i)
  | none =>
    match writeRun t r (List.range r.count) l with
    | .inr i => (l, .refuseAt .range i)
    | .inl new =>
      match l.busyAt t r with
      | some i => (l, .refuseAt .busy i)
      | none =>
        let marks := (entryRun r.index r.count).filter fun i => l.poisoned t i
        let new := (entryRun r.index r.count).foldl (fun l i => freshWords t i l) new
        (writtenEffects t r marks new, .done [])

/-- The check reads of a write, with what follows the poisoning of an entry they find in error (R159, R166, R168). -/
def checkReads (t : TableId) (r : Request) (l : Line) : Line := settle (touchAll t (entryRun r.index r.count) l)

/-- What is read before check 2: the Unit Map entries, whose kinds decide their window (R160, R166; log entry 47). The window of every
other table is judged by its marks as they stand. -/
def windowReads (t : TableId) (r : Request) (l : Line) : Line :=
  match t with
  | .unitMap => checkReads .unitMap r l
  | _ => l

def tableWrite (r : Request) (l : Line) : Line × Reply :=
  match TableId.ofCode? r.table with
  | none => (l, .refuseAt .range r.index)
  | some t =>
    if !writeFits t r then (l, .refuseAt .range r.index)
    else
      let l := windowReads t r l
      match l.windowClosedAt t r with
      | some i => (l, .refuseAt .state i)
      | none => writeChecked t r (checkReads t r l)

end Sys2Proof.Machine
end

