-- ==== Sys2Proof/Machine/Status.lean ====
section
/-! DEFINITION. STATUS_READ, IDENTIFY and LATCH_READ: the items of each status group in their order, the identification record, the latches
(R163 and R133; R173 for the layouts). -/

namespace Sys2Proof.Machine

open Sys2Proof

/-- The unit is in the commissioning state (R157): no unpoisoned CONTROL workstation in the window, whose entries have been read. -/
def Line.commissioning (l : Line) : Bool :=
  !(l.tables.unitMap.any fun e =>
    e.1 < l.config.windowSize && e.2.kind == .workstation && e.2.privilege == .control && !l.poisoned .unitMap e.1)

/-! ## Status groups -/

/-- An absent item of one, two or four bytes (R172). -/
def absent8 : Nat := 255
def absent16 : Nat := 65535
def absent32 : Nat := 4294967295

def ports : List Port := [.c, .f]

/-- Group UNIT. -/
def State.unitItems (s : State) : List Nat :=
  let l := s.line
  [boolCode l.jobs.timetable, boolCode l.jobs.power, boolCode l.jobs.incident, boolCode l.jobs.announce, boolCode l.clock.isSet,
    l.dayNumber, l.lineTime, l.timer.toNat, boolCode l.incidents.asserted, boolCode l.incidents.overflow,
    l.incidents.overflowCount, l.timetable.active, (l.timetable.activation.map Activation.bank).getD absent8,
    (l.timetable.activation.map Activation.day).getD absent16, (l.timetable.activation.map Activation.line).getD absent32,
    boolCode s.path.portC.up, boolCode s.path.portF.up, boolCode l.commissioning, s.mgmt.queue.length]

/-- One path counter of each port, Port C first. -/
def State.perPort (s : State) (c : PathCounter) : List Nat := ports.map fun p => (s.path.port p).counter c

/-- Several path counters port by port. -/
def State.portByPort (s : State) (cs : List PathCounter) : List Nat :=
  ports.flatMap fun p => cs.map fun c => (s.path.port p).counter c

/-- Group PATH, in the order of R21's table. -/
def State.pathItems (s : State) : List Nat :=
  s.perPort .frameError ++ s.perPort .otherFrame ++ s.perPort .telegram
    ++ s.portByPort [.dropLength, .dropCheck, .dropVersion, .dropShort]
    ++ s.perPort .good ++ s.perPort .invalidAddress ++ s.perPort .unmappedSource ++ s.perPort .kindMismatch
    ++ s.perPort .unhandled ++ s.perPort .forwardOverflow ++ s.perPort .flushed
    ++ s.portByPort (placers.map PathCounter.suppressed)
    ++ s.perPort .injected ++ s.perPort .forwarded ++ s.perPort .down

def Line.counterItems (l : Line) (cs : List Counter) : List Nat := cs.map l.counter

/-- Counters kept per index, each taking consecutive items in index order. -/
def Line.indexedItems (l : Line) (indices : List Nat) (cs : List (Nat → Counter)) : List Nat :=
  cs.flatMap fun c => indices.map fun i => l.counter (c i)

def Line.clockItems (l : Line) : List Nat := l.counterItems [.clockStep, .clockReject, .timeSkew]

def Line.trackingItems (l : Line) : List Nat :=
  l.counterItems [.unknownTrain, .badEvent, .invalidSegment, .missedPassage, .duplicateArrival, .unseenDeparture,
      .unexpectedDeparture, .fieldOverride, .autoBind]
    ++ sectionNumbers.map l.occupancy

def Line.regulationItems (l : Line) : List Nat :=
  l.counterItems [.unregulatedArrival, .headwayDropped, .staggerUnmet, .dwellOrder, .holdOrder, .releaseOrder, .unaddressedOrder,
      .delayAnnouncement, .unplacedAnnouncement]
    ++ sectionNumbers.map fun x => (l.reserved x).getD absent32

/-- The refusal reasons in the order of R92. -/
def refusalReasons : List Refused :=
  [.jobStopped, .range, .noRtu, .noBreaker, .localControl, .isolated, .occupied, .busy]

def Line.tractionItems (l : Line) : List Nat :=
  l.counterItems (.acceptedCommand :: refusalReasons.map Counter.refusedCommand)
    ++ l.counterItems [.trip, .closeAgainstIsolation, .unassignedReport, .cutPulse, .isolationPulse, .unconfirmedCommand,
      .restoreFailed]
    ++ (sectionNumbers.map fun x => (l.sectionDyn x).state.code)
    ++ (sectionNumbers.map fun x => (l.sectionDyn x).isolation)
    ++ sectionNumbers.map fun x => ((l.sectionDyn x).restoreDeadline.map BitVec.toNat).getD absent32

def Line.scannerItems (l : Line) : List Nat :=
  l.indexedItems substationNumbers [.readsSent, .writesSent, .scanOverrun, .retry, .silence, .recovery, .unsolicitedReply,
      .imageMismatch, .earthFault, .levelChange, .overload]
    ++ l.counterItems [.foreignReply, .stoppedReply] ++ sectionNumbers.map l.level

def Line.incidentItems (l : Line) : List Nat :=
  l.counterItems [.creation, .collapse, .reopen, .escalation, .displacement, .clear, .lostWhileStopped, .badAlarmCode, .unmatchedEnd,
    .unsentNotice, .unsentAlarm]

def Line.announceItems (l : Line) : List Nat :=
  l.indexedItems zoneNumbers [.admission, .merge, .playDisplacement, .fullDrop, .badTemplate, .expiry, .purge, .playsSent, .playRetry,
      .completedPlay, .busy, .unavailable, .noCompletion, .preEmption, .staleStatus]
    ++ l.counterItems [.foreignStatus]

def errorItems (e : Option ErrorRecord) : List Nat :=
  match e with
  | some r => [r.table.code, r.entry, r.time.toNat]
  | none => [absent8, absent16, absent32]

/-- The table and entry at a place of the Store, from the tables that begin at or before it. -/
def placeOf (place : Nat) : TableId × Nat :=
  storeTables.foldl (fun found t =>
    match t.base? with
    | some b => if b ≤ place then (t, place - b) else found
    | none => found) (.unitMap, place)

/-- Group STORE (log entry 31). -/
def Line.storeItems (l : Line) : List Nat :=
  (storeTables.map fun t => tget 0 l.store.corrected t.code)
    ++ (storeTables.map fun t => tget 0 l.store.uncorrectable t.code)
    ++ [l.store.scrubPasses] ++ errorItems l.store.lastCorrected ++ errorItems l.store.lastUncorrectable
    ++ [(placeOf l.store.scrubPosition).1.code, (placeOf l.store.scrubPosition).2]

def Mgmt.items (m : Mgmt) : List Nat := [m.served, m.busy, m.privilege, m.refused]

/-- The items of a status group (section 11.4). -/
def State.groupItems (s : State) : Nat → Option (List Nat)
  | 0 => some s.unitItems
  | 1 => some s.pathItems
  | 2 => some s.line.clockItems
  | 3 => some s.line.trackingItems
  | 4 => some s.line.regulationItems
  | 5 => some s.line.tractionItems
  | 6 => some s.line.scannerItems
  | 7 => some s.line.incidentItems
  | 8 => some s.line.announceItems
  | 9 => some s.line.storeItems
  | 10 => some s.mgmt.items
  | _ => none

/-- STATUS_READ (R163). A count outside 1 to 8 is answered RANGE (DESIGN CHOICE, log entry 53). -/
def statusRead (r : Request) (s : State) : Reply :=
  match s.groupItems r.table with
  | some items =>
    if r.count = 0 ∨ 8 < r.count ∨ items.length < r.index + r.count then .refuse .range
    else .done (((items.drop r.index).take r.count).flatMap be32)
  | none => .refuse .range

/-! ## IDENTIFY (R163) -/

/-- The capacities of the unit, in the order of R163. -/
def capacities : List Nat := [4096, 64, 1024, 16384, 96, 40, 512, 24, 12, 48, 32, 64, 128, 8, 32, 16, 4, 56]

/-- The identification record: vendor 731, part 4004, revision 1, the strap value, the capacities. -/
def identification (strap : Byte) : List Byte := be16 731 ++ be16 4004 ++ [1, strap] ++ capacities.flatMap be16

/-! ## LATCH_READ (R133) -/

/-- A latch in a reply; the values of an empty one are absent (log entry 15). -/
def Latch.bytes (l : Latch) : List Byte :=
  [u8 (boolCode l.captured.isSome)] ++ opt16 (l.captured.map Captured.serial) ++ opt8 (l.captured.map Captured.cls)
    ++ opt8 (l.captured.map fun c => c.location.kind.code) ++ opt8 (l.captured.map fun c => c.location.index)
    ++ opt32 (l.captured.bind Captured.time) ++ be16 l.nextCount

/-- The tiers that a LATCH_READ names: one, or all four. -/
def tiersOf? (n : Nat) : Option (List Nat) :=
  if n < 4 then some [n] else if n = 4 then some [0, 1, 2, 3] else none

def emptyLatches (tiers : List Nat) (l : Line) : Line :=
  { l with
    incidents := { l.incidents with latches := tiers.foldl (fun q k => q.set k .empty) l.incidents.latches } }

/-- LATCH_READ of one tier or of all (R133, R173). A tier above 4 is answered RANGE (DESIGN CHOICE, log entry 50). -/
def latchRead (r : Request) (l : Line) : Line × Reply :=
  match tiersOf? r.table with
  | some tiers =>
    (if masked r.mask 0 then emptyLatches tiers l else l,
      .done (tiers.flatMap fun k => (l.incidents.latches.get k).bytes))
  | none => (l, .refuse .range)

end Sys2Proof.Machine
end

