-- ==== Sys2Proof/Machine/Agent.lean ====
section
/-! DEFINITION. The Management Agent: the request queue, the checks of a served request, the operations and their replies
(09_management_telegrams.md, R155 to R157, R162, R164; the owners' rules for each operation). -/

namespace Sys2Proof.Machine

open Sys2Proof

/-! ## Operations (R155, R173) -/

inductive Operation where
  | tableRead
  | tableWrite
  | statusRead
  | identify
  | latchRead
  | bind
  | unbind
  | holdPlatform
  | releasePlatform
  | incidentAck
  | incidentClear
  | incidentDeclare
  | ttActivate
  | ttCancel
  | jobStop
  | jobStart
  | lineRestart
  deriving DecidableEq, Repr

/-- The operation codes of R173. -/
def Operation.code : Operation → Nat
  | .tableRead => 0
  | .tableWrite => 1
  | .statusRead => 2
  | .identify => 3
  | .latchRead => 4
  | .bind => 5
  | .unbind => 6
  | .holdPlatform => 7
  | .releasePlatform => 8
  | .incidentAck => 9
  | .incidentClear => 10
  | .incidentDeclare => 11
  | .ttActivate => 12
  | .ttCancel => 13
  | .jobStop => 14
  | .jobStart => 15
  | .lineRestart => 16

/-- The codes in use are those below this one. -/
def operationCount : Nat := 17

/-- The space of an operation: 0 for TABLE, 1 for CONTROL (R173). -/
def Operation.space (o : Operation) : Nat := if o.code ≤ 1 then 0 else 1

/-- How many bytes of data an operation's arguments require (R173); a TABLE_WRITE's are checked by R159. -/
def Operation.dataLength : Operation → Nat
  | .incidentDeclare => 1
  | .ttActivate => 4
  | .tableRead => 0
  | .tableWrite => 0
  | .statusRead => 0
  | .identify => 0
  | .latchRead => 0
  | .bind => 0
  | .unbind => 0
  | .holdPlatform => 0
  | .releasePlatform => 0
  | .incidentAck => 0
  | .incidentClear => 0
  | .ttCancel => 0
  | .jobStop => 0
  | .jobStart => 0
  | .lineRestart => 0

/-- The operation needs CONTROL privilege (R157): every one but TABLE_READ, STATUS_READ, IDENTIFY and LATCH_READ without the clear
flag. -/
def Operation.needsControl (o : Operation) (mask : BitVec 16) : Bool :=
  match o with
  | .tableRead => false
  | .statusRead => false
  | .identify => false
  | .latchRead => masked mask 0
  | .tableWrite => true
  | .bind => true
  | .unbind => true
  | .holdPlatform => true
  | .releasePlatform => true
  | .incidentAck => true
  | .incidentClear => true
  | .incidentDeclare => true
  | .ttActivate => true
  | .ttCancel => true
  | .jobStop => true
  | .jobStart => true
  | .lineRestart => true

/-- The privilege of a request from its translation, outside the commissioning state: none for anything but a workstation (R157). -/
def privilegeOf (translation : Option UnitEntry) : Option Privilege :=
  match translation with
  | some e => if e.kind = .workstation then some e.privilege else none
  | none => none

/-- A request has the privilege that its operation needs (R157). -/
def Line.privileged (l : Line) (o : Operation) (r : Request) : Bool :=
  l.commissioning
    || (match privilegeOf r.translation with
        | some .control => true
        | some .view => !o.needsControl r.mask
        | none => false)

/-- A request of an operation is well formed (R155). -/
def Operation.wellFormed (o : Operation) (r : Request) : Bool := r.space == o.space && o.dataLength ≤ r.data.length

/-- The checks made of a served request before its operation's own rule: the status of a refusal. -/
def Line.requestRefusal (l : Line) (o : Operation) (r : Request) : Option Status :=
  if !o.wellFormed r then some .range else if !l.privileged o r then some .privilege else none

/-! ## Replies and the queue (R155, R156) -/

/-- The MGMT_REPLY to a request (R155, R173). -/
def sendReply (r : Request) (reply : Reply) (l : Line) : Line :=
  emit .management .c kindMgmtReply r.source
    ([u8 r.operation, r.sequence, u8 reply.status.code] ++ be16 reply.index ++ reply.data) l

/-- The counters of a served request, which leaves the queue (R156, R165). -/
def Mgmt.finish (m : Mgmt) (status : Status) : Mgmt :=
  { m with
    queue := m.queue.drop 1
    validating := none
    served := saturate m.served
    privilege := if status = .privilege then saturate m.privilege else m.privilege
    refused := if status ≠ .privilege ∧ status ≠ .done then saturate m.refused else m.refused }

/-- The request at the head answered: what the step has left to do is done first, then the reply is produced and the request leaves. -/
def State.answer (r : Request) (reply : Reply) (l : Line) (s : State) : State :=
  { s with line := sendReply r reply (settle l), mgmt := s.mgmt.finish reply.status }

/-- Requests whose operation is none of the seventeen, answered RANGE as soon as they are at the head (R155; log entry 6). -/
def answerUnknown : Nat → State → State
  | 0, s => s
  | fuel + 1, s =>
    match s.mgmt.queue with
    | r :: _ =>
      if s.mgmt.validating.isNone && operationCount ≤ r.operation then
        answerUnknown fuel (s.answer r (.refuse .range) s.line)
      else s
    | [] => s

/-- The head request answered, and any unknown requests that follow it. -/
def State.conclude (r : Request) (reply : Reply) (l : Line) (s : State) : State :=
  answerUnknown s.mgmt.queue.length (s.answer r reply l)

/-- The request that an operation's command serves: the head, when it asks for that operation and nothing is being served over time. -/
def State.headFor (s : State) (o : Operation) : Option Request :=
  match s.mgmt.queue with
  | r :: _ => if s.mgmt.validating.isNone && r.operation == o.code then some r else none
  | [] => none

/-- The Unit Map entries of the window read for the commissioning state, on which the privilege of a well-formed request rests (R157, R166;
log entry 47). -/
def State.authorise (o : Operation) (r : Request) (s : State) : State :=
  if o.wellFormed r then s.onLine fun l => touchAll .unitMap (List.range l.config.windowSize) l else s

/-- A request already authorised, refused or given its operation's own effect. -/
def State.perform (o : Operation) (body : Request → State → Line × Reply) (r : Request) (s : State) : State :=
  match s.line.requestRefusal o r with
  | some status => s.conclude r (.refuse status) s.line
  | none => s.conclude r (body r s).2 (body r s).1

/-- The service of the head request by an operation whose effect is one change (R155 to R157). Without such a request nothing happens
(log entry 6). -/
def State.serve (o : Operation) (body : Request → State → Line × Reply) (s : State) : State :=
  match s.headFor o with
  | none => s
  | some r => (s.authorise o r).perform o body r

/-- A request handed to the agent (R156). -/
def State.handRequest (r : Request) (s : State) : State :=
  if s.mgmt.queue.length < 4 then
    answerUnknown (s.mgmt.queue.length + 1) { s with mgmt := { s.mgmt with queue := s.mgmt.queue ++ [r] } }
  else
    { s with line := sendReply r (.refuse .busy) s.line, mgmt := { s.mgmt with busy := saturate s.mgmt.busy } }

/-! ## Train operations -/

def bindOperation (r : Request) (l : Line) : Line × Reply :=
  match bindRequest r.table r.index l with
  | (l, status) => (l, .refuse status)

def unbindOperation (r : Request) (l : Line) : Line × Reply :=
  match unbindRequest r.table l with
  | (l, status) => (l, .refuse status)

/-- HOLD_PLATFORM and RELEASE_PLATFORM (R69). -/
def platformOperation (hold : Bool) (r : Request) (l : Line) : Line × Reply :=
  if 96 ≤ r.table then (l, .refuse .range) else (changeOperatorHold r.table hold l, .done [])

/-! ## Incident operations (R130 to R132) -/

/-- An acknowledgement that does not clear (R131). -/
def acknowledge (slot : Nat) (r : IncidentRecord) (l : Line) : Line :=
  let r := { r with state := .acknowledged, lastUpdate := l.timer }
  evaluateAlarm (noticeOf .acknowledged r (l.setRecord slot r))

def incidentAck (r : Request) (l : Line) : Line × Reply :=
  if r.index = 0 then (l, .refuse .range)
  else
    match l.recordOf? r.index with
    | none => (l, .refuse .invalid)
    | some (slot, record) =>
      if record.state ≠ .opened then (l, .refuse .state)
      else
        let l := touch .incidentClass record.cls l
        if record.conditionEnded && (l.classAs record.cls).autoClear then (clearRecord slot record l, .done [])
        else (acknowledge slot record l, .done [])

def incidentClear (r : Request) (l : Line) : Line × Reply :=
  if r.index = 0 then (l, .refuse .range)
  else
    match l.recordOf? r.index with
    | none => (l, .refuse .invalid)
    | some (slot, record) => if record.live then (clearRecord slot record l, .done []) else (l, .refuse .state)

/-- The outcome and serial of a declaration's reply (R130). -/
def RaiseOutcome.bytes : RaiseOutcome → List Byte
  | .created k => 0 :: be16 k
  | .collapsed k => 1 :: be16 k
  | .unrecorded => 2 :: be16 0

def incidentDeclare (r : Request) (l : Line) : Line × Reply :=
  match LocationKind.ofCode? (rd8 r.data 0) with
  | none => (l, .refuse .range)
  | some kind =>
    if r.table < 16 ∨ 63 < r.table ∨ kind.size ≤ r.index then (l, .refuse .range)
    else if !l.jobs.incident then (l, .refuse .state)
    else
      match takeRaise ⟨r.table, ⟨kind, r.index⟩, r.source, l.lineTime?, none⟩ l with
      | (l, outcome) => (l, .done outcome.bytes)

/-! ## Timetable operations (R32 to R35) -/

/-- The activation that a TT_ACTIVATE asks for (R173). -/
def Request.activation (r : Request) : Activation := ⟨r.table, r.index, rd32 r.data 0⟩

/-- An authorised TT_ACTIVATE: refused at once, or its validation begins (R32, R33). -/
def State.tryActivation (r : Request) (s : State) : State :=
  match s.line.requestRefusal .ttActivate r, s.line.activationRefusal r.activation with
  | some status, _ => s.conclude r (.refuse status) s.line
  | none, some status => s.conclude r (.refuse status) s.line
  | none, none => { s with mgmt := { s.mgmt with validating := some ⟨r.activation, s.line.timer⟩ } }

/-- TT_ACTIVATE (R32). -/
def State.beginActivation (s : State) : State :=
  match s.headFor .ttActivate with
  | none => s
  | some r => (s.authorise .ttActivate r).tryActivation r

/-- The outcome of a validation (R33, R34): a failed check, or the activation set, and taken at once when it is due. -/
def finishValidation (a : Activation) (l : Line) : Line × Reply :=
  match validate a.bank l with
  | (l, some f) => (l, ⟨.invalid, f.slot, u8 f.check.code :: be16 f.passage⟩)
  | (l, none) =>
    let l := { l with timetable := { l.timetable with activation := some a } }
    (checkActivation l, .done [u8 (boolCode (l.activationDue a))])

/-- The time by which a validation ends: 50 ms after its service began (R33; log entry 26). -/
def Validation.deadline (v : Validation) : Ticks := v.since + ms 50

/-- VALIDATION_END: the validation under way ends, at any moment within its bound (R33; log entry 26). -/
def State.endValidation (s : State) : State :=
  match s.mgmt.validating, s.mgmt.queue with
  | some v, r :: _ => s.conclude r (finishValidation v.wanted s.line).2 (finishValidation v.wanted s.line).1
  | _, _ => s

def cancelOperation (_ : Request) (l : Line) : Line × Reply :=
  match cancelActivation l with
  | (l, status) => (l, .refuse status)

/-! ## Job operations (R162) -/

def Jobs.running (j : Jobs) : Job → Bool
  | .timetable => j.timetable
  | .power => j.power
  | .incident => j.incident
  | .announce => j.announce

def Line.setJob (job : Job) (b : Bool) (l : Line) : Line :=
  match job with
  | .timetable => { l with jobs := { l.jobs with timetable := b } }
  | .power => { l with jobs := { l.jobs with power := b } }
  | .incident => { l with jobs := { l.jobs with incident := b } }
  | .announce => { l with jobs := { l.jobs with announce := b } }

/-- A RUNNING job stopped (R99, R116; the others have no stop effects on their records: R62, R137, R153). -/
def stopJob (job : Job) (l : Line) : Line × Reply :=
  match job with
  | .power =>
    if l.powerBusy then (l, .refuse .state) else (stopScanning ((stopTraction l).setJob .power false), .done [])
  | .timetable => (l.setJob .timetable false, .done [])
  | .incident => (l.setJob .incident false, .done [])
  | .announce => (l.setJob .announce false, .done [])

/-- A STOPPED job started after its start check (R84, R154), with its start effects (R62, R81, R99, R116, R154). -/
def startJob (job : Job) (l : Line) : Line × Reply :=
  match job with
  | .timetable => (startTimetable (l.setJob .timetable true), .done [])
  | .incident => (l.setJob .incident true, .done [])
  | .power =>
    let l := touchWiring l
    match l.wiringDisagreement with
    | some (kind, index) => (l, ⟨.invalid, index, [u8 kind]⟩)
    | none => (startScanning ((startTraction l).setJob .power true), .done [])
  | .announce =>
    let l := touchZones zoneNumbers l
    match l.zoneDisagreement with
    | some (z, p) => (l, ⟨.invalid, z, [2, u8 p]⟩)
    | none => (startAnnounce (l.setJob .announce true), .done [])

/-- JOB_STOP and JOB_START: `start` says which (R162). A job already in the state asked for is left as it is. -/
def jobOperation (start : Bool) (r : Request) (l : Line) : Line × Reply :=
  match Job.ofCode? r.table with
  | none => (l, .refuse .range)
  | some job =>
    if l.jobs.running job = start then (l, .done []) else if start then startJob job l else stopJob job l

/-! ## LINE_RESTART (R164) -/

/-- The line after a LINE_RESTART: jobs STOPPED and dynamic records at their reset values; the timer, the clock, the configuration, the
loaded tables, the Store, the counters, the active bank marker and the next-serial value are kept. -/
def restartLine (l : Line) : Line :=
  { l with
    jobs := .stopped
    timetable := { l.timetable with activation := none }
    tracker := .powerOn
    regulator := .powerOn
    traction := .powerOn
    scanner := .powerOn
    incidents := { Incidents.powerOn with nextSerial := l.incidents.nextSerial }
    announcer := .powerOn }

def restartOperation (_ : Request) (l : Line) : Line × Reply := (restartLine l, .done [])

end Sys2Proof.Machine
end

