-- ==== Sys2Proof/Machine/Classify.lean ====
section
/-! DEFINITION. The classifier: translation through the Unit Map and the decision, for each good telegram, whether it is forwarded and which
block takes it (01_the_telegram_path.md, R5 to R7 and R9 to R12). -/

namespace Sys2Proof.Machine

open Sys2Proof

/-! ## Translation (R5) -/

/-- The Unit Map index of an address: present when the window is enabled, the address lies in it and is neither 0 nor 65,535. -/
def Line.windowIndex? (l : Line) (address : Nat) : Option Nat :=
  if address = 0 ∨ address = 65535 then none
  else if l.config.windowBase ≤ address ∧ address < l.config.windowBase + l.config.windowSize then
    some (address - l.config.windowBase)
  else none

/-- The translation of an address: absent outside the window; a poisoned entry is taken as UNASSIGNED. -/
def translate (address : Nat) (l : Line) : Line × Option UnitEntry :=
  match l.windowIndex? address with
  | none => (l, none)
  | some k =>
    let l := touch .unitMap k l
    (l, some ((l.unitEntry? k).getD .initial))

/-! ## Takers (R9) -/

/-- The block that takes a telegram, with the object of the translation it is taken by. -/
inductive Taker where
  | clock
  | position (vehicle : Nat)
  | stopEvent (timingPoint : Nat)
  | points (substation : Nat)
  | ack (substation : Nat)
  | breakerCmd (substation : Nat)
  | paStatus (zone : Nat)
  | paRequest (zone : Nat)
  | alarm (location : Location)
  | management (translation : Option UnitEntry)
  deriving DecidableEq, Repr

/-- A telegram that a taker receives is forwarded all the same (R9): TIME, POSITION, STOP_EVENT and FIELD_ALARM. -/
def Taker.forwards : Taker → Bool
  | .clock => true
  | .position _ => true
  | .stopEvent _ => true
  | .alarm _ => true
  | .points _ => false
  | .ack _ => false
  | .breakerCmd _ => false
  | .paStatus _ => false
  | .paRequest _ => false
  | .management _ => false

/-- The kinds that the classifier translates by source (R6, R7). -/
def bySource (kind : Byte) : Bool :=
  kind == kindTime || kind == kindPosition || kind == kindStopEvent || kind == kindRtuPoints || kind == kindRtuAck
    || kind == kindPaStatus || kind == kindFieldAlarm

/-- The location that a FIELD_ALARM has from its source entry (R129). -/
def alarmLocation? (e : UnitEntry) : Option Location :=
  match e.kind with
  | .trainUnit => some ⟨.train, e.object⟩
  | .platform => some ⟨.timingPoint, e.object⟩
  | .paController => some ⟨.station, e.object⟩
  | .rtu => some ⟨.substation, e.object⟩
  | .unassigned => none
  | .workstation => none
  | .clock => none

/-- The taker of a telegram of a source-translated kind from a source with entry `e`; none is a kind mismatch (R7). -/
def takerBySource (kind : Byte) (e : UnitEntry) : Option Taker :=
  if kind = kindTime then (if e.kind = .clock then some .clock else none)
  else if kind = kindPosition then (if e.kind = .trainUnit then some (.position e.object) else none)
  else if kind = kindStopEvent then (if e.kind = .platform then some (.stopEvent e.object) else none)
  else if kind = kindRtuPoints then (if e.kind = .rtu then some (.points e.object) else none)
  else if kind = kindRtuAck then (if e.kind = .rtu then some (.ack e.object) else none)
  else if kind = kindPaStatus then (if e.kind = .paController then some (.paStatus e.object) else none)
  else (alarmLocation? e).map .alarm

/-- The taker of a command that is taken by its destination (R11). -/
def takerByDestination (kind : Byte) (e : UnitEntry) : Option Taker :=
  if kind = kindBreakerCmd then (if e.kind = .rtu then some (.breakerCmd e.object) else none)
  else if kind = kindPaRequest then (if e.kind = .paController then some (.paRequest e.object) else none)
  else none

/-- A telegram carries an invalid address: 0 or 65,535 as source, or 0 as destination (R5). -/
def Telegram.invalid (t : Telegram) : Bool := t.src == 0 || t.src == 65535 || t.dst == 0

/-- The classification of a telegram: its taker, if any, and what is counted about its source. -/
structure Verdict where
  taker : Option Taker
  counted : Option PathCounter
  deriving DecidableEq, Repr

/-- A telegram classified by its source (R5 to R7). -/
def classifyBySource (t : Telegram) (l : Line) : Line × Verdict :=
  match translate t.src l with
  | (l, none) => (l, ⟨none, none⟩)
  | (l, some e) =>
    if e.kind = .unassigned then (l, ⟨none, some .unmappedSource⟩)
    else
      match takerBySource t.kind e with
      | some taker => (l, ⟨some taker, none⟩)
      | none => (l, ⟨none, some .kindMismatch⟩)

/-- A telegram classified by its destination, when it arrives on Port C and is not addressed to the LX4 (R10, R11). -/
def classifyByDestination (t : Telegram) (l : Line) : Line × Verdict :=
  match translate t.dst l with
  | (l, some e) => (l, ⟨takerByDestination t.kind e, none⟩)
  | (l, none) => (l, ⟨none, none⟩)

/-- The classification of a good telegram (R9 to R12). One that carries an invalid address is untranslated whole (log entry 14), but
a management request addressed to the LX4 on Port C is taken all the same, with no translation. -/
def classify (port : Port) (t : Telegram) (l : Line) : Line × Verdict :=
  if t.kind = kindMgmtRequest then
    if port = .c ∧ t.dst = l.config.ownAddress then
      if t.invalid then (l, ⟨some (.management none), none⟩)
      else
        match translate t.src l with
        | (l, e) => (l, ⟨some (.management e), none⟩)
    else (l, ⟨none, none⟩)
  else if t.invalid then (l, ⟨none, none⟩)
  else if bySource t.kind then classifyBySource t l
  else if (t.kind = kindBreakerCmd ∨ t.kind = kindPaRequest) ∧ port = .c ∧ t.dst ≠ l.config.ownAddress then
    classifyByDestination t l
  else (l, ⟨none, none⟩)

/-- A telegram is forwarded: not when it is addressed to the LX4 (R10), else when nothing takes it or its taker lets it pass (R9). -/
def forwarded (own : Nat) (t : Telegram) (taker : Option Taker) : Bool :=
  t.dst != own
    && (match taker with
        | some k => k.forwards
        | none => true)

end Sys2Proof.Machine
end

