-- ==== Sys2Proof/Machine/Receive.lean ====
section
/-! DEFINITION. A received frame: counting, checks, classification, forwarding, the notice copy and the hand-off to the block that takes the
telegram (01_the_telegram_path.md, R2, R3, R9 to R14; R45, R129 for what a block does first with its telegram). -/

namespace Sys2Proof.Machine

open Sys2Proof

/-! ## What each block does with the telegram it is handed -/

/-- A POSITION handed to the Tracker for vehicle set `v` (R45, R62): event time, then segment (R172). The event time is decided, and a
skew counted, whatever the job's state (R9, R28). -/
def takePosition (v : Nat) (p : List Byte) (l : Line) : Line :=
  match eventTime (rd32 p 0) l with
  | (l, time) => if l.jobs.timetable then position v (rd16 p 4) time (heard v l) else l

/-- A STOP_EVENT handed to the Tracker from the platform controller `source` of timing point `p` (R45, R62): train unit address, event code,
event time (R172). The event time is decided, and a skew counted, for every event taken (R9, R28). An unknown train unit counts as that and
not as a bad event, whatever the event code, and both count whatever the job's state (DESIGN CHOICE, log entry 22). -/
def takeStopEvent (p source : Nat) (payload : List Byte) (l : Line) : Line :=
  match eventTime (rd32 payload 3) l with
  | (l, time) =>
    match translate (rd16 payload 0) l with
    | (l, e) =>
      match e.bind fun e => if e.kind = .trainUnit then some e.object else none with
      | none => l.bump .unknownTrain
      | some v =>
        if 2 ≤ rd8 payload 2 then l.bump .badEvent
        else if l.jobs.timetable then
          if rd8 payload 2 = 0 then arrive v p source time (heard v l) else depart v p source time (heard v l)
        else l

/-- An RTU_POINTS handed to the Scanner: feeder indications, rectifier current, echoed image (R172). -/
def pointsOf (p : List Byte) : Points :=
  ⟨⟨p.getD 0 0, p.getD 1 0, p.getD 2 0, p.getD 3 0⟩, rd16 p 4, BitVec.ofNat 16 (rd16 p 6)⟩

def takePointsTelegram (u source : Nat) (p : List Byte) (l : Line) : Line :=
  rtuTelegram u source (pointsTaken u source (pointsOf p)) l

def takeAckTelegram (u source : Nat) (p : List Byte) (l : Line) : Line :=
  rtuTelegram u source (ackTaken u (BitVec.ofNat 16 (rd16 p 0))) l

/-- A BREAKER_CMD intercepted: feeder, command, FORCE (R172). -/
def takeBreakerCmd (u : Nat) (t : Telegram) (l : Line) : Line :=
  breakerCommand u t.dst t.src (t.payload.getD 0 0) (t.payload.getD 1 0) (t.payload.getD 2 0) t.sequence l

/-- A PA_REQUEST's fields (R172): the parameter is present when its flag is set. -/
def paFields (p : List Byte) : PaRequest :=
  ⟨rd8 p 0, rd8 p 1, rd8 p 2, if flagSet (rd8 p 3) then some (rd16 p 4) else none, rd16 p 6⟩

/-- A FIELD_ALARM handed to the Incident Manager (R129): alarm code, indication, event time (R172). The event time is decided, and a
skew counted, for every alarm taken, a bad code among them (R9, R28). -/
def takeAlarm (loc : Location) (source : Nat) (p : List Byte) (l : Line) : Line :=
  match eventTime (rd32 p 2) l with
  | (l, time) =>
    let code := rd8 p 0
    if code < 16 ∨ 63 < code ∨ 2 ≤ rd8 p 1 then l.bump .badAlarmCode
    else if rd8 p 1 = 0 then raiseIncident code loc.kind loc.index source time l
    else conditionEnd code loc l

/-- A MGMT_REQUEST as the agent holds it (R12, R173). -/
def requestOf (t : Telegram) (translation : Option UnitEntry) : Request :=
  let p := t.payload
  ⟨t.src, translation, t.sequence, rd8 p 0, rd8 p 1, rd8 p 2, rd8 p 3, rd16 p 4, BitVec.ofNat 16 (rd16 p 6), p.drop 8⟩

/-- The hand-off of a telegram to the block that takes it (R9). -/
def State.handOff (t : Telegram) (taker : Taker) (s : State) : State :=
  match taker with
  | .clock => s.onLine (takeTime (rd16 t.payload 0) (rd32 t.payload 2))
  | .position v => s.onLine (takePosition v t.payload)
  | .stopEvent p => s.onLine (takeStopEvent p t.src t.payload)
  | .points u => s.onLine (takePointsTelegram u t.src t.payload)
  | .ack u => s.onLine (takeAckTelegram u t.src t.payload)
  | .breakerCmd u => s.onLine (takeBreakerCmd u t)
  | .paStatus z => s.onLine (paStatus z t.src (t.payload.getD 0 0) (rd8 t.payload 1))
  | .paRequest z => s.onLine (paRequest z t.dst t.src t.sequence (paFields t.payload))
  | .alarm loc => s.onLine (takeAlarm loc t.src t.payload)
  | .management translation => s.handRequest (requestOf t translation)

/-! ## Forwarding and the notice copy -/

/-- The notice copy of an RTU_POINTS handed to the Scanner (R13): always in direction F to C, so received as if on Port F. -/
def State.noticeCopy (frame : Frame) (taker : Taker) (s : State) : State :=
  match taker with
  | .points _ =>
    if s.line.config.noticeAddress = 0 then s
    else s.forwardFrom .f { frame with data := readdress frame.data s.line.config.noticeAddress }
  | _ => s

/-- A good telegram classified, counted, forwarded and handed off (R9, R10). -/
def State.takeTelegram (port : Port) (frame : Frame) (t : Telegram) (s : State) : State :=
  match classify port t s.line with
  | (l, verdict) =>
    let own := s.line.config.ownAddress
    let s := { s with line := l }
    let s := if t.invalid then s.countAt port .invalidAddress else s
    let s :=
      match verdict.counted with
      | some c => s.countAt port c
      | none => s
    let s := if t.dst = own ∧ verdict.taker.isNone then s.countAt port .unhandled else s
    let s := if forwarded own t verdict.taker then s.forwardFrom port frame else s
    match verdict.taker with
    | some taker => (s.noticeCopy frame taker).handOff t taker
    | none => s

/-- The counter of a drop reason (R3). -/
def DropReason.counter : DropReason → PathCounter
  | .length => .dropLength
  | .check => .dropCheck
  | .version => .dropVersion
  | .short => .dropShort

/-- The least frame data that the line's network carries (section 1.2); a frame with less is shorter than the least Ethernet frame
(log entry 13). -/
def leastFrameData : Nat := 46

/-- A telegram frame checked, and taken when it is good (R3). -/
def State.checkTelegram (port : Port) (frame : Frame) (s : State) : State :=
  match receiveChecks frame.data with
  | .dropped reason => s.countAt port reason.counter
  | .good t => (s.countAt port .good).takeTelegram port frame t

/-- A frame that arrives on a port (R1, R2): a DOWN port receives nothing. -/
def State.receive (port : Port) (frame : Frame) (s : State) : State :=
  if !(s.path.port port).up then s
  else if !frame.fcsGood || frame.data.length < leastFrameData then s.countAt port .frameError
  else if frame.frameType ≠ telegramType then (s.countAt port .otherFrame).forwardFrom port frame
  else (s.countAt port .telegram).checkTelegram port frame

/-- The end of a command (log entries 8 to 10): what it left to do is done, and the telegrams that it produced are placed. -/
def finish (s : State) : State := (s.onLine settle).flushOutbox

end Sys2Proof.Machine
end

