-- ==== Sys2Proof/Machine/ServiceCommands.lean ====
section
/-! DEFINITION. The commands that serve the request at the head of the request queue (R156). Each serves a head that asks for its operation;
otherwise nothing happens (log entry 6). -/

namespace Sys2Proof.Machine

open Sys2Proof

/-- TABLE_READ (R158). -/
def execTableRead (s : State) : Host.Outcome State Fault Refusal :=
  .next (finish (s.serve .tableRead (fun r s => tableRead r s.line)))

/-- TABLE_WRITE (R159). -/
def execTableWrite (s : State) : Host.Outcome State Fault Refusal :=
  .next (finish (s.serve .tableWrite (fun r s => tableWrite r s.line)))

/-- STATUS_READ (R163). -/
def execStatusRead (s : State) : Host.Outcome State Fault Refusal :=
  .next (finish (s.serve .statusRead (fun r s => (s.line, statusRead r s))))

/-- IDENTIFY (R163). -/
def execIdentify (s : State) : Host.Outcome State Fault Refusal :=
  .next (finish (s.serve .identify (fun _ s => (s.line, .done (identification s.line.strap)))))

/-- LATCH_READ (R133). -/
def execLatchRead (s : State) : Host.Outcome State Fault Refusal :=
  .next (finish (s.serve .latchRead (fun r s => latchRead r s.line)))

/-- BIND (R47). -/
def execBind (s : State) : Host.Outcome State Fault Refusal :=
  .next (finish (s.serve .bind (fun r s => bindOperation r s.line)))

/-- UNBIND (R48). -/
def execUnbind (s : State) : Host.Outcome State Fault Refusal :=
  .next (finish (s.serve .unbind (fun r s => unbindOperation r s.line)))

/-- HOLD_PLATFORM (R69). -/
def execHoldPlatform (s : State) : Host.Outcome State Fault Refusal :=
  .next (finish (s.serve .holdPlatform (fun r s => platformOperation true r s.line)))

/-- RELEASE_PLATFORM (R69). -/
def execReleasePlatform (s : State) : Host.Outcome State Fault Refusal :=
  .next (finish (s.serve .releasePlatform (fun r s => platformOperation false r s.line)))

/-- INCIDENT_ACK (R131). -/
def execIncidentAck (s : State) : Host.Outcome State Fault Refusal :=
  .next (finish (s.serve .incidentAck (fun r s => incidentAck r s.line)))

/-- INCIDENT_CLEAR (R132). -/
def execIncidentClear (s : State) : Host.Outcome State Fault Refusal :=
  .next (finish (s.serve .incidentClear (fun r s => incidentClear r s.line)))

/-- INCIDENT_DECLARE (R130). -/
def execIncidentDeclare (s : State) : Host.Outcome State Fault Refusal :=
  .next (finish (s.serve .incidentDeclare (fun r s => incidentDeclare r s.line)))

/-- TT_ACTIVATE (R32). -/
def execTtActivate (s : State) : Host.Outcome State Fault Refusal :=
  .next (finish s.beginActivation)

/-- TT_CANCEL (R35). -/
def execTtCancel (s : State) : Host.Outcome State Fault Refusal :=
  .next (finish (s.serve .ttCancel (fun r s => cancelOperation r s.line)))

/-- JOB_STOP (R162). -/
def execJobStop (s : State) : Host.Outcome State Fault Refusal :=
  .next (finish (s.serve .jobStop (fun r s => jobOperation false r s.line)))

/-- JOB_START (R162). -/
def execJobStart (s : State) : Host.Outcome State Fault Refusal :=
  .next (finish (s.serve .jobStart (fun r s => jobOperation true r s.line)))

/-- LINE_RESTART (R164). -/
def execLineRestart (s : State) : Host.Outcome State Fault Refusal :=
  .next (finish (s.serve .lineRestart (fun r s => restartOperation r s.line)))

end Sys2Proof.Machine
end

