-- ==== Sys2Proof/Machine/TelegramCommands.lean ====
section
/-! DEFINITION. The telegram commands: each is one frame received on a port that carries the telegram, built to the layout of R172, and
taken through the whole receive path (log entry 5). -/

namespace Sys2Proof.Machine

open Sys2Proof

/-- TIME (R26): day number, line time. -/
def execTime (port : Port) (head : Head) (day : BitVec 16) (lineTime : BitVec 32) (s : State) :
    Host.Outcome State Fault Refusal :=
  .next (finish (s.receive port (headFrame head kindTime (be16 day.toNat ++ be32 lineTime.toNat))))

/-- POSITION (R51): event time, segment. -/
def execPosition (port : Port) (head : Head) (eventTime : BitVec 32) (segment : BitVec 16) (s : State) :
    Host.Outcome State Fault Refusal :=
  .next (finish (s.receive port (headFrame head kindPosition (be32 eventTime.toNat ++ be16 segment.toNat))))

/-- STOP_EVENT (R45): train unit address, event code, event time. -/
def execStopEvent (port : Port) (head : Head) (trainUnit : BitVec 16) (event : Byte) (eventTime : BitVec 32) (s : State) :
    Host.Outcome State Fault Refusal :=
  .next (finish (s.receive port
    (headFrame head kindStopEvent (be16 trainUnit.toNat ++ [event] ++ be32 eventTime.toNat))))

/-- RTU_POINTS (R106): feeder indications, rectifier current, echoed image. -/
def execRtuPoints (port : Port) (head : Head) (f0 f1 f2 f3 : Byte) (current echo : BitVec 16) (s : State) :
    Host.Outcome State Fault Refusal :=
  .next (finish (s.receive port
    (headFrame head kindRtuPoints ([f0, f1, f2, f3] ++ be16 current.toNat ++ be16 echo.toNat))))

/-- RTU_ACK (R106): applied image. -/
def execRtuAck (port : Port) (head : Head) (image : BitVec 16) (s : State) : Host.Outcome State Fault Refusal :=
  .next (finish (s.receive port (headFrame head kindRtuAck (be16 image.toNat))))

/-- BREAKER_CMD (R91): feeder, command, FORCE. -/
def execBreakerCmd (port : Port) (head : Head) (feeder command force : Byte) (s : State) : Host.Outcome State Fault Refusal :=
  .next (finish (s.receive port (headFrame head kindBreakerCmd [feeder, command, force])))

/-- PA_STATUS (R146): tag, outcome. -/
def execPaStatus (port : Port) (head : Head) (tag outcome : Byte) (s : State) : Host.Outcome State Fault Refusal :=
  .next (finish (s.receive port (headFrame head kindPaStatus [tag, outcome])))

/-- PA_REQUEST (R152): template, priority, repeat count, parameter present, parameter, lifetime. -/
def execPaRequest (port : Port) (head : Head) (template prio repeats parameterPresent : Byte)
    (parameter lifetime : BitVec 16) (s : State) : Host.Outcome State Fault Refusal :=
  .next (finish (s.receive port
    (headFrame head kindPaRequest
      ([template, prio, repeats, parameterPresent] ++ be16 parameter.toNat ++ be16 lifetime.toNat))))

/-- FIELD_ALARM (R129): alarm code, indication, event time. -/
def execFieldAlarm (port : Port) (head : Head) (code indication : Byte) (eventTime : BitVec 32) (s : State) :
    Host.Outcome State Fault Refusal :=
  .next (finish (s.receive port (headFrame head kindFieldAlarm ([code, indication] ++ be32 eventTime.toNat))))

/-- MGMT_REQUEST (R156): the request header and the data of R173. -/
def execMgmtRequest (port : Port) (head : Head) (operation space table count : Byte) (index mask : BitVec 16)
    (data : List Byte) (s : State) : Host.Outcome State Fault Refusal :=
  .next (finish (s.receive port
    (headFrame head kindMgmtRequest
      ([operation, space, table, count] ++ be16 index.toNat ++ be16 mask.toNat ++ data))))

end Sys2Proof.Machine
end

