-- ==== Sys2Proof/Machine/Scrubber.lean ====
section
/-! DEFINITION. The scrubber of the Table Store (10_the_table_store.md, R170). -/

namespace Sys2Proof.Machine

open Sys2Proof

/-- The scrub period in milliseconds. -/
def Line.scrubPeriod (l : Line) : Nat := 1000 * l.config.scrubPeriod

/-- The start of the pass that the next visit belongs to: one scrub period after the start of the pass before it, with the period
as it stands when the visit comes due, or the start already fixed by the pass's first visit (R170). -/
def Line.passBegins (l : Line) : Ticks := if l.store.awaiting then l.store.passStart + ms l.scrubPeriod else l.store.passStart

/-- The time of visit `k` of the pass that the next visit belongs to, with the present period (R170). -/
def Line.visitTime (l : Line) (k : Nat) : Ticks := l.passBegins + ms (k * l.scrubPeriod / storeEntries)

/-- The next visit is due. -/
def Line.visitDue (l : Line) : Bool := reached (l.visitTime l.store.scrubPosition) l.timer

/-- The scrub-pass counter after a visit begins: it rises when a new pass begins (R170). -/
def Line.passesBegun (l : Line) : Nat := if l.store.awaiting then saturate l.store.scrubPasses else l.store.scrubPasses

/-- The first visit of a pass begins it: its start is fixed, and a pass after the first is counted (R170). -/
def beginPass (l : Line) : Line :=
  { l with store := { l.store with passStart := l.passBegins, awaiting := false, scrubPasses := l.passesBegun } }

/-- The position after a visit: the next entry, or the first entry of the first table, to wait for the next pass. -/
def advanceScrubber (l : Line) : Line :=
  if l.store.scrubPosition + 1 < storeEntries then
    { l with store := { l.store with scrubPosition := l.store.scrubPosition + 1 } }
  else
    { l with store := { l.store with scrubPosition := 0, awaiting := true } }

/-- SCRUB_VISIT: the entry at the scrubber's position is read, and the position moves on (R170). -/
def scrubVisit (l : Line) : Line :=
  if l.visitDue then
    advanceScrubber (touch (placeOf l.store.scrubPosition).1 (placeOf l.store.scrubPosition).2 (beginPass l))
  else l

end Sys2Proof.Machine
end

