-- ==== Sys2Proof/Machine/TimerCommands.lean ====
section
/-! DEFINITION. The commands of the service timer: a deadline or a time of a block that has been reached. A command whose deadline is absent
or not reached leaves the state as it is (log entry 4). -/

namespace Sys2Proof.Machine

open Sys2Proof

/-- LINE_TIME_ADVANCE (R24). -/
def execLineTimeAdvance (s : State) : Host.Outcome State Fault Refusal := .next (finish (s.onLine advanceLineTime))

/-- LOSS_DEADLINE of a vehicle set (R58). -/
def execLossDeadline (vehicle : Nat) (s : State) : Host.Outcome State Fault Refusal :=
  .next (finish (s.onLine fun l => if l.lossDue vehicle then loseTrain vehicle l else l))

/-- PULSE_END of a breaker (R94). -/
def execPulseEnd (breaker : Nat) (s : State) : Host.Outcome State Fault Refusal :=
  .next (finish (s.onLine (pulseEnded breaker)))

/-- EXPECT_UNTIL of a breaker (R95). -/
def execExpectUntil (breaker : Nat) (s : State) : Host.Outcome State Fault Refusal :=
  .next (finish (s.onLine (expectEnded breaker)))

/-- RESTORE_DEADLINE of a section (R96). -/
def execRestoreDeadline (sect : Nat) (s : State) : Host.Outcome State Fault Refusal :=
  .next (finish (s.onLine (restoreEnded sect)))

/-- SCAN_TIME of a substation (R104). -/
def execScanTime (substation : Nat) (s : State) : Host.Outcome State Fault Refusal :=
  .next (finish (s.onLine (scanTimeReached substation)))

/-- REPLY_DEADLINE of a substation (R107). -/
def execReplyDeadline (substation : Nat) (s : State) : Host.Outcome State Fault Refusal :=
  .next (finish (s.onLine (replyDeadlineReached substation)))

/-- AIRTIME_DEADLINE of a zone (R149). -/
def execAirtimeDeadline (zone : Nat) (s : State) : Host.Outcome State Fault Refusal :=
  .next (finish (s.onLine (airtimeReached zone)))

/-- RETRY_TIME of a zone (R148). -/
def execRetryTime (zone : Nat) (s : State) : Host.Outcome State Fault Refusal :=
  .next (finish (s.onLine (retryReached zone)))

/-- SWEEP (R143). -/
def execSweep (s : State) : Host.Outcome State Fault Refusal := .next (finish (s.onLine sweepAll))

/-- VALIDATION_END (R33). -/
def execValidationEnd (s : State) : Host.Outcome State Fault Refusal := .next (finish s.endValidation)

/-- SCRUB_VISIT (R170). -/
def execScrubVisit (s : State) : Host.Outcome State Fault Refusal := .next (finish (s.onLine scrubVisit))

end Sys2Proof.Machine
end

