-- ==== Sys2Proof/Machine/UnitCommands.lean ====
section
/-! DEFINITION. The commands of the unit as a whole and of its ports: power, links, frames and completed transmissions
(R1, R2, R18 to R20, R165). -/

namespace Sys2Proof.Machine

open Sys2Proof

/-- POWER_ON (R165): every block in its power-on state, with the strap value read; the commands that wait stay. -/
def execPowerOn (strap : Byte) (s : State) : Host.Outcome State Fault Refusal :=
  .next { State.powerOn strap with pending := s.pending }

/-- A port that goes UP; when both are UP the LINK_DOWN condition ends, if its flag is set (R20). -/
def State.raiseLink (port : Port) (s : State) : State :=
  let s := s.onPort port fun p => { p with up := true }
  if s.path.portC.up && s.path.portF.up && s.path.linkCondition then
    { s with path := { s.path with linkCondition := false } }.onLine (conditionEnd 14 ⟨.line, 0⟩)
  else s

/-- PORT_UP (R20). A port already UP stays as it is (log entry 4). -/
def execPortUp (port : Port) (s : State) : Host.Outcome State Fault Refusal :=
  .next (finish (if (s.path.port port).up then s else s.raiseLink port))

/-- A port that loses its link: everything queued for it is lost, LINK_DOWN is raised and the flag set (R19). The raise's time is the
current line time, absent while UNSET (DESIGN CHOICE, log entry 44: R19 gives its location and source alone). -/
def State.dropLink (port : Port) (s : State) : State :=
  let s := s.onPort port PortState.loseLink
  let s := s.onLine fun l => raiseIncident 14 .line 0 l.config.ownAddress l.lineTime? l
  { s with path := { s.path with linkCondition := true } }

/-- LINK_LOSS (R19). A port already DOWN stays as it is (log entry 4). -/
def execLinkLoss (port : Port) (s : State) : Host.Outcome State Fault Refusal :=
  .next (finish (if (s.path.port port).up then s.dropLink port else s))

/-- FRAME_RECEIVED (R2). -/
def execFrameReceived (port : Port) (frame : Frame) (s : State) : Host.Outcome State Fault Refusal :=
  .next (finish (s.receive port frame))

/-- TRANSMIT_COMPLETE (R18). -/
def execTransmitComplete (port : Port) (s : State) : Host.Outcome State Fault Refusal :=
  .next (finish (s.onPort port (PortState.complete s.line.arbiter)))

end Sys2Proof.Machine
end

