-- ==== Sys2Proof/Machine/Dispatch.lean ====
section
/-! DEFINITION. One arm for each command: a direct call of its meaning. -/

namespace Sys2Proof.Machine

open Sys2Proof

def exec (i : Instr) (s : State) : Host.Outcome State Fault Refusal :=
  match i with
  | .powerOn strap => Sys2Proof.Machine.execPowerOn strap s
  | .portUp port => Sys2Proof.Machine.execPortUp port s
  | .linkLoss port => Sys2Proof.Machine.execLinkLoss port s
  | .frameReceived port frame => Sys2Proof.Machine.execFrameReceived port frame s
  | .transmitComplete port => Sys2Proof.Machine.execTransmitComplete port s
  | .time port head day lineTime => Sys2Proof.Machine.execTime port head day lineTime s
  | .lineTimeAdvance => Sys2Proof.Machine.execLineTimeAdvance s
  | .position port head eventTime segment => Sys2Proof.Machine.execPosition port head eventTime segment s
  | .stopEvent port head trainUnit event eventTime => Sys2Proof.Machine.execStopEvent port head trainUnit event eventTime s
  | .lossDeadline vehicle => Sys2Proof.Machine.execLossDeadline vehicle s
  | .rtuPoints port head f0 f1 f2 f3 current echo => Sys2Proof.Machine.execRtuPoints port head f0 f1 f2 f3 current echo s
  | .rtuAck port head image => Sys2Proof.Machine.execRtuAck port head image s
  | .breakerCmd port head feeder command force => Sys2Proof.Machine.execBreakerCmd port head feeder command force s
  | .pulseEnd breaker => Sys2Proof.Machine.execPulseEnd breaker s
  | .expectUntil breaker => Sys2Proof.Machine.execExpectUntil breaker s
  | .restoreDeadline sect => Sys2Proof.Machine.execRestoreDeadline sect s
  | .scanTime substation => Sys2Proof.Machine.execScanTime substation s
  | .replyDeadline substation => Sys2Proof.Machine.execReplyDeadline substation s
  | .paStatus port head tag outcome => Sys2Proof.Machine.execPaStatus port head tag outcome s
  | .airtimeDeadline zone => Sys2Proof.Machine.execAirtimeDeadline zone s
  | .retryTime zone => Sys2Proof.Machine.execRetryTime zone s
  | .sweep => Sys2Proof.Machine.execSweep s
  | .paRequest port head template prio repeats parameterPresent parameter lifetime => Sys2Proof.Machine.execPaRequest port head template prio repeats parameterPresent parameter lifetime s
  | .fieldAlarm port head code indication eventTime => Sys2Proof.Machine.execFieldAlarm port head code indication eventTime s
  | .mgmtRequest port head operation space table count index mask data => Sys2Proof.Machine.execMgmtRequest port head operation space table count index mask data s
  | .tableRead => Sys2Proof.Machine.execTableRead s
  | .tableWrite => Sys2Proof.Machine.execTableWrite s
  | .statusRead => Sys2Proof.Machine.execStatusRead s
  | .identify => Sys2Proof.Machine.execIdentify s
  | .latchRead => Sys2Proof.Machine.execLatchRead s
  | .bind => Sys2Proof.Machine.execBind s
  | .unbind => Sys2Proof.Machine.execUnbind s
  | .holdPlatform => Sys2Proof.Machine.execHoldPlatform s
  | .releasePlatform => Sys2Proof.Machine.execReleasePlatform s
  | .incidentAck => Sys2Proof.Machine.execIncidentAck s
  | .incidentClear => Sys2Proof.Machine.execIncidentClear s
  | .incidentDeclare => Sys2Proof.Machine.execIncidentDeclare s
  | .ttActivate => Sys2Proof.Machine.execTtActivate s
  | .validationEnd => Sys2Proof.Machine.execValidationEnd s
  | .ttCancel => Sys2Proof.Machine.execTtCancel s
  | .jobStop => Sys2Proof.Machine.execJobStop s
  | .jobStart => Sys2Proof.Machine.execJobStart s
  | .lineRestart => Sys2Proof.Machine.execLineRestart s
  | .scrubVisit => Sys2Proof.Machine.execScrubVisit s

end Sys2Proof.Machine
end

