-- ==== Sys2Proof/Machine/Idle.lean ====
section
/-! DEFINITION. What the unit does when no command waits (log entries 1 and 2): it serves the request at the head of its queue, takes the
deadlines that are reached, or lets one millisecond of service time pass. -/

namespace Sys2Proof.Machine

open Sys2Proof

/-- The command that serves a request of an operation code. -/
def serviceCommand : Nat → List Instr
  | 0 => [.tableRead]
  | 1 => [.tableWrite]
  | 2 => [.statusRead]
  | 3 => [.identify]
  | 4 => [.latchRead]
  | 5 => [.bind]
  | 6 => [.unbind]
  | 7 => [.holdPlatform]
  | 8 => [.releasePlatform]
  | 9 => [.incidentAck]
  | 10 => [.incidentClear]
  | 11 => [.incidentDeclare]
  | 12 => [.ttActivate]
  | 13 => [.ttCancel]
  | 14 => [.jobStop]
  | 15 => [.jobStart]
  | 16 => [.lineRestart]
  | _ => []

/-- The service of the head request, when there is one and none is being served over time (R156). -/
def State.serviceDue (s : State) : List Instr :=
  match s.mgmt.queue with
  | r :: _ => if s.mgmt.validating.isNone then serviceCommand r.operation else []
  | [] => []

/-- The end of the validation under way, when it has reached its longest (R33). -/
def State.validationDue (s : State) : List Instr :=
  match s.mgmt.validating, s.mgmt.queue with
  | some v, _ :: _ => if reached v.deadline s.line.timer then [.validationEnd] else []
  | _, _ => []

/-- A zone's airtime deadline or retry time that is due. -/
def Line.zoneDue (l : Line) (z : Nat) : List Instr :=
  let d := l.zoneDyn z
  if d.state = .playing ∧ due d.airtimeDeadline l.timer then [.airtimeDeadline z]
  else if d.state = .retryWait ∧ d.current.isSome ∧ due d.retryTime l.timer then [.retryTime z]
  else []

/-- The deadlines of the line's blocks that are due, in the order of log entry 2. -/
def Line.deadlinesDue (l : Line) : List Instr :=
  ((breakerNumbers.filter fun b => due (l.breakerDyn b).pulseEnd l.timer).map .pulseEnd)
    ++ ((breakerNumbers.filter fun b => due (l.breakerDyn b).expectUntil l.timer).map .expectUntil)
    ++ ((sectionNumbers.filter fun x => due (l.sectionDyn x).restoreDeadline l.timer).map .restoreDeadline)
    ++ ((substationNumbers.filter fun u => due (l.substationDyn u).replyDeadline l.timer).map .replyDeadline)
    ++ ((substationNumbers.filter fun u => l.jobs.power && due (l.substationDyn u).nextScan l.timer).map .scanTime)
    ++ ((vehicles.filter l.lossDue).map .lossDeadline)
    ++ zoneNumbers.flatMap l.zoneDue
    ++ (if l.visitDue then [.scrubVisit] else [])

/-- Everything that is due at the present service time. -/
def State.due (s : State) : List Instr := s.serviceDue ++ s.validationDue ++ s.line.deadlinesDue

/-- One millisecond of service time (R23), with the events that fall on the new value: an advance of line time (R24) and the sweep (R143). -/
def State.tick (s : State) : State :=
  let s := s.onLine fun l => { l with timer := l.timer + 1 }
  { s with
    pending :=
      (if s.line.advancing then [Instr.lineTimeAdvance] else [])
        ++ (if s.line.timer.toNat % 1000 = 0 then [Instr.sweep] else []) }

/-- The step of an empty queue: what is due becomes the queue, or the timer advances. -/
def idle (s : State) : State := if s.due.isEmpty then s.tick else { s with pending := s.due }

end Sys2Proof.Machine
end

