-- ==== Sys2Proof/WellFormed.lean ====
section
/-! DEFINITION. When a command is well formed: its object exists, and its telegram fits the largest payload. -/

namespace Sys2Proof

/-- The largest payload of a telegram is 56 bytes (R3, R172): a kind whose fields take `fields` bytes leaves room
for the rest. -/
def Head.fits (h : Head) (fields : Nat) : Bool := fields + h.extra.length ≤ 56

/-- A command is well formed when the object it names is one of the line's (64 vehicle sets, 48 breakers, 24
sections, 12 substations, 40 zones; section 2.1) and the telegram it carries has a payload of at most 56 bytes.
An ill-formed command is still total in `exec`: its telegram is dropped for LENGTH, its object has no deadline. -/
def Instr.wellFormed : Instr → Bool
  | .powerOn _ => true
  | .portUp _ => true
  | .linkLoss _ => true
  | .frameReceived _ _ => true
  | .transmitComplete _ => true
  | .time _ h _ _ => h.fits 6
  | .lineTimeAdvance => true
  | .position _ h _ _ => h.fits 6
  | .stopEvent _ h _ _ _ => h.fits 7
  | .lossDeadline v => v < 64
  | .rtuPoints _ h _ _ _ _ _ _ => h.fits 8
  | .rtuAck _ h _ => h.fits 2
  | .breakerCmd _ h _ _ _ => h.fits 3
  | .pulseEnd b => b < 48
  | .expectUntil b => b < 48
  | .restoreDeadline x => x < 24
  | .scanTime u => u < 12
  | .replyDeadline u => u < 12
  | .paStatus _ h _ _ => h.fits 2
  | .airtimeDeadline z => z < 40
  | .retryTime z => z < 40
  | .sweep => true
  | .paRequest _ h _ _ _ _ _ _ => h.fits 8
  | .fieldAlarm _ h _ _ _ => h.fits 6
  | .mgmtRequest _ h _ _ _ _ _ _ data => h.fits (8 + data.length)
  | .tableRead => true
  | .tableWrite => true
  | .statusRead => true
  | .identify => true
  | .latchRead => true
  | .bind => true
  | .unbind => true
  | .holdPlatform => true
  | .releasePlatform => true
  | .incidentAck => true
  | .incidentClear => true
  | .incidentDeclare => true
  | .ttActivate => true
  | .validationEnd => true
  | .ttCancel => true
  | .jobStop => true
  | .jobStart => true
  | .lineRestart => true
  | .scrubVisit => true

end Sys2Proof
end

