-- ==== Sys2Proof/Safety.lean ====
section
/-! DEFINITION. What a sound state of the unit is: the conditions that every step keeps, those of a Table Store without errors, and the
relations that the chapters state between the fields of a record. -/

namespace Sys2Proof.Machine

open Sys2Proof

/-! ## A state without errors and without work left over -/

/-- No entry of the Store with a clear mark holds an error, so that a read changes nothing (R166). -/
def Store.errorFree (s : Store) : Bool := s.health.all fun e => e.2.poison || (e.2.singles == 0 && !e.2.double)

/-- The model's work lists are empty, as they are between steps (log entries 8 to 10). -/
def Line.idleWork (l : Line) : Bool := l.outbox.isEmpty && l.poisonWork.isEmpty && l.writeChecks.isEmpty

/-- Between steps, with no error in the Store. -/
def State.calm (s : State) : Bool := s.line.store.errorFree && s.line.idleWork

/-! ## The Telegram Path -/

/-- A port as the path leaves it: the queues within their capacities (R14, R15), a holding place occupied only while the inject queue is full (R16),
nothing held by a DOWN port (R1, R19), no telegram waiting at an UP port with an idle transmitter (R18), and the count from 0 to 8. -/
def PortState.ok (p : PortState) : Bool :=
  p.forward.length ≤ forwardCapacity && p.inject.length ≤ injectCapacity && p.consecutive ≤ 8
    && (p.holding.count == 0 || p.inject.length == injectCapacity)
    && (if p.up then p.transmitting.isSome || (p.forward.isEmpty && p.inject.isEmpty)
        else p.forward.isEmpty && p.inject.isEmpty && p.holding.count == 0 && p.transmitting.isNone)

/-! ## The Management Agent -/

/-- The request queue holds at most four requests (R156); a validation belongs to its head, and is of a bank and line time that R32 lets
through. -/
def Mgmt.ok (m : Mgmt) : Bool :=
  m.queue.length ≤ 4
    && (match m.validating with
        | none => true
        | some v => !m.queue.isEmpty && v.wanted.bank < 2 && v.wanted.line < dayLength)

/-! ## The loaded tables -/

/-- Every loaded table is in its canonical form. -/
def Tables.wf (t : Tables) : Bool :=
  twf UnitEntry.initial t.unitMap && twf RunRecord.initial t.run0 && twf RunRecord.initial t.run1
    && twf Passage.initial t.passage0 && twf Passage.initial t.passage1 && twf Segment.initial t.segment
    && twf TimingPoint.initial t.timingPoint && twf SectionEntry.initial t.sect && twf BreakerEntry.initial t.breaker
    && twf SubstationEntry.initial t.substation && twf ClassEntry.initial t.incidentClass && twf Template.initial t.template
    && twf ZoneEntry.initial t.zone

/-! The ranges of each table's configured fields: those of the owning chapter, and the widths of the fields of R174. -/

/-- The ranges of R161. -/
def LineConfig.inRange (c : LineConfig) : Bool :=
  c.windowBase ≤ 65472 && c.windowBase + c.windowSize ≤ 65536
    && (c.windowSize == 0 || (((List.range 7).any fun k => c.windowSize == 64 * 2 ^ k) && c.windowBase % c.windowSize == 0))
    && 1 ≤ c.ownAddress && c.ownAddress ≤ 65534 && c.noticeAddress ≤ 65535 && c.alarmAddress ≤ 65535 && 1 ≤ c.ratio && c.ratio ≤ 8
    && 5 ≤ c.lossTimeout && c.lossTimeout ≤ 300 && 600 ≤ c.majorDelay && c.majorDelay ≤ 9000 && 1 ≤ c.scrubPeriod && c.scrubPeriod ≤ 60

/-- The ranges of section 1.3 and R160. -/
def UnitEntry.inRange (e : UnitEntry) : Bool :=
  (match e.kind with
    | .trainUnit => e.object ≤ 63
    | .platform => e.object ≤ 95
    | .paController => e.object ≤ 39
    | .rtu => e.object ≤ 11
    | .unassigned => e.object == 0
    | .workstation => e.object == 0
    | .clock => e.object == 0)
    && (e.kind == .workstation || e.privilege == .view)

/-- A run record has no range check (R31): only the widths of its fields bound it. -/
def RunRecord.inRange (r : RunRecord) : Bool := r.number < 65536 && r.firstPassage < 65536 && r.passages < 256

/-- The ranges of R31. -/
def Passage.inRange (p : Passage) : Bool := p.timingPoint < 256 && p.departure < dayLength && p.dwell ≤ 2550

/-- The ranges of R41. -/
def Segment.inRange (g : Segment) : Bool := g.sect < 24 && (g.timingPoint.all fun p => p < 96) && g.station.all fun n => n < 40

/-- The ranges of R64. -/
def TimingPoint.inRange (e : TimingPoint) : Bool :=
  e.station ≤ 39 && (e.controller.all fun k => k ≤ 4095) && e.departureSection ≤ 23 && e.dmin ≤ e.dmax && e.dmax ≤ 2550
    && e.weight ≤ 16 && e.gain ≤ 32 && e.horizon ≤ 36000 && e.threshold ≤ 36000 && e.releaseDwell ≤ 255

/-- The ranges of R83. -/
def SectionEntry.inRange (e : SectionEntry) : Bool :=
  e.feeders.length ≤ 4 && (e.feeders.all fun b => b ≤ 47) && e.feeders.Nodup && e.i1 ≤ 600 && e.i2 ≤ 600 && 1 ≤ e.restoreTimeout && e.restoreTimeout ≤ 30

/-- The range of R84. -/
def BreakerEntry.inRange (e : BreakerEntry) : Bool := e.sect.all fun x => x < 24

/-- The ranges of R101. -/
def SubstationEntry.inRange (e : SubstationEntry) : Bool :=
  (e.rtu.all fun k => k ≤ 4095) && 100 ≤ e.scanPeriod && e.scanPeriod ≤ 5000 && 10 ≤ e.replyTimeout && e.replyTimeout ≤ 1000
    && e.retryLimit ≤ 3 && 100 ≤ e.pulseLength && e.pulseLength ≤ 2000 && e.l1 < e.l2 && e.l2 < e.l3 && e.l3 ≤ 16000
    && e.hysteresis ≤ 2000 && e.hysteresis < e.l1

/-- The ranges of R119. -/
def ClassEntry.inRange (i : Nat) (e : ClassEntry) : Bool :=
  i != 0 && (16 ≤ i || e.defined) && (e.announceTemplate.all fun t => t ≤ 127) && (e.allClear.all fun t => t ≤ 127)
    && e.escalation ≤ 255 && e.escalation != 1 && (!e.effects.announce || e.announceTemplate.isSome)
    && (e.severity == .major || e.severity == .critical || (!e.effects.isolate && !e.effects.hold))

/-- The ranges of R139. -/
def Template.inRange (t : Template) : Bool :=
  1 ≤ t.fragments.length && t.fragments.length ≤ 8 && (t.fragments.all fun n => n ≤ 4095)
    && (t.position.all fun k => k ≤ t.fragments.length) && 1 ≤ t.airtime && t.airtime ≤ 60 && 1 ≤ t.repeats && t.repeats ≤ 4
    && 10 ≤ t.lifetime && t.lifetime ≤ 3600

/-- The ranges of R140. -/
def ZoneEntry.inRange (e : ZoneEntry) : Bool :=
  (e.controller.all fun k => k ≤ 4095) && e.timingPoints.length ≤ 4 && (e.timingPoints.all fun p => p ≤ 95) && e.timingPoints.Nodup && 1 ≤ e.retryDelay && e.retryDelay ≤ 30
    && 1 ≤ e.rotation && e.rotation ≤ 4

/-- Every listed entry of every loaded table is within its ranges. -/
def Tables.inRange (t : Tables) : Bool :=
  (t.unitMap.all fun e => e.2.inRange) && (t.run0.all fun e => e.2.inRange) && (t.run1.all fun e => e.2.inRange)
    && (t.passage0.all fun e => e.2.inRange) && (t.passage1.all fun e => e.2.inRange) && (t.segment.all fun e => e.2.inRange)
    && (t.timingPoint.all fun e => e.2.inRange) && (t.sect.all fun e => e.2.inRange) && (t.breaker.all fun e => e.2.inRange)
    && (t.substation.all fun e => e.2.inRange) && (t.incidentClass.all fun e => e.2.inRange e.1)
    && (t.template.all fun e => e.2.inRange) && t.zone.all fun e => e.2.inRange

/-! ## The whole unit -/

/-- The invariant of the unit: both ports and the agent as above, the line configuration and the loaded tables within their ranges, the
tables canonical, the anchor's line time inside the day (R25), and no work left over. -/
def State.ok (s : State) : Bool :=
  s.path.portC.ok && s.path.portF.ok && s.mgmt.ok && s.line.config.inRange && s.line.tables.wf && s.line.tables.inRange
    && s.line.clock.anchorLine < dayLength && s.line.idleWork

/-! ## Trains -/

/-- The relations of R43 and R44 within a Train Table entry: the section is present exactly when the last segment is; a train is HELD exactly when
it is at a timing point, not LOST, with a hold cause; a RUNNING train is at no timing point and holds no cause; a LOST train keeps
what it had. -/
def Train.ok (t : Train) : Bool :=
  t.sect.isSome == t.lastSegment.isSome
    && (match t.state with
        | .running => t.timingPoint.isNone && t.holds.isEmpty
        | .dwelling => t.timingPoint.isSome && t.holds.isEmpty
        | .held => t.timingPoint.isSome && !t.holds.isEmpty
        | .lost =>
          match t.stateBeforeLoss with
          | .running => t.timingPoint.isNone && t.holds.isEmpty
          | .dwelling => t.timingPoint.isSome
          | .held => t.timingPoint.isSome
          | .lost => false)

/-- Every Train Table entry keeps those relations. -/
def Line.trainsOk (l : Line) : Prop := ∀ v, (l.train v).ok = true

/-! ## Occupancy -/

/-- The active trains that are not LOST and stand in section `x` (R57). -/
def Line.trainsIn (l : Line) (x : Nat) : Nat :=
  (l.tracker.trains.filter fun e => e.2.active && e.2.state != .lost && e.2.sect == some x).length

/-- The occupancy counts are right: the Train Table is canonical, a train that is not active has no place, and each section's
count is the number of its trains (R57). -/
def Line.occupancyOk (l : Line) : Prop :=
  twf Train.inactive l.tracker.trains = true
    ∧ (∀ v, (l.train v).active = false → (l.train v).lastSegment = none ∧ (l.train v).sect = none)
    ∧ ∀ x, l.occupancy x = l.trainsIn x

/-! ## Incidents -/

/-- The incident records are as the chapter says: at most 32 slots in rising order; serials from 1 to 65,535, no two alike (R121); no two live
records of one collapse key (R123); counts from 1 to 255; no section twice in a coverage. -/
def Incidents.recordsOk (i : Incidents) : Prop :=
  trising i.slots = true ∧ (∀ e, e ∈ i.slots → e.1 < 32)
    ∧ (∀ slot r, tfind i.slots slot = some r →
        1 ≤ r.serial ∧ r.serial ≤ 65535 ∧ 1 ≤ r.count ∧ r.count ≤ 255 ∧ r.coverage.sections.Nodup)
    ∧ (∀ a b r q, tfind i.slots a = some r → tfind i.slots b = some q → r.serial = q.serial → a = b)
    ∧ (∀ a b r q, tfind i.slots a = some r → tfind i.slots b = some q → r.state ≠ .cleared → q.state ≠ .cleared → r.cls = q.cls →
        r.location = q.location → a = b)
    ∧ 1 ≤ i.nextSerial ∧ i.nextSerial ≤ 65535

/-- The records are as the chapter says, and the alarm summary is ASSERTED exactly when some OPEN record carries ALARM or the overflow flag is
set (R135). -/
def Line.incidentsOk (l : Line) : Prop := l.incidents.recordsOk ∧ l.incidents.asserted = l.alarmNow

/-! ## Bindings -/

/-- A run slot's record as the tables hold it, whatever its poison mark. -/
def Line.storedRun (l : Line) (bank slot : Nat) : RunRecord := tget .initial (l.tables.runs bank) slot

/-- No two valid runs of a bank carry one number, which validation has checked (R33). -/
def Line.numbersOk (l : Line) (bank : Nat) : Prop :=
  ∀ a b, a < 1024 → b < 1024 → (l.storedRun bank a).valid = true → (l.storedRun bank b).valid = true →
    (l.storedRun bank a).number = (l.storedRun bank b).number → a = b

/-- The bindings agree in both directions (R46): a bound train's run is a valid run of the active bank bound to that train, and a run bound to a
train is the train's run and NOT_STARTED or ACTIVE; an ACTIVE run is bound. The active bank and a pending one are bank 0 or 1 and have
passed validation where the numbers of their runs are concerned. -/
def Line.bindingsOk (l : Line) : Prop :=
  (∀ v slot, (l.train v).run = some slot →
      v < 64 ∧ slot < 1024 ∧ (l.storedRun l.timetable.active slot).valid = true ∧ (l.runStatus slot).vehicle = some v)
    ∧ (∀ slot v, (l.runStatus slot).vehicle = some v →
        (l.train v).run = some slot ∧ ((l.runStatus slot).state = .notStarted ∨ (l.runStatus slot).state = .active))
    ∧ (∀ slot, (l.runStatus slot).state = .active → (l.runStatus slot).vehicle.isSome = true)
    ∧ l.timetable.active < 2 ∧ l.numbersOk l.timetable.active
    ∧ ∀ a, l.timetable.activation = some a → a.bank < 2 ∧ l.numbersOk a.bank

/-- A search over the run slots drops train `w` when it reads slot `k`: the record is poisoned, the train is bound to it, and TIMETABLE is
RUNNING (R39, R47, R49, R60; log entry 51). -/
abbrev Line.searchDrops (l : Line) (k w : Nat) : Prop :=
  l.jobs.timetable = true ∧ l.usable (runId l.timetable.active) k = false ∧ (l.runStatus k).vehicle = some w ∧ (l.train w).run = some k

/-- A search over the run slots below `n` drops no train. -/
abbrev Line.searchLeaves (l : Line) (n : Nat) : Prop := ∀ k, k < n → ∀ w, ¬l.searchDrops k w

/-- What a drop leaves of run slot `k`, whose state was that of `old` (R60): an ACTIVE run is CANCELLED, and no vehicle set is bound. -/
abbrev Line.droppedFrom (l old : Line) (k : Nat) : Prop :=
  l.runStatus k = ⟨if (old.runStatus k).state = .active then .cancelled else (old.runStatus k).state, none⟩

/-- Train `w` is without a run, as a drop leaves it (R60). -/
abbrev Line.unboundTrain (l : Line) (w : Nat) : Prop :=
  (l.train w).run = none ∧ (l.train w).lateness = none ∧ (l.train w).announcedDelay = 0

/-- Run slot `slot` is a candidate for an auto-bind of a train departing from `p` at time `e`, at distance `d` (R49). -/
def Line.offers (l : Line) (p e slot d : Nat) : Prop :=
  slot < 1024 ∧ l.runStatus slot = ⟨.notStarted, none⟩
    ∧ ∃ r k, l.run? l.timetable.active slot = some r ∧ r.valid = true ∧ l.passage? l.timetable.active r.firstPassage = some k
      ∧ k.timingPoint = p ∧ d = (diff e k.departure).natAbs ∧ d ≤ 1200

/-! ## The plant -/

/-- Each section's isolation count is the number of records that are not CLEARED, carry ISOLATE and cover it (R97). -/
def Line.isolationOk (l : Line) : Prop :=
  ∀ x, (l.sectionDyn x).isolation
    = (l.incidents.slots.filter fun e =>
        e.2.state != .cleared && e.2.effects.isolate && e.2.coverage.sections.contains x).length

/-- The relations of R84 within a breaker's record: pulse end and command section are present exactly while a pulse is outstanding, which is while
its output is not idle (R103), and expect until exactly while a command is pending. -/
def Line.breakerOk (l : Line) (b : Nat) : Prop :=
  ((l.breakerDyn b).pulseEnd.isSome = true ↔ l.output b ≠ .none)
    ∧ ((l.breakerDyn b).commandSection.isSome = true ↔ (l.breakerDyn b).pulseEnd.isSome = true)
    ∧ ((l.breakerDyn b).expectUntil.isSome = true ↔ (l.breakerDyn b).pending ≠ .none)

/-- The relations and ranges of R102 within a substation's record: a reply deadline exactly while a request is outstanding; a request outstanding
in AWAIT_REPLY, none in IDLE, and no write in SILENT. -/
abbrev SubstationDyn.ok (d : SubstationDyn) : Prop :=
  (d.replyDeadline.isSome = true ↔ d.outstanding ≠ .none) ∧ (d.scan = .awaitReply → d.outstanding ≠ .none)
    ∧ (d.scan = .idle → d.outstanding = .none) ∧ (d.scan = .silent → d.outstanding ≠ .write)
    ∧ d.retries ≤ 3 ∧ d.level ≤ 3 ∧ d.lowCount ≤ 3

/-- The relations of R83 and R85 within a section's record: ISOLATED exactly while its isolation count is above 0, and then without a restore
deadline (R97). -/
abbrev SectionDyn.ok (d : SectionDyn) : Prop :=
  (d.state = .isolated ↔ 0 < d.isolation) ∧ (0 < d.isolation → d.restoreDeadline = none)

def Line.plantOk (l : Line) : Prop :=
  (∀ b, l.breakerOk b) ∧ (∀ u, (l.substationDyn u).ok) ∧ ∀ x, (l.sectionDyn x).ok

/-! ## Zones -/

/-- A zone as the chapter says (R140 to R142): at most 8 entries queued, in the order of their priority groups, no two of them equal and none equal to the
current play; a current play exactly in PLAYING and RETRY_WAIT, an airtime deadline exactly in PLAYING, and a retry time exactly in
RETRY_WAIT. -/
def ZoneDyn.ok (d : ZoneDyn) : Prop :=
  d.queue.length ≤ 8 ∧ (d.queue.Pairwise fun a b => a.prio.code ≤ b.prio.code ∧ a.sameAs b = false)
    ∧ (∀ play e, d.current = some play → e ∈ d.queue → e.sameAs play.entry = false)
    ∧ (d.current.isSome = true ↔ d.state ≠ .idle) ∧ (d.airtimeDeadline.isSome = true ↔ d.state = .playing)
    ∧ (d.retryTime.isSome = true ↔ d.state = .retryWait)

def Line.zonesOk (l : Line) : Prop := ∀ z, (l.zoneDyn z).ok

/-! ## Where a telegram is taken -/

/-- The unpoisoned Unit Map entry to which an address translates (R5). -/
def Line.mapped (l : Line) (address : Nat) : Option UnitEntry := (l.windowIndex? address).bind l.unitEntry?

/-- A unit of a kind and object stands at an address. -/
abbrev Line.unitAt (l : Line) (address : Nat) (kind : UnitKind) (object : Nat) : Prop :=
  (l.mapped address).map (fun e => (e.kind, e.object)) = some (kind, object)

/-- A telegram command whose kind has `fields` bytes of fields arrives as a good telegram with a valid destination: the port is UP, the
payload fits, and the destination is not 0 (R1, R3, R5). -/
def State.accepts (s : State) (port : Port) (head : Head) (fields : Nat) : Bool :=
  (s.path.port port).up && head.fits fields && head.dst != 0

/-- What a good telegram counts at its port before anything else (R2, R3). -/
def State.countGood (port : Port) (s : State) : State := (s.countAt port .telegram).countAt port .good

/-- The state after a good telegram that is taken and let pass: counted, and forwarded unless it is addressed to the LX4 (R9, R10). -/
def State.passOn (s : State) (port : Port) (head : Head) (kind : Byte) (fields : List Byte) : State :=
  if head.dst.toNat = s.line.config.ownAddress then s.countGood port
  else (s.countGood port).forwardFrom port (headFrame head kind fields)

/-- Telegrams placed one after the other (R15). -/
def State.placeAll (os : List Outgoing) (s : State) : State := os.foldl (fun s o => s.place o) s

/-- An event time that is used as it is carried: the clock is SET, the time lies in the day, and within 300 ds of the line time (R28). -/
abbrev Line.timely (l : Line) (e : Nat) : Prop := l.clock.isSet = true ∧ e < 864000 ∧ (diff e l.lineTime).natAbs ≤ 300

/-- The event time that a field event carrying `e` is used with: absent while the clock is UNSET, `e` when it is timely, else the line time at
arrival (R28). -/
def Line.eventTimeOf (l : Line) (e : Nat) : Option Nat :=
  if l.clock.isSet = false then none else if l.timely e then some e else some l.lineTime

/-- The line after the time of a field event has been decided: a time out of range while the clock is SET is counted as a skew (R28, R29). -/
def Line.timed (l : Line) (e : Nat) : Line := if l.clock.isSet = true ∧ ¬l.timely e then l.bump .timeSkew else l

/-- The passage `k` of run `r` is the next one of the train `v`, bound to `slot`, and all three can be read. -/
abbrev Line.nextIs (l : Line) (v slot : Nat) (r : RunRecord) (k : Passage) : Prop :=
  (l.train v).run = some slot ∧ l.run? l.timetable.active slot = some r ∧ (l.train v).nextPassage < r.firstPassage + r.passages
    ∧ l.passage? l.timetable.active (l.train v).nextPassage = some k

/-- The hold causes of timing point `p` from the inputs as they stand, for an entry that can be read (R66). -/
def Line.causesAt (l : Line) (p : Nat) (e : TimingPoint) : HoldCauses :=
  { power := (l.sectionDyn e.departureSection).state == .dead || (l.sectionDyn e.departureSection).state == .isolated
    overload := l.level e.departureSection == 3
    incident := l.incidents.slots.any fun slot => slot.2.holdTold && slot.2.coverage.timingPoints.contains p
    operator := l.operatorHold p }

/-- A latch that considers an incident: empty it captures it, full it counts it, up to 65,535 (R133). -/
def Latch.considers (latch : Latch) (c : Captured) : Latch :=
  match latch.captured with
  | none => { latch with captured := some c }
  | some _ => { latch with nextCount := Nat.min (latch.nextCount + 1) 65535 }

/-- A STOP_EVENT of a RUNNING train without causes at a timing point whose entry can be read, while TIMETABLE is RUNNING: the case in which
its arrival is handed to the Regulator (R54). -/
abbrev State.arrives (s : State) (port : Port) (h : Head) (u : BitVec 16) (p v : Nat) (q : TimingPoint) : Prop :=
  s.calm = true ∧ s.accepts port h 7 = true ∧ s.line.unitAt h.src.toNat .platform p ∧ s.line.unitAt u.toNat .trainUnit v
    ∧ s.line.jobs.timetable = true ∧ (s.line.train v).state = .running ∧ (s.line.train v).holds = .empty
    ∧ s.line.timingPoint? p = some q

/-- The train `v` stands at `p`, or is LOST and stood there: DWELLING or HELD, or LOST from one of them (R44, R59). -/
abbrev Train.stoodAt (t : Train) (p : Nat) : Prop :=
  t.timingPoint = some p
    ∧ (t.standing = true ∨ (t.state = .lost ∧ (t.stateBeforeLoss = .dwelling ∨ t.stateBeforeLoss = .held)))

/-- The train runs, or is LOST and ran (R44, R59). -/
abbrev Train.ran (t : Train) : Prop := t.state = .running ∨ (t.state = .lost ∧ t.stateBeforeLoss = .running)

/-- No record of TRAIN_LOST for the train `v` would be cleared by the end of its condition: there is none, it is OPEN, or its end has been
reported (R134). -/
abbrev Line.lossStands (l : Line) (v : Nat) : Prop :=
  ∀ slot old, l.liveRecord? 7 ⟨.train, v⟩ = some (slot, old) → old.state = .opened ∨ old.conditionEnded = true

/-! ## Telegrams to the centre -/

/-- The INCIDENT_NOTICE of an event with an incident body, where there is a notice address (R136). -/
def Line.notice (l : Line) (event : NoticeEvent) (body : List Byte) : List Outgoing :=
  if l.config.noticeAddress = 0 then []
  else [⟨.incident, .c, ⟨kindIncidentNotice, l.config.noticeAddress, u8 event.code :: body⟩⟩]

/-- The ALARM_STATE of an event that leaves the line as `l`: sent where the event changed the alarm summary from `before`, and there is an
alarm address (R135). -/
def Line.alarmTelegram (l : Line) (before : Bool) : List Outgoing :=
  if l.incidents.asserted = before ∨ l.config.alarmAddress = 0 then []
  else
    [⟨.incident, .c,
      ⟨kindAlarmState, l.config.alarmAddress,
        [u8 (boolCode l.incidents.asserted), u8 l.openAlarms, u8 (boolCode l.incidents.overflow)]⟩⟩]

/-! ## The service of requests -/

/-- Every request that waits asks for one of the seventeen operations. -/
def Mgmt.known (m : Mgmt) : Bool := m.queue.all fun r => r.operation < operationCount

/-- The head request is `r`, it asks for operation `o` and is not refused before the operation's own rule, and the Store holds no error. -/
abbrev State.serves (s : State) (o : Operation) (r : Request) : Prop :=
  s.calm = true ∧ s.mgmt.known = true ∧ s.headFor o = some r ∧ s.line.requestRefusal o r = none

/-- The unit after its head request `r` has been answered, with nothing else changed: the request has left and is counted, and the
MGMT_REPLY is placed (R155, R156; which counter counts it: log entry 30). -/
def State.replied (s : State) (r : Request) (reply : Reply) : State :=
  ({ s with mgmt := s.mgmt.finish reply.status } : State).place
    ⟨.management, .c,
      ⟨kindMgmtReply, r.source, [u8 r.operation, r.sequence, u8 reply.status.code] ++ be16 reply.index ++ reply.data⟩⟩

/-- The command that serves an operation. -/
def Operation.command : Operation → Instr
  | .tableRead => .tableRead
  | .tableWrite => .tableWrite
  | .statusRead => .statusRead
  | .identify => .identify
  | .latchRead => .latchRead
  | .bind => .bind
  | .unbind => .unbind
  | .holdPlatform => .holdPlatform
  | .releasePlatform => .releasePlatform
  | .incidentAck => .incidentAck
  | .incidentClear => .incidentClear
  | .incidentDeclare => .incidentDeclare
  | .ttActivate => .ttActivate
  | .ttCancel => .ttCancel
  | .jobStop => .jobStop
  | .jobStart => .jobStart
  | .lineRestart => .lineRestart

end Sys2Proof.Machine
end

