-- ==== Sys2Proof/Certificates/Slice0/Obligations.lean ====
section
/-! DEFINITION. The statements about the unit that are to be proved. Each docstring says what the statement says and which rules of the spec it rests on;
where a statement rests on a choice of the model, it names the log entry. -/

open Sys2Proof Sys2Proof.Machine

/-! ## The machine as a whole -/

/-- A step takes the command at the front of the queue and executes it on the state with the queue's rest, and no command changes the queue
(the model's queue, log entry 1). -/
def Obligations.StepTakesFront : Prop :=
  (∀ (c : Instr) (rest : List Instr) (s : State), step { s with pending := c :: rest } = exec c { s with pending := rest })
    ∧ ∀ (c : Instr) (s t : State), exec c s = .next t → t.pending = s.pending

/-- With no command waiting, what is due becomes the queue; with nothing due one millisecond passes (R23), and an advance of line time (R24)
and the sweep (R143) of the new timer value are queued (the model's choice, log entries 1 and 2). -/
def Obligations.IdleStep : Prop :=
  ∀ s : State, s.pending = [] →
    (s.due ≠ [] → step s = .next { s with pending := s.due })
      ∧ (s.due = [] → ∃ t, step s = .next t ∧ t.path = s.path ∧ t.mgmt = s.mgmt ∧ t.line = { s.line with timer := s.line.timer + 1 }
          ∧ (Instr.lineTimeAdvance ∈ t.pending ↔ t.line.advancing = true)
          ∧ (Instr.sweep ∈ t.pending ↔ t.line.timer.toNat % 1000 = 0))

/-- POWER_ON from any state (R165, R22, R25, R38, R41, R43, R46, R64, R65, R83, R84, R101, R102, R120, R121, R133, R139, R140, R161, R166,
R171): the values that the chapters give for registers, records, queues, counters and loaded tables, with the strap value in the own
address; the commands that wait stay (log entry 1). That entry 0 of the Incident Class Table stands as classes 16 to 63 do is the model's
choice (log entry 58). -/
def Obligations.PowerOnValues : Prop :=
  ∀ (strap : Byte) (s : State), ∃ t, exec (.powerOn strap) s = .next t ∧ t.pending = s.pending
    ∧ (∀ port, (t.path.port port).up = false ∧ (t.path.port port).forward = [] ∧ (t.path.port port).inject = []
        ∧ (∀ p, (t.path.port port).holding.get p = none) ∧ (t.path.port port).transmitting = none
        ∧ (t.path.port port).sequence = 0 ∧ (t.path.port port).consecutive = 0 ∧ ∀ c, (t.path.port port).counter c = 0)
    ∧ t.path.linkCondition = false
    ∧ t.line.config = ⟨0, 0, 65024 + strap.toNat, 0, 0, 4, 60, 1800, 10⟩
    ∧ t.line.jobs = ⟨false, false, false, false⟩
    ∧ t.line.timer = 0 ∧ t.line.strap = strap
    ∧ t.line.clock.isSet = false ∧ t.line.lineTime = 0 ∧ t.line.dayNumber = 0
    ∧ t.line.timetable = ⟨0, none⟩
    ∧ t.line.commissioning = true
    ∧ t.mgmt.queue = [] ∧ t.mgmt.validating = none
    ∧ t.mgmt.served = 0 ∧ t.mgmt.busy = 0 ∧ t.mgmt.privilege = 0 ∧ t.mgmt.refused = 0
    ∧ (∀ v, t.line.train v = ⟨false, none, .running, .running, 0, none, none, none, ⟨false, false, false, false⟩, none, 0, 0⟩)
    ∧ (∀ k, t.line.runStatus k = ⟨.notStarted, none⟩)
    ∧ (∀ x, t.line.occupancy x = 0 ∧ t.line.level x = 0 ∧ t.line.reserved x = none ∧ t.line.sectionDyn x = ⟨.unknown, 0, none, false⟩)
    ∧ (∀ p, t.line.lastDeparture p = none ∧ t.line.operatorHold p = false)
    ∧ (∀ v, t.line.majorDelay v = false)
    ∧ (∀ b, t.line.breakerDyn b = ⟨.unknown, false, .none, none, none, none⟩)
    ∧ (∀ u, t.line.substationDyn u
        = ⟨.idle, .none, none, 0, none, 0, 0, ⟨⟨.none, .none, .none, .none⟩, false⟩, none, none, ⟨none, none, none, none⟩,
            ⟨false, false, false, false⟩⟩)
    ∧ (∀ slot, t.line.record? slot = none) ∧ t.line.incidents.nextSerial = 1
    ∧ (∀ k, t.line.incidents.latches.get k = ⟨none, 0⟩)
    ∧ t.line.incidents.overflow = false ∧ t.line.incidents.overflowCount = 0 ∧ t.line.incidents.asserted = false
    ∧ (∀ z, t.line.zoneDyn z = ⟨[], .idle, none, 0, none, none, 0, 0⟩)
    ∧ (∀ c, t.line.counter c = 0)
    ∧ (∀ i, i < 4096 → t.line.unitEntry? i = some ⟨.unassigned, 0, .view⟩)
    ∧ (∀ bank i, bank < 2 → i < 1024 → t.line.run? bank i = some ⟨false, 0, 0, 0⟩)
    ∧ (∀ bank i, bank < 2 → i < 16384 → t.line.passage? bank i = some ⟨0, 0, 0, false⟩)
    ∧ (∀ i, i < 512 → t.line.segment? i = some ⟨0, none, none⟩)
    ∧ (∀ i, i < 96 → t.line.timingPoint? i = some ⟨0, none, 0, 0, 2550, 16, 0, 0, 0, 0⟩)
    ∧ (∀ i, i < 24 → t.line.section? i = some ⟨[], 0, 0, 10⟩)
    ∧ (∀ i, i < 48 → t.line.breaker? i = some ⟨none⟩)
    ∧ (∀ i, i < 12 → t.line.substation? i = some ⟨none, 1000, 200, 2, 500, 14000, 15000, 16000, 500⟩)
    ∧ (∀ i, i < 128 → t.line.template? i = some ⟨[], none, .routine, 10, 1, 300⟩)
    ∧ (∀ i, i < 40 → t.line.zone? i = some ⟨none, [], .three, 5, 2⟩)
    ∧ (∀ i severity autoClear escalation,
        (i, severity, autoClear, escalation) ∈
            ([(1, .major, false, 0), (3, .major, true, 0), (4, .major, true, 0), (5, .major, true, 0), (6, .critical, false, 0),
              (7, .major, true, 0), (13, .major, false, 0), (14, .major, true, 0)] : List (Nat × Severity × Bool × Nat)) →
          t.line.class? i = some ⟨true, severity, ⟨false, false, false, true⟩, none, .service, none, autoClear, escalation⟩)
    ∧ (∀ i autoClear escalation,
        (i, autoClear, escalation) ∈
            ([(8, false, 5), (9, false, 0), (10, true, 0), (11, false, 3), (12, false, 3), (15, false, 3)] : List (Nat × Bool × Nat)) →
          t.line.class? i = some ⟨true, .minor, ⟨false, false, false, false⟩, none, .service, none, autoClear, escalation⟩)
    ∧ t.line.class? 2 = some ⟨true, .critical, ⟨true, true, false, true⟩, none, .service, none, false, 0⟩
    ∧ (∃ e, t.line.class? 0 = some e ∧ e.defined = false)
    ∧ (∀ i, 16 ≤ i → i < 64 →
        t.line.class? i = some ⟨false, .advisory, ⟨false, false, false, false⟩, none, .service, none, false, 0⟩)
    ∧ t.line.store.errorFree = true ∧ (∀ k i, t.line.poisoned k i = false)
    ∧ (∀ k, tget 0 t.line.store.corrected k = 0 ∧ tget 0 t.line.store.uncorrectable k = 0)
    ∧ t.line.store.lastCorrected = none ∧ t.line.store.lastUncorrectable = none
    ∧ t.line.store.scrubPasses = 0 ∧ t.line.store.scrubPosition = 0

/-- The unit after power-on is sound in the sense of the eight invariants below. -/
def Obligations.PowerOnSound : Prop :=
  ∀ strap : Byte, (State.powerOn strap).ok = true ∧ (State.powerOn strap).line.trainsOk ∧ (State.powerOn strap).line.zonesOk
    ∧ (State.powerOn strap).line.occupancyOk ∧ (State.powerOn strap).line.incidentsOk ∧ (State.powerOn strap).line.bindingsOk
    ∧ (State.powerOn strap).line.isolationOk ∧ (State.powerOn strap).line.plantOk

/-- Every step keeps the unit sound: the port queues within their capacities (R14, R15), a telegram held only while the inject queue is full
(R15, R16), nothing queued at a DOWN port (R19), no telegram waiting at an UP port whose transmitter is idle (R18), the request queue of at
most four (R156), the line configuration and every entry of the loaded tables within their ranges (R159, R161), the tables in canonical
form, the clock's anchor inside the day (R25), and no work left over. -/
def Obligations.SoundnessKept : Prop := ∀ s t : State, s.ok = true → step s = .next t → t.ok = true

/-- Every step keeps the relations of the Train Table (R43, R44): a section exactly with a last segment; a train HELD exactly when it is at
a timing point with a hold cause, DWELLING there with none, RUNNING at no timing point with none. -/
def Obligations.TrainRelationsKept : Prop := ∀ s t : State, s.line.trainsOk → step s = .next t → t.line.trainsOk

/-- Every step keeps the occupancy counts right: each section's count is the number of active trains that are not LOST and whose last
segment belongs to it (R57). -/
def Obligations.OccupancyKept : Prop := ∀ s t : State, s.line.occupancyOk → step s = .next t → t.line.occupancyOk

/-- Every step keeps the incident records as the chapter says (R121, R123, R135): at most 32 slots, serials from 1 to 65,535 of which no two
are alike, no two live records of one collapse key, and the alarm summary ASSERTED exactly when some OPEN record carries ALARM or the
overflow flag is set. -/
def Obligations.IncidentsKept : Prop := ∀ s t : State, s.line.incidentsOk → step s = .next t → t.line.incidentsOk

/-- Every step keeps each zone as the chapter says (R140, R141, R142): at most 8 entries queued, in the order of their priority groups, no
two of them equal and none equal to the current play; a current play exactly in PLAYING and RETRY_WAIT, an airtime deadline exactly in
PLAYING, and a retry time exactly in RETRY_WAIT. -/
def Obligations.ZonesKept : Prop := ∀ s t : State, s.line.zonesOk → step s = .next t → t.line.zonesOk

/-- Every step keeps the bindings agreeing in both directions (R46): a bound train's run is bound to that train, a run's train is bound to
that run, a bound run is NOT_STARTED or ACTIVE, and an ACTIVE run is bound. With it goes what makes that so at an activation (R33, R31): a
bound run is valid, and no two valid runs of the active or the pending bank carry one number. -/
def Obligations.BindingsKept : Prop := ∀ s t : State, s.ok = true → s.line.bindingsOk → step s = .next t → t.line.bindingsOk

/-- Every step keeps each section's isolation count equal to the number of records that are not CLEARED, carry ISOLATE and cover the section
(R97, R128, R132, R126). -/
def Obligations.IsolationCountsKept : Prop :=
  ∀ s t : State, s.line.incidentsOk → s.line.isolationOk → step s = .next t → t.line.isolationOk

/-- Every step keeps the relations of the plant's records: pulse end and command section exactly while a feeder's output is not idle, expect
until exactly while a command is pending (R84); a reply deadline exactly while a request is outstanding, and the scan states with the
requests they go with (R102); a section ISOLATED exactly while its isolation count is above 0, and then without a restore deadline (R85,
R97). -/
def Obligations.PlantRelationsKept : Prop := ∀ s t : State, s.ok = true → s.line.plantOk → step s = .next t → t.line.plantOk

/-- Frame of the unit. The service timer, the strap value, the configuration, the loaded tables, the jobs, the clock and the timetable
change by the named commands only (R23, R159, R161, R162, R164, R24, R26, R34, R35); a FRAME_RECEIVED can carry any telegram, so it counts
as a TIME. Only PORT_UP, LINK_LOSS and POWER_ON change a port's link or the link condition flag (R19, R20), and only a MGMT_REQUEST (which a
FRAME_RECEIVED can carry), a command that serves the head request and POWER_ON change the agent (R156). -/
def Obligations.UnitFrame : Prop :=
  ∀ (c : Instr) (s t : State), exec c s = .next t → (∀ b, c ≠ .powerOn b) →
    t.line.timer = s.line.timer ∧ t.line.strap = s.line.strap
      ∧ (c ≠ .tableWrite → t.line.config = s.line.config ∧ t.line.tables = s.line.tables)
      ∧ (c ≠ .jobStop → c ≠ .jobStart → c ≠ .lineRestart → t.line.jobs = s.line.jobs)
      ∧ ((∀ p h d l, c ≠ .time p h d l) → (∀ p x, c ≠ .frameReceived p x) → c ≠ .lineTimeAdvance →
          t.line.clock = s.line.clock
            ∧ (c ≠ .validationEnd → c ≠ .ttCancel → c ≠ .lineRestart → t.line.timetable = s.line.timetable))
      ∧ ((∀ p, c ≠ .portUp p) → (∀ p, c ≠ .linkLoss p) →
          (∀ port, (t.path.port port).up = (s.path.port port).up) ∧ t.path.linkCondition = s.path.linkCondition)
      ∧ ((∀ p x, c ≠ .frameReceived p x) → (∀ p h o k j n i m d, c ≠ .mgmtRequest p h o k j n i m d) → c ≠ .validationEnd →
          (∀ o : Operation, c ≠ o.command) → t.mgmt = s.mgmt)

/-- Frame of the Table Store: a Store without errors stays without errors under every command, no work is left over, and only TABLE_WRITE,
SCRUB_VISIT and POWER_ON change it; a read changes nothing (R166). -/
def Obligations.StoreFrame : Prop :=
  ∀ (c : Instr) (s t : State), s.calm = true → exec c s = .next t →
    t.calm = true ∧ ((∀ b, c ≠ .powerOn b) → c ≠ .tableWrite → c ≠ .scrubVisit → t.line.store = s.line.store)

/-- Frame of the Train Tracker: a POSITION, a STOP_EVENT or a LOSS_DEADLINE of a vehicle set leaves the places and bindings of the other
trains (R45, R51, R54, R56, R58), but for one case: the auto-bind search of a STOP_EVENT drops the trains bound to runs whose record it finds
poisoned (R49, R60; log entry 51). The commands of the ports, of the plant, of the zones and of the incidents leave those of every train, the
occupancy counts and the Run Status, again but for one case: a FIELD_ALARM or an INCIDENT_DECLARE at a train may drop that train from a run whose
record is poisoned (R60, R61; log entry 45). -/
def Obligations.TrainFrame : Prop :=
  ∀ (c : Instr) (s t : State), s.calm = true → exec c s = .next t →
    (∀ v w, w ≠ v →
        (c = .lossDeadline v
          ∨ (∃ p h e n, c = .position p h e n ∧ s.line.unitAt h.src.toNat .trainUnit v)
          ∨ (∃ p h u k e, c = .stopEvent p h u k e ∧ s.line.unitAt u.toNat .trainUnit v)) →
        (t.line.train w).active = (s.line.train w).active
          ∧ ((t.line.train w).run = (s.line.train w).run
            ∨ ((t.line.train w).run = none ∧ (∃ p h u k e, c = .stopEvent p h u k e) ∧ ∃ slot, s.line.searchDrops slot w))
          ∧ (t.line.train w).lastSegment = (s.line.train w).lastSegment ∧ (t.line.train w).sect = (s.line.train w).sect
          ∧ (t.line.train w).timingPoint = (s.line.train w).timingPoint
          ∧ (t.line.train w).nextPassage = (s.line.train w).nextPassage
          ∧ (t.line.train w).lastReport = (s.line.train w).lastReport)
      ∧ (((∃ p, c = .portUp p) ∨ (∃ p, c = .linkLoss p) ∨ (∃ p, c = .transmitComplete p) ∨ (∃ b, c = .pulseEnd b) ∨ (∃ b, c = .expectUntil b)
            ∨ (∃ x, c = .restoreDeadline x) ∨ (∃ u, c = .scanTime u) ∨ (∃ u, c = .replyDeadline u) ∨ (∃ z, c = .airtimeDeadline z)
            ∨ (∃ z, c = .retryTime z) ∨ c = .sweep ∨ (∃ p h f g j k n e, c = .rtuPoints p h f g j k n e) ∨ (∃ p h i, c = .rtuAck p h i)
            ∨ (∃ p h f k g, c = .breakerCmd p h f k g) ∨ (∃ p h g o, c = .paStatus p h g o)
            ∨ (∃ p h m q n f k j, c = .paRequest p h m q n f k j) ∨ (∃ p h k i e, c = .fieldAlarm p h k i e)
            ∨ c = .holdPlatform ∨ c = .releasePlatform ∨ c = .incidentAck ∨ c = .incidentClear ∨ c = .incidentDeclare) →
          (∀ w, (t.line.train w).active = (s.line.train w).active
              ∧ (t.line.train w).lastSegment = (s.line.train w).lastSegment ∧ (t.line.train w).sect = (s.line.train w).sect
              ∧ (t.line.train w).timingPoint = (s.line.train w).timingPoint
              ∧ (t.line.train w).stateBeforeLoss = (s.line.train w).stateBeforeLoss
              ∧ (t.line.train w).nextPassage = (s.line.train w).nextPassage
              ∧ (t.line.train w).lastReport = (s.line.train w).lastReport
              ∧ ((t.line.train w).run = (s.line.train w).run
                ∨ ((t.line.train w).run = none ∧ ((∃ p h k i e, c = .fieldAlarm p h k i e) ∨ c = .incidentDeclare)
                  ∧ ∃ slot, (s.line.train w).run = some slot ∧ s.line.usable (runId s.line.timetable.active) slot = false)))
            ∧ t.line.tracker.occupancy = s.line.tracker.occupancy
            ∧ (∀ slot, s.line.usable (runId s.line.timetable.active) slot = true → t.line.runStatus slot = s.line.runStatus slot)
            ∧ ((∀ p h k i e, c ≠ .fieldAlarm p h k i e) → c ≠ .incidentDeclare → t.line.tracker.runStatus = s.line.tracker.runStatus))

/-! ## The Telegram Path -/

/-- A telegram that a frame carries is read back as it was built (R3, R4, R17, R172): for a telegram command's frame, and for the frame of
an injected telegram as the arbiter completes it. The notice copy of a good telegram is a good telegram of the same length with the new
destination and every other field as it was (R13). -/
def Obligations.TelegramsReadBack : Prop :=
  (∀ (h : Head) (kind : Byte) (fields : List Byte), fields.length + h.extra.length ≤ 56 → leastPayload kind ≤ fields.length + h.extra.length →
      receiveChecks (headFrame h kind fields).data = .good ⟨kind, h.dst.toNat, h.src.toNat, h.sequence, fields ++ h.extra⟩)
    ∧ (∀ (own : Nat) (sequence : Byte) (t : Injected), own < 65536 → t.dst < 65536 → t.payload.length ≤ 56 →
        leastPayload t.kind ≤ t.payload.length →
        46 ≤ (injectedFrame own sequence t).data.length
          ∧ receiveChecks (injectedFrame own sequence t).data = .good ⟨t.kind, t.dst, own, sequence, t.payload⟩)
    ∧ ∀ (data : List Byte) (t : Telegram) (dst : Nat), receiveChecks data = .good t → dst < 65536 →
        receiveChecks (readdress data dst) = .good { t with dst := dst } ∧ (readdress data dst).length = data.length

/-- What a received frame that is no good telegram does (R1, R2, R3): nothing at a DOWN port; at an UP port it is counted as a frame error,
forwarded as another frame, or dropped for the first check that fails. The least frame is the one of log entry 13. -/
def Obligations.BadFramesDropped : Prop :=
  ∀ (port : Port) (x : Frame) (s : State), s.line.idleWork = true →
    ((s.path.port port).up = false → exec (.frameReceived port x) s = .next s)
      ∧ ((s.path.port port).up = true → x.fcsGood = false ∨ x.data.length < 46 →
          exec (.frameReceived port x) s = .next (s.countAt port .frameError))
      ∧ ((s.path.port port).up = true → x.fcsGood = true → 46 ≤ x.data.length →
          (x.frameType ≠ 0x88B5 → exec (.frameReceived port x) s = .next ((s.countAt port .otherFrame).forwardFrom port x))
            ∧ (x.frameType = 0x88B5 →
                (56 < rd8 x.data 7 ∨ x.data.length < 10 + rd8 x.data 7 ∨ (46 < x.data.length ∧ 10 + rd8 x.data 7 ≠ x.data.length) →
                    exec (.frameReceived port x) s = .next ((s.countAt port .telegram).countAt port .dropLength))
                  ∧ (rd8 x.data 7 ≤ 56 → 10 + rd8 x.data 7 ≤ x.data.length → (46 < x.data.length → 10 + rd8 x.data 7 = x.data.length) →
                      (rd16 x.data (8 + rd8 x.data 7) ≠ wordSum (x.data.take (8 + rd8 x.data 7)) % 65536 →
                          exec (.frameReceived port x) s = .next ((s.countAt port .telegram).countAt port .dropCheck))
                        ∧ (rd16 x.data (8 + rd8 x.data 7) = wordSum (x.data.take (8 + rd8 x.data 7)) % 65536 →
                            (rd8 x.data 0 ≠ 1 →
                                exec (.frameReceived port x) s = .next ((s.countAt port .telegram).countAt port .dropVersion))
                              ∧ (rd8 x.data 0 = 1 → rd8 x.data 7 < leastPayload (x.data.getD 1 0) →
                                  exec (.frameReceived port x) s = .next ((s.countAt port .telegram).countAt port .dropShort))))))

/-- Good telegrams that no block takes (R5 to R7, R9 to R11): each is forwarded untouched, or counted as unhandled when it is addressed to
the LX4, and nothing else happens but for one count. With the window disabled this is every telegram but a management request to the LX4 on
Port C (R10, R22). With the window enabled: an invalid address is counted, and nothing is translated (all of the telegram untranslated:
log entry 14); a source outside the window is not counted, one without a loaded entry is counted as unmapped, one of a kind that the
telegram's kind is not taken from as a kind mismatch; a command on Port F, or to no unit of its kind, is not intercepted; and a kind that no
block takes passes. -/
def Obligations.TransparentUnit : Prop :=
  (∀ (port : Port) (x : Frame) (t : Telegram) (s : State), s.line.idleWork = true → s.line.config.windowSize = 0 →
    (s.path.port port).up = true → x.fcsGood = true → x.frameType = 0x88B5 → 46 ≤ x.data.length → receiveChecks x.data = .good t →
    t.src ≠ 0 → t.src ≠ 65535 → t.dst ≠ 0 →
    (t.dst ≠ s.line.config.ownAddress → exec (.frameReceived port x) s = .next ((s.countGood port).forwardFrom port x))
      ∧ (t.dst = s.line.config.ownAddress → t.kind ≠ kindMgmtRequest ∨ port = .f →
          exec (.frameReceived port x) s = .next ((s.countGood port).countAt port .unhandled)))
    ∧ ∀ (port : Port) (x : Frame) (t : Telegram) (s : State), s.calm = true → (s.path.port port).up = true → x.fcsGood = true →
        x.frameType = 0x88B5 → 46 ≤ x.data.length → receiveChecks x.data = .good t →
        (let good := s.countGood port
         let passed (u : State) : State := if t.dst = s.line.config.ownAddress then u.countAt port .unhandled else u.forwardFrom port x
         let invalid := t.src = 0 ∨ t.src = 65535 ∨ t.dst = 0
         let sensed := t.kind = 0x05 ∨ t.kind = 0x11 ∨ t.kind = 0x12 ∨ t.kind = 0x21 ∨ t.kind = 0x22 ∨ t.kind = 0x31 ∨ t.kind = 0x41
         let command := t.kind = 0x25 ∨ t.kind = 0x35
         let base := s.line.config.windowBase
         let inside (a : Nat) : Prop := base ≤ a ∧ a < base + s.line.config.windowSize
         (invalid → t.kind ≠ 0x50 ∨ port = .f ∨ t.dst ≠ s.line.config.ownAddress →
             exec (.frameReceived port x) s = .next (passed (good.countAt port .invalidAddress)))
           ∧ (¬invalid → sensed →
               (¬inside t.src → exec (.frameReceived port x) s = .next (passed good))
                 ∧ (inside t.src → s.line.unitEntry? (t.src - base) = none →
                     exec (.frameReceived port x) s = .next (passed (good.countAt port .unmappedSource)))
                 ∧ ∀ e, inside t.src → s.line.unitEntry? (t.src - base) = some e →
                     (e.kind = .unassigned → exec (.frameReceived port x) s = .next (passed (good.countAt port .unmappedSource)))
                       ∧ (e.kind ≠ .unassigned → t.kind = 0x05 → e.kind ≠ .clock →
                           exec (.frameReceived port x) s = .next (passed (good.countAt port .kindMismatch)))
                       ∧ (e.kind ≠ .unassigned → t.kind = 0x11 → e.kind ≠ .trainUnit →
                           exec (.frameReceived port x) s = .next (passed (good.countAt port .kindMismatch)))
                       ∧ (e.kind ≠ .unassigned → t.kind = 0x12 → e.kind ≠ .platform →
                           exec (.frameReceived port x) s = .next (passed (good.countAt port .kindMismatch)))
                       ∧ (e.kind ≠ .unassigned → t.kind = 0x21 ∨ t.kind = 0x22 → e.kind ≠ .rtu →
                           exec (.frameReceived port x) s = .next (passed (good.countAt port .kindMismatch)))
                       ∧ (e.kind ≠ .unassigned → t.kind = 0x31 → e.kind ≠ .paController →
                           exec (.frameReceived port x) s = .next (passed (good.countAt port .kindMismatch)))
                       ∧ (t.kind = 0x41 → e.kind = .workstation ∨ e.kind = .clock →
                           exec (.frameReceived port x) s = .next (passed (good.countAt port .kindMismatch))))
           ∧ (¬invalid → command →
               port = .f ∨ t.dst = s.line.config.ownAddress ∨ ¬inside t.dst
                   ∨ (s.line.mapped t.dst).map UnitEntry.kind ≠ some (if t.kind = 0x25 then .rtu else .paController) →
               exec (.frameReceived port x) s = .next (passed good))
           ∧ (¬invalid → t.kind = 0x50 → port = .f ∨ t.dst ≠ s.line.config.ownAddress →
               exec (.frameReceived port x) s = .next (passed good))
           ∧ (¬invalid → ¬sensed → ¬command → t.kind ≠ 0x50 → exec (.frameReceived port x) s = .next (passed good)))

/-- The queues of a port. A frame to be forwarded (R14) and a produced telegram (R15) are queued, held or counted by the state of the port;
at an idle transmitter with nothing queued they are granted at once (R17, R18).
TRANSMIT_COMPLETE at an UP port (R16, R17, R18): the transmission is counted, and the next telegram is granted by the four cases of R18, an
injected one with the own address and the port's sequence, its freed place taken by the first held telegram. The other port is untouched. -/
def Obligations.PortQueues : Prop :=
  (∀ (a : Arbiter) (x : Frame) (p : PortState),
      (p.up = false → p.enqueue a x = p.bump .flushed)
        ∧ (p.up = true → 32 ≤ p.forward.length → p.enqueue a x = p.bump .forwardOverflow)
        ∧ (p.up = true → p.forward.length < 32 → p.transmitting.isSome = true →
            p.enqueue a x = { p with forward := p.forward ++ [x] })
        ∧ (p.up = true → p.transmitting = none → p.forward = [] → p.inject = [] →
            p.enqueue a x = { p with transmitting := some ⟨x, false⟩, consecutive := 0 }))
    ∧ (∀ (a : Arbiter) (placer : Placer) (t : Injected) (p : PortState),
        (p.up = false → p.produce a placer t = p.bump .flushed)
          ∧ (p.up = true → (p.holding.get placer).isSome = true → p.produce a placer t = p.bump (.suppressed placer))
          ∧ (p.up = true → p.holding.get placer = none → p.inject.length < 16 → p.transmitting.isSome = true →
              p.produce a placer t = { p with inject := p.inject ++ [t] })
          ∧ (p.up = true → p.transmitting = none → p.forward = [] → p.inject = [] → (∀ k, p.holding.get k = none) →
              p.produce a placer t
                = { p with
                    transmitting := some ⟨injectedFrame a.own p.sequence t, true⟩, sequence := p.sequence + 1, consecutive := 0 })
          ∧ (p.up = true → p.holding.get placer = none → 16 ≤ p.inject.length →
              (p.produce a placer t).holding.get placer = some t ∧ (p.produce a placer t).inject = p.inject
                ∧ ∀ other, other ≠ placer → (p.produce a placer t).holding.get other = p.holding.get other))
    ∧ ∀ (port : Port) (s : State) (tx : Transmission), s.line.idleWork = true → (s.path.port port).up = true →
        (s.path.port port).transmitting = some tx → (s.path.port port).inject.length ≤ 16 →
        ∃ t, exec (.transmitComplete port) s = .next t ∧ t.line = s.line ∧ t.mgmt = s.mgmt
          ∧ t.path.port (opposite port) = s.path.port (opposite port)
          ∧ (let p := PortState.bump (if tx.injected then .injected else .forwarded) { s.path.port port with transmitting := none }
             let q := t.path.port port
             let own := s.line.config.ownAddress
             (p.inject = [] → p.forward = [] → q = p)
               ∧ (∀ x xs, p.forward = x :: xs → p.inject = [] ∨ s.line.config.ratio ≤ p.consecutive →
                   q = { p with forward := xs, transmitting := some ⟨x, false⟩, consecutive := 0 })
               ∧ (∀ i is, p.inject = i :: is → p.forward = [] ∨ p.consecutive < s.line.config.ratio →
                   q.transmitting = some ⟨injectedFrame own p.sequence i, true⟩ ∧ q.sequence = p.sequence + 1 ∧ q.forward = p.forward
                     ∧ q.consecutive = (if p.forward = [] then 0 else p.consecutive + 1)
                     ∧ ((∀ placer, p.holding.get placer = none) → q.inject = is ∧ q.holding = p.holding)
                     ∧ (∀ placer held, placers.find? (fun k => (p.holding.get k).isSome) = some placer → p.holding.get placer = some held →
                         q.inject = is ++ [held] ∧ q.holding = p.holding.set placer none)))

/-- PORT_UP and LINK_LOSS (R19, R20). A DOWN port that comes up becomes UP with everything else as it stands, unless both ports are then UP
and the link condition flag is set: then the flag is cleared and the end of LINK_DOWN is taken by the Incident Manager (R134): a live record
is marked, or cleared when it is ACKNOWLEDGED and its class clears itself. An UP port that loses its link is DOWN with nothing queued, held
or being transmitted, everything lost is counted, the flag is set, the sequence counter stays, and LINK_DOWN is raised at LINE with the own
address as source, at the current line time (the model's choice, log entry 44): a record is made, or the live one counts it. A port already UP, or already DOWN, stays as it is (log entry 4). -/
def Obligations.LinkChanges : Prop :=
  ∀ (port : Port) (s : State), s.line.idleWork = true →
    ((s.path.port port).up = true → exec (.portUp port) s = .next s)
      ∧ ((s.path.port port).up = false → (s.path.port (opposite port)).up = false ∨ s.path.linkCondition = false →
          exec (.portUp port) s = .next (s.onPort port fun p => { p with up := true }))
      ∧ ((s.path.port port).up = false → (s.path.port (opposite port)).up = true → s.path.linkCondition = true →
          ∃ t, exec (.portUp port) s = .next t ∧ t.path.linkCondition = false ∧ (∀ q, (t.path.port q).up = true)
            ∧ (s.line.liveRecord? 14 ⟨.line, 0⟩ = none →
                t = { s with
                      path := { (s.onPort port fun p => { p with up := true }).path with linkCondition := false }
                      line := s.line.bump .unmatchedEnd })
            ∧ (s.calm = true → ∀ slot old, s.line.liveRecord? 14 ⟨.line, 0⟩ = some (slot, old) →
                (old.conditionEnded = true → t.line.incidents = s.line.incidents)
                  ∧ (old.conditionEnded = false → old.state = .opened ∨ (s.line.classAs 14).autoClear = false →
                      t.line.record? slot = some { old with conditionEnded := true, lastUpdate := s.line.timer })
                  ∧ (old.conditionEnded = false → old.state = .acknowledged → (s.line.classAs 14).autoClear = true →
                      ∃ r, t.line.record? slot = some r ∧ r.state = .cleared ∧ r.serial = old.serial)))
      ∧ ((s.path.port port).up = false → exec (.linkLoss port) s = .next s)
      ∧ ((s.path.port port).up = true →
          ∃ t, exec (.linkLoss port) s = .next t ∧ (t.path.port port).up = false ∧ (t.path.port port).forward = []
            ∧ (t.path.port port).inject = [] ∧ (∀ p, (t.path.port port).holding.get p = none)
            ∧ (t.path.port port).transmitting = none ∧ (t.path.port port).consecutive = 0
            ∧ (t.path.port port).sequence = (s.path.port port).sequence
            ∧ (t.path.port port).counter .down = saturate ((s.path.port port).counter .down)
            ∧ (s.line.jobs.incident = false → (s.path.port port).counter .flushed + (s.path.port port).queued ≤ counterMax →
                (t.path.port port).counter .flushed = (s.path.port port).counter .flushed + (s.path.port port).queued)
            ∧ t.path.linkCondition = true
            ∧ (s.line.jobs.incident = false → t.line = s.line.bump .lostWhileStopped)
            ∧ (s.calm = true → s.line.jobs.incident = true →
                (s.line.liveRecord? 14 ⟨.line, 0⟩ = none → (∃ slot, slot < 32 ∧ s.line.record? slot = none) →
                    ∃ slot r, t.line.record? slot = some r ∧ r.cls = 14 ∧ r.location = ⟨.line, 0⟩
                      ∧ r.source = s.line.config.ownAddress ∧ r.firstTime = s.line.lineTime? ∧ r.state = .opened ∧ r.count = 1)
                  ∧ ∀ slot old, s.line.liveRecord? 14 ⟨.line, 0⟩ = some (slot, old) →
                      ∃ r, t.line.record? slot = some r ∧ r.serial = old.serial ∧ r.count = Nat.min (old.count + 1) 255
                        ∧ r.lastTime = s.line.lineTime? ∧ r.state = .opened ∧ r.conditionEnded = false))

/-! ## Line time and the timetable -/

/-- A TIME from a clock source (R26, R27, R25): a line time of 864,000 or more is counted as rejected and changes nothing else; an accepted
one sets the clock to its day and time at this service-timer value. With no activation pending the clock and the clock-step counter are all
that changes on the line, the telegram is forwarded beside its hand-off (R9), and the step is counted when it is larger than 50 ds: within
the day, or over midnight to the day after or before, which 0 and 65,535 are of each other; any other day is a larger step. -/
def Obligations.TimeSetsClock : Prop :=
  ∀ (port : Port) (h : Head) (day : BitVec 16) (lt : BitVec 32) (s : State), s.calm = true → s.accepts port h 6 = true →
    (∃ k, s.line.unitAt h.src.toNat .clock k) →
    (864000 ≤ lt.toNat → ∃ t, exec (.time port h day lt) s = .next t ∧ t.line = s.line.bump .clockReject)
      ∧ (lt.toNat < 864000 → ∃ t, exec (.time port h day lt) s = .next t
          ∧ t.line.clock = ⟨true, lt.toNat, day.toNat, s.line.timer⟩ ∧ t.line.lineTime = lt.toNat ∧ t.line.dayNumber = day.toNat
          ∧ (s.line.timetable.activation = none →
              t.line = { s.line with clock := t.line.clock, counters := t.line.counters }
                ∧ (s.line.clock.isSet = false → t.line.counters = s.line.counters)
                ∧ (s.line.clock.isSet = true → s.line.dayNumber = day.toNat → s.line.lineTime ≤ lt.toNat + 50 →
                    lt.toNat ≤ s.line.lineTime + 50 → t.line.counters = s.line.counters)
                ∧ (s.line.clock.isSet = true → s.line.dayNumber = day.toNat →
                    s.line.lineTime + 50 < lt.toNat ∨ lt.toNat + 50 < s.line.lineTime →
                    t.line.counters = (s.line.bump .clockStep).counters)
                ∧ (s.line.clock.isSet = true → day.toNat = (s.line.dayNumber + 1) % 65536 →
                    t.line.counters
                      = (if lt.toNat + 864000 ≤ s.line.lineTime + 50 then s.line.counters else (s.line.bump .clockStep).counters))
                ∧ (s.line.clock.isSet = true → s.line.dayNumber = (day.toNat + 1) % 65536 →
                    t.line.counters
                      = (if s.line.lineTime + 864000 ≤ lt.toNat + 50 then s.line.counters else (s.line.bump .clockStep).counters))
                ∧ (s.line.clock.isSet = true → s.line.dayNumber ≠ day.toNat → day.toNat ≠ (s.line.dayNumber + 1) % 65536 →
                    s.line.dayNumber ≠ (day.toNat + 1) % 65536 → t.line.counters = (s.line.bump .clockStep).counters)
                ∧ t.path = (s.passOn port h kindTime (be16 day.toNat ++ be32 lt.toNat)).path))

/-- LINE_TIME_ADVANCE (R24, R34): nothing when line time does not advance at this service-timer value (log entry 4); when the sum since the
anchor has reached 864,000 the clock re-anchors at line time 0 of the next day, which leaves the current line time and day number as they
are; a pending activation that is due takes place. The modular difference by which times are compared lies from -432,000 to 431,999, differs
from a − b by a whole number of days, and is 0 exactly for times that are the same on the circle of the day. -/
def Obligations.LineTimeAdvances : Prop :=
  (∀ s : State, s.line.idleWork = true →
    (s.line.advancing = false → exec .lineTimeAdvance s = .next s)
      ∧ (s.line.advancing = true → s.line.timetable.activation = none → s.line.sinceAnchor < 864000 →
          exec .lineTimeAdvance s = .next s)
      ∧ (s.line.advancing = true → s.line.timetable.activation = none → s.line.clock.anchorLine < 864000 → 864000 ≤ s.line.sinceAnchor →
          ∃ t, exec .lineTimeAdvance s = .next t
            ∧ t = { s with
                line :=
                  { s.line with
                    clock :=
                      ⟨true, 0, (s.line.clock.anchorDay + 1) % 65536,
                        s.line.clock.anchorTimer + ms (100 * (864000 - s.line.clock.anchorLine))⟩ } }
            ∧ t.line.lineTime = s.line.lineTime ∧ t.line.dayNumber = s.line.dayNumber)
      ∧ (∀ a, s.line.advancing = true → s.line.clock.anchorLine < 864000 → s.line.timetable.activation = some a →
          (0 < dayOffset s.line.dayNumber a.day ∨ (dayOffset s.line.dayNumber a.day = 0 ∧ a.line ≤ s.line.lineTime)) →
          ∃ t, exec .lineTimeAdvance s = .next t ∧ t.line.timetable = ⟨a.bank, none⟩))
    ∧ ∀ a b : Nat, -432000 ≤ diff a b ∧ diff a b ≤ 431999 ∧ (diff a b - ((a : Int) - (b : Int))) % 864000 = 0
        ∧ (diff a b = 0 ↔ a % 864000 = b % 864000)

/-- TT_ACTIVATE and TT_CANCEL (R32, R35; counters of a reply: log entry 30): the refusals of TT_ACTIVATE in their order; otherwise the
validation of the bank begins and nothing else changes, its end being a command of its own (the model's choice, log entry 26). TT_CANCEL
removes the pending activation, so that its bank is writable again unless it is the active one, or is answered STATE. -/
def Obligations.ActivationRequests : Prop :=
  (∀ (s : State) (r : Request), s.serves .ttActivate r →
      (2 ≤ r.table ∨ 864000 ≤ rd32 r.data 0 → exec .ttActivate s = .next (s.replied r (.refuse .range)))
        ∧ (r.table < 2 → rd32 r.data 0 < 864000 →
            (s.line.timetable.activation.isSome = true ∨ r.table = s.line.timetable.active →
                exec .ttActivate s = .next (s.replied r (.refuse .state)))
              ∧ (s.line.timetable.activation = none → r.table ≠ s.line.timetable.active →
                  exec .ttActivate s = .next
                    { s with mgmt := { s.mgmt with validating := some ⟨⟨r.table, r.index, rd32 r.data 0⟩, s.line.timer⟩ } })))
    ∧ ∀ (s : State) (r : Request), s.serves .ttCancel r →
        (s.line.timetable.activation = none → exec .ttCancel s = .next (s.replied r (.refuse .state)))
          ∧ ∀ a, s.line.timetable.activation = some a →
              ∃ t, exec .ttCancel s = .next t
                ∧ t = State.replied { s with line := { s.line with timetable := ⟨s.line.timetable.active, none⟩ } } r (.done [])
                ∧ (a.bank ≠ s.line.timetable.active → t.line.bankWritable a.bank = true)

/-- A pending activation that takes place as line time advances (R34, R36, R37), on a Store without errors and with bindings that agree
(BindingsKept): the bank becomes active and none is pending. A train that is not bound stays unbound. A bound train whose run and next
passage can be read is carried over to the lowest valid run of the new bank with its run number, at that run's first passage of the same
timing point, with its lateness and its run state. A train for which one of the four is not found is unbound, its lateness absent, its
announced delay 0 and its major delay ended; when it is the only bound train, RUN_DROPPED stands for it (its time: log entry 44). Every run
slot that no train is carried to is NOT_STARTED and free. -/
def Obligations.ActivationRebinds : Prop :=
  ∀ (s : State) (a : Activation), s.calm = true → s.line.bindingsOk → s.line.advancing = true → s.line.clock.anchorLine < 864000 →
    s.line.timetable.activation = some a →
    (0 < dayOffset s.line.dayNumber a.day ∨ (dayOffset s.line.dayNumber a.day = 0 ∧ a.line ≤ s.line.lineTime)) →
    (let old := s.line.timetable.active
     ∃ t, exec .lineTimeAdvance s = .next t ∧ t.line.timetable = ⟨a.bank, none⟩
       ∧ (∀ v, (s.line.train v).run = none → (t.line.train v).run = none)
       ∧ (∀ slot, (∀ v, (t.line.train v).run ≠ some slot) → t.line.runStatus slot = ⟨.notStarted, none⟩)
       ∧ ∀ v slot, (s.line.train v).run = some slot →
           (∀ r q slot' r' k e, s.line.run? old slot = some r → s.line.passage? old (s.line.train v).nextPassage = some q →
               slot' < 1024 → s.line.run? a.bank slot' = some r' → r'.valid = true → r'.number = r.number →
               (∀ i g, i < slot' → s.line.run? a.bank i = some g → g.valid = true → g.number ≠ r.number) →
               r'.firstPassage ≤ k → k < r'.firstPassage + r'.passages → s.line.passage? a.bank k = some e → e.timingPoint = q.timingPoint →
               (∀ j g, r'.firstPassage ≤ j → j < k → s.line.passage? a.bank j = some g → g.timingPoint ≠ q.timingPoint) →
               t.line.train v = { s.line.train v with run := some slot', nextPassage := k, holds := (t.line.train v).holds,
                                                      state := (t.line.train v).state }
                 ∧ t.line.runStatus slot' = ⟨(s.line.runStatus slot).state, some v⟩)
             ∧ (s.line.run? old slot = none ∨ s.line.passage? old (s.line.train v).nextPassage = none
                   ∨ (∃ r, s.line.run? old slot = some r
                       ∧ ∀ i g, i < 1024 → s.line.run? a.bank i = some g → g.valid = true → g.number ≠ r.number)
                   ∨ (∃ r q slot' r', s.line.run? old slot = some r ∧ s.line.passage? old (s.line.train v).nextPassage = some q
                       ∧ slot' < 1024 ∧ s.line.run? a.bank slot' = some r' ∧ r'.valid = true ∧ r'.number = r.number
                       ∧ (∀ i g, i < slot' → s.line.run? a.bank i = some g → g.valid = true → g.number ≠ r.number)
                       ∧ ∀ j g, r'.firstPassage ≤ j → j < r'.firstPassage + r'.passages → s.line.passage? a.bank j = some g →
                           g.timingPoint ≠ q.timingPoint) →
                 (t.line.train v).run = none ∧ (t.line.train v).lateness = none ∧ (t.line.train v).announcedDelay = 0
                   ∧ t.line.majorDelay v = false
                   ∧ ((∀ w, w ≠ v → (s.line.train w).run = none) → s.line.jobs.incident = true →
                       s.line.liveRecord? 9 ⟨.train, v⟩ = none → (∃ i, i < 32 ∧ s.line.record? i = none) →
                       ∃ i g, t.line.record? i = some g ∧ g.cls = 9 ∧ g.location = ⟨.train, v⟩
                         ∧ g.source = s.line.config.ownAddress ∧ g.firstTime = s.line.lineTime? ∧ g.state = .opened)))

/-- VALIDATION_END (R33, R34; log entry 26 for the moment of it): a failed validation is answered INVALID with the run slot, the check and
the passage; a bank that passes becomes the pending activation, answered DONE and pending when it is not due, and activated at once when it
is. A bank passes exactly when no run record is poisoned and every valid run has a number other than 0 that no lower valid run has, 1 to 64
passages inside the bank, and passages that are not poisoned, name configured timing points and follow one another in time. Counters of a
reply: log entry 30. -/
def Obligations.ValidationEnds : Prop :=
  (∀ (s : State) (r : Request) (rest : List Request) (v : Validation), s.calm = true → s.mgmt.known = true →
      s.mgmt.validating = some v → s.mgmt.queue = r :: rest →
      (∀ f, (validate v.wanted.bank s.line).2 = some f →
          exec .validationEnd s = .next (s.replied r ⟨.invalid, f.slot, u8 f.check.code :: be16 f.passage⟩))
        ∧ ((validate v.wanted.bank s.line).2 = none →
            (s.line.activationDue v.wanted = false →
                exec .validationEnd s = .next
                  (State.replied { s with line := { s.line with timetable := ⟨s.line.timetable.active, some v.wanted⟩ } } r (.done [0])))
              ∧ (s.line.activationDue v.wanted = true →
                  ∃ t, exec .validationEnd s = .next t ∧ t.line.timetable = ⟨v.wanted.bank, none⟩
                    ∧ t.mgmt = s.mgmt.finish .done)))
    ∧ ∀ (l : Line) (bank : Nat), l.store.errorFree = true →
        ((validate bank l).2 = none ↔
          ∀ slot, slot < 1024 → ∃ r, l.run? bank slot = some r
            ∧ (r.valid = true →
                r.number ≠ 0 ∧ 1 ≤ r.passages ∧ r.passages ≤ 64 ∧ r.firstPassage + r.passages ≤ 16384
                  ∧ (∀ lower q, lower < slot → l.run? bank lower = some q → q.valid = true → q.number ≠ r.number)
                  ∧ (∀ k, k < r.passages → ∃ e, l.passage? bank (r.firstPassage + k) = some e
                      ∧ (∃ p, l.timingPoint? e.timingPoint = some p ∧ p.controller.isSome = true)
                      ∧ (∀ before, 0 < k → l.passage? bank (r.firstPassage + k - 1) = some before →
                          0 < diff e.departure before.departure))))

/-! ## Train tracking and regulation -/

/-- A POSITION of a train unit (R28, R29, R45, R51, R57, R59, R62): a carried time out of range is counted as a skew, once, whatever the job's
state, and while TIMETABLE is STOPPED nothing else on the line changes (R62). While it is RUNNING the train is active, its last
report is now, and it is not LOST; a new segment becomes its last segment with the segment's section, and the occupancy counts move with it.
A repeat in the same segment leaves the place (log entry 38), and so does an invalid segment, which is counted. A LOST train returns first:
it counts in its section again, it is RUNNING, or, where it stood at a timing point that can be read, DWELLING or HELD by the causes as they
stand, and the end of class 7 is taken (of a record that this end would clear nothing is said). -/
def Obligations.PositionTaken : Prop :=
  ∀ (port : Port) (h : Head) (e : BitVec 32) (n : BitVec 16) (s : State) (v : Nat), s.calm = true → s.accepts port h 6 = true →
    s.line.unitAt h.src.toNat .trainUnit v →
    (s.line.jobs.timetable = false → ∃ t, exec (.position port h e n) s = .next t ∧ t.line = s.line.timed e.toNat)
      ∧ (s.line.jobs.timetable = true →
          (let old := s.line.train v
           let stays := s.line.segment? n.toNat = none ∨ old.lastSegment = some n.toNat
           ∃ t, exec (.position port h e n) s = .next t ∧ (t.line.train v).active = true ∧ (t.line.train v).lastReport = s.line.timer
             ∧ (t.line.train v).state ≠ .lost
             ∧ t.line.counter .timeSkew = (s.line.timed e.toNat).counter .timeSkew
             ∧ (s.line.segment? n.toNat = none → t.line.counter .invalidSegment = saturate (s.line.counter .invalidSegment))
             ∧ (stays →
                 (t.line.train v).lastSegment = old.lastSegment ∧ (t.line.train v).sect = old.sect
                   ∧ ∀ x, t.line.occupancy x
                       = (if old.state = .lost ∧ old.sect = some x then s.line.occupancy x + 1 else s.line.occupancy x))
             ∧ (∀ seg, s.line.segment? n.toNat = some seg → old.lastSegment ≠ some n.toNat →
                 (t.line.train v).lastSegment = some n.toNat ∧ (t.line.train v).sect = some seg.sect
                   ∧ (old.state ≠ .lost → old.sect ≠ some seg.sect →
                       t.line.occupancy seg.sect = s.line.occupancy seg.sect + 1
                         ∧ (∀ x, old.sect = some x → t.line.occupancy x = s.line.occupancy x - 1)
                         ∧ ∀ x, x ≠ seg.sect → old.sect ≠ some x → t.line.occupancy x = s.line.occupancy x)
                   ∧ (old.state = .lost →
                       ∀ x, t.line.occupancy x = (if x = seg.sect then s.line.occupancy x + 1 else s.line.occupancy x)))
             ∧ (old.ran → (t.line.train v).state = .running)
             ∧ (∀ p q, old.state = .lost → old.stoodAt p → s.line.timingPoint? p = some q → s.line.lossStands v →
                 (t.line.train v).holds = s.line.causesAt p q ∧ (t.line.train v).timingPoint = some p
                   ∧ (t.line.train v).state = (if s.line.causesAt p q = .empty then .dwelling else .held))
             ∧ ∀ slot r, old.state = .lost → stays → s.line.liveRecord? 7 ⟨.train, v⟩ = some (slot, r) → r.state = .opened →
                 r.conditionEnded = false →
                 t.line.record? slot = some { r with conditionEnded := true, lastUpdate := s.line.timer }))

/-- A POSITION of a RUNNING bound train in a new segment whose timing point its next passage passes (R51 step 3, R52, R77, R78, R79, R80):
the last departure of the timing point is recorded, the lateness is the event time less the departure, saturated, and the passage is done: the
next one is due and a NOT_STARTED run is ACTIVE, or, at the run's last passage, the run is COMPLETE and the train unbound, its lateness absent
and its major delay ended (in this order: log entry 17). With a lateness that calls for no announcement and no major delay, an ADHERENCE with
order NONE goes to the notice address, if there is one, at a last passage too; that it is placed after the telegram's forwarding is the
model's choice (log entry 9). -/
def Obligations.PassingTaken : Prop :=
  ∀ (port : Port) (h : Head) (e : BitVec 32) (n : BitVec 16) (s : State) (v slot p : Nat) (seg : Segment) (r : RunRecord) (k : Passage),
    s.calm = true → s.accepts port h 6 = true → s.line.unitAt h.src.toNat .trainUnit v → s.line.jobs.timetable = true →
    (s.line.train v).state = .running → s.line.segment? n.toNat = some seg → (s.line.train v).lastSegment ≠ some n.toNat →
    seg.timingPoint = some p → s.line.nextIs v slot r k → k.pass = true → k.timingPoint = p → s.line.timely e.toNat →
    (let d := diff e.toNat k.departure
     let late : Int := if d < -32767 then -32767 else if 32767 < d then 32767 else d
     ∃ t, exec (.position port h e n) s = .next t ∧ t.line.lastDeparture p = some ⟨r.number, e.toNat, k.departure⟩
       ∧ ((∀ q, s.line.timingPoint? p = some q → q.threshold = 0 ∨ late < q.threshold) → s.line.majorDelay v = false →
           late < s.line.config.majorDelay →
           t.path
             = (State.placeAll
                 (if s.line.config.noticeAddress = 0 then []
                  else
                    [⟨.timetable, .c,
                      ⟨kindAdherence, s.line.config.noticeAddress,
                        [u8 v, u8 p] ++ be16 r.number ++ int16 late ++ [0, 0, 0, 0]⟩⟩])
                 (s.passOn port h kindPosition (be32 e.toNat ++ be16 n.toNat))).path)
       ∧ ((s.line.train v).nextPassage + 1 < r.firstPassage + r.passages →
           (t.line.train v).run = some slot ∧ (t.line.train v).nextPassage = (s.line.train v).nextPassage + 1
             ∧ (t.line.train v).lateness = some late
             ∧ t.line.runStatus slot
               = { s.line.runStatus slot with
                   state := if (s.line.runStatus slot).state = .notStarted then .active else (s.line.runStatus slot).state })
       ∧ ((s.line.train v).nextPassage + 1 = r.firstPassage + r.passages →
           (t.line.train v).run = none ∧ (t.line.train v).lateness = none ∧ t.line.runStatus slot = ⟨.complete, none⟩
             ∧ t.line.majorDelay v = false))

/-- A STOP_EVENT from a platform controller (R28, R29, R45, R54, R56, R59, R62, R66, R67, R78). A carried time out of range is counted as a
skew, whatever follows; an event of no known train, one with another event code, and any while TIMETABLE is STOPPED do nothing else than
count (an unknown train before the code, and both while STOPPED: the model's choice, log entry 22). Else: the ARRIVE of a RUNNING train, or of
a LOST one that ran, makes it DWELLING at the timing point, or HELD when a hold cause stands. An unbound RUNNING train has exactly the causes
of R66 as they stand, and, with the clock SET and a controller to address, a HOLD order goes out when there is one (placed after the
telegram's forwarding: the model's choice, log entry 9); nothing else changes but counters. The DEPART of a train standing there, LOST or not,
makes it RUNNING with no cause, and records the departure of a bound train whose passage it is. A LOST train that stood there and ARRIVEs
there has returned, DWELLING or HELD by the causes as they stand, its class 7 record marked, and is counted as a duplicate. -/
def Obligations.StopEventTaken : Prop :=
  ∀ (port : Port) (h : Head) (u : BitVec 16) (k : Byte) (e : BitVec 32) (s : State) (p : Nat), s.calm = true →
    s.accepts port h 7 = true → s.line.unitAt h.src.toNat .platform p →
    ((s.line.mapped u.toNat).map UnitEntry.kind ≠ some .trainUnit →
        ∃ t, exec (.stopEvent port h u k e) s = .next t ∧ t.line = (s.line.timed e.toNat).bump .unknownTrain)
      ∧ ∀ v, s.line.unitAt u.toNat .trainUnit v →
          (let old := s.line.train v
           let passed := s.passOn port h kindStopEvent (be16 u.toNat ++ [k] ++ be32 e.toNat)
           (2 ≤ k.toNat → ∃ t, exec (.stopEvent port h u k e) s = .next t ∧ t.line = (s.line.timed e.toNat).bump .badEvent)
             ∧ (k.toNat < 2 → s.line.jobs.timetable = false →
                 ∃ t, exec (.stopEvent port h u k e) s = .next t ∧ t.line = s.line.timed e.toNat)
             ∧ (k = 0 → s.line.jobs.timetable = true → old.ran →
                 ∃ t, exec (.stopEvent port h u k e) s = .next t ∧ (t.line.train v).timingPoint = some p
                   ∧ (t.line.train v).active = true ∧ (t.line.train v).lastReport = s.line.timer
                   ∧ (t.line.train v).state = (if (t.line.train v).holds.isEmpty = true then .dwelling else .held)
                   ∧ t.line.counter .timeSkew = (s.line.timed e.toNat).counter .timeSkew
                   ∧ (∀ x, old.state = .lost → old.sect = some x → t.line.occupancy x = s.line.occupancy x + 1)
                   ∧ ∀ q, old.state = .running → s.line.timingPoint? p = some q → old.run = none → old.holds = .empty →
                       (let causes := s.line.causesAt p q
                        t.line.train v
                            = { old with
                                active := true, lastReport := s.line.timer, timingPoint := some p, holds := causes
                                state := if causes = .empty then .dwelling else .held }
                          ∧ t.line = { s.line with tracker := t.line.tracker, counters := t.line.counters }
                          ∧ (∀ w, w ≠ v → t.line.train w = s.line.train w)
                          ∧ t.line.tracker.runStatus = s.line.tracker.runStatus ∧ t.line.tracker.occupancy = s.line.tracker.occupancy
                          ∧ (∀ a, s.line.clock.isSet = true → causes ≠ .empty → s.line.unitAddress? q.controller = some a →
                              t.path
                                = (State.placeAll [⟨.timetable, .f, ⟨kindDwellOrder, a, [1, u8 v, 0, 0, u8 p, 0, 0, u8 causes.code]⟩⟩]
                                    passed).path)
                          ∧ (s.line.clock.isSet = false ∨ causes = .empty ∨ s.line.unitAddress? q.controller = none →
                              t.path = passed.path)))
             ∧ (k = 1 → s.line.jobs.timetable = true → old.stoodAt p →
                 ∃ t, exec (.stopEvent port h u k e) s = .next t ∧ (t.line.train v).state = .running
                   ∧ (t.line.train v).timingPoint = none ∧ (t.line.train v).holds.isEmpty = true
                   ∧ (t.line.train v).active = true ∧ (t.line.train v).lastReport = s.line.timer
                   ∧ (∀ x, old.state = .lost → old.sect = some x → t.line.occupancy x = s.line.occupancy x + 1)
                   ∧ (∀ slot r q, old.run = some slot → s.line.run? s.line.timetable.active slot = some r →
                       s.line.passage? s.line.timetable.active old.nextPassage = some q → q.timingPoint = p →
                       s.line.timely e.toNat → t.line.lastDeparture p = some ⟨r.number, e.toNat, q.departure⟩))
             ∧ (k = 0 → s.line.jobs.timetable = true → old.state = .lost → old.stoodAt p →
                 ∃ t, exec (.stopEvent port h u k e) s = .next t ∧ (t.line.train v).timingPoint = some p
                   ∧ (t.line.train v).active = true ∧ (t.line.train v).lastReport = s.line.timer
                   ∧ t.line.counter .duplicateArrival = saturate (s.line.counter .duplicateArrival)
                   ∧ (∀ x, t.line.occupancy x = (if old.sect = some x then s.line.occupancy x + 1 else s.line.occupancy x))
                   ∧ (∀ q, s.line.timingPoint? p = some q → s.line.lossStands v →
                       (t.line.train v).holds = s.line.causesAt p q
                         ∧ (t.line.train v).state = (if s.line.causesAt p q = .empty then .dwelling else .held))
                   ∧ ∀ slot r, s.line.liveRecord? 7 ⟨.train, v⟩ = some (slot, r) →
                       (r.conditionEnded = true → t.line.incidents = s.line.incidents)
                         ∧ (r.state = .opened → r.conditionEnded = false →
                             t.line.record? slot = some { r with conditionEnded := true, lastUpdate := s.line.timer })))

/-- How a STOP_EVENT moves a train along its run, while TIMETABLE is RUNNING; a LOST train returns first and is then taken as the train it was
(R59). An arriving bound train is matched with the first remaining passage of the timing point: those skipped are counted, and with none it is
off route, which raises class 8 and leaves its next passage (R50, R54). An unbound train departing is bound to the nearest candidate, the lowest
slot among equals, and does its first passage, or stays unbound (R49, R52); a train bound to a run whose record the search finds poisoned is
dropped from it (R39, R60). An ARRIVE while standing elsewhere counts an unseen departure, and a repeated one a duplicate (R54, R55). A DEPART of
a RUNNING train is counted as unexpected and nothing else; from where it does not stand, it is RUNNING with both counted (R56). -/
def Obligations.StopEventMatching : Prop :=
  ∀ (port : Port) (h : Head) (u : BitVec 16) (e : BitVec 32) (s : State) (p v : Nat), s.calm = true → s.accepts port h 7 = true →
    s.line.unitAt h.src.toNat .platform p → s.line.unitAt u.toNat .trainUnit v → s.line.jobs.timetable = true → s.line.timely e.toNat →
    (let bank := s.line.timetable.active
     let heard := { s.line.train v with active := true, lastReport := s.line.timer }
     (∀ slot r, (s.line.train v).ran → (s.line.train v).run = some slot → s.line.run? bank slot = some r →
         (∀ i m, (s.line.train v).nextPassage ≤ i → i < r.firstPassage + r.passages → s.line.passage? bank i = some m → m.timingPoint = p →
             (∀ j g, (s.line.train v).nextPassage ≤ j → j < i → s.line.passage? bank j = some g → g.timingPoint ≠ p) →
             s.line.counter .missedPassage + (i - (s.line.train v).nextPassage) ≤ counterMax →
             ∃ t, exec (.stopEvent port h u 0 e) s = .next t ∧ (t.line.train v).run = some slot ∧ (t.line.train v).nextPassage = i
               ∧ t.line.counter .missedPassage = s.line.counter .missedPassage + (i - (s.line.train v).nextPassage))
           ∧ ((∀ i g, (s.line.train v).nextPassage ≤ i → i < r.firstPassage + r.passages → s.line.passage? bank i = some g →
                 g.timingPoint ≠ p) →
               ∃ t, exec (.stopEvent port h u 0 e) s = .next t ∧ (t.line.train v).run = some slot
                 ∧ (t.line.train v).nextPassage = (s.line.train v).nextPassage
                 ∧ (s.line.jobs.incident = true → s.line.liveRecord? 8 ⟨.train, v⟩ = none → (∃ i, i < 32 ∧ s.line.record? i = none) →
                     ∃ i g, t.line.record? i = some g ∧ g.cls = 8 ∧ g.location = ⟨.train, v⟩ ∧ g.source = h.src.toNat
                       ∧ g.firstTime = some e.toNat ∧ g.state = .opened ∧ g.count = 1)))
       ∧ ((s.line.train v).stoodAt p → (s.line.train v).run = none →
           (∀ slot d r, s.line.offers p e.toNat slot d → s.line.run? bank slot = some r →
               (∀ i c, s.line.offers p e.toNat i c → d < c ∨ (d = c ∧ slot ≤ i)) →
               ∃ t, exec (.stopEvent port h u 1 e) s = .next t ∧ (t.line.train v).state = .running
                 ∧ t.line.counter .autoBind = saturate (s.line.counter .autoBind)
                 ∧ (∀ k, s.line.passage? bank r.firstPassage = some k → t.line.lastDeparture p = some ⟨r.number, e.toNat, k.departure⟩)
                 ∧ (1 < r.passages →
                     (t.line.train v).run = some slot ∧ (t.line.train v).nextPassage = r.firstPassage + 1
                       ∧ t.line.runStatus slot = ⟨.active, some v⟩)
                 ∧ (r.passages = 1 → (t.line.train v).run = none ∧ t.line.runStatus slot = ⟨.complete, none⟩))
             ∧ ((∀ i c, ¬s.line.offers p e.toNat i c) →
                 ∃ t, exec (.stopEvent port h u 1 e) s = .next t ∧ (t.line.train v).state = .running ∧ (t.line.train v).run = none
                   ∧ t.line.counter .autoBind = s.line.counter .autoBind ∧ t.line.lastDeparture p = s.line.lastDeparture p)
             ∧ ∀ k w, k < 1024 → s.line.searchDrops k w →
                 ∃ t, exec (.stopEvent port h u 1 e) s = .next t ∧ t.line.droppedFrom s.line k ∧ t.line.unboundTrain w
                   ∧ t.line.majorDelay w = false)
       ∧ ((s.line.train v).standing = true → (s.line.train v).timingPoint = some p →
           ∃ t, exec (.stopEvent port h u 0 e) s = .next t ∧ t.line = (s.line.setTrain v heard).bump .duplicateArrival)
       ∧ (∀ q, (s.line.train v).stoodAt q →
             (q ≠ p →
                 (∃ t, exec (.stopEvent port h u 0 e) s = .next t ∧ (t.line.train v).timingPoint = some p
                     ∧ t.line.counter .unseenDeparture = saturate (s.line.counter .unseenDeparture)
                     ∧ ((s.line.train v).state ≠ .lost →
                         t.line.counter .fieldOverride
                           = (if (s.line.train v).state = .held then saturate (s.line.counter .fieldOverride)
                              else s.line.counter .fieldOverride)))
                   ∧ ∃ t, exec (.stopEvent port h u 1 e) s = .next t ∧ (t.line.train v).state = .running
                     ∧ (t.line.train v).timingPoint = none ∧ (t.line.train v).holds = .empty
                     ∧ t.line.counter .unseenDeparture = saturate (s.line.counter .unseenDeparture)
                     ∧ t.line.counter .unexpectedDeparture = saturate (s.line.counter .unexpectedDeparture)))
       ∧ ((s.line.train v).state = .running →
           ∃ t, exec (.stopEvent port h u 1 e) s = .next t ∧ t.line = (s.line.setTrain v heard).bump .unexpectedDeparture))

/-- A regulated arrival (R70 to R77): a RUNNING train without causes arrives at the stopping passage that is its next, in time, with its
run, passage and timing point readable. Its lateness is the projected departure less the scheduled one, saturated. With a lateness that
calls for no announcement and no major delay, and a hold cause, it is HELD with a HOLD order, an ADHERENCE with order HOLD, and no start
reserved; without one, it is DWELLING with the dwell of R73 and R74 ordered, reported with order DWELL, and its departure reserved in the
departure section, the headway error taken by R72 and the stagger interval by the section's load level. An order goes out where a controller
can be addressed, a report where there is a notice address; that both are placed after the telegram's own forwarding is the model's choice
(log entry 9). -/
def Obligations.RegulatedArrival : Prop :=
  ∀ (port : Port) (h : Head) (u : BitVec 16) (e : BitVec 32) (s : State) (p v slot : Nat) (q : TimingPoint) (r : RunRecord) (k : Passage),
    s.arrives port h u p v q → s.line.nextIs v slot r k → k.timingPoint = p → k.pass = false → s.line.timely e.toNat →
    (let error := diff (e.toNat + k.dwell) k.departure
     let late : Int := if error < -32767 then -32767 else if 32767 < error then 32767 else error
     let causes := s.line.causesAt p q
     let x := q.departureSection
     let orders (kind dwell flags : Nat) : List Outgoing :=
       ((s.line.unitAddress? q.controller).map fun a =>
           (⟨.timetable, .f,
             ⟨kindDwellOrder, a, [u8 kind, u8 v] ++ be16 r.number ++ [u8 p, u8 dwell, u8 flags, u8 causes.code]⟩⟩ : Outgoing)).toList
     let reports (given dwell flags : Nat) : List Outgoing :=
       if s.line.config.noticeAddress = 0 then []
       else
         [⟨.timetable, .c,
           ⟨kindAdherence, s.line.config.noticeAddress,
             [u8 v, u8 p] ++ be16 r.number ++ int16 late ++ [u8 given, u8 dwell, u8 flags, u8 causes.code]⟩⟩]
     let passed := s.passOn port h kindStopEvent (be16 u.toNat ++ [0] ++ be32 e.toNat)
     ∃ t, exec (.stopEvent port h u 0 e) s = .next t ∧ (t.line.train v).lateness = some late ∧ (t.line.train v).run = some slot
       ∧ (t.line.train v).nextPassage = (s.line.train v).nextPassage ∧ (t.line.train v).timingPoint = some p
       ∧ (q.threshold = 0 ∨ late < q.threshold → s.line.majorDelay v = false → late < s.line.config.majorDelay →
           (t.line.train v).holds = causes ∧ (t.line.train v).announcedDelay = 0 ∧ t.line.majorDelay v = false
             ∧ t.line.incidents = s.line.incidents ∧ t.line.announcer = s.line.announcer
             ∧ (causes ≠ .empty →
                 (t.line.train v).state = .held ∧ t.line.regulator = s.line.regulator
                   ∧ t.path = (State.placeAll (orders 1 0 0 ++ reports 2 0 0) passed).path)
             ∧ (causes = .empty →
                 (let headway : Option Int :=
                    match s.line.lastDeparture p with
                    | some d =>
                      if 0 < diff k.departure d.departure ∧ diff e.toNat d.actual ≤ q.horizon then
                        some (diff (e.toNat + k.dwell) d.actual - diff k.departure d.departure)
                      else none
                    | none => none
                  let interval : Nat :=
                    match s.line.section? x with
                    | some g => if s.line.level x = 1 then g.i1 else if s.line.level x = 2 then g.i2 else 0
                    | none => 0
                  let dwell := stagger e.toNat (targetDwell q k.dwell error headway) interval q.dmax (s.line.reserved x)
                  let flags := (if headway.isSome = true ∧ q.weight < 16 then 1 else 0) + (if dwell.2 = true then 2 else 0)
                  (t.line.train v).state = .dwelling
                    ∧ t.line.reserved x = some ((e.toNat + dwell.1) % 864000) ∧ (∀ y, y ≠ x → t.line.reserved y = s.line.reserved y)
                    ∧ t.line.counter .headwayDropped
                      = (if headway = none ∧ (s.line.lastDeparture p).isSome = true then saturate (s.line.counter .headwayDropped)
                         else s.line.counter .headwayDropped)
                    ∧ t.line.counter .staggerUnmet
                      = (if dwell.2 = true then saturate (s.line.counter .staggerUnmet) else s.line.counter .staggerUnmet)
                    ∧ t.path
                      = (State.placeAll (orders 0 ((dwell.1 + 5) / 10) flags ++ reports 1 ((dwell.1 + 5) / 10) flags) passed).path))))

/-- What follows the lateness of a regulated arrival (R79, R80). At or above the timing point's threshold, and with no major delay to raise,
the minutes announced are the lateness in minutes rounded up, at most 99: the same as before, nothing is handed to a zone; others, an entry
of template 1 with them joins the tail of SERVICE in the zone of the train's next station (ANNOUNCE STOPPED, room, no equal entry), and is
counted. A lateness at or above the major-delay threshold sets the flag and raises class 10 at the train, with the event time; the flag
stays while the lateness is at least half of it, and below that it is cleared and the condition's end marked. -/
def Obligations.DelaysConsidered : Prop :=
  ∀ (port : Port) (h : Head) (u : BitVec 16) (e : BitVec 32) (s : State) (p v slot : Nat) (q : TimingPoint) (r : RunRecord) (k : Passage),
    s.arrives port h u p v q → s.line.nextIs v slot r k → k.timingPoint = p → k.pass = false → s.line.timely e.toNat →
    (let error := diff (e.toNat + k.dwell) k.departure
     let late : Int := if error < -32767 then -32767 else if 32767 < error then 32767 else error
     let minutes := Nat.min ((late + 599) / 600).toNat 99
     (q.threshold ≠ 0 → (q.threshold : Int) ≤ late →
         s.line.majorDelay v = false → late < s.line.config.majorDelay →
         ∃ t, exec (.stopEvent port h u 0 e) s = .next t ∧ (t.line.train v).announcedDelay = minutes
           ∧ ((s.line.train v).announcedDelay = minutes → t.line.announcer = s.line.announcer)
           ∧ ∀ m, (s.line.train v).announcedDelay ≠ minutes → s.line.template? 1 = some m → m.fragments ≠ [] →
               s.line.jobs.announce = false → (s.line.zoneDyn q.station).queue.length < 8 →
               (let new : Entry :=
                  ⟨1, some minutes, .service, .regulation v, m.repeats, s.line.timer + ms (1000 * m.lifetime)⟩
                (∀ x, x ∈ (s.line.zoneDyn q.station).queue → x.sameAs new = false) →
                (∀ x, (s.line.zoneDyn q.station).current = some x → x.entry.sameAs new = false) →
                t.line.zoneDyn q.station
                    = { s.line.zoneDyn q.station with queue := joinTail new (s.line.zoneDyn q.station).queue }
                  ∧ t.line.counter .delayAnnouncement = saturate (s.line.counter .delayAnnouncement)))
       ∧ (s.line.majorDelay v = false → (s.line.config.majorDelay : Int) ≤ late →
           ∃ t, exec (.stopEvent port h u 0 e) s = .next t ∧ t.line.majorDelay v = true
             ∧ (s.line.jobs.incident = true → s.line.liveRecord? 10 ⟨.train, v⟩ = none → (∃ i, i < 32 ∧ s.line.record? i = none) →
                 ∃ i g, t.line.record? i = some g ∧ g.cls = 10 ∧ g.location = ⟨.train, v⟩ ∧ g.source = s.line.config.ownAddress
                   ∧ g.firstTime = some e.toNat ∧ g.state = .opened ∧ g.count = 1))
       ∧ (s.line.majorDelay v = true →
           ∃ t, exec (.stopEvent port h u 0 e) s = .next t
             ∧ (((s.line.config.majorDelay / 2 : Nat) : Int) ≤ late → t.line.majorDelay v = true)
             ∧ (late < (s.line.config.majorDelay / 2 : Nat) → t.line.majorDelay v = false
                 ∧ ∀ i old, s.line.liveRecord? 10 ⟨.train, v⟩ = some (i, old) → old.state = .opened → old.conditionEnded = false →
                     t.line.record? i = some { old with conditionEnded := true, lastUpdate := s.line.timer })))

/-- LOSS_DEADLINE (R58, R57): a train with no loss deadline reached is left as it is (log entry 4); at the deadline it becomes LOST, keeps its
place and timing point, leaves its section's occupancy count, raises class 7 TRAIN_LOST at the train with the own address as source and the line
time (a record is made, the live one counts it, or it is lost while INCIDENT is STOPPED), and keeps its run, unless that run's record is poisoned
and a new record asks for its station: then it is unbound (R60, R61; log entry 45). -/
def Obligations.LossDeadlineLosesTrain : Prop :=
  ∀ (v : Nat) (s : State), s.calm = true →
    (s.line.jobs.timetable = false ∨ (s.line.train v).active = false ∨ (s.line.train v).state = .lost
        ∨ reached ((s.line.train v).lastReport + ms (1000 * s.line.config.lossTimeout)) s.line.timer = false →
      exec (.lossDeadline v) s = .next s)
    ∧ (s.line.jobs.timetable = true → (s.line.train v).active = true → (s.line.train v).state ≠ .lost →
        reached ((s.line.train v).lastReport + ms (1000 * s.line.config.lossTimeout)) s.line.timer = true →
        ∃ t, exec (.lossDeadline v) s = .next t ∧ (t.line.train v).state = .lost
          ∧ (t.line.train v).stateBeforeLoss = (s.line.train v).state
          ∧ (t.line.train v).lastSegment = (s.line.train v).lastSegment ∧ (t.line.train v).sect = (s.line.train v).sect
          ∧ (t.line.train v).timingPoint = (s.line.train v).timingPoint
          ∧ (∀ x, (s.line.train v).sect = some x → t.line.occupancy x = s.line.occupancy x - 1)
          ∧ (∀ x, (s.line.train v).sect ≠ some x → t.line.occupancy x = s.line.occupancy x)
          ∧ (s.line.jobs.incident = false →
              t.line.incidents = s.line.incidents ∧ t.line.counter .lostWhileStopped = saturate (s.line.counter .lostWhileStopped))
          ∧ (∀ slot r, s.line.jobs.incident = true → s.line.liveRecord? 7 ⟨.train, v⟩ = some (slot, r) →
              ∃ q, t.line.record? slot = some q ∧ q.serial = r.serial ∧ q.count = Nat.min (r.count + 1) 255 ∧ q.state = .opened
                ∧ q.lastTime = s.line.lineTime? ∧ q.conditionEnded = false)
          ∧ ((∀ slot, (s.line.train v).run = some slot → s.line.usable (runId s.line.timetable.active) slot = true) →
              (t.line.train v).run = (s.line.train v).run
                ∧ (s.line.jobs.incident = true → s.line.liveRecord? 7 ⟨.train, v⟩ = none → (∃ i, i < 32 ∧ s.line.record? i = none) →
                    ∃ i r, t.line.record? i = some r ∧ r.cls = 7 ∧ r.location = ⟨.train, v⟩ ∧ r.source = s.line.config.ownAddress
                      ∧ r.firstTime = s.line.lineTime? ∧ r.state = .opened ∧ r.count = 1))
          ∧ ∀ slot, (s.line.train v).run = some slot → s.line.usable (runId s.line.timetable.active) slot = false →
              (s.line.jobs.incident = false → (t.line.train v).run = some slot)
                ∧ (s.line.jobs.incident = true → s.line.liveRecord? 7 ⟨.train, v⟩ = none → (∃ i, i < 32 ∧ s.line.record? i = none) →
                    (t.line.train v).run = none ∧ (t.line.runStatus slot).vehicle = none))

/-- BIND and UNBIND (R39, R47, R48, R60, R80; counters of a reply: log entry 30). BIND's checks in their order, each refusal changing nothing;
otherwise the train takes the run's slot and first passage, its lateness absent and its announced delay 0, the run takes the vehicle set, and
nothing else changes. That is so where the search finds no poisoned record of a bound train. A train bound to one that the search finds, while
TIMETABLE is RUNNING, is dropped from it: unbound, its run CANCELLED if it was ACTIVE, its major delay ended and RUN_DROPPED raised (a record
stands for it where INCIDENT is RUNNING, none is live and a slot is free), also by a BIND that is then refused (the model's choice, log entry 51;
the time of the raise: log entry 44); when it is the train of the request itself, it can be bound by it. UNBIND: RANGE for a set that does not
exist and STATE for one that is not bound; otherwise both directions of the binding go, an ACTIVE run becomes CANCELLED, and, when the set's
major-delay flag is clear, nothing else changes; a set flag is cleared with it. -/
def Obligations.BindRequests : Prop :=
  (∀ (s : State) (r : Request), s.serves .bind r →
      (64 ≤ r.table ∨ r.index = 0 → exec .bind s = .next (s.replied r (.refuse .range)))
        ∧ (r.table < 64 → r.index ≠ 0 →
            ((∀ slot q, slot < 1024 → s.line.run? s.line.timetable.active slot = some q → q.valid = true → q.number ≠ r.index) →
                s.line.searchLeaves 1024 →
                exec .bind s = .next (s.replied r (.refuse .invalid)))
              ∧ ∀ slot q, slot < 1024 → s.line.run? s.line.timetable.active slot = some q → q.valid = true → q.number = r.index →
                  (∀ lower q, lower < slot → s.line.run? s.line.timetable.active lower = some q → q.valid = true → q.number ≠ r.index) →
                  s.line.searchLeaves slot →
                  ((s.line.runStatus slot).state ≠ .notStarted ∨ (s.line.runStatus slot).vehicle.isSome = true
                        ∨ (s.line.train r.table).run.isSome = true →
                      exec .bind s = .next (s.replied r (.refuse .state)))
                    ∧ ((s.line.runStatus slot).state = .notStarted → (s.line.runStatus slot).vehicle = none →
                        (s.line.train r.table).run = none →
                        exec .bind s = .next
                          (State.replied
                            { s with
                              line :=
                                (s.line.setTrain r.table
                                  { s.line.train r.table with
                                    run := some slot, nextPassage := q.firstPassage, lateness := none, announcedDelay := 0 }).setRunStatus
                                  slot ⟨.notStarted, some r.table⟩ }
                            r (.done [])))))
    ∧ (∀ (s : State) (r : Request) (k w : Nat), s.serves .bind r → r.table < 64 → r.index ≠ 0 → k < 1024 → s.line.searchDrops k w →
        (∀ lower q, lower < k → s.line.run? s.line.timetable.active lower = some q → q.valid = true → q.number ≠ r.index) →
        ∃ t, exec .bind s = .next t ∧ t.line.droppedFrom s.line k ∧ t.line.majorDelay w = false
          ∧ (w ≠ r.table → t.line.unboundTrain w)
          ∧ ((∀ slot q, slot < 1024 → s.line.run? s.line.timetable.active slot = some q → q.valid = true → q.number ≠ r.index) →
              t.line.unboundTrain w ∧ t.mgmt = s.mgmt.finish .invalid)
          ∧ (∀ slot q, w = r.table → slot < 1024 → s.line.run? s.line.timetable.active slot = some q → q.valid = true →
              q.number = r.index →
              (∀ lower q, lower < slot → s.line.run? s.line.timetable.active lower = some q → q.valid = true → q.number ≠ r.index) →
              (s.line.runStatus slot).state = .notStarted → (s.line.runStatus slot).vehicle = none →
              (t.line.train w).run = some slot ∧ (t.line.train w).nextPassage = q.firstPassage
                ∧ t.line.runStatus slot = ⟨.notStarted, some w⟩ ∧ t.mgmt = s.mgmt.finish .done)
          ∧ ((∀ i u, i < 1024 → s.line.searchDrops i u → i = k) → s.line.jobs.incident = true →
              s.line.liveRecord? 9 ⟨.train, w⟩ = none → (∃ i, i < 32 ∧ s.line.record? i = none) →
              ∃ i g, t.line.record? i = some g ∧ g.cls = 9 ∧ g.location = ⟨.train, w⟩ ∧ g.source = s.line.config.ownAddress
                ∧ g.firstTime = s.line.lineTime? ∧ g.state = .opened ∧ g.count = 1))
    ∧ ∀ (s : State) (r : Request), s.serves .unbind r →
        (64 ≤ r.table → exec .unbind s = .next (s.replied r (.refuse .range)))
          ∧ (r.table < 64 → (s.line.train r.table).run = none → exec .unbind s = .next (s.replied r (.refuse .state)))
          ∧ ∀ slot, r.table < 64 → (s.line.train r.table).run = some slot →
              (s.line.majorDelay r.table = false →
                  exec .unbind s = .next
                    (State.replied
                      { s with
                        line :=
                          (s.line.setRunStatus slot
                            ⟨if (s.line.runStatus slot).state = .active then .cancelled else (s.line.runStatus slot).state, none⟩).setTrain
                            r.table { s.line.train r.table with run := none, lateness := none, announcedDelay := 0 } }
                      r (.done [])))
                ∧ (s.line.majorDelay r.table = true →
                    ∃ t, exec .unbind s = .next t ∧ (t.line.train r.table).run = none ∧ (t.line.runStatus slot).vehicle = none
                      ∧ t.line.majorDelay r.table = false ∧ t.mgmt = s.mgmt.finish .done)

/-- HOLD_PLATFORM and RELEASE_PLATFORM (R69, R66, R67): RANGE for a timing point of 96 or more; a flag that already has the value asked for
changes nothing; otherwise the flag changes, while TIMETABLE is STOPPED nothing else does, and while it is RUNNING every train standing at
the timing point has the OPERATOR cause exactly as the flag says, and is HELD under a set flag. Counters of a reply: log entry 30. -/
def Obligations.PlatformHolds : Prop :=
  ∀ (hold : Bool) (s : State) (r : Request), s.serves (if hold then .holdPlatform else .releasePlatform) r →
    (96 ≤ r.table → exec (if hold then .holdPlatform else .releasePlatform) s = .next (s.replied r (.refuse .range)))
      ∧ (r.table < 96 → s.line.operatorHold r.table = hold →
          exec (if hold then .holdPlatform else .releasePlatform) s = .next (s.replied r (.done [])))
      ∧ (r.table < 96 → s.line.operatorHold r.table ≠ hold →
          ∃ t, exec (if hold then .holdPlatform else .releasePlatform) s = .next t ∧ t.line.operatorHold r.table = hold
            ∧ (s.line.jobs.timetable = false → t = State.replied { s with line := s.line.setOperatorHold r.table hold } r (.done []))
            ∧ (s.line.jobs.timetable = true →
                ∀ v, v < 64 → (s.line.train v).timingPoint = some r.table →
                  (s.line.train v).state = .dwelling ∨ (s.line.train v).state = .held →
                  (t.line.train v).holds.operator = hold ∧ (hold = true → (t.line.train v).state = .held)
                    ∧ (t.line.train v).timingPoint = some r.table))

/-- The target dwell (R73): the blend, the correction and the clamp; it lies between Dmin and Dmax; a gain of 0 leaves D0 within the clamp,
a weight of 16 regulates against the schedule alone and a weight of 0 against the headway alone; a positive correction shortens the dwell.
-/
def Obligations.TargetDwell : Prop :=
  ∀ (e : TimingPoint) (d0 : Nat) (es eh : Int), e.dmin ≤ e.dmax →
    (let b := (e.weight * es + (16 - e.weight) * eh).tdiv 16
     let c := (b * e.gain).tdiv 32
     let dt := (d0 : Int) - c
     ((targetDwell e d0 es (some eh) : Nat) : Int) = if dt < e.dmin then (e.dmin : Int) else if e.dmax < dt then (e.dmax : Int) else dt)
      ∧ e.dmin ≤ targetDwell e d0 es (some eh) ∧ targetDwell e d0 es (some eh) ≤ e.dmax
      ∧ (e.gain = 0 → e.dmin ≤ d0 → d0 ≤ e.dmax → targetDwell e d0 es (some eh) = d0)
      ∧ (e.weight = 16 → ∀ other, targetDwell e d0 es (some eh) = targetDwell e d0 es (some other))
      ∧ (e.weight = 0 → ∀ other, targetDwell e d0 es (some eh) = targetDwell e d0 other (some eh))
      ∧ (0 ≤ ((e.weight * es + (16 - e.weight) * eh).tdiv 16 * e.gain).tdiv 32 → e.dmin ≤ d0 → targetDwell e d0 es (some eh) ≤ d0)

/-- The stagger (R74) and the dwell in seconds (R75). With no interval, no reserved start, or a departure that already lies the interval
after the reserved start, the dwell stays. A shorter distance is made up exactly: the dwell grows by what is missing, so that the departure
lies exactly the interval after the reserved start, and the interval is met; where that exceeds Dmax the dwell is Dmax and the interval
unmet, and only there. In seconds the dwell is rounded half up and fits one byte. -/
def Obligations.StaggeredDwell : Prop :=
  ∀ (t dt interval dmax q : Nat), dt ≤ dmax → dmax ≤ 2550 → interval ≤ 600 →
    (let d := diff (lineTimePlus t dt) q
     let out := stagger t dt interval dmax (some q)
     stagger t dt interval dmax none = (dt, false)
       ∧ (interval = 0 ∨ (interval : Int) ≤ d → out = (dt, false))
       ∧ (0 < interval → d < interval → (dt : Int) + (interval - d) ≤ dmax →
           out.2 = false ∧ (out.1 : Int) = dt + (interval - d) ∧ diff (lineTimePlus t out.1) q = interval)
       ∧ (0 < interval → d < interval → (dmax : Int) < dt + (interval - d) → out = (dmax, true))
       ∧ dt ≤ out.1 ∧ out.1 ≤ dmax)
      ∧ dwellSeconds dt ≤ 255 ∧ 10 * dwellSeconds dt ≤ dt + 5 ∧ dt < 10 * dwellSeconds dt + 5

/-! ## Traction sections, breakers and substations -/

/-- Isolation of a section on a Store without errors (R97, R98, R85): applied, the count rises by one, the section is ISOLATED with no
restore deadline, no CLOSE pulse of the section is left, and while POWER is RUNNING every feeder that is not OPEN has an OPEN pulse;
released, the count falls by one, and the section stays ISOLATED while it is above 0. -/
def Obligations.IsolationEffects : Prop :=
  ∀ (x : Nat) (l : Line), l.store.errorFree = true →
    (((applyIsolation x l).sectionDyn x).isolation = (l.sectionDyn x).isolation + 1
        ∧ ((applyIsolation x l).sectionDyn x).state = .isolated ∧ ((applyIsolation x l).sectionDyn x).restoreDeadline = none
        ∧ (∀ b, b < 48 → (l.breakerDyn b).commandSection = some x → (l.breakerDyn b).pulseEnd.isSome = true → l.output b = .close →
            (applyIsolation x l).output b ≠ .close)
        ∧ (l.jobs.power = true → ∀ b, b ∈ l.feeders x → (l.breakerDyn b).state ≠ .opened →
            (applyIsolation x l).output b = .opening ∧ ((applyIsolation x l).breakerDyn b).pulseEnd.isSome = true))
      ∧ (1 < (l.sectionDyn x).isolation →
          ((releaseIsolation x l).sectionDyn x) = { l.sectionDyn x with isolation := (l.sectionDyn x).isolation - 1 })
      ∧ ((l.sectionDyn x).isolation = 1 → ((releaseIsolation x l).sectionDyn x).isolation = 0
          ∧ ((releaseIsolation x l).sectionDyn x).state ≠ .isolated)

/-- BREAKER_CMD (R91, R92, R93, R11). Refused: the reasons in their order, and the command: counted under its reason, answered by a CMD_RESULT to
the sender, not forwarded, and without any other effect. Accepted: counted, and answered by CMD_RESULT ACCEPTED; an OPEN withdraws the breaker's
waiting CLOSE, and with it the section's restore deadline unless another feeder waits for a CLOSE; the pulse is started with the substation's
pulse length, the command waits for its confirmation unless its result already stands, a waiting CLOSE puts the section in RESTORING under a
restore deadline that is its expect until, or the later one that stood, and the breaker's reported state stays. FORCE is set by a byte of 1 alone
(log entry 16); a CMD_RESULT names the address the command was sent to (log entry 43). -/
def Obligations.BreakerCommands : Prop :=
  (∀ (l : Line) (u f c : Nat) (force : Bool),
      (l.jobs.power = false → l.commandRefusal u f c force = some .jobStopped)
        ∧ (l.jobs.power = true → 4 ≤ f ∨ 2 ≤ c → l.commandRefusal u f c force = some .range)
        ∧ (l.jobs.power = true → f < 4 → c < 2 → (l.substationDyn u).scan = .silent ∨ l.rtuAddress? u = none →
            l.commandRefusal u f c force = some .noRtu)
        ∧ (l.jobs.power = true → f < 4 → c < 2 → (l.substationDyn u).scan ≠ .silent → (l.rtuAddress? u).isSome = true →
            (l.sectionOf (4 * u + f) = none → l.commandRefusal u f c force = some .noBreaker)
              ∧ ∀ x, l.sectionOf (4 * u + f) = some x →
                  ((l.breakerDyn (4 * u + f)).localControl = true → l.commandRefusal u f c force = some .localControl)
                    ∧ ((l.breakerDyn (4 * u + f)).localControl = false →
                        (c = 1 → 0 < (l.sectionDyn x).isolation → l.commandRefusal u f c force = some .isolated)
                          ∧ (c = 0 → force = false → 0 < l.occupancy x → l.commandRefusal u f c force = some .occupied)
                          ∧ ((c = 1 ∧ (l.sectionDyn x).isolation = 0) ∨ (c = 0 ∧ (force = true ∨ l.occupancy x = 0)) →
                              ((l.breakerDyn (4 * u + f)).pulseEnd.isSome = true → l.commandRefusal u f c force = some .busy)
                                ∧ ((l.breakerDyn (4 * u + f)).pulseEnd = none → l.commandRefusal u f c force = none)))))
    ∧ (∀ (h : Head) (f c force : Byte) (s : State) (u : Nat) (reason : Refused), s.calm = true → s.accepts .c h 3 = true →
        s.line.unitAt h.dst.toNat .rtu u → h.dst.toNat ≠ s.line.config.ownAddress → h.src ≠ 0 → h.src ≠ 65535 →
        s.line.commandRefusal u f.toNat c.toNat (force == 1) = some reason →
        exec (.breakerCmd .c h f c force) s = .next
          (State.place ⟨.power, .c, ⟨kindCmdResult, h.src.toNat, be16 h.dst.toNat ++ [f, c, force, h.sequence, 1, u8 (reason.code + 1)]⟩⟩
            { s.countGood .c with line := s.line.bump (.refusedCommand reason) }))
    ∧ ∀ (h : Head) (f c force : Byte) (s : State) (u x : Nat) (e : SubstationEntry), s.calm = true → s.accepts .c h 3 = true →
        s.line.unitAt h.dst.toNat .rtu u → h.dst.toNat ≠ s.line.config.ownAddress → h.src ≠ 0 → h.src ≠ 65535 →
        s.line.commandRefusal u f.toNat c.toNat (force == 1) = none → s.line.sectionOf (4 * u + f.toNat) = some x →
        s.line.substation? u = some e →
        (let b := 4 * u + f.toNat
         let old := s.line.breakerDyn b
         let stop := s.line.timer + ms e.pulseLength
         let stands := (c = 1 ∧ old.state = .closed) ∨ (c = 0 ∧ (old.state = .opened ∨ old.state = .tripped))
         ∃ t, exec (.breakerCmd .c h f c force) s = .next t
           ∧ t.line.output b = (if c = 1 then .close else .opening)
           ∧ (t.line.breakerDyn b).pulseEnd = some stop ∧ (t.line.breakerDyn b).commandSection = some x
           ∧ (t.line.breakerDyn b).state = old.state ∧ (t.line.breakerDyn b).localControl = old.localControl
           ∧ (stands → (t.line.breakerDyn b).pending = .none ∧ (t.line.breakerDyn b).expectUntil = none)
           ∧ (¬stands → (t.line.breakerDyn b).pending = (if c = 1 then .close else .opening)
               ∧ (t.line.breakerDyn b).expectUntil = some (stop + ms (s.line.restoreTimeout x)))
           ∧ (c = 1 → ¬stands →
               (let limit := stop + ms (s.line.restoreTimeout x)
                (t.line.sectionDyn x).restoreDeadline
                  = some (match (s.line.sectionDyn x).restoreDeadline with
                      | some now => later now limit
                      | none => limit))
               ∧ (x < 24 → (∃ q, s.line.section? x = some q ∧ q.feeders ≠ []) → (t.line.sectionDyn x).state = .restoring))
           ∧ (c = 1 → stands → (t.line.sectionDyn x).restoreDeadline = (s.line.sectionDyn x).restoreDeadline)
           ∧ (c = 0 → old.pending ≠ .close → (t.line.sectionDyn x).restoreDeadline = (s.line.sectionDyn x).restoreDeadline)
           ∧ (∀ q, c = 0 → old.pending = .close → s.line.section? x = some q →
               (t.line.sectionDyn x).restoreDeadline
                 = (if q.feeders.any (fun g => g != b && (s.line.breakerDyn g).pending == .close) = true then
                      (s.line.sectionDyn x).restoreDeadline
                    else none))
           ∧ (∀ g, g ≠ b → t.line.breakerDyn g = s.line.breakerDyn g)
           ∧ t.line.counter .acceptedCommand = saturate (s.line.counter .acceptedCommand)
           ∧ t.path.portC
             = (State.place ⟨.power, .c, ⟨kindCmdResult, h.src.toNat, be16 h.dst.toNat ++ [f, c, force, h.sequence, 0, 0]⟩⟩
                 (s.countGood .c)).path.portC)

/-- PULSE_END (R94): a pulse end that is not reached leaves everything as it is (log entry 4); at it the output returns to idle, pulse end
and command section become absent, and nothing else of this breaker and no other breaker changes. An expect until that is not reached leaves
everything as it is as well (log entry 4). RESTORE_DEADLINE (R96): before it is reached nothing happens (log entry 4); at it the deadline is
gone, the restore-failed flag is set, and with INCIDENT RUNNING, no live record of it and a free slot, a RESTORE_FAILED record stands for
the section. -/
def Obligations.PlantDeadlines : Prop :=
  (∀ (b : Nat) (s : State), s.calm = true →
    (due (s.line.breakerDyn b).expectUntil s.line.timer = false → exec (.expectUntil b) s = .next s)
      ∧ (due (s.line.breakerDyn b).pulseEnd s.line.timer = false → exec (.pulseEnd b) s = .next s)
      ∧ (due (s.line.breakerDyn b).pulseEnd s.line.timer = true →
          ∃ t, exec (.pulseEnd b) s = .next t ∧ t.line.output b = .none
            ∧ t.line.breakerDyn b = { s.line.breakerDyn b with pulseEnd := none, commandSection := none }
            ∧ ∀ c, c ≠ b → t.line.breakerDyn c = s.line.breakerDyn c ∧ t.line.output c = s.line.output c))
    ∧ ∀ (x : Nat) (s : State), s.calm = true →
        (due (s.line.sectionDyn x).restoreDeadline s.line.timer = false → exec (.restoreDeadline x) s = .next s)
          ∧ (due (s.line.sectionDyn x).restoreDeadline s.line.timer = true →
              ∃ t, exec (.restoreDeadline x) s = .next t ∧ (t.line.sectionDyn x).restoreDeadline = none
                ∧ (t.line.sectionDyn x).restoreFailed = true
                ∧ (s.line.jobs.incident = true → s.line.liveRecord? 4 ⟨.sect, x⟩ = none → (∃ slot, slot < 32 ∧ s.line.record? slot = none) →
                    ∃ slot r, t.line.record? slot = some r ∧ r.cls = 4 ∧ r.location = ⟨.sect, x⟩ ∧ r.state = .opened ∧ r.count = 1
                      ∧ r.serial = s.line.nextFreeSerial))

/-- EXPECT_UNTIL (R95): when it is reached the pending command becomes none and expect until absent, the unconfirmed-command counter
increases by one, and nothing else changes, the breaker's state included: it stays as last reported, and no incident is raised. -/
def Obligations.CommandUnconfirmed : Prop :=
  ∀ (b : Nat) (s : State), s.line.idleWork = true → due (s.line.breakerDyn b).expectUntil s.line.timer = true →
    exec (.expectUntil b) s = .next
      { s with
        line := (s.line.setBreakerDyn b { s.line.breakerDyn b with pending := .none, expectUntil := none }).bump .unconfirmedCommand }

/-- SCAN_TIME (R104): before the next scan time, or while POWER is STOPPED, nothing happens (log entry 4). At it, in service: an IDLE
substation is sent a SCAN_READ and waits for its reply; a SILENT one with nothing outstanding is sent one and stays SILENT; any other counts
an overrun; the next scan time is one scan period later in each case. Out of service: scanning ends, and a substation that awaited a reply
is IDLE (the model's choice, log entry 39). REPLY_DEADLINE (R107, R108, R90): before it nothing happens (log entry 4). At it, an awaiting
substation with retries left is sent again what is owed to it, a write (the acknowledged word differs from the image's, all 16 bits
compared, log entry 34) or a read; with none left (or more used than a lowered limit, log entry 33) its RTU is SILENT, what was known of it
is gone, its closed feeders are held, its breakers are UNKNOWN, the silence is counted, and class 3 RTU_SILENT is raised at the substation with
the own address as source; one that does not await loses its request. -/
def Obligations.ScanTimers : Prop :=
  (∀ (u : Nat) (s : State), s.calm = true →
    (due (s.line.substationDyn u).nextScan s.line.timer = false ∨ s.line.jobs.power = false → exec (.scanTime u) s = .next s)
      ∧ ∀ when e, s.line.jobs.power = true → (s.line.substationDyn u).nextScan = some when → reached when s.line.timer = true →
          s.line.substation? u = some e →
          (let d := s.line.substationDyn u
           let next := some (when + ms e.scanPeriod)
           let deadline := some (s.line.timer + ms e.replyTimeout)
           (∀ a, s.line.unitAddress? e.rtu = some a →
               (d.scan = .idle →
                   exec (.scanTime u) s = .next
                     (State.place ⟨.power, .f, ⟨kindScanRead, a, []⟩⟩
                       { s with
                         line :=
                           (s.line.setSubstationDyn u
                             { d with
                               scan := .awaitReply, outstanding := .read, replyDeadline := deadline, retries := 0
                               nextScan := next }).bump (.readsSent u) }))
                 ∧ (d.scan = .silent → d.outstanding = .none →
                     exec (.scanTime u) s = .next
                       (State.place ⟨.power, .f, ⟨kindScanRead, a, []⟩⟩
                         { s with
                           line :=
                             (s.line.setSubstationDyn u
                               { d with outstanding := .read, replyDeadline := deadline, nextScan := next }).bump (.readsSent u) }))
                 ∧ (d.scan = .awaitReply ∨ (d.scan = .silent ∧ d.outstanding ≠ .none) →
                     exec (.scanTime u) s = .next
                       { s with line := (s.line.setSubstationDyn u { d with nextScan := next }).bump (.scanOverrun u) }))
             ∧ (s.line.unitAddress? e.rtu = none →
                 exec (.scanTime u) s = .next
                   { s with
                     line :=
                       s.line.setSubstationDyn u
                         { d with
                           nextScan := none, outstanding := .none, replyDeadline := none
                           scan := if d.scan = .awaitReply then .idle else d.scan } })))
    ∧ ∀ (u : Nat) (s : State), s.calm = true →
        (due (s.line.substationDyn u).replyDeadline s.line.timer = false → exec (.replyDeadline u) s = .next s)
          ∧ ∀ e a, due (s.line.substationDyn u).replyDeadline s.line.timer = true → s.line.substation? u = some e →
              s.line.unitAddress? e.rtu = some a →
              (let d := s.line.substationDyn u
               let deadline := some (s.line.timer + ms e.replyTimeout)
               (d.scan = .awaitReply → d.retries < e.retryLimit →
                   (d.acknowledged = some d.image.bits →
                       exec (.replyDeadline u) s = .next
                         (State.place ⟨.power, .f, ⟨kindScanRead, a, []⟩⟩
                           { s with
                             line :=
                               ((s.line.setSubstationDyn u
                                 { d with retries := d.retries + 1, outstanding := .read, replyDeadline := deadline }).bump (.retry u)).bump
                                 (.readsSent u) }))
                     ∧ (d.acknowledged ≠ some d.image.bits →
                         exec (.replyDeadline u) s = .next
                           (State.place ⟨.power, .f, ⟨kindScanWrite, a, be16 d.image.bits.toNat⟩⟩
                             { s with
                               line :=
                                 ((s.line.setSubstationDyn u
                                   { d with retries := d.retries + 1, outstanding := .write, replyDeadline := deadline }).bump (.retry u)).bump
                                   (.writesSent u) })))
                 ∧ (d.scan = .awaitReply → e.retryLimit ≤ d.retries →
                     ∃ t, exec (.replyDeadline u) s = .next t ∧ (t.line.substationDyn u).scan = .silent
                       ∧ (t.line.substationDyn u).outstanding = .none ∧ (t.line.substationDyn u).replyDeadline = none
                       ∧ (t.line.substationDyn u).retries = 0 ∧ (t.line.substationDyn u).acknowledged = none
                       ∧ (t.line.substationDyn u).previous = none ∧ (t.line.substationDyn u).level = d.level
                       ∧ (t.line.substationDyn u).lowCount = 0 ∧ (t.line.substationDyn u).nextScan = d.nextScan
                       ∧ (∀ f, f < 4 → (t.line.breakerDyn (4 * u + f)).state = .unknown
                           ∧ (t.line.substationDyn u).heldFeeders.get f = ((s.line.breakerDyn (4 * u + f)).state == .closed))
                       ∧ t.line.counter (.silence u) = saturate (s.line.counter (.silence u))
                       ∧ (s.line.jobs.incident = false →
                           t.line.incidents = s.line.incidents
                             ∧ t.line.counter .lostWhileStopped = saturate (s.line.counter .lostWhileStopped))
                       ∧ (s.line.jobs.incident = true →
                           (s.line.liveRecord? 3 ⟨.substation, u⟩ = none → (∃ i, i < 32 ∧ s.line.record? i = none) →
                               ∃ i r, t.line.record? i = some r ∧ r.cls = 3 ∧ r.location = ⟨.substation, u⟩
                                 ∧ r.source = s.line.config.ownAddress ∧ r.firstTime = s.line.lineTime? ∧ r.state = .opened ∧ r.count = 1)
                             ∧ ∀ i old, s.line.liveRecord? 3 ⟨.substation, u⟩ = some (i, old) →
                                 ∃ r, t.line.record? i = some r ∧ r.serial = old.serial ∧ r.count = Nat.min (old.count + 1) 255
                                   ∧ r.state = .opened ∧ r.conditionEnded = false))
                 ∧ (d.scan ≠ .awaitReply →
                     exec (.replyDeadline u) s = .next
                       { s with line := s.line.setSubstationDyn u { d with outstanding := .none, replyDeadline := none } }))

/-- RTU_POINTS from the RTU of a substation in service while POWER is RUNNING (R13, R87 to R89, R103, R106, R109 to R115). The indications
become the previous points; from absent ones every breaker is as reported. A feeder whose indications differ from known previous points is
reported, any other breaker keeps its reported state: newly open, it confirms a waiting OPEN, or, CLOSED, is TRIPPED, which raises class 1 at
its section; newly closed, it confirms a waiting CLOSE, removes its section's restore deadline and ends class 4, or, in an ISOLATED section,
raises class 6 and has an OPEN pulse. A reply that ends a READ or recovers a SILENT substation is compared with
the acknowledged image, and a different one counted and forgotten; any other reply leaves that image. The earth-fault flags follow the
indications, a new one raising class 2 at the feeder's section, else at the substation. The load level and low-count move by R113: up at
once to the highest level whose threshold the current meets, down by one after three low replies in a row; a rise to 3 raises class 5, a
fall from 3 ends its condition. Each section fed by the substation has the highest level among what feeds it. The substation is then IDLE,
or sent the SCAN_WRITE that is owed to it (compared in all 16 bits, log entry 34). A reply that reports nothing new changes nothing else,
and its notice copy goes out on Port C. A reply that finds the substation's entry poisoned is foreign, and leaves it SILENT with its breakers
UNKNOWN (R117; also while POWER is STOPPED: the model's choice, log entry 49). -/
def Obligations.RtuPointsProcessed : Prop :=
  (∀ (port : Port) (h : Head) (f0 f1 f2 f3 : Byte) (current echo : BitVec 16) (s : State) (u : Nat) (e : SubstationEntry),
    s.calm = true → s.accepts port h 8 = true → s.line.unitAt h.src.toNat .rtu u → s.line.jobs.power = true →
    s.line.substation? u = some e → s.line.unitAddress? e.rtu = some h.src.toNat →
    (let d := s.line.substationDyn u
     let points : Quad Byte := ⟨f0, f1, f2, f3⟩
     let before : Quad Indication := ⟨indicationOf f0, indicationOf f1, indicationOf f2, indicationOf f3⟩
     let moved := levelAfter e d.level d.lowCount current.toNat
     let solicited := d.scan = .silent ∨ d.outstanding = .read
     let uneventful := d.previous = some before ∧ ∀ f, f < 4 → (d.earthFault.get f).isSome = (points.get f).getLsbD 2
     let fields := [f0, f1, f2, f3] ++ be16 current.toNat ++ be16 echo.toNat
     ∃ t, exec (.rtuPoints port h f0 f1 f2 f3 current echo) s = .next t
       ∧ (t.line.substationDyn u).previous = some before
       ∧ ((t.line.substationDyn u).level, (t.line.substationDyn u).lowCount) = moved
       ∧ (t.line.substationDyn u).scan ≠ .silent
       ∧ (d.scan = .silent → ∀ f, (t.line.substationDyn u).heldFeeders.get f = false)
       ∧ (d.previous = none → ∀ f, f < 4 →
           (t.line.breakerDyn (4 * u + f)).localControl = (points.get f).getLsbD 1
             ∧ ((points.get f).getLsbD 0 = true → (t.line.breakerDyn (4 * u + f)).state = .closed)
             ∧ ((points.get f).getLsbD 0 = false → (t.line.breakerDyn (4 * u + f)).state = .opened
                 ∨ (t.line.breakerDyn (4 * u + f)).state = .tripped))
       ∧ (∀ known, d.previous = some known →
           (let reported (f : Nat) : Bool := known.get f != before.get f
            let calmFaults := ∀ f, f < 4 → (d.earthFault.get f).isSome = (points.get f).getLsbD 2
            (∀ f, f < 4 → reported f = false →
                (t.line.breakerDyn (4 * u + f)).state = (s.line.breakerDyn (4 * u + f)).state
                  ∧ (t.line.breakerDyn (4 * u + f)).localControl = (s.line.breakerDyn (4 * u + f)).localControl)
              ∧ ∀ f, f < 4 → reported f = true → (∀ g, g < 4 → g ≠ f → reported g = false) →
                  (let b := 4 * u + f
                   let old := s.line.breakerDyn b
                   (t.line.breakerDyn b).localControl = (points.get f).getLsbD 1
                     ∧ ((points.get f).getLsbD 0 = false → old.pending = .opening →
                         (t.line.breakerDyn b).state = .opened ∧ (t.line.breakerDyn b).pending = .none
                           ∧ (t.line.breakerDyn b).expectUntil = none)
                     ∧ ((points.get f).getLsbD 0 = false → old.pending ≠ .opening →
                         (old.state = .unknown → (t.line.breakerDyn b).state = .opened)
                           ∧ (old.state = .opened ∨ old.state = .tripped → (t.line.breakerDyn b).state = old.state)
                           ∧ (old.state = .closed → (t.line.breakerDyn b).state = .tripped
                               ∧ ∀ x, s.line.sectionOf b = some x →
                                   t.line.counter .trip = saturate (s.line.counter .trip)
                                     ∧ (s.line.jobs.incident = true → s.line.incidents.slots = [] →
                                         ∃ slot r, t.line.record? slot = some r ∧ r.cls = 1 ∧ r.location = ⟨.sect, x⟩
                                           ∧ r.source = h.src.toNat ∧ r.state = .opened ∧ r.count = 1)))
                     ∧ (∀ x, (points.get f).getLsbD 0 = true → old.state ≠ .closed → s.line.sectionOf b = some x →
                         (t.line.breakerDyn b).state = .closed
                           ∧ ((s.line.sectionDyn x).isolation = 0 →
                               (t.line.sectionDyn x).restoreDeadline = none ∧ (t.line.sectionDyn x).restoreFailed = false
                                 ∧ (calmFaults → moved.1 = d.level → old.pending = .close →
                                     (t.line.breakerDyn b).pending = .none ∧ (t.line.breakerDyn b).expectUntil = none)
                                 ∧ (calmFaults → moved.1 = d.level → (s.line.sectionDyn x).restoreFailed = true →
                                     ∀ slot was, s.line.liveRecord? 4 ⟨.sect, x⟩ = some (slot, was) → was.state = .opened →
                                       was.conditionEnded = false →
                                       t.line.record? slot = some { was with conditionEnded := true, lastUpdate := s.line.timer }))
                           ∧ (0 < (s.line.sectionDyn x).isolation →
                               t.line.output b = .opening ∧ (t.line.breakerDyn b).pulseEnd.isSome = true
                                 ∧ t.line.counter .closeAgainstIsolation = saturate (s.line.counter .closeAgainstIsolation)
                                 ∧ (s.line.pulsing b .opening = false →
                                     (t.line.breakerDyn b).pulseEnd = some (s.line.timer + ms e.pulseLength)
                                       ∧ (t.line.breakerDyn b).pending = .opening)
                                 ∧ (s.line.jobs.incident = true → s.line.incidents.slots = [] →
                                     ∃ slot r, t.line.record? slot = some r ∧ r.cls = 6 ∧ r.location = ⟨.sect, x⟩
                                       ∧ r.source = h.src.toNat ∧ r.state = .opened ∧ r.count = 1))))))
       ∧ (∀ a, solicited → d.acknowledged = some a → a ≠ echo →
           (t.line.substationDyn u).acknowledged = none
             ∧ t.line.counter (.imageMismatch u) = saturate (s.line.counter (.imageMismatch u)))
       ∧ (¬solicited ∨ d.acknowledged = none ∨ d.acknowledged = some echo →
           (t.line.substationDyn u).acknowledged = d.acknowledged ∧ t.line.counter (.imageMismatch u) = s.line.counter (.imageMismatch u))
       ∧ (∀ f, f < 4 →
           ((t.line.substationDyn u).earthFault.get f).isSome = (points.get f).getLsbD 2
             ∧ (∀ loc, d.earthFault.get f = some loc → (points.get f).getLsbD 2 = true →
                 (t.line.substationDyn u).earthFault.get f = some loc)
             ∧ ∀ loc, d.earthFault.get f = none → (points.get f).getLsbD 2 = true →
                 (∀ x, s.line.sectionOf (4 * u + f) = some x → loc = (⟨.sect, x⟩ : Location)) →
                 (s.line.sectionOf (4 * u + f) = none → loc = (⟨.substation, u⟩ : Location)) →
                 (t.line.substationDyn u).earthFault.get f = some loc
                   ∧ (s.line.jobs.incident = true → s.line.incidents.slots = [] →
                       ∃ slot r, t.line.record? slot = some r ∧ r.cls = 2 ∧ r.location = loc ∧ r.source = h.src.toNat
                         ∧ r.state = .opened))
       ∧ (d.level < 3 → moved.1 = 3 →
           t.line.counter (.overload u) = saturate (s.line.counter (.overload u))
             ∧ (s.line.jobs.incident = true → s.line.incidents.slots = [] →
                 ∃ slot r, t.line.record? slot = some r ∧ r.cls = 5 ∧ r.location = ⟨.substation, u⟩ ∧ r.source = h.src.toNat
                   ∧ r.state = .opened ∧ r.count = 1))
       ∧ (∀ slot old, uneventful → d.level = 3 → moved.1 < 3 → trising s.line.incidents.slots = true →
           s.line.liveRecord? 5 ⟨.substation, u⟩ = some (slot, old) →
           old.state = .opened → old.conditionEnded = false →
           t.line.record? slot = some { old with conditionEnded := true, lastUpdate := s.line.timer })
       ∧ (∀ x g, s.line.section? x = some g → (∃ b, b ∈ g.feeders ∧ b / 4 = u) →
           (let feeds := fun b =>
              b ∈ g.feeders ∧ s.line.usable .breaker b = true
                ∧ ((t.line.breakerDyn b).state = .closed ∨ (t.line.substationDyn (b / 4)).heldFeeders.get (b % 4) = true)
            (∀ b, feeds b → (t.line.substationDyn (b / 4)).level ≤ t.line.level x)
              ∧ (t.line.level x = 0 ∨ ∃ b, feeds b ∧ (t.line.substationDyn (b / 4)).level = t.line.level x)))
       ∧ (solicited →
           if (t.line.substationDyn u).acknowledged = some (t.line.substationDyn u).image.bits then
             (t.line.substationDyn u).scan = .idle ∧ (t.line.substationDyn u).outstanding = .none
           else
             (t.line.substationDyn u).scan = .awaitReply ∧ (t.line.substationDyn u).outstanding = .write
               ∧ (t.line.substationDyn u).retries = 0)
       ∧ (uneventful → d.scan ≠ .silent → d.outstanding = .read → d.acknowledged = none ∨ d.acknowledged = some echo → moved.1 = d.level →
           (∀ x, x < 24 → s.line.derivedLevel x = s.line.level x) →
           (let copied : State :=
              if s.line.config.noticeAddress = 0 then s.countGood port
              else
                (s.countGood port).forwardFrom .f
                  { headFrame h kindRtuPoints fields with
                    data := readdress (headFrame h kindRtuPoints fields).data s.line.config.noticeAddress }
            let taken :=
              { d with outstanding := .none, replyDeadline := none, retries := 0, scan := .idle, lowCount := moved.2 }
            (d.acknowledged = some d.image.bits → t = { copied with line := s.line.setSubstationDyn u taken })
              ∧ (d.acknowledged ≠ some d.image.bits →
                  t = State.place ⟨.power, .f, ⟨kindScanWrite, h.src.toNat, be16 d.image.bits.toNat⟩⟩
                    { copied with
                      line :=
                        (s.line.setSubstationDyn u
                          { taken with
                            scan := .awaitReply, outstanding := .write
                            replyDeadline := some (s.line.timer + ms e.replyTimeout) }).bump (.writesSent u) })))))
    ∧ (∀ (port : Port) (h : Head) (f0 f1 f2 f3 : Byte) (current echo : BitVec 16) (s : State) (u : Nat), s.calm = true →
        s.accepts port h 8 = true → s.line.unitAt h.src.toNat .rtu u → s.line.poisoned .substation u = true →
        ∃ t, exec (.rtuPoints port h f0 f1 f2 f3 current echo) s = .next t ∧ (t.line.substationDyn u).scan = .silent
          ∧ (t.line.substationDyn u).nextScan = none ∧ (t.line.substationDyn u).outstanding = .none
          ∧ (t.line.substationDyn u).replyDeadline = none
          ∧ t.line.counter .foreignReply = saturate (s.line.counter .foreignReply)
          ∧ ((s.line.substationDyn u).scan ≠ .silent →
              t.line.counter (.silence u) = saturate (s.line.counter (.silence u))
                ∧ ∀ f, f < 4 → (t.line.breakerDyn (4 * u + f)).state = .unknown))
    ∧ ∀ (e : SubstationEntry) (level low current : Nat), e.inRange = true →
        (1 ≤ e.levelOf current ↔ e.l1 ≤ current) ∧ (2 ≤ e.levelOf current ↔ e.l2 ≤ current)
          ∧ (3 ≤ e.levelOf current ↔ e.l3 ≤ current) ∧ e.levelOf current ≤ 3
          ∧ (level < e.levelOf current → levelAfter e level low current = (e.levelOf current, 0))
          ∧ (e.levelOf current ≤ level →
              (∀ threshold, (level = 1 ∧ threshold = e.l1) ∨ (level = 2 ∧ threshold = e.l2) ∨ (level = 3 ∧ threshold = e.l3) →
                  (current + e.hysteresis < threshold →
                      levelAfter e level low current = (if low + 1 < 3 then (level, low + 1) else (level - 1, 0)))
                    ∧ (threshold ≤ current + e.hysteresis → levelAfter e level low current = (level, 0)))
                ∧ (level = 0 → levelAfter e level low current = (0, 0)))

/-- RTU_ACK from the RTU of a substation that is not SILENT, while POWER is RUNNING (R106): the applied image, all 16 bits of it (log entry
34), is acknowledged; it ends an outstanding write, and with nothing more owed the substation is IDLE and nothing else changes. -/
def Obligations.RtuAckProcessed : Prop :=
  ∀ (port : Port) (h : Head) (image : BitVec 16) (s : State) (u : Nat) (e : SubstationEntry),
    s.calm = true → s.accepts port h 2 = true → s.line.unitAt h.src.toNat .rtu u → s.line.jobs.power = true →
    s.line.substation? u = some e → s.line.unitAddress? e.rtu = some h.src.toNat → (s.line.substationDyn u).scan ≠ .silent →
    (let d := s.line.substationDyn u
     ∃ t, exec (.rtuAck port h image) s = .next t ∧ (t.line.substationDyn u).acknowledged = some image
       ∧ (d.outstanding = .write → image = d.image.bits →
           t = { s.countGood port with
             line :=
               s.line.setSubstationDyn u
                 { d with acknowledged := some image, outstanding := .none, replyDeadline := none, retries := 0, scan := .idle } }))

/-! ## Incidents -/

/-- What a location covers (R122, R61), on a Store without errors, and the slot of a new record (R125). LINE covers everything; SECTION,
SUBSTATION and TRAIN their sections, the timing points that depart into them, and those timing points' stations (a TRAIN its own); STATION
and TIMING_POINT their timing points, with their departure sections and stations. A train's station is that of its first remaining passage
that stops and can be read, else of its last segment. The slot: the lowest free slot; else, of the CLEARED records, the one updated longest
ago; else, for a MAJOR or CRITICAL incident, the live record of ADVISORY or MINOR updated longest ago; else none. Ages are modular (log
entry 28); a TIMING_POINT covers itself also when its entry is poisoned (log entry 40). The slots are in rising order, as IncidentsKept
keeps them. -/
def Obligations.RecordAllocation : Prop :=
  (∀ (l : Line) (loc : Location), l.store.errorFree = true →
      (let c := (coverageOf loc l).2
       let departs (xs : List Nat) (p : Nat) : Prop := ∃ e, l.timingPoint? p = some e ∧ e.departureSection ∈ xs
       let stations : Prop :=
         ∀ z, z ∈ c.zones ↔ z < 40 ∧ ∃ p e, p ∈ c.timingPoints ∧ l.timingPoint? p = some e ∧ e.station = z
       let sections : Prop :=
         ∀ x, x ∈ c.sections ↔ x < 24 ∧ ∃ p e, p ∈ c.timingPoints ∧ l.timingPoint? p = some e ∧ e.departureSection = x
       (loc.kind = .line →
           (∀ x, x ∈ c.sections ↔ x < 24) ∧ (∀ p, p ∈ c.timingPoints ↔ p < 96) ∧ ∀ z, z ∈ c.zones ↔ z < 40)
         ∧ (loc.kind = .sect → c.sections = [loc.index] ∧ (∀ p, p ∈ c.timingPoints ↔ departs c.sections p) ∧ stations)
         ∧ (loc.kind = .substation →
             (∀ x, x ∈ c.sections ↔ x < 24 ∧ ∃ b e, b / 4 = loc.index ∧ l.breaker? b = some e ∧ e.sect = some x)
               ∧ (∀ p, p ∈ c.timingPoints ↔ departs c.sections p) ∧ stations)
         ∧ (loc.kind = .station →
             (∀ p, p ∈ c.timingPoints ↔ ∃ e, l.timingPoint? p = some e ∧ e.station = loc.index) ∧ sections ∧ c.zones = [loc.index])
         ∧ (loc.kind = .timingPoint → c.timingPoints = [loc.index] ∧ sections ∧ stations)
         ∧ (loc.kind = .train →
             c.sections = (l.train loc.index).sect.toList ∧ (∀ p, p ∈ c.timingPoints ↔ departs c.sections p)
               ∧ ((l.train loc.index).run = none →
                   c.zones = (((l.train loc.index).lastSegment.bind l.segment?).bind Segment.station).toList)
               ∧ ∀ slot r k e q, (l.train loc.index).run = some slot → l.run? l.timetable.active slot = some r →
                   (l.train loc.index).nextPassage ≤ k → k < r.firstPassage + r.passages → l.passage? l.timetable.active k = some e →
                   e.pass = false → l.timingPoint? e.timingPoint = some q →
                   (∀ j g, (l.train loc.index).nextPassage ≤ j → j < k → l.passage? l.timetable.active j = some g →
                     g.pass = true ∨ l.timingPoint? g.timingPoint = none) →
                   c.zones = [q.station])))
    ∧ ∀ (l : Line) (severity : Severity), trising l.incidents.slots = true →
        (let age (r : IncidentRecord) := (l.timer - r.lastUpdate).toNat
         let full := ∀ i, i < 32 → (l.record? i).isSome = true
         (∀ slot, slot < 32 → l.record? slot = none → (∀ i, i < slot → (l.record? i).isSome = true) → l.allocate severity = .free slot)
           ∧ (full → (∃ i r, l.record? i = some r ∧ r.state = .cleared) →
               ∃ slot r, l.allocate severity = .evict slot ∧ l.record? slot = some r ∧ r.state = .cleared
                 ∧ ∀ i q, l.record? i = some q → q.state = .cleared → age q < age r ∨ (age q = age r ∧ slot ≤ i))
           ∧ (full → (∀ i r, l.record? i = some r → r.state ≠ .cleared) →
               (severity = .advisory ∨ severity = .minor ∨ (∀ i r, l.record? i = some r → r.severity = .major ∨ r.severity = .critical) →
                   l.allocate severity = .lost)
                 ∧ (severity = .major ∨ severity = .critical →
                     (∃ i r, l.record? i = some r ∧ (r.severity = .advisory ∨ r.severity = .minor)) →
                     ∃ slot r, l.allocate severity = .displace slot ∧ l.record? slot = some r
                       ∧ (r.severity = .advisory ∨ r.severity = .minor)
                       ∧ ∀ i q, l.record? i = some q → q.severity = .advisory ∨ q.severity = .minor →
                           age q < age r ∨ (age q = age r ∧ slot ≤ i))))

/-- The creation of a record, by an INCIDENT_DECLARE with INCIDENT RUNNING and no live record of its key (R121, R123, R125 to R128, R130, R133,
R135). In the slot that R125 gives stands an OPEN record with its class's severity and effects and its location's coverage; its isolation is
applied to the covered sections, the trains standing at covered timing points are HELD, and its announcement joins the covered zones' queues
(ANNOUNCE STOPPED, room, no equal entry); the latch of its severity considers it, and the alarm is ASSERTED. A displaced record's isolation is
released first, and its displacement counted. With no slot no record changes: the overflow flag is set, its count rises, and the alarm is
ASSERTED. On Port C leave, in this order, an INCIDENT_NOTICE of the displaced record and of the new one, or of the unrecorded incident (fields it
has none of: log entry 15), and an ALARM_STATE when the summary changed (R136), then the reply. A train whose station was asked for in vain
because its run record is poisoned is unbound (R60; log entry 45). -/
def Obligations.RecordCreated : Prop :=
  ∀ (s : State) (r : Request) (kind : LocationKind), s.serves .incidentDeclare r → LocationKind.ofCode? (rd8 r.data 0) = some kind →
    16 ≤ r.table → r.table ≤ 63 → r.index < kind.size → s.line.jobs.incident = true →
    s.line.liveRecord? r.table ⟨kind, r.index⟩ = none → trising s.line.incidents.slots = true →
    (let entry := s.line.classAs r.table
     let loc : Location := ⟨kind, r.index⟩
     let cover := (coverageOf loc s.line).2
     let place := s.line.allocate entry.severity
     ∃ t, exec .incidentDeclare s = .next t ∧ t.mgmt = s.mgmt.finish .done
       ∧ (place = .lost →
           t.line.incidents.slots = s.line.incidents.slots ∧ t.line.incidents.overflow = true
             ∧ t.line.incidents.overflowCount = saturate s.line.incidents.overflowCount ∧ t.line.incidents.asserted = true
             ∧ t.line.incidents.latches = s.line.incidents.latches ∧ t.line.traction = s.line.traction
             ∧ t.line.tracker = s.line.tracker ∧ t.line.announcer = s.line.announcer
             ∧ t.path
               = ((State.placeAll
                   (s.line.notice .unrecorded (unrecordedBody ⟨r.table, loc, r.source, s.line.lineTime?, none⟩ entry.severity)
                     ++ t.line.alarmTelegram s.line.incidents.asserted) s).replied r (.done [2, 0, 0])).path)
       ∧ (∀ v run, kind = .train → v = r.index → s.line.poisonedRun? v = some run → place ≠ .lost →
           (t.line.train v).run = none ∧ (t.line.runStatus run).vehicle = none)
       ∧ ∀ slot, place = .free slot ∨ place = .evict slot ∨ place = .displace slot →
           (kind = .train → s.line.poisonedRun? r.index = none) →
           (let gone (x : Nat) : Nat :=
              match place, s.line.record? slot with
              | .displace _, some old => if old.effects.isolate = true ∧ x ∈ old.coverage.sections then 1 else 0
              | _, _ => 0
            let leaves : List Outgoing :=
              match place, s.line.record? slot with
              | .displace _, some old => s.line.notice .displaced (incidentBody old)
              | _, _ => []
            ∃ new, t.line.record? slot = some new
              ∧ new = { serial := new.serial, cls := r.table, severity := entry.severity, effects := entry.effects, location := loc
                        coverage := cover, source := r.source, detail := none, firstTime := s.line.lineTime?, lastTime := s.line.lineTime?
                        lastUpdate := s.line.timer, count := 1, state := .opened, conditionEnded := false
                        holdTold := entry.effects.hold, escalated := false }
              ∧ (place = .free slot → new.serial = s.line.nextFreeSerial)
              ∧ t.line.incidents.nextSerial = serialAfter new.serial
              ∧ (∀ other, other ≠ slot → t.line.record? other = s.line.record? other)
              ∧ t.line.incidents.overflow = s.line.incidents.overflow
              ∧ t.line.counter .creation = saturate (s.line.counter .creation)
              ∧ t.line.counter .displacement
                = (if place = .displace slot then saturate (s.line.counter .displacement) else s.line.counter .displacement)
              ∧ (∀ k, k < 4 → t.line.incidents.latches.get k
                  = if k = entry.severity.code then
                      (s.line.incidents.latches.get k).considers ⟨new.serial, r.table, loc, s.line.lineTime?⟩
                    else s.line.incidents.latches.get k)
              ∧ (entry.effects.alarm = true → t.line.incidents.asserted = true)
              ∧ t.path.portC
                = ((State.placeAll
                    (leaves ++ s.line.notice .raised (incidentBody new) ++ t.line.alarmTelegram s.line.incidents.asserted) s).replied r
                    (.done (0 :: be16 new.serial))).path.portC
              ∧ ((∀ old, s.line.record? slot = some old → old.coverage.sections.Nodup) →
                  ∀ x, (t.line.sectionDyn x).isolation
                    = (s.line.sectionDyn x).isolation - gone x + (if entry.effects.isolate = true ∧ x ∈ cover.sections then 1 else 0))
              ∧ (entry.effects.isolate = true → ∀ x, x ∈ cover.sections → (t.line.sectionDyn x).state = .isolated)
              ∧ (entry.effects.hold = true → s.line.jobs.timetable = true →
                  ∀ v p, v < 64 → (s.line.train v).standing = true → (s.line.train v).timingPoint = some p → p ∈ cover.timingPoints →
                    (t.line.train v).state = .held ∧ (t.line.train v).holds.incident = true)
              ∧ ∀ a m z, (place = .free slot ∨ place = .evict slot) → entry.effects.announce = true → entry.announceTemplate = some a →
                  s.line.template? a = some m → m.fragments ≠ [] → s.line.jobs.announce = false → z ∈ cover.zones →
                  (s.line.zoneDyn z).queue.length < 8 →
                  (let e : Entry :=
                     ⟨a, none, entry.announcePriority, .incident new.serial, m.repeats, s.line.timer + ms (1000 * m.lifetime)⟩
                   (∀ x, x ∈ (s.line.zoneDyn z).queue → x.sameAs e = false) →
                   (∀ x, (s.line.zoneDyn z).current = some x → x.entry.sameAs e = false) →
                   t.line.zoneDyn z = { s.line.zoneDyn z with queue := joinTail e (s.line.zoneDyn z).queue })))

/-- A FIELD_ALARM from a source with a location (R129, R123, R124, R133, R134): a code or an indication out of range is counted and changes
nothing else on the line. A raise while INCIDENT is STOPPED is counted and changes no record; one with no live record and a free slot
creates a record, which the latch of its severity considers; one with a live record is counted in it and opens it, its first time, serial,
effects and coverage kept, and, at the class's escalation count and at most once (log entry 27), raises its severity by one step, which that
severity's latch considers. An end with no live record, or one already ended, changes no record; an ACKNOWLEDGED record whose class clears
itself is CLEARED, and any other is marked. On Port C leaves, after the alarm's own forwarding (the model's choice, log entry 9), an
INCIDENT_NOTICE of each change but a plain collapse, and an ALARM_STATE when the summary changed (R135, R136). The event time is that of
R28, and a time out of range is counted as a skew for every alarm taken (a bad code among them). -/
def Obligations.FieldAlarmTaken : Prop :=
  ∀ (port : Port) (h : Head) (code indication : Byte) (e : BitVec 32) (s : State) (entry : UnitEntry) (loc : Location),
    s.calm = true → s.accepts port h 6 = true → s.line.mapped h.src.toNat = some entry → alarmLocation? entry = some loc →
    (let c := code.toNat
     let class' := s.line.classAs c
     let passed := s.passOn port h kindFieldAlarm ([code, indication] ++ be32 e.toNat)
     let sent (notices : List Outgoing) (t : State) : State := State.placeAll (notices ++ t.line.alarmTelegram s.line.incidents.asserted) passed
     ∃ t, exec (.fieldAlarm port h code indication e) s = .next t
       ∧ (c < 16 ∨ 63 < c ∨ 2 ≤ indication.toNat → t.line = (s.line.timed e.toNat).bump .badAlarmCode ∧ t.path = passed.path)
       ∧ t.line.counter .timeSkew = (s.line.timed e.toNat).counter .timeSkew
       ∧ (16 ≤ c → c ≤ 63 → indication = 0 → s.line.jobs.incident = false →
           t.line.incidents = s.line.incidents ∧ t.line.counter .lostWhileStopped = saturate (s.line.counter .lostWhileStopped)
             ∧ t.path = passed.path)
       ∧ (16 ≤ c → c ≤ 63 → indication = 0 → s.line.jobs.incident = true → s.line.liveRecord? c loc = none →
           (∃ slot, slot < 32 ∧ s.line.record? slot = none) → (loc.kind = .train → s.line.poisonedRun? loc.index = none) →
           ∃ slot r, t.line.record? slot = some r ∧ r.cls = c ∧ r.location = loc ∧ r.source = h.src.toNat ∧ r.state = .opened ∧ r.count = 1
             ∧ r.serial = s.line.nextFreeSerial ∧ r.severity = class'.severity ∧ r.effects = class'.effects
             ∧ r.firstTime = s.line.eventTimeOf e.toNat
             ∧ t.path.portC = (sent (s.line.notice .raised (incidentBody r)) t).path.portC
             ∧ ∀ k, k < 4 → t.line.incidents.latches.get k
                 = if k = r.severity.code then (s.line.incidents.latches.get k).considers ⟨r.serial, c, loc, r.firstTime⟩
                   else s.line.incidents.latches.get k)
       ∧ (∀ slot old, 16 ≤ c → c ≤ 63 → indication = 0 → s.line.jobs.incident = true → s.line.liveRecord? c loc = some (slot, old) →
           ∃ r, t.line.record? slot = some r
             ∧ (let met := class'.escalation ≠ 0 ∧ Nat.min (old.count + 1) 255 = class'.escalation ∧ old.escalated = false
                  ∧ old.severity ≠ .critical
                r = { old with count := Nat.min (old.count + 1) 255, lastTime := r.lastTime, lastUpdate := s.line.timer
                               conditionEnded := false, state := .opened, severity := r.severity, escalated := r.escalated }
                  ∧ r.lastTime = s.line.eventTimeOf e.toNat
                  ∧ t.path
                    = (sent
                        (if met then s.line.notice .escalated (incidentBody r)
                         else if old.state = .acknowledged then s.line.notice .reopened (incidentBody r)
                         else []) t).path
                  ∧ (∀ other, other ≠ slot → t.line.record? other = s.line.record? other)
                  ∧ t.line.counter .collapse = saturate (s.line.counter .collapse)
                  ∧ t.line.counter .reopen
                    = (if old.state = .acknowledged then saturate (s.line.counter .reopen) else s.line.counter .reopen)
                  ∧ (met → r.severity.code = old.severity.code + 1 ∧ r.escalated = true
                      ∧ t.line.counter .escalation = saturate (s.line.counter .escalation)
                      ∧ ∀ k, k < 4 → t.line.incidents.latches.get k
                          = if k = r.severity.code then
                              (s.line.incidents.latches.get k).considers ⟨old.serial, old.cls, old.location, r.lastTime⟩
                            else s.line.incidents.latches.get k)
                  ∧ (¬met → r.severity = old.severity ∧ r.escalated = old.escalated
                      ∧ t.line.counter .escalation = s.line.counter .escalation
                      ∧ t.line.incidents.latches = s.line.incidents.latches)))
       ∧ (16 ≤ c → c ≤ 63 → indication = 1 →
           (s.line.liveRecord? c loc = none →
               t.line.incidents = s.line.incidents ∧ t.line.counter .unmatchedEnd = saturate (s.line.counter .unmatchedEnd)
                 ∧ t.path = passed.path)
             ∧ ∀ slot old, s.line.liveRecord? c loc = some (slot, old) →
                 (old.conditionEnded = true → t.line.incidents = s.line.incidents ∧ t.path = passed.path)
                   ∧ (old.conditionEnded = false → old.state = .opened ∨ class'.autoClear = false →
                       (let marked := { old with conditionEnded := true, lastUpdate := s.line.timer }
                        t.line.record? slot = some marked
                          ∧ t.path = (sent (s.line.notice .conditionEnded (incidentBody marked)) t).path))
                   ∧ (old.conditionEnded = false → old.state = .acknowledged → class'.autoClear = true →
                       ∃ r, t.line.record? slot = some r ∧ r.state = .cleared ∧ r.serial = old.serial ∧ r.lastUpdate = s.line.timer
                         ∧ t.line.incidents.overflow = false
                         ∧ t.path.portC = (sent (s.line.notice .cleared (incidentBody r)) t).path.portC)))

/-- INCIDENT_ACK, INCIDENT_CLEAR and INCIDENT_DECLARE (R130, R131, R132, R151): their refusals in order, each changing nothing. An
acknowledged record is ACKNOWLEDGED, or CLEARED when its condition has ended and its class clears itself; a cleared record is CLEARED, its
isolation is released, the trains it held stand with the incidents that still hold there, its announcements leave every queue, its current
play is final or, awaiting a retry, gone, its all-clear joins the covered zones' queues (ANNOUNCE STOPPED, room, no equal entry), and the
overflow flag is clear; each of the two leaves an INCIDENT_NOTICE and, when the summary changed, an ALARM_STATE on Port C before the reply
(R135, R136); a declared incident has a record (RecordCreated
says what it holds). Counters of a reply: log entry 30. -/
def Obligations.IncidentRequests : Prop :=
  (∀ (s : State) (r : Request), s.serves .incidentAck r →
      (let sent (t : State) (notices : List Outgoing) : State :=
         (State.placeAll (notices ++ t.line.alarmTelegram s.line.incidents.asserted) s).replied r (.done [])
       (r.index = 0 → exec .incidentAck s = .next (s.replied r (.refuse .range)))
        ∧ (r.index ≠ 0 → s.line.recordOf? r.index = none → exec .incidentAck s = .next (s.replied r (.refuse .invalid)))
        ∧ ∀ slot old, r.index ≠ 0 → s.line.recordOf? r.index = some (slot, old) →
            (old.state ≠ .opened → exec .incidentAck s = .next (s.replied r (.refuse .state)))
              ∧ (old.state = .opened → old.conditionEnded = false ∨ (s.line.classAs old.cls).autoClear = false →
                  ∃ t, exec .incidentAck s = .next t
                    ∧ t.line.record? slot = some { old with state := .acknowledged, lastUpdate := s.line.timer }
                    ∧ t.path
                      = (sent t
                          (s.line.notice .acknowledged
                            (incidentBody { old with state := .acknowledged, lastUpdate := s.line.timer }))).path
                    ∧ t.line.tracker = s.line.tracker ∧ t.line.traction = s.line.traction ∧ t.line.announcer = s.line.announcer)
              ∧ (old.state = .opened → old.conditionEnded = true → (s.line.classAs old.cls).autoClear = true →
                  ∃ t record, exec .incidentAck s = .next t ∧ t.line.record? slot = some record ∧ record.state = .cleared
                    ∧ t.path.portC = (sent t (s.line.notice .cleared (incidentBody record))).path.portC)))
    ∧ (∀ (s : State) (r : Request), s.serves .incidentClear r →
        (r.index = 0 → exec .incidentClear s = .next (s.replied r (.refuse .range)))
          ∧ (r.index ≠ 0 → s.line.recordOf? r.index = none → exec .incidentClear s = .next (s.replied r (.refuse .invalid)))
          ∧ ∀ slot old, r.index ≠ 0 → s.line.recordOf? r.index = some (slot, old) →
              (old.state = .cleared → exec .incidentClear s = .next (s.replied r (.refuse .state)))
                ∧ (old.state ≠ .cleared →
                    ∃ t record, exec .incidentClear s = .next t ∧ t.line.record? slot = some record ∧ record.state = .cleared
                      ∧ record.serial = old.serial ∧ record.lastUpdate = s.line.timer ∧ t.line.incidents.overflow = false
                      ∧ (old.effects.isolate = true → old.coverage.sections.Nodup → ∀ x, x ∈ old.coverage.sections →
                          (t.line.sectionDyn x).isolation = (s.line.sectionDyn x).isolation - 1)
                      ∧ (∀ z, z < 40 →
                          (∀ e, e ∈ (t.line.zoneDyn z).queue → e.origin ≠ .incident old.serial)
                            ∧ (∀ play, (s.line.zoneDyn z).current = some play → play.entry.origin = .incident old.serial →
                                ((s.line.zoneDyn z).state = .playing →
                                    (t.line.zoneDyn z).current = some { play with final := true }
                                      ∧ (t.line.zoneDyn z).state = .playing)
                                  ∧ ((s.line.zoneDyn z).state = .retryWait → s.line.jobs.announce = false →
                                      (t.line.zoneDyn z).current = none ∧ (t.line.zoneDyn z).state = .idle))
                            ∧ ∀ a m, (s.line.classAs old.cls).allClear = some a → s.line.template? a = some m → m.fragments ≠ [] →
                                s.line.jobs.announce = false → z ∈ old.coverage.zones → old.coverage.zones.Nodup →
                                (let left := (s.line.zoneDyn z).queue.filter fun x => x.origin != .incident old.serial
                                 let e : Entry := ⟨a, none, .service, .system, m.repeats, s.line.timer + ms (1000 * m.lifetime)⟩
                                 left.length < 8 → (∀ x, x ∈ left → x.sameAs e = false) →
                                 (∀ x, (s.line.zoneDyn z).current = some x → x.entry.sameAs e = false) →
                                 (t.line.zoneDyn z).queue = joinTail e left))
                      ∧ (old.effects.hold = true → trising s.line.incidents.slots = true → s.line.jobs.timetable = true →
                          ∀ v p, v < 64 → (s.line.train v).standing = true → (s.line.train v).timingPoint = some p →
                            p ∈ old.coverage.timingPoints →
                            (t.line.train v).holds.incident
                                = s.line.incidents.slots.any
                                    (fun e => e.1 != slot && e.2.holdTold && e.2.coverage.timingPoints.contains p)
                              ∧ (t.line.train v).state = (if (t.line.train v).holds.isEmpty = true then .dwelling else .held))
                      ∧ t.path.portC
                        = ((State.placeAll
                            (s.line.notice .cleared (incidentBody record) ++ t.line.alarmTelegram s.line.incidents.asserted) s).replied r
                            (.done [])).path.portC))
    ∧ ∀ (s : State) (r : Request), s.serves .incidentDeclare r →
        (LocationKind.ofCode? (rd8 r.data 0) = none → exec .incidentDeclare s = .next (s.replied r (.refuse .range)))
          ∧ ∀ kind, LocationKind.ofCode? (rd8 r.data 0) = some kind →
              (r.table < 16 ∨ 63 < r.table ∨ kind.size ≤ r.index → exec .incidentDeclare s = .next (s.replied r (.refuse .range)))
                ∧ (16 ≤ r.table → r.table ≤ 63 → r.index < kind.size →
                    (s.line.jobs.incident = false → exec .incidentDeclare s = .next (s.replied r (.refuse .state)))
                      ∧ (s.line.jobs.incident = true → s.line.liveRecord? r.table ⟨kind, r.index⟩ = none →
                          (∃ slot, slot < 32 ∧ s.line.record? slot = none) → (kind = .train → s.line.poisonedRun? r.index = none) →
                          ∃ t slot q, exec .incidentDeclare s = .next t ∧ t.line.record? slot = some q ∧ q.cls = r.table
                            ∧ q.location = ⟨kind, r.index⟩ ∧ q.source = r.source ∧ q.state = .opened
                            ∧ q.serial = s.line.nextFreeSerial ∧ t.mgmt = s.mgmt.finish .done))

/-! ## Announcements -/

/-- A PA_STATUS of zone `z` (R146, R147, R148): from another PA controller than the zone's it is counted as foreign, and with no play of its
tag under way, or an outcome code out of use, as stale, and changes nothing else. COMPLETE ends a play on its last repeat, and returns it to
its group's tail with one repeat fewer while ANNOUNCE is STOPPED and the queue has room (what it counts: log entry 32); BUSY
finishes a final play; makes the zone wait for its retry time; or, while ANNOUNCE is STOPPED, returns the play to the head of its group, or
removes it when it has expired (by R143: log entry 52); FAULT drops the play, raising class 12 at the station. -/
def Obligations.PaStatusTaken : Prop :=
  ∀ (port : Port) (h : Head) (tag outcome : Byte) (s : State) (z : Nat) (e : ZoneEntry), s.calm = true → s.accepts port h 2 = true →
    s.line.unitAt h.src.toNat .paController z → s.line.zone? z = some e →
    (let d := s.line.zoneDyn z
     let idle := { d with state := .idle, current := none, airtimeDeadline := none, retryTime := none }
     (s.line.unitAddress? e.controller ≠ some h.src.toNat →
         exec (.paStatus port h tag outcome) s = .next { s.countGood port with line := s.line.bump .foreignStatus })
       ∧ (s.line.unitAddress? e.controller = some h.src.toNat →
           (d.state ≠ .playing ∨ d.tag ≠ tag ∨ d.current = none ∨ 3 ≤ outcome.toNat →
               exec (.paStatus port h tag outcome) s = .next { s.countGood port with line := s.line.bump (.staleStatus z) })
             ∧ ∀ play, d.state = .playing → d.tag = tag → d.current = some play →
                 (outcome = 0 → play.final = true ∨ play.entry.repeatsLeft ≤ 1 → d.queue = [] →
                     exec (.paStatus port h tag outcome) s = .next
                       { s.countGood port with line := (s.line.bump (.completedPlay z)).setZoneDyn z idle })
                   ∧ (outcome = 0 → play.final = false → 1 < play.entry.repeatsLeft → reached play.entry.expiry s.line.timer = false →
                       d.queue.length < 8 → s.line.jobs.announce = false →
                       exec (.paStatus port h tag outcome) s = .next
                         { s.countGood port with
                           line :=
                             (s.line.bump (.completedPlay z)).setZoneDyn z
                               { idle with
                                 queue := joinTail { play.entry with repeatsLeft := play.entry.repeatsLeft - 1 } d.queue } })
                   ∧ (outcome = 1 → play.final = true → d.queue = [] ∨ s.line.jobs.announce = false →
                       exec (.paStatus port h tag outcome) s = .next
                         { s.countGood port with line := (s.line.bump (.busy z)).setZoneDyn z idle })
                   ∧ (outcome = 1 → play.final = false → s.line.jobs.announce = false →
                       (reached play.entry.expiry s.line.timer = true →
                           exec (.paStatus port h tag outcome) s = .next
                             { s.countGood port with line := ((s.line.bump (.busy z)).bump (.expiry z)).setZoneDyn z idle })
                         ∧ (reached play.entry.expiry s.line.timer = false → d.queue.length < 8 →
                             exec (.paStatus port h tag outcome) s = .next
                               { s.countGood port with
                                 line := (s.line.bump (.busy z)).setZoneDyn z { idle with queue := joinHead play.entry d.queue } }))
                   ∧ (outcome = 1 → play.final = false → s.line.jobs.announce = true →
                       (e.retryLimit = .unlimited ∨ ∃ n, e.retryLimit.number? = some n ∧ d.retries < n) →
                       exec (.paStatus port h tag outcome) s = .next
                         { s.countGood port with
                           line :=
                             (s.line.bump (.busy z)).setZoneDyn z
                               { d with
                                 state := .retryWait, airtimeDeadline := none, retries := Nat.min (d.retries + 1) 255
                                 retryTime := some (s.line.timer + ms (1000 * e.retryDelay)) } })
                   ∧ (outcome = 2 → s.line.jobs.incident = false → d.queue = [] →
                       exec (.paStatus port h tag outcome) s = .next
                         { s.countGood port with
                           line := ((s.line.bump .lostWhileStopped).bump (.noCompletion z)).setZoneDyn z idle })
                   ∧ (outcome = 2 → s.line.jobs.incident = true → s.line.liveRecord? 12 ⟨.station, z⟩ = none →
                       (∃ slot, slot < 32 ∧ s.line.record? slot = none) →
                       ∃ t slot r, exec (.paStatus port h tag outcome) s = .next t ∧ t.line.record? slot = some r ∧ r.cls = 12
                         ∧ r.location = ⟨.station, z⟩ ∧ r.source = h.src.toNat ∧ r.state = .opened ∧ r.count = 1)))

/-- AIRTIME_DEADLINE, RETRY_TIME and SWEEP (R143, R148, R149; log entry 4 for a deadline not reached). At the airtime deadline of a play it
is dropped and class 12 raised. At the retry time an expired or unplayable play is removed; while ANNOUNCE is STOPPED any
other returns to the head of its group, for which a full queue gives up its youngest ROUTINE entry, or it is dropped; while it is RUNNING one
whose template is poisoned is removed and counted, and any other is sent again under the next tag.
The sweep removes the expired entries and nothing else from every queue. -/
def Obligations.AnnouncerTimers : Prop :=
  (∀ (z : Nat) (s : State), s.calm = true →
      (let d := s.line.zoneDyn z
       let idle := { d with state := .idle, current := none, airtimeDeadline := none, retryTime := none }
       (d.state ≠ .playing ∨ due d.airtimeDeadline s.line.timer = false → exec (.airtimeDeadline z) s = .next s)
         ∧ (d.state = .playing → due d.airtimeDeadline s.line.timer = true →
             (s.line.jobs.incident = false → d.queue = [] →
                 exec (.airtimeDeadline z) s = .next
                   { s with line := ((s.line.bump .lostWhileStopped).bump (.noCompletion z)).setZoneDyn z idle })
               ∧ (s.line.jobs.incident = true → s.line.liveRecord? 12 ⟨.station, z⟩ = none →
                   (∃ slot, slot < 32 ∧ s.line.record? slot = none) →
                   ∃ t slot r, exec (.airtimeDeadline z) s = .next t ∧ t.line.record? slot = some r ∧ r.cls = 12
                     ∧ r.location = ⟨.station, z⟩ ∧ r.source = s.line.paAddress z ∧ r.state = .opened ∧ r.count = 1))
         ∧ (d.state ≠ .retryWait ∨ due d.retryTime s.line.timer = false → exec (.retryTime z) s = .next s)
         ∧ ∀ play, d.state = .retryWait → due d.retryTime s.line.timer = true → d.current = some play →
             (reached play.entry.expiry s.line.timer = true → d.queue = [] →
                 exec (.retryTime z) s = .next { s with line := (s.line.bump (.expiry z)).setZoneDyn z idle })
               ∧ (reached play.entry.expiry s.line.timer = false → s.line.playable z = false →
                   exec (.retryTime z) s = .next { s with line := s.line.setZoneDyn z idle })
               ∧ (reached play.entry.expiry s.line.timer = false → s.line.playable z = true → s.line.jobs.announce = false →
                   (d.queue.length < 8 →
                       exec (.retryTime z) s = .next
                         { s with line := s.line.setZoneDyn z { idle with queue := joinHead play.entry d.queue } })
                     ∧ (8 ≤ d.queue.length → d.queue.any (fun x => x.prio == .routine) = true →
                         exec (.retryTime z) s = .next
                           { s with
                             line :=
                               (s.line.bump (.playDisplacement z)).setZoneDyn z
                                 { idle with queue := joinHead play.entry d.queue.dropLast } })
                     ∧ (8 ≤ d.queue.length → d.queue.any (fun x => x.prio == .routine) = false →
                         exec (.retryTime z) s = .next { s with line := (s.line.bump (.fullDrop z)).setZoneDyn z idle }))
               ∧ (reached play.entry.expiry s.line.timer = false → s.line.playable z = true → s.line.jobs.announce = true →
                   s.line.template? play.entry.template = none → d.queue = [] →
                   exec (.retryTime z) s = .next { s with line := (s.line.bump (.badTemplate z)).setZoneDyn z idle })
               ∧ ∀ t, reached play.entry.expiry s.line.timer = false → s.line.playable z = true → s.line.jobs.announce = true →
                   s.line.template? play.entry.template = some t →
                   exec (.retryTime z) s = .next
                     (State.place
                       ⟨.announce, .f,
                         ⟨kindPaPlay, s.line.paAddress z,
                           [d.tag + 1, u8 play.entry.prio.code, u8 t.fragments.length] ++ spoken t.position play.entry.parameter
                             ++ t.fragments.flatMap be16⟩⟩
                       { s with
                         line :=
                           ((s.line.setZoneDyn z
                               { d with
                                 tag := d.tag + 1, state := .playing, retryTime := none
                                 airtimeDeadline := some (s.line.timer + ms (1000 * t.airtime + 2000)) }).bump
                               (.playsSent z)).bump (.playRetry z) })))
    ∧ ∀ s : State, s.calm = true →
        (s.line.timer.toNat % 1000 ≠ 0 → exec .sweep s = .next s)
          ∧ ((∀ z, z < 40 → ∀ e, e ∈ (s.line.zoneDyn z).queue → reached e.expiry s.line.timer = false) → exec .sweep s = .next s)
          ∧ (s.line.timer.toNat % 1000 = 0 →
              ∃ t, exec .sweep s = .next t
                ∧ ∀ z, z < 40 →
                    (∀ e, e ∈ (t.line.zoneDyn z).queue → e ∈ (s.line.zoneDyn z).queue ∧ reached e.expiry s.line.timer = false)
                      ∧ (s.line.jobs.announce = false →
                          t.line.zoneDyn z = { s.line.zoneDyn z with
                            queue := (s.line.zoneDyn z).queue.filter fun e => !reached e.expiry s.line.timer }))

/-- A PA_REQUEST intercepted on Port C (R152, R142): answered by a PA_RESULT to the sender and not forwarded. An undefined or poisoned template
is refused; an entry equal to a queued one, or to the current play, lends it its later expiry; with room, and ANNOUNCE STOPPED, the entry joins
the tail of its priority group and nothing else happens; with a full queue it displaces the last entry when that has a lower priority (ANNOUNCE
STOPPED), and is refused when that has the same or a higher one. (The address in the PA_RESULT is the one the request was sent to, log entry 43;
the parameter is present when its flag byte is 1, log entry 16.) -/
def Obligations.PaRequestAdmitted : Prop :=
  ∀ (h : Head) (m q n f : Byte) (k j : BitVec 16) (s : State) (z : Nat), s.calm = true → s.accepts .c h 8 = true →
    s.line.unitAt h.dst.toNat .paController z → h.dst.toNat ≠ s.line.config.ownAddress → h.src ≠ 0 → h.src ≠ 65535 →
    (let d := s.line.zoneDyn z
     let answered (code : Byte) (l : Line) : State :=
       State.place ⟨.announce, .c, ⟨kindPaResult, h.src.toNat, be16 h.dst.toNat ++ [m, h.sequence, code]⟩⟩
         { s.countGood .c with line := l }
     (s.line.template? m.toNat = none → exec (.paRequest .c h m q n f k j) s = .next (answered 3 (s.line.bump (.badTemplate z))))
       ∧ ∀ t, s.line.template? m.toNat = some t →
           (t.fragments = [] → exec (.paRequest .c h m q n f k j) s = .next (answered 3 (s.line.bump (.badTemplate z))))
             ∧ (t.fragments ≠ [] →
                 (let e : Entry :=
                    { template := m.toNat
                      parameter := if f = 1 then some k.toNat else none
                      prio := if q = 0 then .emergency else if q = 1 then .service else if q = 2 then .routine else t.defaultPriority
                      origin := .centre h.src.toNat
                      repeatsLeft := clampNat 1 4 n.toNat
                      expiry := s.line.timer
                        + ms (1000 * (if j = 0 then t.lifetime else clampNat 10 3600 j.toNat)) }
                  (d.queue.any (fun x => x.sameAs e) = true →
                      exec (.paRequest .c h m q n f k j) s = .next
                        (answered 1
                          ((s.line.setZoneDyn z
                            { d with
                              queue := d.queue.map fun x =>
                                if x.sameAs e then { x with expiry := later x.expiry e.expiry } else x }).bump (.merge z))))
                    ∧ (∀ play, d.queue.any (fun x => x.sameAs e) = false → d.current = some play → play.entry.sameAs e = true →
                        exec (.paRequest .c h m q n f k j) s = .next
                          (answered 1
                            ((s.line.setZoneDyn z
                              { d with
                                current := some { play with entry := { play.entry with expiry := later play.entry.expiry e.expiry } } }).bump
                              (.merge z))))
                    ∧ (d.queue.any (fun x => x.sameAs e) = false → d.current.any (fun p => p.entry.sameAs e) = false →
                        (d.queue.length < 8 → s.line.jobs.announce = false →
                            exec (.paRequest .c h m q n f k j) s = .next
                              (answered 0 ((s.line.setZoneDyn z { d with queue := joinTail e d.queue }).bump (.admission z))))
                          ∧ (∀ last, 8 ≤ d.queue.length → s.line.jobs.announce = false → d.queue.getLast? = some last →
                              e.prio.code < last.prio.code →
                              exec (.paRequest .c h m q n f k j) s = .next
                                (answered 0
                                  (((s.line.setZoneDyn z { d with queue := joinTail e d.queue.dropLast }).bump (.playDisplacement z)).bump
                                    (.admission z))))
                          ∧ (8 ≤ d.queue.length → (∀ last, d.queue.getLast? = some last → last.prio.code ≤ e.prio.code) →
                              exec (.paRequest .c h m q n f k j) s = .next (answered 2 (s.line.bump (.fullDrop z))))))))

/-- What a zone plays next (R144 to R148, R150), shown where a play ends or an EMERGENCY entry comes in. A completed play with no repeat
left is followed, ANNOUNCE RUNNING, by the first EMERGENCY entry, else the first SERVICE entry, or the first ROUTINE one when none of
SERVICE waits or the rotation limit is reached: its PA_PLAY is placed under the next tag, and the consecutive-service count follows; an
expired or unplayable last entry is removed. A completed play with repeats left returns to a full queue as an entry handed to it would (the
model's choice, log entry 32). An EMERGENCY request aborts the current play of a lower priority, which returns to the head of its group
unless it is final: a full queue gives up its youngest ROUTINE entry for it, or it is dropped. BUSY with the retry limit used, or more than
a lowered limit (log entry 33), drops the play and raises class 11. (The parameter flag: log entry 16; the address in the PA_RESULT: log
entry 43.) -/
def Obligations.PlaysChosen : Prop :=
  (∀ (port : Port) (h : Head) (tag outcome : Byte) (s : State) (z : Nat) (e : ZoneEntry) (play : Play), s.calm = true →
      s.accepts port h 2 = true → s.line.unitAt h.src.toNat .paController z → s.line.zone? z = some e →
      s.line.unitAddress? e.controller = some h.src.toNat → (s.line.zoneDyn z).state = .playing → (s.line.zoneDyn z).tag = tag →
      (s.line.zoneDyn z).current = some play →
      (let d := s.line.zoneDyn z
       let idle := { d with state := .idle, current := none, airtimeDeadline := none, retryTime := none }
       let head (g : Priority) : Option Entry := d.queue.find? fun x => x.prio == g
       (outcome = 0 → play.final = true ∨ play.entry.repeatsLeft ≤ 1 → s.line.jobs.announce = true →
           (∀ c m after, s.line.template? c.template = some m → reached c.expiry s.line.timer = false →
               (head .emergency = some c ∧ after = d.consecutive)
                 ∨ (head .emergency = none ∧ head .service = some c ∧ (head .routine = none ∨ d.consecutive < e.rotation)
                     ∧ after = Nat.min (d.consecutive + 1) 4)
                 ∨ (head .emergency = none ∧ head .routine = some c ∧ (head .service = none ∨ e.rotation ≤ d.consecutive) ∧ after = 0) →
               exec (.paStatus port h tag outcome) s = .next
                 (State.place
                   ⟨.announce, .f,
                     ⟨kindPaPlay, h.src.toNat,
                       [tag + 1, u8 c.prio.code, u8 m.fragments.length] ++ spoken m.position c.parameter ++ m.fragments.flatMap be16⟩⟩
                   { s.countGood port with
                     line :=
                       ((s.line.bump (.completedPlay z)).setZoneDyn z
                         { idle with
                           queue := d.queue.erase c, state := .playing, current := some ⟨c, false⟩, tag := tag + 1, retries := 0
                           airtimeDeadline := some (s.line.timer + ms (1000 * m.airtime + 2000)), consecutive := after }).bump
                         (.playsSent z) }))
             ∧ ∀ c, d.queue = [c] →
                 (reached c.expiry s.line.timer = true →
                     exec (.paStatus port h tag outcome) s = .next
                       { s.countGood port with
                         line := ((s.line.bump (.completedPlay z)).bump (.expiry z)).setZoneDyn z { idle with queue := [] } })
                   ∧ (reached c.expiry s.line.timer = false → s.line.template? c.template = none →
                       exec (.paStatus port h tag outcome) s = .next
                         { s.countGood port with
                           line := ((s.line.bump (.completedPlay z)).bump (.badTemplate z)).setZoneDyn z { idle with queue := [] } }))
         ∧ (∀ last, outcome = 0 → play.final = false → 1 < play.entry.repeatsLeft → reached play.entry.expiry s.line.timer = false →
             8 ≤ d.queue.length → s.line.jobs.announce = false → d.queue.getLast? = some last →
             (let back := { play.entry with repeatsLeft := play.entry.repeatsLeft - 1 }
              (back.prio.code < last.prio.code →
                  exec (.paStatus port h tag outcome) s = .next
                    { s.countGood port with
                      line :=
                        (((s.line.bump (.completedPlay z)).bump (.playDisplacement z)).bump (.admission z)).setZoneDyn z
                          { idle with queue := joinTail back d.queue.dropLast } })
                ∧ (last.prio.code ≤ back.prio.code →
                    exec (.paStatus port h tag outcome) s = .next
                      { s.countGood port with
                        line := ((s.line.bump (.completedPlay z)).bump (.fullDrop z)).setZoneDyn z idle })))
         ∧ ∀ limit, outcome = 1 → play.final = false → s.line.jobs.announce = true → e.retryLimit.number? = some limit → limit ≤ d.retries →
             (s.line.jobs.incident = false → d.queue = [] →
                 exec (.paStatus port h tag outcome) s = .next
                   { s.countGood port with
                     line := (((s.line.bump (.busy z)).bump .lostWhileStopped).bump (.unavailable z)).setZoneDyn z idle })
               ∧ (s.line.jobs.incident = true → s.line.liveRecord? 11 ⟨.station, z⟩ = none →
                   (∃ slot, slot < 32 ∧ s.line.record? slot = none) →
                   ∃ t slot r, exec (.paStatus port h tag outcome) s = .next t ∧ t.line.record? slot = some r ∧ r.cls = 11
                     ∧ r.location = ⟨.station, z⟩ ∧ r.source = h.src.toNat ∧ r.state = .opened ∧ r.count = 1
                     ∧ t.line.counter (.unavailable z) = saturate (s.line.counter (.unavailable z)))))
    ∧ ∀ (h : Head) (m n f : Byte) (k j : BitVec 16) (s : State) (z a : Nat) (e : ZoneEntry) (t : Template) (play : Play), s.calm = true →
        s.accepts .c h 8 = true → s.line.unitAt h.dst.toNat .paController z → h.dst.toNat ≠ s.line.config.ownAddress → h.src ≠ 0 →
        h.src ≠ 65535 → s.line.template? m.toNat = some t → t.fragments ≠ [] → j ≠ 0 → s.line.zone? z = some e →
        s.line.unitAddress? e.controller = some a → s.line.jobs.announce = true → (s.line.zoneDyn z).state ≠ .idle →
        (s.line.zoneDyn z).current = some play → play.entry.prio ≠ .emergency → (s.line.zoneDyn z).queue.length < 8 →
        (∀ x, x ∈ (s.line.zoneDyn z).queue → x.prio ≠ .emergency) →
        (let d := s.line.zoneDyn z
         let new : Entry :=
           ⟨m.toNat, if f = 1 then some k.toNat else none, .emergency, .centre h.src.toNat, clampNat 1 4 n.toNat,
             s.line.timer + ms (1000 * clampNat 10 3600 j.toNat)⟩
         let playing (q : List Entry) : ZoneDyn :=
           { d with
             queue := q, state := .playing, current := some ⟨new, false⟩, tag := d.tag + 1, retries := 0, retryTime := none
             airtimeDeadline := some (s.line.timer + ms (1000 * t.airtime + 2000)) }
         let answered (l : Line) : State :=
           State.placeAll
             [⟨.announce, .f, ⟨kindPaAbort, a, [d.tag]⟩⟩,
               ⟨.announce, .f,
                 ⟨kindPaPlay, a,
                   [d.tag + 1, 0, u8 t.fragments.length] ++ spoken t.position new.parameter ++ t.fragments.flatMap be16⟩⟩,
               ⟨.announce, .c, ⟨kindPaResult, h.src.toNat, be16 h.dst.toNat ++ [m, h.sequence, 0]⟩⟩]
             { s.countGood .c with line := l }
         let counted := (s.line.bump (.admission z)).bump (.preEmption z)
         (∀ x, x ∈ d.queue → x.sameAs new = false) → play.entry.sameAs new = false →
         (play.final = true →
             exec (.paRequest .c h m 0 n f k j) s = .next (answered ((counted.bump (.playsSent z)).setZoneDyn z (playing d.queue))))
           ∧ (play.final = false → d.queue.length < 7 →
               exec (.paRequest .c h m 0 n f k j) s = .next
                 (answered ((counted.bump (.playsSent z)).setZoneDyn z (playing (joinHead play.entry d.queue)))))
           ∧ (play.final = false → d.queue.length = 7 →
               (d.queue.any (fun x => x.prio == .routine) = true →
                   exec (.paRequest .c h m 0 n f k j) s = .next
                     (answered
                       (((counted.bump (.playDisplacement z)).bump (.playsSent z)).setZoneDyn z
                         (playing (joinHead play.entry d.queue.dropLast)))))
                 ∧ (d.queue.any (fun x => x.prio == .routine) = false →
                     exec (.paRequest .c h m 0 n f k j) s = .next
                       (answered (((counted.bump (.fullDrop z)).bump (.playsSent z)).setZoneDyn z (playing d.queue))))))

/-! ## Management requests -/

/-- A MGMT_REQUEST addressed to the LX4 on Port C (R12, R155, R156): it joins a queue of fewer than four; with four waiting it is answered
BUSY at once and counted; one whose operation is none of the seventeen is answered RANGE as soon as it is the head (log entry 6 for the
moment, 30 for the counters). -/
def Obligations.MgmtRequestQueued : Prop :=
  ∀ (h : Head) (o p b c : Byte) (i m : BitVec 16) (data : List Byte) (s : State), s.calm = true → s.mgmt.known = true →
    s.accepts .c h (8 + data.length) = true → h.dst.toNat = s.line.config.ownAddress → h.src ≠ 0 → h.src ≠ 65535 →
    (let r : Request :=
       ⟨h.src.toNat, (s.line.windowIndex? h.src.toNat).map fun k => (s.line.unitEntry? k).getD .initial, h.sequence, o.toNat, p.toNat,
         b.toNat, c.toNat, i.toNat, m, data ++ h.extra⟩
     (s.mgmt.queue.length < 4 → o.toNat < 17 →
         exec (.mgmtRequest .c h o p b c i m data) s = .next
           { s.countGood .c with mgmt := { s.mgmt with queue := s.mgmt.queue ++ [r] } })
       ∧ (4 ≤ s.mgmt.queue.length →
           exec (.mgmtRequest .c h o p b c i m data) s = .next
             (State.place ⟨.management, .c, ⟨kindMgmtReply, h.src.toNat, [o, h.sequence, 4, 0, 0]⟩⟩
               { s.countGood .c with mgmt := { s.mgmt with busy := saturate s.mgmt.busy } }))
       ∧ (s.mgmt.queue = [] → s.mgmt.validating = none → 17 ≤ o.toNat →
           exec (.mgmtRequest .c h o p b c i m data) s = .next
             (State.replied { s.countGood .c with mgmt := { s.mgmt with queue := [r] } } r (.refuse .range))))

/-- The service of the head request (R155, R157): a command whose operation the head does not ask for has no effect (log entry 6); a request
whose space or data does not fit is answered RANGE, one without the privilege PRIVILEGE, with no other effect. In the commissioning state
every sender has CONTROL; outside it a CONTROL workstation has every operation, a VIEW workstation the reads, and any other sender none.
(The moment of the Unit Map reads: log entry 47; counters of a reply: log entry 30.) -/
def Obligations.RequestsRefused : Prop :=
  ∀ (o : Operation) (s : State), s.calm = true →
    (s.headFor o = none → exec o.command s = .next s)
      ∧ ∀ r, s.headFor o = some r →
          (∀ status, s.mgmt.known = true → s.line.requestRefusal o r = some status →
              exec o.command s = .next (s.replied r (.refuse status)))
            ∧ (r.space ≠ o.space ∨ r.data.length < o.dataLength → s.line.requestRefusal o r = some .range)
            ∧ (r.space = o.space → o.dataLength ≤ r.data.length →
                (s.line.commissioning = true → s.line.requestRefusal o r = none)
                  ∧ (s.line.commissioning = false →
                      (r.translation = none → s.line.requestRefusal o r = some .privilege)
                        ∧ ∀ e, r.translation = some e →
                            (e.kind ≠ .workstation → s.line.requestRefusal o r = some .privilege)
                              ∧ (e.kind = .workstation → e.privilege = .control → s.line.requestRefusal o r = none)
                              ∧ (e.kind = .workstation → e.privilege = .view →
                                  s.line.requestRefusal o r =
                                    if o = .tableRead ∨ o = .statusRead ∨ o = .identify ∨ (o = .latchRead ∧ masked r.mask 0 = false) then
                                      none
                                    else some .privilege)))

/-- TABLE_READ, STATUS_READ, IDENTIFY and LATCH_READ (R133, R158, R163, R166). A table or a run of entries that does not exist or is too long for
a reply is answered RANGE with the request's entry index (the model's choice, log entry 29); else INTEGRITY with the first poisoned entry, or the
records in index order. The items of a group asked for in their order (of two groups the model's, log entries 31 and 36), four bytes each, or
RANGE, which a count of 0 or above 8 is answered as well (the model's choice, log entry 53); the identification record; the latches named, in
tier order, which are emptied exactly when the clear flag is set, or RANGE for a tier above 4 (the model's choice, log entry 50). The bytes of
places that hold nothing and of a substation's points and flags are the model's (log entries 15 and 55). Nothing else changes in any case; the
counters of a reply are those of log entry 30. -/
def Obligations.ReadsAnswered : Prop :=
  (∀ (s : State) (r : Request), s.serves .tableRead r →
      (TableId.ofCode? r.table = none → exec .tableRead s = .next (s.replied r (.refuseAt .range r.index)))
        ∧ ∀ t, TableId.ofCode? r.table = some t →
            (r.count = 0 ∨ 8 < r.count ∨ t.size < r.index + r.count ∨ 51 < r.count * t.recordSize →
                exec .tableRead s = .next (s.replied r (.refuseAt .range r.index)))
              ∧ (1 ≤ r.count → r.count ≤ 8 → r.index + r.count ≤ t.size → r.count * t.recordSize ≤ 51 →
                  (∀ k, k < r.count → s.line.poisoned t (r.index + k) = true →
                      (∀ j, j < k → s.line.poisoned t (r.index + j) = false) →
                      exec .tableRead s = .next (s.replied r (.refuseAt .integrity (r.index + k))))
                    ∧ ((∀ k, k < r.count → s.line.poisoned t (r.index + k) = false) →
                        exec .tableRead s = .next
                          (s.replied r (.done ((List.range' r.index r.count).flatMap fun i => s.line.recordBytes t i))))))
    ∧ (∀ (s : State) (r : Request), s.serves .statusRead r →
      (11 ≤ r.table → exec .statusRead s = .next (s.replied r (.refuse .range)))
        ∧ ∀ items, s.groupItems r.table = some items →
            (r.count = 0 ∨ 8 < r.count ∨ items.length < r.index + r.count →
                exec .statusRead s = .next (s.replied r (.refuse .range)))
              ∧ (1 ≤ r.count → r.count ≤ 8 → r.index + r.count ≤ items.length →
                  exec .statusRead s = .next
                    (s.replied r (.done (((items.drop r.index).take r.count).flatMap be32)))))
    ∧ (∀ (s : State) (r : Request), s.serves .identify r →
        exec .identify s = .next
          (s.replied r
            (.done
              ([2, 219, 15, 164, 1, s.line.strap]
                ++ [4096, 64, 1024, 16384, 96, 40, 512, 24, 12, 48, 32, 64, 128, 8, 32, 16, 4, 56].flatMap be16))))
    ∧ ∀ (s : State) (r : Request), s.serves .latchRead r →
        (4 < r.table → exec .latchRead s = .next (s.replied r (.refuse .range)))
          ∧ (r.table ≤ 4 →
              (let data := (if r.table = 4 then [0, 1, 2, 3] else [r.table]).flatMap fun k => (s.line.incidents.latches.get k).bytes
               (masked r.mask 0 = false → exec .latchRead s = .next (s.replied r (.done data)))
                 ∧ (masked r.mask 0 = true →
                     ∃ t latches, exec .latchRead s = .next t
                       ∧ t = State.replied
                           { s with line := { s.line with incidents := { s.line.incidents with latches := latches } } } r (.done data)
                       ∧ ∀ k, k < 4 → latches.get k = if r.table = 4 ∨ r.table = k then ⟨none, 0⟩ else s.line.incidents.latches.get k)))

/-- TABLE_WRITE refused (R31, R41, R139, R159 to R161, R169), each time with no effect but the reply (counters: log entry 30). Check 1:
RANGE for a table or a run of entries that does not exist and for a mask or data that do not fit. Check 2: STATE for a table without
configured fields, for the Segment Table while TIMETABLE is RUNNING, for the active and the pending bank, and for the window and own address
while a job is RUNNING. (For these two the index is the request's, the model's choice, log entry 29.) Check 3: INTEGRITY with the first
poisoned entry of which the mask leaves a field out, shown for timing points and for Unit Map entries whose kind is not written (log entry
47 for the reads). Check 4: RANGE with the first entry out of range, shown for two Unit Map entries and the line configuration. Check 5:
BUSY for a template in use. -/
def Obligations.TableWriteReplies : Prop :=
  ∀ (s : State) (r : Request), s.serves .tableWrite r →
    ((tableWrite r s.line).2.status ≠ .done → exec .tableWrite s = .next (s.replied r (tableWrite r s.line).2))
      ∧ (TableId.ofCode? r.table = none → exec .tableWrite s = .next (s.replied r (.refuseAt .range r.index)))
      ∧ (∀ t, TableId.ofCode? r.table = some t → writeFits t r = false →
          exec .tableWrite s = .next (s.replied r (.refuseAt .range r.index)))
      ∧ (∀ t, TableId.ofCode? r.table = some t → writeFits t r = true →
          (t = .train ∨ t = .runStatus ∨ t = .incident ∨ t = .zoneQueue) ∨ (t = .segment ∧ s.line.jobs.timetable = true)
              ∨ ((t = .run0 ∨ t = .passage0) ∧ s.line.bankWritable 0 = false)
              ∨ ((t = .run1 ∨ t = .passage1) ∧ s.line.bankWritable 1 = false)
              ∨ (t = .lineConfig ∧ r.mask.toNat % 8 ≠ 0
                  ∧ (s.line.jobs.timetable = true ∨ s.line.jobs.power = true ∨ s.line.jobs.incident = true ∨ s.line.jobs.announce = true)) →
          exec .tableWrite s = .next (s.replied r (.refuseAt .state r.index)))
      ∧ (∀ i, r.table = 10 → writeFits .timingPoint r = true → r.mask.toNat < 1023 →
          s.line.jobs.timetable = false ∨ r.mask.toNat % 8 = 0 → r.index ≤ i → i < r.index + r.count →
          s.line.poisoned .timingPoint i = true → (∀ j, r.index ≤ j → j < i → s.line.poisoned .timingPoint j = false) →
          exec .tableWrite s = .next (s.replied r (.refuseAt .integrity i)))
      ∧ (r.table = 2 → r.count = 1 → writeFits .unitMap r = true → r.mask.toNat % 2 = 0 → s.line.poisoned .unitMap r.index = true →
          exec .tableWrite s = .next (s.replied r (.refuseAt .integrity r.index)))
      ∧ (∀ k0 o0 p0 k1 o1 p1 rest, r.table = 2 → r.count = 2 → r.mask = 7 → r.index + 2 ≤ 4096 →
          r.data = k0 :: o0 :: p0 :: k1 :: o1 :: p1 :: rest → s.line.jobs = ⟨false, false, false, false⟩ →
          (UnitEntry.ofFields [[k0], [o0], [p0]] = none → exec .tableWrite s = .next (s.replied r (.refuseAt .range r.index)))
            ∧ (UnitEntry.ofFields [[k0], [o0], [p0]] ≠ none → UnitEntry.ofFields [[k1], [o1], [p1]] = none →
                exec .tableWrite s = .next (s.replied r (.refuseAt .range (r.index + 1)))))
      ∧ (∀ ratio rest, r.table = 1 → r.count = 1 → r.index = 0 → r.mask = 32 → r.data = ratio :: rest →
          ratio = 0 ∨ 8 < ratio.toNat → exec .tableWrite s = .next (s.replied r (.refuseAt .range 0)))
      ∧ ∀ m airtime rest z, r.table = 16 → r.count = 1 → r.mask = 8 → s.line.template? r.index = some m → m.inRange = true →
          r.data = airtime :: rest → 1 ≤ airtime.toNat → airtime.toNat ≤ 60 →
          ((∃ e, e ∈ (s.line.zoneDyn z).queue ∧ e.template = r.index)
            ∨ ((s.line.zoneDyn z).state ≠ .idle ∧ ∃ play, (s.line.zoneDyn z).current = some play ∧ play.entry.template = r.index)) →
          exec .tableWrite s = .next (s.replied r (.refuseAt .busy r.index))

/-- TABLE_WRITE made (R42, R84, R85, R104, R115, R117, R139, R144, R159 to R161, R169; counters of the reply: log entry 30), shown for a
full write of a Unit Map entry with the jobs STOPPED; for the weights of two timing points, every other field kept, in any job state; for
the line configuration's centre addresses in any job state, and its window and own address with the jobs STOPPED; for a segment's section,
which moves the trains on it; for a section's feeders, whose state and level are derived again; for a substation, whose full write clears a
poison mark and, with POWER RUNNING, scans it at once, or, with POWER STOPPED, forgets its acknowledged image and points; and for a poisoned
template, whose full write lets a waiting play start. -/
def Obligations.TableWritesMade : Prop :=
  ∀ (s : State) (r : Request), s.serves .tableWrite r →
    (∀ kind object privilege rest e, r.table = 2 → r.count = 1 → r.mask = 7 → r.index < 4096 →
        r.data = kind :: object :: privilege :: rest → s.line.jobs = ⟨false, false, false, false⟩ →
        UnitEntry.ofFields [[kind], [object], [privilege]] = some e →
        ∃ t, exec .tableWrite s = .next t ∧ t.line.unitEntry? r.index = some e ∧ t.line.poisoned .unitMap r.index = false
          ∧ (∀ i, i ≠ r.index → t.line.unitEntry? i = s.line.unitEntry? i)
          ∧ t.line = { s.line with
              tables := { s.line.tables with unitMap := t.line.tables.unitMap }
              store := { s.line.store with health := t.line.store.health } }
          ∧ t.mgmt = s.mgmt.finish .done)
      ∧ (∀ w0 w1 rest e0 e1, r.table = 10 → r.count = 2 → r.mask = 32 → r.data = w0 :: w1 :: rest → w0.toNat ≤ 16 → w1.toNat ≤ 16 →
          s.line.timingPoint? r.index = some e0 → s.line.timingPoint? (r.index + 1) = some e1 → e0.inRange = true → e1.inRange = true →
          ∃ t, exec .tableWrite s = .next t ∧ t.line.timingPoint? r.index = some { e0 with weight := w0.toNat }
            ∧ t.line.timingPoint? (r.index + 1) = some { e1 with weight := w1.toNat }
            ∧ (∀ i, i ≠ r.index → i ≠ r.index + 1 → t.line.timingPoint? i = s.line.timingPoint? i)
            ∧ t.line = { s.line with
                tables := { s.line.tables with timingPoint := t.line.tables.timingPoint }
                store := { s.line.store with health := t.line.store.health } }
            ∧ t.mgmt = s.mgmt.finish .done)
      ∧ (∀ n0 n1 a0 a1 rest, r.table = 1 → r.count = 1 → r.index = 0 → r.mask = 24 → r.data = n0 :: n1 :: a0 :: a1 :: rest →
          s.line.config.inRange = true →
          exec .tableWrite s = .next
            (State.replied
              { s with
                line :=
                  { s.line with
                    config :=
                      { s.line.config with
                        noticeAddress := 256 * n0.toNat + n1.toNat, alarmAddress := 256 * a0.toNat + a1.toNat } } }
              r (.done [])))
      ∧ (∀ b0 b1 z0 z1 o0 o1 rest, r.table = 1 → r.count = 1 → r.index = 0 → r.mask = 7 → r.data = b0 :: b1 :: z0 :: z1 :: o0 :: o1 :: rest →
          s.line.jobs = ⟨false, false, false, false⟩ →
          (let new :=
             { s.line.config with
               windowBase := 256 * b0.toNat + b1.toNat, windowSize := 256 * z0.toNat + z1.toNat, ownAddress := 256 * o0.toNat + o1.toNat }
           s.line.config.inRange = true → new.inRange = true →
           exec .tableWrite s = .next (State.replied { s with line := { s.line with config := new } } r (.done []))))
      ∧ (∀ x rest g, r.table = 7 → r.count = 1 → r.mask = 1 → r.data = x :: rest → s.line.jobs.timetable = false →
          s.line.segment? r.index = some g → g.inRange = true → x.toNat < 24 →
          ∃ t, exec .tableWrite s = .next t ∧ t.line.segment? r.index = some { g with sect := x.toNat }
            ∧ (∀ i, i ≠ r.index → t.line.segment? i = s.line.segment? i)
            ∧ (∀ v, v < 64 → t.line.train v
                = { s.line.train v with
                    sect := if (s.line.train v).lastSegment = some r.index then some x.toNat else (s.line.train v).sect })
            ∧ (s.line.occupancyOk → ∀ y, t.line.occupancy y = t.line.trainsIn y)
            ∧ t.line.regulator = s.line.regulator ∧ t.line.traction = s.line.traction ∧ t.line.incidents = s.line.incidents)
      ∧ (∀ e, r.table = 11 → r.count = 1 → r.mask = 15 → r.index < 24 → e.inRange = true → r.data = e.fields.flatten →
          s.line.jobs.power = false → (s.line.sectionDyn r.index).isolation = 0 → (s.line.sectionDyn r.index).restoreDeadline = none →
          ∃ t, exec .tableWrite s = .next t ∧ t.line.section? r.index = some e ∧ (∀ i, i ≠ r.index → t.line.section? i = s.line.section? i)
            ∧ (e.feeders = [] → (t.line.sectionDyn r.index).state = .unknown ∧ t.line.level r.index = 0)
            ∧ ∀ b q, e.feeders = [b] → s.line.breaker? b = some q → (s.line.breakerDyn b).pulseEnd = none →
                ((s.line.breakerDyn b).state = .closed →
                    (t.line.sectionDyn r.index).state = .energised
                      ∧ t.line.level r.index = (s.line.substationDyn (b / 4)).level)
                  ∧ ((s.line.breakerDyn b).state = .opened → (t.line.sectionDyn r.index).state = .dead))
      ∧ (∀ e, r.table = 13 → r.count = 1 → r.mask = 511 → r.index < 12 → e.inRange = true → r.data = e.fields.flatten →
          (s.line.jobs.power = true → s.line.poisoned .substation r.index = true →
              ∃ t, exec .tableWrite s = .next t ∧ t.line.substation? r.index = some e
                ∧ t.line.substationDyn r.index
                  = (if (s.line.unitAddress? e.rtu).isSome = true then
                      { s.line.substationDyn r.index with nextScan := some s.line.timer }
                    else s.line.substationDyn r.index))
            ∧ (s.line.jobs.power = false →
                ∃ t, exec .tableWrite s = .next t ∧ t.line.substation? r.index = some e
                  ∧ t.line.substationDyn r.index
                    = { s.line.substationDyn r.index with acknowledged := none, previous := none }))
      ∧ ∀ m z c e, r.table = 16 → r.count = 1 → r.mask = 63 → r.index < 128 → m.inRange = true → r.data = m.fields.flatten →
          s.line.poisoned .template r.index = true → s.line.jobs.announce = true → z < 40 → (s.line.zoneDyn z).state = .idle →
          (s.line.zoneDyn z).queue = [c] → c.template = r.index → reached c.expiry s.line.timer = false → s.line.zone? z = some e →
          (s.line.unitAddress? e.controller).isSome = true →
          ∃ t, exec .tableWrite s = .next t ∧ t.line.template? r.index = some m ∧ (t.line.zoneDyn z).state = .playing
            ∧ (t.line.zoneDyn z).current = some ⟨c, false⟩ ∧ (t.line.zoneDyn z).queue = []
            ∧ (t.line.zoneDyn z).tag = (s.line.zoneDyn z).tag + 1

/-- JOB_STOP and JOB_START (R162, R62, R84, R99, R116, R137, R153, R154): RANGE for a job that does not exist; a job already in the state
asked for is left; stopping TIMETABLE, INCIDENT or ANNOUNCE and starting INCIDENT change the job alone. POWER is not stopped while a section
is ISOLATED or a pulse is outstanding, and stopping it withdraws every pending command, restore deadline and request. POWER and ANNOUNCE do
not start over a disagreement of their tables. A start of TIMETABLE restarts every loss deadline. Counters of a reply: log entry 30. -/
def Obligations.JobRequests : Prop :=
  (∀ (start : Bool) (s : State) (r : Request), s.serves (if start then .jobStart else .jobStop) r →
      (4 ≤ r.table → exec (if start then .jobStart else .jobStop) s = .next (s.replied r (.refuse .range)))
        ∧ ∀ job, Job.ofCode? r.table = some job → s.line.jobs.running job = start →
            exec (if start then .jobStart else .jobStop) s = .next (s.replied r (.done [])))
    ∧ (∀ (s : State) (r : Request), s.serves .jobStop r →
        (∀ job, Job.ofCode? r.table = some job → job ≠ .power → s.line.jobs.running job = true →
            exec .jobStop s = .next (State.replied { s with line := s.line.setJob job false } r (.done [])))
          ∧ (r.table = 1 → s.line.jobs.power = true →
              ((∃ x, x < 24 ∧ 0 < (s.line.sectionDyn x).isolation) ∨ (∃ b, b < 48 ∧ (s.line.breakerDyn b).pulseEnd.isSome = true) →
                  exec .jobStop s = .next (s.replied r (.refuse .state)))
                ∧ ((∀ x, x < 24 → (s.line.sectionDyn x).isolation = 0) → (∀ b, b < 48 → (s.line.breakerDyn b).pulseEnd = none) →
                    ∃ t, exec .jobStop s = .next t ∧ t.line.jobs = { s.line.jobs with power := false }
                      ∧ (∀ b, b < 48 → (t.line.breakerDyn b).pending = .none ∧ (t.line.breakerDyn b).expectUntil = none
                          ∧ (t.line.breakerDyn b).state = (s.line.breakerDyn b).state)
                      ∧ (∀ x, x < 24 → (t.line.sectionDyn x).restoreDeadline = none)
                      ∧ ∀ u, u < 12 → (t.line.substationDyn u).outstanding = .none ∧ (t.line.substationDyn u).nextScan = none
                          ∧ (t.line.substationDyn u).replyDeadline = none ∧ (t.line.substationDyn u).scan ≠ .awaitReply)))
    ∧ ∀ (s : State) (r : Request), s.serves .jobStart r →
        (r.table = 0 → s.line.jobs.timetable = false →
            ∃ t, exec .jobStart s = .next t ∧ t.line.jobs = { s.line.jobs with timetable := true }
              ∧ ∀ v, v < 64 → (s.line.train v).active = true → (s.line.train v).state ≠ .lost →
                  (t.line.train v).lastReport = s.line.timer ∧ (t.line.train v).timingPoint = (s.line.train v).timingPoint)
          ∧ (r.table = 1 → s.line.jobs.power = false →
              (∀ kind index, s.line.wiringDisagreement = some (kind, index) →
                  exec .jobStart s = .next (s.replied r ⟨.invalid, index, [u8 kind]⟩))
                ∧ (s.line.wiringDisagreement = none →
                    ∃ t, exec .jobStart s = .next t ∧ t.line.jobs = { s.line.jobs with power := true }
                      ∧ ∀ u, u < 12 → s.line.inService u = true → (t.line.substationDyn u).nextScan = some s.line.timer))
          ∧ (r.table = 2 → s.line.jobs.incident = false →
              exec .jobStart s = .next (State.replied { s with line := s.line.setJob .incident true } r (.done [])))
          ∧ (r.table = 3 → s.line.jobs.announce = false →
              (∀ z p, s.line.zoneDisagreement = some (z, p) →
                  exec .jobStart s = .next (s.replied r ⟨.invalid, z, [2, u8 p]⟩))
                ∧ (s.line.zoneDisagreement = none →
                    ∃ t, exec .jobStart s = .next t ∧ t.line.jobs = { s.line.jobs with announce := true }
                      ∧ ∀ z, z < 40 → (s.line.zoneDyn z).queue = [] → t.line.zoneDyn z = s.line.zoneDyn z))

/-- LINE_RESTART (R164): the jobs STOPPED, no pending activation, and the dynamic records of the trains, the regulation, the plant, the
incidents and the announcements as after power-on; the service timer, the clock, the configuration, the loaded tables and their Store, every
counter, the active bank and the next serial stay, and so do the ports but for the reply (counters: log entry 30). -/
def Obligations.LineRestartEffect : Prop :=
  ∀ (s : State) (r : Request), s.serves .lineRestart r →
    ∃ t, exec .lineRestart s = .next (State.replied { s with line := t } r (.done []))
      ∧ t.jobs = ⟨false, false, false, false⟩ ∧ t.timetable = ⟨s.line.timetable.active, none⟩
      ∧ (∀ v, t.train v = .inactive ∧ t.majorDelay v = false) ∧ (∀ k, t.runStatus k = ⟨.notStarted, none⟩)
      ∧ (∀ x, t.occupancy x = 0 ∧ t.reserved x = none ∧ t.level x = 0 ∧ t.sectionDyn x = .initial)
      ∧ (∀ p, t.lastDeparture p = none ∧ t.operatorHold p = false) ∧ (∀ b, t.breakerDyn b = .initial)
      ∧ (∀ u, t.substationDyn u = .initial) ∧ (∀ z, t.zoneDyn z = .initial)
      ∧ (∀ slot, t.record? slot = none) ∧ (∀ k, t.incidents.latches.get k = ⟨none, 0⟩)
      ∧ t.incidents.nextSerial = s.line.incidents.nextSerial ∧ t.incidents.overflow = false ∧ t.incidents.overflowCount = 0
      ∧ t.incidents.asserted = false
      ∧ t.timer = s.line.timer ∧ t.strap = s.line.strap ∧ t.config = s.line.config ∧ t.clock = s.line.clock
      ∧ t.tables = s.line.tables ∧ t.store = s.line.store ∧ t.counters = s.line.counters

/-! ## The Table Store -/

/-- SCRUB_VISIT (R166, R167, R168, R170; log entry 4 for a visit that is not due). The visit of entry p of a pass is due p parts in 39,836 of the
scrub period after the pass's start, the first visit of a pass at its start, one period after the pass's start before it, and it counts the new
pass. A due visit moves the scrubber to the next entry, or, after the last, to wait for a new pass. Of an entry whose mark is set it changes
nothing; of any other it corrects the one-bit errors, counting and recording them, and marks the entry poisoned, counting and recording it, when
a word holds a two-bit error. Then the owner is told: a poisoned segment's trains lose their place (also while TIMETABLE is STOPPED: the
model's choice, log entry 59), a timing point's trains the POWER and
OVERLOAD causes, a substation is SILENT and its breakers UNKNOWN (also while POWER is STOPPED: the model's choice, log
entry 49); and class 13 is raised at LINE with
the entry as detail. The entries' contents stay. The statement is for a Store whose other unpoisoned entries hold no error. -/
def Obligations.ScrubVisitReads : Prop :=
  ∀ (s : State) (t : TableId) (i p : Nat), s.line.idleWork = true → p = s.line.store.scrubPosition → storePlace t i = some p →
    (let period := 1000 * s.line.config.scrubPeriod
     let begins := if s.line.store.awaiting = true then s.line.store.passStart + ms period else s.line.store.passStart
     let due := reached (begins + ms (p * period / 39836)) s.line.timer
     let last := p = 39835
     let passes := if s.line.store.awaiting = true then saturate s.line.store.scrubPasses else s.line.store.scrubPasses
     let health := s.line.health p
     (due = false → exec .scrubVisit s = .next s)
       ∧ (due = true → health.poison = true ∨ (health.singles = 0 ∧ health.double = false) →
           exec .scrubVisit s = .next
             { s with
               line :=
                 { s.line with
                   store :=
                     { s.line.store with
                       scrubPosition := if last then 0 else p + 1, passStart := begins, awaiting := last
                       scrubPasses := passes } } })
       ∧ (due = true → health.poison = false → (∀ k, k ≠ p → (s.line.health k).poison = true ∨ ((s.line.health k).singles = 0 ∧ (s.line.health k).double = false)) →
           ∃ u, exec .scrubVisit s = .next u ∧ u.line.tables = s.line.tables
             ∧ u.line.health p = { health with singles := 0, poison := health.double } ∧ (∀ k, k ≠ p → u.line.health k = s.line.health k)
             ∧ u.line.store.scrubPosition = (if last then 0 else p + 1) ∧ u.line.store.passStart = begins ∧ (u.line.store.awaiting = true ↔ last)
             ∧ u.line.store.scrubPasses = passes
             ∧ (0 < health.singles →
                 u.line.store.lastCorrected = some ⟨t, i, s.line.timer⟩
                   ∧ tget 0 u.line.store.corrected t.code = Nat.min (tget 0 s.line.store.corrected t.code + health.singles) counterMax)
             ∧ (health.double = false → u.line.incidents = s.line.incidents ∧ u.line.tracker = s.line.tracker)
             ∧ (health.double = true →
                 u.line.store.lastUncorrectable = some ⟨t, i, s.line.timer⟩
                   ∧ tget 0 u.line.store.uncorrectable t.code = Nat.min (tget 0 s.line.store.uncorrectable t.code + 1) counterMax
                   ∧ (t = .segment → ∀ v, v < 64 → (s.line.train v).lastSegment = some i →
                       (u.line.train v).lastSegment = none ∧ (u.line.train v).sect = none)
                   ∧ (t = .timingPoint → s.line.jobs.timetable = true → ∀ v, v < 64 → (s.line.train v).standing = true →
                       (s.line.train v).timingPoint = some i →
                       (u.line.train v).holds.power = false ∧ (u.line.train v).holds.overload = false)
                   ∧ (t = .substation →
                       (u.line.substationDyn i).scan = .silent ∧ (u.line.substationDyn i).nextScan = none
                         ∧ ((s.line.substationDyn i).scan ≠ .silent →
                             ∀ f, f < 4 → (u.line.breakerDyn (4 * i + f)).state = .unknown))
                   ∧ (s.line.jobs.incident = false → u.line.incidents = s.line.incidents)
                   ∧ (s.line.jobs.incident = true →
                       (s.line.incidents.slots = [] →
                           ∃ slot r, u.line.record? slot = some r ∧ r.cls = 13 ∧ r.location = ⟨.line, 0⟩
                             ∧ r.source = s.line.config.ownAddress ∧ r.detail = some ⟨t, i⟩ ∧ r.state = .opened ∧ r.count = 1)
                         ∧ ∀ slot old, t ≠ .substation → s.line.liveRecord? 13 ⟨.line, 0⟩ = some (slot, old) →
                             ∃ r, u.line.record? slot = some r ∧ r.serial = old.serial ∧ r.detail = some ⟨t, i⟩
                               ∧ r.count = Nat.min (old.count + 1) 255 ∧ r.state = .opened))))

/-- Every table record reads back as it was stored (R159, R172, R174): the configured fields of an entry within its ranges, each as its
bytes, are accepted by the checks of a full write and give the same entry again; and no entry outside its ranges is accepted. -/
def Obligations.TableFieldsReadBack : Prop :=
  (∀ c : LineConfig, c.inRange = true → LineConfig.ofFields c.fields = some c)
    ∧ (∀ e : UnitEntry, e.inRange = true → UnitEntry.ofFields e.fields = some e)
    ∧ (∀ r : RunRecord, r.inRange = true → RunRecord.ofFields r.fields = some r)
    ∧ (∀ p : Passage, p.inRange = true → Passage.ofFields p.fields = some p)
    ∧ (∀ g : Segment, g.inRange = true → Segment.ofFields g.fields = some g)
    ∧ (∀ e : TimingPoint, e.inRange = true → TimingPoint.ofFields e.fields = some e)
    ∧ (∀ e : SectionEntry, e.inRange = true → SectionEntry.ofFields e.fields = some e)
    ∧ (∀ e : BreakerEntry, e.inRange = true → BreakerEntry.ofFields e.fields = some e)
    ∧ (∀ e : SubstationEntry, e.inRange = true → SubstationEntry.ofFields e.fields = some e)
    ∧ (∀ (i : Nat) (e : ClassEntry), e.inRange i = true → ClassEntry.ofFields i e.fields = some e)
    ∧ (∀ t : Template, t.inRange = true → Template.ofFields t.fields = some t)
    ∧ (∀ e : ZoneEntry, e.inRange = true → ZoneEntry.ofFields e.fields = some e)
    ∧ (∀ f c, LineConfig.ofFields f = some c → c.inRange = true) ∧ (∀ f e, UnitEntry.ofFields f = some e → e.inRange = true)
    ∧ (∀ f r, RunRecord.ofFields f = some r → r.inRange = true) ∧ (∀ f p, Passage.ofFields f = some p → p.inRange = true)
    ∧ (∀ f g, Segment.ofFields f = some g → g.inRange = true) ∧ (∀ f e, TimingPoint.ofFields f = some e → e.inRange = true)
    ∧ (∀ f e, SectionEntry.ofFields f = some e → e.inRange = true) ∧ (∀ f e, BreakerEntry.ofFields f = some e → e.inRange = true)
    ∧ (∀ f e, SubstationEntry.ofFields f = some e → e.inRange = true)
    ∧ (∀ i f e, ClassEntry.ofFields i f = some e → e.inRange i = true)
    ∧ (∀ f t, Template.ofFields f = some t → t.inRange = true) ∧ ∀ f e, ZoneEntry.ofFields f = some e → e.inRange = true
end

