-- ==== Sys2Proof/Laws/Tables.lean ====
section
/-! SUPPORT. The laws of sparse tables: reading after writing, and the canonical form. -/

namespace Sys2Proof.Machine

open Sys2Proof

variable {α : Type}

/-! ## Reading after writing -/

@[simp] theorem tfind_nil (i : Nat) : tfind ([] : Table α) i = none := rfl

theorem tfind_terase (t : Table α) (i j : Nat) : tfind (terase t i) j = if i = j then none else tfind t j := by
  induction t with
  | nil => simp [terase]
  | cons e rest ih =>
    obtain ⟨k, v⟩ := e
    simp only [terase] at ih ⊢
    by_cases hk : k = i
    · subst hk
      rw [List.filter_cons_of_neg (by simp), ih]
      by_cases hj : k = j <;> simp [tfind, hj]
    · rw [List.filter_cons_of_pos (by simpa using hk)]
      simp only [tfind, ih]
      by_cases hj : k = j
      · simp [hj, show i ≠ j from fun h => hk (hj.trans h.symm)]
      · simp [hj]

theorem tfind_tinsert (t : Table α) (i j : Nat) (v : α) (h : tfind t i = none) :
    tfind (tinsert t i v) j = if i = j then some v else tfind t j := by
  induction t with
  | nil => simp [tinsert, tfind]
  | cons e rest ih =>
    obtain ⟨k, w⟩ := e
    have hk : k ≠ i := fun hk => by simp [tfind, hk] at h
    have hr : tfind rest i = none := by simpa [tfind, hk] using h
    simp only [tinsert]
    split
    · simp [tfind]
    · simp only [tfind, ih hr]
      by_cases hj : k = j
      · simp [hj, show i ≠ j from fun e => hk (hj.trans e.symm)]
      · simp [hj]

theorem tfind_tput (t : Table α) (i j : Nat) (v : α) :
    tfind (tput t i v) j = if i = j then some v else tfind t j := by
  rw [tput, tfind_tinsert _ _ _ _ (by simp [tfind_terase]), tfind_terase]
  by_cases h : i = j <;> simp [h]

/-- Reading a table after one entry of it has been written. -/
@[simp] theorem tget_tset [DecidableEq α] (d : α) (t : Table α) (i j : Nat) (v : α) :
    tget d (tset d t i v) j = if i = j then v else tget d t j := by
  unfold tget tset
  split
  · rename_i hv
    rw [tfind_terase]
    by_cases h : i = j <;> simp [h, hv]
  · rw [tfind_tput]
    by_cases h : i = j <;> simp [h]

/-- Writing an entry after erasing what stood there, or writing it twice, leaves the last value. -/
theorem terase_tinsert {t : Table α} {i : Nat} (h : ∀ e ∈ t, e.1 ≠ i) (v : α) : terase (tinsert t i v) i = t := by
  have hf : ∀ {t : Table α}, (∀ e ∈ t, e.1 ≠ i) → terase t i = t := fun h =>
    List.filter_eq_self.2 fun e he => by simpa using h e he
  induction t with
  | nil => simp [tinsert, terase]
  | cons e t ih =>
    obtain ⟨k, w⟩ := e
    have hk : k ≠ i := h (k, w) (List.mem_cons_self ..)
    unfold tinsert; split
    · rw [terase, List.filter_cons_of_neg (by simp)]; exact hf h
    · rw [terase, List.filter_cons_of_pos (by simpa using hk)]
      exact congrArg _ (ih fun e he => h e (List.mem_cons_of_mem _ he))

theorem terase_ne (t : Table α) (i : Nat) : ∀ e ∈ terase t i, e.1 ≠ i := fun e he => by simpa using (List.mem_filter.1 he).2

@[simp] theorem terase_terase (t : Table α) (i : Nat) : terase (terase t i) i = terase t i := by simp [terase]

/-- The last value written at an index is the one that stands. -/
@[simp] theorem tput_tput (t : Table α) (i : Nat) (v w : α) : tput (tput t i v) i w = tput t i w := by
  unfold tput; rw [terase_tinsert (terase_ne t i)]

@[simp] theorem tset_tset [DecidableEq α] (d : α) (t : Table α) (i : Nat) (v w : α) :
    tset d (tset d t i v) i w = tset d t i w := by
  have he : terase (tset d t i v) i = terase t i := by
    unfold tset tput; split
    · exact terase_terase t i
    · exact terase_tinsert (terase_ne t i) v
  unfold tset at he ⊢; unfold tput at he ⊢; rw [he]

@[simp] theorem tget_nil (d : α) (i : Nat) : tget d ([] : Table α) i = d := rfl

/-! ## The canonical form -/

theorem trising_tail {e : Nat × α} {t : Table α} (h : trising (e :: t) = true) : trising t = true := by
  cases t with
  | nil => rfl
  | cons f rest => simp only [trising, Bool.and_eq_true] at h; exact h.2

theorem trising_head {e : Nat × α} {t : Table α} (h : trising (e :: t) = true) : ∀ f ∈ t, e.1 < f.1 := by
  induction t generalizing e with
  | nil => simp
  | cons f rest ih =>
    simp only [trising, Bool.and_eq_true, decide_eq_true_eq] at h
    intro g hg
    rcases List.mem_cons.1 hg with rfl | hg
    · exact h.1
    · exact Nat.lt_trans h.1 (ih h.2 g hg)

theorem trising_cons {e : Nat × α} {t : Table α} (h : trising t = true) (hl : ∀ f ∈ t, e.1 < f.1) :
    trising (e :: t) = true := by
  cases t with
  | nil => rfl
  | cons f rest => simp [trising, h, hl f (by simp)]

theorem trising_terase {t : Table α} (h : trising t = true) (i : Nat) : trising (terase t i) = true := by
  induction t with
  | nil => rfl
  | cons e rest ih =>
    have hr := ih (trising_tail h)
    simp only [terase] at hr ⊢
    simp only [List.filter_cons]
    split
    · exact trising_cons hr fun f hf => trising_head h f (List.mem_filter.1 hf).1
    · exact hr

theorem mem_tinsert {t : Table α} {i : Nat} {v : α} {e : Nat × α} (h : e ∈ tinsert t i v) : e = (i, v) ∨ e ∈ t := by
  induction t with
  | nil => simpa [tinsert] using h
  | cons f rest ih =>
    obtain ⟨k, w⟩ := f
    simp only [tinsert] at h
    split at h
    · simpa using h
    · rcases List.mem_cons.1 h with rfl | h
      · simp
      · rcases ih h with h | h
        · exact .inl h
        · exact .inr (List.mem_cons_of_mem _ h)

theorem trising_tinsert {t : Table α} (h : trising t = true) {i : Nat} (hi : ∀ e ∈ t, e.1 ≠ i) (v : α) :
    trising (tinsert t i v) = true := by
  induction t with
  | nil => rfl
  | cons e rest ih =>
    obtain ⟨k, w⟩ := e
    simp only [tinsert]
    split
    · rename_i hk
      refine trising_cons h fun f hf => ?_
      rcases List.mem_cons.1 hf with rfl | hf
      · exact hk
      · exact Nat.lt_trans hk (trising_head h f hf)
    · rename_i hk
      have hne : k ≠ i := hi (k, w) (by simp)
      refine trising_cons (ih (trising_tail h) fun f hf => hi f (by simp [hf])) fun f hf => ?_
      rcases mem_tinsert hf with rfl | hf
      · show k < i; omega
      · exact trising_head h f hf

/-- Writing an entry keeps the canonical form. -/
theorem twf_tset [DecidableEq α] {d : α} {t : Table α} (h : twf d t = true) (i : Nat) (v : α) :
    twf d (tset d t i v) = true := by
  simp only [twf, Bool.and_eq_true, List.all_eq_true] at h ⊢
  have hall : ∀ e ∈ terase t i, (e.2 != d) = true := fun e he => h.2 e (List.mem_filter.1 he).1
  unfold tset
  split
  · exact ⟨trising_terase h.1 i, hall⟩
  · rename_i hv
    refine ⟨trising_tinsert (trising_terase h.1 i) (fun e he => by simpa using (List.mem_filter.1 he).2) v, fun e he => ?_⟩
    rcases mem_tinsert he with rfl | he
    · simpa using hv
    · exact hall e he

/-- The loaded tables of power-on are canonical. -/
theorem Tables.powerOn_wf : Tables.powerOn.wf = true := by decide

end Sys2Proof.Machine
end

