-- ==== Sys2Proof/Laws/State.lean ====
section
/-! SUPPORT. Beside State: what each named update leaves unchanged, field by field, and what reading a record gives after it has been written. -/

namespace Sys2Proof.Machine

open Sys2Proof

variable (l : Line)

/-! ### `Line.setTrain` -/

@[simp] theorem Line.setTrain_timer (v : Nat) (t : Train) : (l.setTrain v t).timer = l.timer := rfl
@[simp] theorem Line.setTrain_strap (v : Nat) (t : Train) : (l.setTrain v t).strap = l.strap := rfl
@[simp] theorem Line.setTrain_config (v : Nat) (t : Train) : (l.setTrain v t).config = l.config := rfl
@[simp] theorem Line.setTrain_jobs (v : Nat) (t : Train) : (l.setTrain v t).jobs = l.jobs := rfl
@[simp] theorem Line.setTrain_clock (v : Nat) (t : Train) : (l.setTrain v t).clock = l.clock := rfl
@[simp] theorem Line.setTrain_tables (v : Nat) (t : Train) : (l.setTrain v t).tables = l.tables := rfl
@[simp] theorem Line.setTrain_store (v : Nat) (t : Train) : (l.setTrain v t).store = l.store := rfl
@[simp] theorem Line.setTrain_timetable (v : Nat) (t : Train) : (l.setTrain v t).timetable = l.timetable := rfl
@[simp] theorem Line.setTrain_regulator (v : Nat) (t : Train) : (l.setTrain v t).regulator = l.regulator := rfl
@[simp] theorem Line.setTrain_traction (v : Nat) (t : Train) : (l.setTrain v t).traction = l.traction := rfl
@[simp] theorem Line.setTrain_scanner (v : Nat) (t : Train) : (l.setTrain v t).scanner = l.scanner := rfl
@[simp] theorem Line.setTrain_incidents (v : Nat) (t : Train) : (l.setTrain v t).incidents = l.incidents := rfl
@[simp] theorem Line.setTrain_announcer (v : Nat) (t : Train) : (l.setTrain v t).announcer = l.announcer := rfl
@[simp] theorem Line.setTrain_counters (v : Nat) (t : Train) : (l.setTrain v t).counters = l.counters := rfl
@[simp] theorem Line.setTrain_outbox (v : Nat) (t : Train) : (l.setTrain v t).outbox = l.outbox := rfl
@[simp] theorem Line.setTrain_poisonWork (v : Nat) (t : Train) : (l.setTrain v t).poisonWork = l.poisonWork := rfl
@[simp] theorem Line.setTrain_writeChecks (v : Nat) (t : Train) : (l.setTrain v t).writeChecks = l.writeChecks := rfl
@[simp] theorem Line.setTrain_train (v : Nat) (t : Train) (w : Nat) : (l.setTrain v t).train w = if v = w then t else l.train w := tget_tset ..
@[simp] theorem Line.setTrain_runStatus (v : Nat) (t : Train) (k : Nat) : (l.setTrain v t).runStatus k = l.runStatus k := rfl
@[simp] theorem Line.setTrain_occupancy (v : Nat) (t : Train) (y : Nat) : (l.setTrain v t).occupancy y = l.occupancy y := rfl
@[simp] theorem Line.setTrain_lastDeparture (v : Nat) (t : Train) (q : Nat) : (l.setTrain v t).lastDeparture q = l.lastDeparture q := rfl
@[simp] theorem Line.setTrain_operatorHold (v : Nat) (t : Train) (q : Nat) : (l.setTrain v t).operatorHold q = l.operatorHold q := rfl
@[simp] theorem Line.setTrain_reserved (v : Nat) (t : Train) (y : Nat) : (l.setTrain v t).reserved y = l.reserved y := rfl
@[simp] theorem Line.setTrain_majorDelay (v : Nat) (t : Train) (w : Nat) : (l.setTrain v t).majorDelay w = l.majorDelay w := rfl
@[simp] theorem Line.setTrain_sectionDyn (v : Nat) (t : Train) (y : Nat) : (l.setTrain v t).sectionDyn y = l.sectionDyn y := rfl
@[simp] theorem Line.setTrain_breakerDyn (v : Nat) (t : Train) (c : Nat) : (l.setTrain v t).breakerDyn c = l.breakerDyn c := rfl
@[simp] theorem Line.setTrain_substationDyn (v : Nat) (t : Train) (w : Nat) : (l.setTrain v t).substationDyn w = l.substationDyn w := rfl
@[simp] theorem Line.setTrain_level (v : Nat) (t : Train) (y : Nat) : (l.setTrain v t).level y = l.level y := rfl
@[simp] theorem Line.setTrain_zoneDyn (v : Nat) (t : Train) (w : Nat) : (l.setTrain v t).zoneDyn w = l.zoneDyn w := rfl
@[simp] theorem Line.setTrain_record (v : Nat) (t : Train) (k : Nat) : (l.setTrain v t).record? k = l.record? k := rfl

/-! ### `Line.setRunStatus` -/

@[simp] theorem Line.setRunStatus_timer (slot : Nat) (r : RunStatus) : (l.setRunStatus slot r).timer = l.timer := rfl
@[simp] theorem Line.setRunStatus_strap (slot : Nat) (r : RunStatus) : (l.setRunStatus slot r).strap = l.strap := rfl
@[simp] theorem Line.setRunStatus_config (slot : Nat) (r : RunStatus) : (l.setRunStatus slot r).config = l.config := rfl
@[simp] theorem Line.setRunStatus_jobs (slot : Nat) (r : RunStatus) : (l.setRunStatus slot r).jobs = l.jobs := rfl
@[simp] theorem Line.setRunStatus_clock (slot : Nat) (r : RunStatus) : (l.setRunStatus slot r).clock = l.clock := rfl
@[simp] theorem Line.setRunStatus_tables (slot : Nat) (r : RunStatus) : (l.setRunStatus slot r).tables = l.tables := rfl
@[simp] theorem Line.setRunStatus_store (slot : Nat) (r : RunStatus) : (l.setRunStatus slot r).store = l.store := rfl
@[simp] theorem Line.setRunStatus_timetable (slot : Nat) (r : RunStatus) : (l.setRunStatus slot r).timetable = l.timetable := rfl
@[simp] theorem Line.setRunStatus_regulator (slot : Nat) (r : RunStatus) : (l.setRunStatus slot r).regulator = l.regulator := rfl
@[simp] theorem Line.setRunStatus_traction (slot : Nat) (r : RunStatus) : (l.setRunStatus slot r).traction = l.traction := rfl
@[simp] theorem Line.setRunStatus_scanner (slot : Nat) (r : RunStatus) : (l.setRunStatus slot r).scanner = l.scanner := rfl
@[simp] theorem Line.setRunStatus_incidents (slot : Nat) (r : RunStatus) : (l.setRunStatus slot r).incidents = l.incidents := rfl
@[simp] theorem Line.setRunStatus_announcer (slot : Nat) (r : RunStatus) : (l.setRunStatus slot r).announcer = l.announcer := rfl
@[simp] theorem Line.setRunStatus_counters (slot : Nat) (r : RunStatus) : (l.setRunStatus slot r).counters = l.counters := rfl
@[simp] theorem Line.setRunStatus_outbox (slot : Nat) (r : RunStatus) : (l.setRunStatus slot r).outbox = l.outbox := rfl
@[simp] theorem Line.setRunStatus_poisonWork (slot : Nat) (r : RunStatus) : (l.setRunStatus slot r).poisonWork = l.poisonWork := rfl
@[simp] theorem Line.setRunStatus_writeChecks (slot : Nat) (r : RunStatus) : (l.setRunStatus slot r).writeChecks = l.writeChecks := rfl
@[simp] theorem Line.setRunStatus_train (slot : Nat) (r : RunStatus) (w : Nat) : (l.setRunStatus slot r).train w = l.train w := rfl
@[simp] theorem Line.setRunStatus_runStatus (slot : Nat) (r : RunStatus) (k : Nat) : (l.setRunStatus slot r).runStatus k = if slot = k then r else l.runStatus k := tget_tset ..
@[simp] theorem Line.setRunStatus_occupancy (slot : Nat) (r : RunStatus) (y : Nat) : (l.setRunStatus slot r).occupancy y = l.occupancy y := rfl
@[simp] theorem Line.setRunStatus_lastDeparture (slot : Nat) (r : RunStatus) (q : Nat) : (l.setRunStatus slot r).lastDeparture q = l.lastDeparture q := rfl
@[simp] theorem Line.setRunStatus_operatorHold (slot : Nat) (r : RunStatus) (q : Nat) : (l.setRunStatus slot r).operatorHold q = l.operatorHold q := rfl
@[simp] theorem Line.setRunStatus_reserved (slot : Nat) (r : RunStatus) (y : Nat) : (l.setRunStatus slot r).reserved y = l.reserved y := rfl
@[simp] theorem Line.setRunStatus_majorDelay (slot : Nat) (r : RunStatus) (w : Nat) : (l.setRunStatus slot r).majorDelay w = l.majorDelay w := rfl
@[simp] theorem Line.setRunStatus_sectionDyn (slot : Nat) (r : RunStatus) (y : Nat) : (l.setRunStatus slot r).sectionDyn y = l.sectionDyn y := rfl
@[simp] theorem Line.setRunStatus_breakerDyn (slot : Nat) (r : RunStatus) (c : Nat) : (l.setRunStatus slot r).breakerDyn c = l.breakerDyn c := rfl
@[simp] theorem Line.setRunStatus_substationDyn (slot : Nat) (r : RunStatus) (w : Nat) : (l.setRunStatus slot r).substationDyn w = l.substationDyn w := rfl
@[simp] theorem Line.setRunStatus_level (slot : Nat) (r : RunStatus) (y : Nat) : (l.setRunStatus slot r).level y = l.level y := rfl
@[simp] theorem Line.setRunStatus_zoneDyn (slot : Nat) (r : RunStatus) (w : Nat) : (l.setRunStatus slot r).zoneDyn w = l.zoneDyn w := rfl
@[simp] theorem Line.setRunStatus_record (slot : Nat) (r : RunStatus) (k : Nat) : (l.setRunStatus slot r).record? k = l.record? k := rfl

/-! ### `Line.enterSection` -/

@[simp] theorem Line.enterSection_timer (x : Option Nat) : (l.enterSection x).timer = l.timer := by cases x <;> rfl
@[simp] theorem Line.enterSection_strap (x : Option Nat) : (l.enterSection x).strap = l.strap := by cases x <;> rfl
@[simp] theorem Line.enterSection_config (x : Option Nat) : (l.enterSection x).config = l.config := by cases x <;> rfl
@[simp] theorem Line.enterSection_jobs (x : Option Nat) : (l.enterSection x).jobs = l.jobs := by cases x <;> rfl
@[simp] theorem Line.enterSection_clock (x : Option Nat) : (l.enterSection x).clock = l.clock := by cases x <;> rfl
@[simp] theorem Line.enterSection_tables (x : Option Nat) : (l.enterSection x).tables = l.tables := by cases x <;> rfl
@[simp] theorem Line.enterSection_store (x : Option Nat) : (l.enterSection x).store = l.store := by cases x <;> rfl
@[simp] theorem Line.enterSection_timetable (x : Option Nat) : (l.enterSection x).timetable = l.timetable := by cases x <;> rfl
@[simp] theorem Line.enterSection_regulator (x : Option Nat) : (l.enterSection x).regulator = l.regulator := by cases x <;> rfl
@[simp] theorem Line.enterSection_traction (x : Option Nat) : (l.enterSection x).traction = l.traction := by cases x <;> rfl
@[simp] theorem Line.enterSection_scanner (x : Option Nat) : (l.enterSection x).scanner = l.scanner := by cases x <;> rfl
@[simp] theorem Line.enterSection_incidents (x : Option Nat) : (l.enterSection x).incidents = l.incidents := by cases x <;> rfl
@[simp] theorem Line.enterSection_announcer (x : Option Nat) : (l.enterSection x).announcer = l.announcer := by cases x <;> rfl
@[simp] theorem Line.enterSection_counters (x : Option Nat) : (l.enterSection x).counters = l.counters := by cases x <;> rfl
@[simp] theorem Line.enterSection_outbox (x : Option Nat) : (l.enterSection x).outbox = l.outbox := by cases x <;> rfl
@[simp] theorem Line.enterSection_poisonWork (x : Option Nat) : (l.enterSection x).poisonWork = l.poisonWork := by cases x <;> rfl
@[simp] theorem Line.enterSection_writeChecks (x : Option Nat) : (l.enterSection x).writeChecks = l.writeChecks := by cases x <;> rfl
@[simp] theorem Line.enterSection_train (x : Option Nat) (w : Nat) : (l.enterSection x).train w = l.train w := by cases x <;> rfl
@[simp] theorem Line.enterSection_runStatus (x : Option Nat) (k : Nat) : (l.enterSection x).runStatus k = l.runStatus k := by cases x <;> rfl
@[simp] theorem Line.enterSection_occupancy (x : Option Nat) (y : Nat) :
    (l.enterSection x).occupancy y = if x = some y then l.occupancy y + 1 else l.occupancy y := by
  cases x with
  | none => rfl
  | some k =>
    refine (tget_tset 0 l.tracker.occupancy k y (l.occupancy k + 1)).trans ?_
    by_cases h : k = y <;> simp [h, Line.occupancy]
@[simp] theorem Line.enterSection_lastDeparture (x : Option Nat) (q : Nat) : (l.enterSection x).lastDeparture q = l.lastDeparture q := by cases x <;> rfl
@[simp] theorem Line.enterSection_operatorHold (x : Option Nat) (q : Nat) : (l.enterSection x).operatorHold q = l.operatorHold q := by cases x <;> rfl
@[simp] theorem Line.enterSection_reserved (x : Option Nat) (y : Nat) : (l.enterSection x).reserved y = l.reserved y := by cases x <;> rfl
@[simp] theorem Line.enterSection_majorDelay (x : Option Nat) (w : Nat) : (l.enterSection x).majorDelay w = l.majorDelay w := by cases x <;> rfl
@[simp] theorem Line.enterSection_sectionDyn (x : Option Nat) (y : Nat) : (l.enterSection x).sectionDyn y = l.sectionDyn y := by cases x <;> rfl
@[simp] theorem Line.enterSection_breakerDyn (x : Option Nat) (c : Nat) : (l.enterSection x).breakerDyn c = l.breakerDyn c := by cases x <;> rfl
@[simp] theorem Line.enterSection_substationDyn (x : Option Nat) (w : Nat) : (l.enterSection x).substationDyn w = l.substationDyn w := by cases x <;> rfl
@[simp] theorem Line.enterSection_level (x : Option Nat) (y : Nat) : (l.enterSection x).level y = l.level y := by cases x <;> rfl
@[simp] theorem Line.enterSection_zoneDyn (x : Option Nat) (w : Nat) : (l.enterSection x).zoneDyn w = l.zoneDyn w := by cases x <;> rfl
@[simp] theorem Line.enterSection_record (x : Option Nat) (k : Nat) : (l.enterSection x).record? k = l.record? k := by cases x <;> rfl

/-! ### `Line.leaveSection` -/

@[simp] theorem Line.leaveSection_timer (x : Option Nat) : (l.leaveSection x).timer = l.timer := by cases x <;> rfl
@[simp] theorem Line.leaveSection_strap (x : Option Nat) : (l.leaveSection x).strap = l.strap := by cases x <;> rfl
@[simp] theorem Line.leaveSection_config (x : Option Nat) : (l.leaveSection x).config = l.config := by cases x <;> rfl
@[simp] theorem Line.leaveSection_jobs (x : Option Nat) : (l.leaveSection x).jobs = l.jobs := by cases x <;> rfl
@[simp] theorem Line.leaveSection_clock (x : Option Nat) : (l.leaveSection x).clock = l.clock := by cases x <;> rfl
@[simp] theorem Line.leaveSection_tables (x : Option Nat) : (l.leaveSection x).tables = l.tables := by cases x <;> rfl
@[simp] theorem Line.leaveSection_store (x : Option Nat) : (l.leaveSection x).store = l.store := by cases x <;> rfl
@[simp] theorem Line.leaveSection_timetable (x : Option Nat) : (l.leaveSection x).timetable = l.timetable := by cases x <;> rfl
@[simp] theorem Line.leaveSection_regulator (x : Option Nat) : (l.leaveSection x).regulator = l.regulator := by cases x <;> rfl
@[simp] theorem Line.leaveSection_traction (x : Option Nat) : (l.leaveSection x).traction = l.traction := by cases x <;> rfl
@[simp] theorem Line.leaveSection_scanner (x : Option Nat) : (l.leaveSection x).scanner = l.scanner := by cases x <;> rfl
@[simp] theorem Line.leaveSection_incidents (x : Option Nat) : (l.leaveSection x).incidents = l.incidents := by cases x <;> rfl
@[simp] theorem Line.leaveSection_announcer (x : Option Nat) : (l.leaveSection x).announcer = l.announcer := by cases x <;> rfl
@[simp] theorem Line.leaveSection_counters (x : Option Nat) : (l.leaveSection x).counters = l.counters := by cases x <;> rfl
@[simp] theorem Line.leaveSection_outbox (x : Option Nat) : (l.leaveSection x).outbox = l.outbox := by cases x <;> rfl
@[simp] theorem Line.leaveSection_poisonWork (x : Option Nat) : (l.leaveSection x).poisonWork = l.poisonWork := by cases x <;> rfl
@[simp] theorem Line.leaveSection_writeChecks (x : Option Nat) : (l.leaveSection x).writeChecks = l.writeChecks := by cases x <;> rfl
@[simp] theorem Line.leaveSection_train (x : Option Nat) (w : Nat) : (l.leaveSection x).train w = l.train w := by cases x <;> rfl
@[simp] theorem Line.leaveSection_runStatus (x : Option Nat) (k : Nat) : (l.leaveSection x).runStatus k = l.runStatus k := by cases x <;> rfl
@[simp] theorem Line.leaveSection_occupancy (x : Option Nat) (y : Nat) :
    (l.leaveSection x).occupancy y = if x = some y then l.occupancy y - 1 else l.occupancy y := by
  cases x with
  | none => rfl
  | some k =>
    refine (tget_tset 0 l.tracker.occupancy k y (l.occupancy k - 1)).trans ?_
    by_cases h : k = y <;> simp [h, Line.occupancy]
@[simp] theorem Line.leaveSection_lastDeparture (x : Option Nat) (q : Nat) : (l.leaveSection x).lastDeparture q = l.lastDeparture q := by cases x <;> rfl
@[simp] theorem Line.leaveSection_operatorHold (x : Option Nat) (q : Nat) : (l.leaveSection x).operatorHold q = l.operatorHold q := by cases x <;> rfl
@[simp] theorem Line.leaveSection_reserved (x : Option Nat) (y : Nat) : (l.leaveSection x).reserved y = l.reserved y := by cases x <;> rfl
@[simp] theorem Line.leaveSection_majorDelay (x : Option Nat) (w : Nat) : (l.leaveSection x).majorDelay w = l.majorDelay w := by cases x <;> rfl
@[simp] theorem Line.leaveSection_sectionDyn (x : Option Nat) (y : Nat) : (l.leaveSection x).sectionDyn y = l.sectionDyn y := by cases x <;> rfl
@[simp] theorem Line.leaveSection_breakerDyn (x : Option Nat) (c : Nat) : (l.leaveSection x).breakerDyn c = l.breakerDyn c := by cases x <;> rfl
@[simp] theorem Line.leaveSection_substationDyn (x : Option Nat) (w : Nat) : (l.leaveSection x).substationDyn w = l.substationDyn w := by cases x <;> rfl
@[simp] theorem Line.leaveSection_level (x : Option Nat) (y : Nat) : (l.leaveSection x).level y = l.level y := by cases x <;> rfl
@[simp] theorem Line.leaveSection_zoneDyn (x : Option Nat) (w : Nat) : (l.leaveSection x).zoneDyn w = l.zoneDyn w := by cases x <;> rfl
@[simp] theorem Line.leaveSection_record (x : Option Nat) (k : Nat) : (l.leaveSection x).record? k = l.record? k := by cases x <;> rfl

/-! ### `Line.setLastDeparture` -/

@[simp] theorem Line.setLastDeparture_timer (p : Nat) (d : LastDeparture) : (l.setLastDeparture p d).timer = l.timer := rfl
@[simp] theorem Line.setLastDeparture_strap (p : Nat) (d : LastDeparture) : (l.setLastDeparture p d).strap = l.strap := rfl
@[simp] theorem Line.setLastDeparture_config (p : Nat) (d : LastDeparture) : (l.setLastDeparture p d).config = l.config := rfl
@[simp] theorem Line.setLastDeparture_jobs (p : Nat) (d : LastDeparture) : (l.setLastDeparture p d).jobs = l.jobs := rfl
@[simp] theorem Line.setLastDeparture_clock (p : Nat) (d : LastDeparture) : (l.setLastDeparture p d).clock = l.clock := rfl
@[simp] theorem Line.setLastDeparture_tables (p : Nat) (d : LastDeparture) : (l.setLastDeparture p d).tables = l.tables := rfl
@[simp] theorem Line.setLastDeparture_store (p : Nat) (d : LastDeparture) : (l.setLastDeparture p d).store = l.store := rfl
@[simp] theorem Line.setLastDeparture_timetable (p : Nat) (d : LastDeparture) : (l.setLastDeparture p d).timetable = l.timetable := rfl
@[simp] theorem Line.setLastDeparture_tracker (p : Nat) (d : LastDeparture) : (l.setLastDeparture p d).tracker = l.tracker := rfl
@[simp] theorem Line.setLastDeparture_traction (p : Nat) (d : LastDeparture) : (l.setLastDeparture p d).traction = l.traction := rfl
@[simp] theorem Line.setLastDeparture_scanner (p : Nat) (d : LastDeparture) : (l.setLastDeparture p d).scanner = l.scanner := rfl
@[simp] theorem Line.setLastDeparture_incidents (p : Nat) (d : LastDeparture) : (l.setLastDeparture p d).incidents = l.incidents := rfl
@[simp] theorem Line.setLastDeparture_announcer (p : Nat) (d : LastDeparture) : (l.setLastDeparture p d).announcer = l.announcer := rfl
@[simp] theorem Line.setLastDeparture_counters (p : Nat) (d : LastDeparture) : (l.setLastDeparture p d).counters = l.counters := rfl
@[simp] theorem Line.setLastDeparture_outbox (p : Nat) (d : LastDeparture) : (l.setLastDeparture p d).outbox = l.outbox := rfl
@[simp] theorem Line.setLastDeparture_poisonWork (p : Nat) (d : LastDeparture) : (l.setLastDeparture p d).poisonWork = l.poisonWork := rfl
@[simp] theorem Line.setLastDeparture_writeChecks (p : Nat) (d : LastDeparture) : (l.setLastDeparture p d).writeChecks = l.writeChecks := rfl
@[simp] theorem Line.setLastDeparture_train (p : Nat) (d : LastDeparture) (w : Nat) : (l.setLastDeparture p d).train w = l.train w := rfl
@[simp] theorem Line.setLastDeparture_runStatus (p : Nat) (d : LastDeparture) (k : Nat) : (l.setLastDeparture p d).runStatus k = l.runStatus k := rfl
@[simp] theorem Line.setLastDeparture_occupancy (p : Nat) (d : LastDeparture) (y : Nat) : (l.setLastDeparture p d).occupancy y = l.occupancy y := rfl
@[simp] theorem Line.setLastDeparture_lastDeparture (p : Nat) (d : LastDeparture) (q : Nat) : (l.setLastDeparture p d).lastDeparture q = if p = q then some d else l.lastDeparture q := tget_tset none _ p q (some d)
@[simp] theorem Line.setLastDeparture_operatorHold (p : Nat) (d : LastDeparture) (q : Nat) : (l.setLastDeparture p d).operatorHold q = l.operatorHold q := rfl
@[simp] theorem Line.setLastDeparture_reserved (p : Nat) (d : LastDeparture) (y : Nat) : (l.setLastDeparture p d).reserved y = l.reserved y := rfl
@[simp] theorem Line.setLastDeparture_majorDelay (p : Nat) (d : LastDeparture) (w : Nat) : (l.setLastDeparture p d).majorDelay w = l.majorDelay w := rfl
@[simp] theorem Line.setLastDeparture_sectionDyn (p : Nat) (d : LastDeparture) (y : Nat) : (l.setLastDeparture p d).sectionDyn y = l.sectionDyn y := rfl
@[simp] theorem Line.setLastDeparture_breakerDyn (p : Nat) (d : LastDeparture) (c : Nat) : (l.setLastDeparture p d).breakerDyn c = l.breakerDyn c := rfl
@[simp] theorem Line.setLastDeparture_substationDyn (p : Nat) (d : LastDeparture) (w : Nat) : (l.setLastDeparture p d).substationDyn w = l.substationDyn w := rfl
@[simp] theorem Line.setLastDeparture_level (p : Nat) (d : LastDeparture) (y : Nat) : (l.setLastDeparture p d).level y = l.level y := rfl
@[simp] theorem Line.setLastDeparture_zoneDyn (p : Nat) (d : LastDeparture) (w : Nat) : (l.setLastDeparture p d).zoneDyn w = l.zoneDyn w := rfl
@[simp] theorem Line.setLastDeparture_record (p : Nat) (d : LastDeparture) (k : Nat) : (l.setLastDeparture p d).record? k = l.record? k := rfl

/-! ### `Line.setOperatorHold` -/

@[simp] theorem Line.setOperatorHold_timer (p : Nat) (b : Bool) : (l.setOperatorHold p b).timer = l.timer := rfl
@[simp] theorem Line.setOperatorHold_strap (p : Nat) (b : Bool) : (l.setOperatorHold p b).strap = l.strap := rfl
@[simp] theorem Line.setOperatorHold_config (p : Nat) (b : Bool) : (l.setOperatorHold p b).config = l.config := rfl
@[simp] theorem Line.setOperatorHold_jobs (p : Nat) (b : Bool) : (l.setOperatorHold p b).jobs = l.jobs := rfl
@[simp] theorem Line.setOperatorHold_clock (p : Nat) (b : Bool) : (l.setOperatorHold p b).clock = l.clock := rfl
@[simp] theorem Line.setOperatorHold_tables (p : Nat) (b : Bool) : (l.setOperatorHold p b).tables = l.tables := rfl
@[simp] theorem Line.setOperatorHold_store (p : Nat) (b : Bool) : (l.setOperatorHold p b).store = l.store := rfl
@[simp] theorem Line.setOperatorHold_timetable (p : Nat) (b : Bool) : (l.setOperatorHold p b).timetable = l.timetable := rfl
@[simp] theorem Line.setOperatorHold_tracker (p : Nat) (b : Bool) : (l.setOperatorHold p b).tracker = l.tracker := rfl
@[simp] theorem Line.setOperatorHold_traction (p : Nat) (b : Bool) : (l.setOperatorHold p b).traction = l.traction := rfl
@[simp] theorem Line.setOperatorHold_scanner (p : Nat) (b : Bool) : (l.setOperatorHold p b).scanner = l.scanner := rfl
@[simp] theorem Line.setOperatorHold_incidents (p : Nat) (b : Bool) : (l.setOperatorHold p b).incidents = l.incidents := rfl
@[simp] theorem Line.setOperatorHold_announcer (p : Nat) (b : Bool) : (l.setOperatorHold p b).announcer = l.announcer := rfl
@[simp] theorem Line.setOperatorHold_counters (p : Nat) (b : Bool) : (l.setOperatorHold p b).counters = l.counters := rfl
@[simp] theorem Line.setOperatorHold_outbox (p : Nat) (b : Bool) : (l.setOperatorHold p b).outbox = l.outbox := rfl
@[simp] theorem Line.setOperatorHold_poisonWork (p : Nat) (b : Bool) : (l.setOperatorHold p b).poisonWork = l.poisonWork := rfl
@[simp] theorem Line.setOperatorHold_writeChecks (p : Nat) (b : Bool) : (l.setOperatorHold p b).writeChecks = l.writeChecks := rfl
@[simp] theorem Line.setOperatorHold_train (p : Nat) (b : Bool) (w : Nat) : (l.setOperatorHold p b).train w = l.train w := rfl
@[simp] theorem Line.setOperatorHold_runStatus (p : Nat) (b : Bool) (k : Nat) : (l.setOperatorHold p b).runStatus k = l.runStatus k := rfl
@[simp] theorem Line.setOperatorHold_occupancy (p : Nat) (b : Bool) (y : Nat) : (l.setOperatorHold p b).occupancy y = l.occupancy y := rfl
@[simp] theorem Line.setOperatorHold_lastDeparture (p : Nat) (b : Bool) (q : Nat) : (l.setOperatorHold p b).lastDeparture q = l.lastDeparture q := rfl
@[simp] theorem Line.setOperatorHold_operatorHold (p : Nat) (b : Bool) (q : Nat) : (l.setOperatorHold p b).operatorHold q = if p = q then b else l.operatorHold q := tget_tset ..
@[simp] theorem Line.setOperatorHold_reserved (p : Nat) (b : Bool) (y : Nat) : (l.setOperatorHold p b).reserved y = l.reserved y := rfl
@[simp] theorem Line.setOperatorHold_majorDelay (p : Nat) (b : Bool) (w : Nat) : (l.setOperatorHold p b).majorDelay w = l.majorDelay w := rfl
@[simp] theorem Line.setOperatorHold_sectionDyn (p : Nat) (b : Bool) (y : Nat) : (l.setOperatorHold p b).sectionDyn y = l.sectionDyn y := rfl
@[simp] theorem Line.setOperatorHold_breakerDyn (p : Nat) (b : Bool) (c : Nat) : (l.setOperatorHold p b).breakerDyn c = l.breakerDyn c := rfl
@[simp] theorem Line.setOperatorHold_substationDyn (p : Nat) (b : Bool) (w : Nat) : (l.setOperatorHold p b).substationDyn w = l.substationDyn w := rfl
@[simp] theorem Line.setOperatorHold_level (p : Nat) (b : Bool) (y : Nat) : (l.setOperatorHold p b).level y = l.level y := rfl
@[simp] theorem Line.setOperatorHold_zoneDyn (p : Nat) (b : Bool) (w : Nat) : (l.setOperatorHold p b).zoneDyn w = l.zoneDyn w := rfl
@[simp] theorem Line.setOperatorHold_record (p : Nat) (b : Bool) (k : Nat) : (l.setOperatorHold p b).record? k = l.record? k := rfl

/-! ### `Line.setReserved` -/

@[simp] theorem Line.setReserved_timer (x n : Nat) : (l.setReserved x n).timer = l.timer := rfl
@[simp] theorem Line.setReserved_strap (x n : Nat) : (l.setReserved x n).strap = l.strap := rfl
@[simp] theorem Line.setReserved_config (x n : Nat) : (l.setReserved x n).config = l.config := rfl
@[simp] theorem Line.setReserved_jobs (x n : Nat) : (l.setReserved x n).jobs = l.jobs := rfl
@[simp] theorem Line.setReserved_clock (x n : Nat) : (l.setReserved x n).clock = l.clock := rfl
@[simp] theorem Line.setReserved_tables (x n : Nat) : (l.setReserved x n).tables = l.tables := rfl
@[simp] theorem Line.setReserved_store (x n : Nat) : (l.setReserved x n).store = l.store := rfl
@[simp] theorem Line.setReserved_timetable (x n : Nat) : (l.setReserved x n).timetable = l.timetable := rfl
@[simp] theorem Line.setReserved_tracker (x n : Nat) : (l.setReserved x n).tracker = l.tracker := rfl
@[simp] theorem Line.setReserved_traction (x n : Nat) : (l.setReserved x n).traction = l.traction := rfl
@[simp] theorem Line.setReserved_scanner (x n : Nat) : (l.setReserved x n).scanner = l.scanner := rfl
@[simp] theorem Line.setReserved_incidents (x n : Nat) : (l.setReserved x n).incidents = l.incidents := rfl
@[simp] theorem Line.setReserved_announcer (x n : Nat) : (l.setReserved x n).announcer = l.announcer := rfl
@[simp] theorem Line.setReserved_counters (x n : Nat) : (l.setReserved x n).counters = l.counters := rfl
@[simp] theorem Line.setReserved_outbox (x n : Nat) : (l.setReserved x n).outbox = l.outbox := rfl
@[simp] theorem Line.setReserved_poisonWork (x n : Nat) : (l.setReserved x n).poisonWork = l.poisonWork := rfl
@[simp] theorem Line.setReserved_writeChecks (x n : Nat) : (l.setReserved x n).writeChecks = l.writeChecks := rfl
@[simp] theorem Line.setReserved_train (x n : Nat) (w : Nat) : (l.setReserved x n).train w = l.train w := rfl
@[simp] theorem Line.setReserved_runStatus (x n : Nat) (k : Nat) : (l.setReserved x n).runStatus k = l.runStatus k := rfl
@[simp] theorem Line.setReserved_occupancy (x n : Nat) (y : Nat) : (l.setReserved x n).occupancy y = l.occupancy y := rfl
@[simp] theorem Line.setReserved_lastDeparture (x n : Nat) (q : Nat) : (l.setReserved x n).lastDeparture q = l.lastDeparture q := rfl
@[simp] theorem Line.setReserved_operatorHold (x n : Nat) (q : Nat) : (l.setReserved x n).operatorHold q = l.operatorHold q := rfl
@[simp] theorem Line.setReserved_reserved (x n : Nat) (y : Nat) : (l.setReserved x n).reserved y = if x = y then some n else l.reserved y := tget_tset none _ x y (some n)
@[simp] theorem Line.setReserved_majorDelay (x n : Nat) (w : Nat) : (l.setReserved x n).majorDelay w = l.majorDelay w := rfl
@[simp] theorem Line.setReserved_sectionDyn (x n : Nat) (y : Nat) : (l.setReserved x n).sectionDyn y = l.sectionDyn y := rfl
@[simp] theorem Line.setReserved_breakerDyn (x n : Nat) (c : Nat) : (l.setReserved x n).breakerDyn c = l.breakerDyn c := rfl
@[simp] theorem Line.setReserved_substationDyn (x n : Nat) (w : Nat) : (l.setReserved x n).substationDyn w = l.substationDyn w := rfl
@[simp] theorem Line.setReserved_level (x n : Nat) (y : Nat) : (l.setReserved x n).level y = l.level y := rfl
@[simp] theorem Line.setReserved_zoneDyn (x n : Nat) (w : Nat) : (l.setReserved x n).zoneDyn w = l.zoneDyn w := rfl
@[simp] theorem Line.setReserved_record (x n : Nat) (k : Nat) : (l.setReserved x n).record? k = l.record? k := rfl

/-! ### `Line.setMajorDelay` -/

@[simp] theorem Line.setMajorDelay_timer (v : Nat) (b : Bool) : (l.setMajorDelay v b).timer = l.timer := rfl
@[simp] theorem Line.setMajorDelay_strap (v : Nat) (b : Bool) : (l.setMajorDelay v b).strap = l.strap := rfl
@[simp] theorem Line.setMajorDelay_config (v : Nat) (b : Bool) : (l.setMajorDelay v b).config = l.config := rfl
@[simp] theorem Line.setMajorDelay_jobs (v : Nat) (b : Bool) : (l.setMajorDelay v b).jobs = l.jobs := rfl
@[simp] theorem Line.setMajorDelay_clock (v : Nat) (b : Bool) : (l.setMajorDelay v b).clock = l.clock := rfl
@[simp] theorem Line.setMajorDelay_tables (v : Nat) (b : Bool) : (l.setMajorDelay v b).tables = l.tables := rfl
@[simp] theorem Line.setMajorDelay_store (v : Nat) (b : Bool) : (l.setMajorDelay v b).store = l.store := rfl
@[simp] theorem Line.setMajorDelay_timetable (v : Nat) (b : Bool) : (l.setMajorDelay v b).timetable = l.timetable := rfl
@[simp] theorem Line.setMajorDelay_tracker (v : Nat) (b : Bool) : (l.setMajorDelay v b).tracker = l.tracker := rfl
@[simp] theorem Line.setMajorDelay_traction (v : Nat) (b : Bool) : (l.setMajorDelay v b).traction = l.traction := rfl
@[simp] theorem Line.setMajorDelay_scanner (v : Nat) (b : Bool) : (l.setMajorDelay v b).scanner = l.scanner := rfl
@[simp] theorem Line.setMajorDelay_incidents (v : Nat) (b : Bool) : (l.setMajorDelay v b).incidents = l.incidents := rfl
@[simp] theorem Line.setMajorDelay_announcer (v : Nat) (b : Bool) : (l.setMajorDelay v b).announcer = l.announcer := rfl
@[simp] theorem Line.setMajorDelay_counters (v : Nat) (b : Bool) : (l.setMajorDelay v b).counters = l.counters := rfl
@[simp] theorem Line.setMajorDelay_outbox (v : Nat) (b : Bool) : (l.setMajorDelay v b).outbox = l.outbox := rfl
@[simp] theorem Line.setMajorDelay_poisonWork (v : Nat) (b : Bool) : (l.setMajorDelay v b).poisonWork = l.poisonWork := rfl
@[simp] theorem Line.setMajorDelay_writeChecks (v : Nat) (b : Bool) : (l.setMajorDelay v b).writeChecks = l.writeChecks := rfl
@[simp] theorem Line.setMajorDelay_train (v : Nat) (b : Bool) (w : Nat) : (l.setMajorDelay v b).train w = l.train w := rfl
@[simp] theorem Line.setMajorDelay_runStatus (v : Nat) (b : Bool) (k : Nat) : (l.setMajorDelay v b).runStatus k = l.runStatus k := rfl
@[simp] theorem Line.setMajorDelay_occupancy (v : Nat) (b : Bool) (y : Nat) : (l.setMajorDelay v b).occupancy y = l.occupancy y := rfl
@[simp] theorem Line.setMajorDelay_lastDeparture (v : Nat) (b : Bool) (q : Nat) : (l.setMajorDelay v b).lastDeparture q = l.lastDeparture q := rfl
@[simp] theorem Line.setMajorDelay_operatorHold (v : Nat) (b : Bool) (q : Nat) : (l.setMajorDelay v b).operatorHold q = l.operatorHold q := rfl
@[simp] theorem Line.setMajorDelay_reserved (v : Nat) (b : Bool) (y : Nat) : (l.setMajorDelay v b).reserved y = l.reserved y := rfl
@[simp] theorem Line.setMajorDelay_majorDelay (v : Nat) (b : Bool) (w : Nat) : (l.setMajorDelay v b).majorDelay w = if v = w then b else l.majorDelay w := tget_tset ..
@[simp] theorem Line.setMajorDelay_sectionDyn (v : Nat) (b : Bool) (y : Nat) : (l.setMajorDelay v b).sectionDyn y = l.sectionDyn y := rfl
@[simp] theorem Line.setMajorDelay_breakerDyn (v : Nat) (b : Bool) (c : Nat) : (l.setMajorDelay v b).breakerDyn c = l.breakerDyn c := rfl
@[simp] theorem Line.setMajorDelay_substationDyn (v : Nat) (b : Bool) (w : Nat) : (l.setMajorDelay v b).substationDyn w = l.substationDyn w := rfl
@[simp] theorem Line.setMajorDelay_level (v : Nat) (b : Bool) (y : Nat) : (l.setMajorDelay v b).level y = l.level y := rfl
@[simp] theorem Line.setMajorDelay_zoneDyn (v : Nat) (b : Bool) (w : Nat) : (l.setMajorDelay v b).zoneDyn w = l.zoneDyn w := rfl
@[simp] theorem Line.setMajorDelay_record (v : Nat) (b : Bool) (k : Nat) : (l.setMajorDelay v b).record? k = l.record? k := rfl

/-! ### `Line.setSectionDyn` -/

@[simp] theorem Line.setSectionDyn_timer (x : Nat) (d : SectionDyn) : (l.setSectionDyn x d).timer = l.timer := rfl
@[simp] theorem Line.setSectionDyn_strap (x : Nat) (d : SectionDyn) : (l.setSectionDyn x d).strap = l.strap := rfl
@[simp] theorem Line.setSectionDyn_config (x : Nat) (d : SectionDyn) : (l.setSectionDyn x d).config = l.config := rfl
@[simp] theorem Line.setSectionDyn_jobs (x : Nat) (d : SectionDyn) : (l.setSectionDyn x d).jobs = l.jobs := rfl
@[simp] theorem Line.setSectionDyn_clock (x : Nat) (d : SectionDyn) : (l.setSectionDyn x d).clock = l.clock := rfl
@[simp] theorem Line.setSectionDyn_tables (x : Nat) (d : SectionDyn) : (l.setSectionDyn x d).tables = l.tables := rfl
@[simp] theorem Line.setSectionDyn_store (x : Nat) (d : SectionDyn) : (l.setSectionDyn x d).store = l.store := rfl
@[simp] theorem Line.setSectionDyn_timetable (x : Nat) (d : SectionDyn) : (l.setSectionDyn x d).timetable = l.timetable := rfl
@[simp] theorem Line.setSectionDyn_tracker (x : Nat) (d : SectionDyn) : (l.setSectionDyn x d).tracker = l.tracker := rfl
@[simp] theorem Line.setSectionDyn_regulator (x : Nat) (d : SectionDyn) : (l.setSectionDyn x d).regulator = l.regulator := rfl
@[simp] theorem Line.setSectionDyn_scanner (x : Nat) (d : SectionDyn) : (l.setSectionDyn x d).scanner = l.scanner := rfl
@[simp] theorem Line.setSectionDyn_incidents (x : Nat) (d : SectionDyn) : (l.setSectionDyn x d).incidents = l.incidents := rfl
@[simp] theorem Line.setSectionDyn_announcer (x : Nat) (d : SectionDyn) : (l.setSectionDyn x d).announcer = l.announcer := rfl
@[simp] theorem Line.setSectionDyn_counters (x : Nat) (d : SectionDyn) : (l.setSectionDyn x d).counters = l.counters := rfl
@[simp] theorem Line.setSectionDyn_outbox (x : Nat) (d : SectionDyn) : (l.setSectionDyn x d).outbox = l.outbox := rfl
@[simp] theorem Line.setSectionDyn_poisonWork (x : Nat) (d : SectionDyn) : (l.setSectionDyn x d).poisonWork = l.poisonWork := rfl
@[simp] theorem Line.setSectionDyn_writeChecks (x : Nat) (d : SectionDyn) : (l.setSectionDyn x d).writeChecks = l.writeChecks := rfl
@[simp] theorem Line.setSectionDyn_train (x : Nat) (d : SectionDyn) (w : Nat) : (l.setSectionDyn x d).train w = l.train w := rfl
@[simp] theorem Line.setSectionDyn_runStatus (x : Nat) (d : SectionDyn) (k : Nat) : (l.setSectionDyn x d).runStatus k = l.runStatus k := rfl
@[simp] theorem Line.setSectionDyn_occupancy (x : Nat) (d : SectionDyn) (y : Nat) : (l.setSectionDyn x d).occupancy y = l.occupancy y := rfl
@[simp] theorem Line.setSectionDyn_lastDeparture (x : Nat) (d : SectionDyn) (q : Nat) : (l.setSectionDyn x d).lastDeparture q = l.lastDeparture q := rfl
@[simp] theorem Line.setSectionDyn_operatorHold (x : Nat) (d : SectionDyn) (q : Nat) : (l.setSectionDyn x d).operatorHold q = l.operatorHold q := rfl
@[simp] theorem Line.setSectionDyn_reserved (x : Nat) (d : SectionDyn) (y : Nat) : (l.setSectionDyn x d).reserved y = l.reserved y := rfl
@[simp] theorem Line.setSectionDyn_majorDelay (x : Nat) (d : SectionDyn) (w : Nat) : (l.setSectionDyn x d).majorDelay w = l.majorDelay w := rfl
@[simp] theorem Line.setSectionDyn_sectionDyn (x : Nat) (d : SectionDyn) (y : Nat) : (l.setSectionDyn x d).sectionDyn y = if x = y then d else l.sectionDyn y := tget_tset ..
@[simp] theorem Line.setSectionDyn_breakerDyn (x : Nat) (d : SectionDyn) (c : Nat) : (l.setSectionDyn x d).breakerDyn c = l.breakerDyn c := rfl
@[simp] theorem Line.setSectionDyn_substationDyn (x : Nat) (d : SectionDyn) (w : Nat) : (l.setSectionDyn x d).substationDyn w = l.substationDyn w := rfl
@[simp] theorem Line.setSectionDyn_level (x : Nat) (d : SectionDyn) (y : Nat) : (l.setSectionDyn x d).level y = l.level y := rfl
@[simp] theorem Line.setSectionDyn_zoneDyn (x : Nat) (d : SectionDyn) (w : Nat) : (l.setSectionDyn x d).zoneDyn w = l.zoneDyn w := rfl
@[simp] theorem Line.setSectionDyn_record (x : Nat) (d : SectionDyn) (k : Nat) : (l.setSectionDyn x d).record? k = l.record? k := rfl

/-! ### `Line.setBreakerDyn` -/

@[simp] theorem Line.setBreakerDyn_timer (b : Nat) (d : BreakerDyn) : (l.setBreakerDyn b d).timer = l.timer := rfl
@[simp] theorem Line.setBreakerDyn_strap (b : Nat) (d : BreakerDyn) : (l.setBreakerDyn b d).strap = l.strap := rfl
@[simp] theorem Line.setBreakerDyn_config (b : Nat) (d : BreakerDyn) : (l.setBreakerDyn b d).config = l.config := rfl
@[simp] theorem Line.setBreakerDyn_jobs (b : Nat) (d : BreakerDyn) : (l.setBreakerDyn b d).jobs = l.jobs := rfl
@[simp] theorem Line.setBreakerDyn_clock (b : Nat) (d : BreakerDyn) : (l.setBreakerDyn b d).clock = l.clock := rfl
@[simp] theorem Line.setBreakerDyn_tables (b : Nat) (d : BreakerDyn) : (l.setBreakerDyn b d).tables = l.tables := rfl
@[simp] theorem Line.setBreakerDyn_store (b : Nat) (d : BreakerDyn) : (l.setBreakerDyn b d).store = l.store := rfl
@[simp] theorem Line.setBreakerDyn_timetable (b : Nat) (d : BreakerDyn) : (l.setBreakerDyn b d).timetable = l.timetable := rfl
@[simp] theorem Line.setBreakerDyn_tracker (b : Nat) (d : BreakerDyn) : (l.setBreakerDyn b d).tracker = l.tracker := rfl
@[simp] theorem Line.setBreakerDyn_regulator (b : Nat) (d : BreakerDyn) : (l.setBreakerDyn b d).regulator = l.regulator := rfl
@[simp] theorem Line.setBreakerDyn_scanner (b : Nat) (d : BreakerDyn) : (l.setBreakerDyn b d).scanner = l.scanner := rfl
@[simp] theorem Line.setBreakerDyn_incidents (b : Nat) (d : BreakerDyn) : (l.setBreakerDyn b d).incidents = l.incidents := rfl
@[simp] theorem Line.setBreakerDyn_announcer (b : Nat) (d : BreakerDyn) : (l.setBreakerDyn b d).announcer = l.announcer := rfl
@[simp] theorem Line.setBreakerDyn_counters (b : Nat) (d : BreakerDyn) : (l.setBreakerDyn b d).counters = l.counters := rfl
@[simp] theorem Line.setBreakerDyn_outbox (b : Nat) (d : BreakerDyn) : (l.setBreakerDyn b d).outbox = l.outbox := rfl
@[simp] theorem Line.setBreakerDyn_poisonWork (b : Nat) (d : BreakerDyn) : (l.setBreakerDyn b d).poisonWork = l.poisonWork := rfl
@[simp] theorem Line.setBreakerDyn_writeChecks (b : Nat) (d : BreakerDyn) : (l.setBreakerDyn b d).writeChecks = l.writeChecks := rfl
@[simp] theorem Line.setBreakerDyn_train (b : Nat) (d : BreakerDyn) (w : Nat) : (l.setBreakerDyn b d).train w = l.train w := rfl
@[simp] theorem Line.setBreakerDyn_runStatus (b : Nat) (d : BreakerDyn) (k : Nat) : (l.setBreakerDyn b d).runStatus k = l.runStatus k := rfl
@[simp] theorem Line.setBreakerDyn_occupancy (b : Nat) (d : BreakerDyn) (y : Nat) : (l.setBreakerDyn b d).occupancy y = l.occupancy y := rfl
@[simp] theorem Line.setBreakerDyn_lastDeparture (b : Nat) (d : BreakerDyn) (q : Nat) : (l.setBreakerDyn b d).lastDeparture q = l.lastDeparture q := rfl
@[simp] theorem Line.setBreakerDyn_operatorHold (b : Nat) (d : BreakerDyn) (q : Nat) : (l.setBreakerDyn b d).operatorHold q = l.operatorHold q := rfl
@[simp] theorem Line.setBreakerDyn_reserved (b : Nat) (d : BreakerDyn) (y : Nat) : (l.setBreakerDyn b d).reserved y = l.reserved y := rfl
@[simp] theorem Line.setBreakerDyn_majorDelay (b : Nat) (d : BreakerDyn) (w : Nat) : (l.setBreakerDyn b d).majorDelay w = l.majorDelay w := rfl
@[simp] theorem Line.setBreakerDyn_sectionDyn (b : Nat) (d : BreakerDyn) (y : Nat) : (l.setBreakerDyn b d).sectionDyn y = l.sectionDyn y := rfl
@[simp] theorem Line.setBreakerDyn_breakerDyn (b : Nat) (d : BreakerDyn) (c : Nat) : (l.setBreakerDyn b d).breakerDyn c = if b = c then d else l.breakerDyn c := tget_tset ..
@[simp] theorem Line.setBreakerDyn_substationDyn (b : Nat) (d : BreakerDyn) (w : Nat) : (l.setBreakerDyn b d).substationDyn w = l.substationDyn w := rfl
@[simp] theorem Line.setBreakerDyn_level (b : Nat) (d : BreakerDyn) (y : Nat) : (l.setBreakerDyn b d).level y = l.level y := rfl
@[simp] theorem Line.setBreakerDyn_zoneDyn (b : Nat) (d : BreakerDyn) (w : Nat) : (l.setBreakerDyn b d).zoneDyn w = l.zoneDyn w := rfl
@[simp] theorem Line.setBreakerDyn_record (b : Nat) (d : BreakerDyn) (k : Nat) : (l.setBreakerDyn b d).record? k = l.record? k := rfl

/-! ### `Line.setSubstationDyn` -/

@[simp] theorem Line.setSubstationDyn_timer (u : Nat) (d : SubstationDyn) : (l.setSubstationDyn u d).timer = l.timer := rfl
@[simp] theorem Line.setSubstationDyn_strap (u : Nat) (d : SubstationDyn) : (l.setSubstationDyn u d).strap = l.strap := rfl
@[simp] theorem Line.setSubstationDyn_config (u : Nat) (d : SubstationDyn) : (l.setSubstationDyn u d).config = l.config := rfl
@[simp] theorem Line.setSubstationDyn_jobs (u : Nat) (d : SubstationDyn) : (l.setSubstationDyn u d).jobs = l.jobs := rfl
@[simp] theorem Line.setSubstationDyn_clock (u : Nat) (d : SubstationDyn) : (l.setSubstationDyn u d).clock = l.clock := rfl
@[simp] theorem Line.setSubstationDyn_tables (u : Nat) (d : SubstationDyn) : (l.setSubstationDyn u d).tables = l.tables := rfl
@[simp] theorem Line.setSubstationDyn_store (u : Nat) (d : SubstationDyn) : (l.setSubstationDyn u d).store = l.store := rfl
@[simp] theorem Line.setSubstationDyn_timetable (u : Nat) (d : SubstationDyn) : (l.setSubstationDyn u d).timetable = l.timetable := rfl
@[simp] theorem Line.setSubstationDyn_tracker (u : Nat) (d : SubstationDyn) : (l.setSubstationDyn u d).tracker = l.tracker := rfl
@[simp] theorem Line.setSubstationDyn_regulator (u : Nat) (d : SubstationDyn) : (l.setSubstationDyn u d).regulator = l.regulator := rfl
@[simp] theorem Line.setSubstationDyn_traction (u : Nat) (d : SubstationDyn) : (l.setSubstationDyn u d).traction = l.traction := rfl
@[simp] theorem Line.setSubstationDyn_incidents (u : Nat) (d : SubstationDyn) : (l.setSubstationDyn u d).incidents = l.incidents := rfl
@[simp] theorem Line.setSubstationDyn_announcer (u : Nat) (d : SubstationDyn) : (l.setSubstationDyn u d).announcer = l.announcer := rfl
@[simp] theorem Line.setSubstationDyn_counters (u : Nat) (d : SubstationDyn) : (l.setSubstationDyn u d).counters = l.counters := rfl
@[simp] theorem Line.setSubstationDyn_outbox (u : Nat) (d : SubstationDyn) : (l.setSubstationDyn u d).outbox = l.outbox := rfl
@[simp] theorem Line.setSubstationDyn_poisonWork (u : Nat) (d : SubstationDyn) : (l.setSubstationDyn u d).poisonWork = l.poisonWork := rfl
@[simp] theorem Line.setSubstationDyn_writeChecks (u : Nat) (d : SubstationDyn) : (l.setSubstationDyn u d).writeChecks = l.writeChecks := rfl
@[simp] theorem Line.setSubstationDyn_train (u : Nat) (d : SubstationDyn) (w : Nat) : (l.setSubstationDyn u d).train w = l.train w := rfl
@[simp] theorem Line.setSubstationDyn_runStatus (u : Nat) (d : SubstationDyn) (k : Nat) : (l.setSubstationDyn u d).runStatus k = l.runStatus k := rfl
@[simp] theorem Line.setSubstationDyn_occupancy (u : Nat) (d : SubstationDyn) (y : Nat) : (l.setSubstationDyn u d).occupancy y = l.occupancy y := rfl
@[simp] theorem Line.setSubstationDyn_lastDeparture (u : Nat) (d : SubstationDyn) (q : Nat) : (l.setSubstationDyn u d).lastDeparture q = l.lastDeparture q := rfl
@[simp] theorem Line.setSubstationDyn_operatorHold (u : Nat) (d : SubstationDyn) (q : Nat) : (l.setSubstationDyn u d).operatorHold q = l.operatorHold q := rfl
@[simp] theorem Line.setSubstationDyn_reserved (u : Nat) (d : SubstationDyn) (y : Nat) : (l.setSubstationDyn u d).reserved y = l.reserved y := rfl
@[simp] theorem Line.setSubstationDyn_majorDelay (u : Nat) (d : SubstationDyn) (w : Nat) : (l.setSubstationDyn u d).majorDelay w = l.majorDelay w := rfl
@[simp] theorem Line.setSubstationDyn_sectionDyn (u : Nat) (d : SubstationDyn) (y : Nat) : (l.setSubstationDyn u d).sectionDyn y = l.sectionDyn y := rfl
@[simp] theorem Line.setSubstationDyn_breakerDyn (u : Nat) (d : SubstationDyn) (c : Nat) : (l.setSubstationDyn u d).breakerDyn c = l.breakerDyn c := rfl
@[simp] theorem Line.setSubstationDyn_substationDyn (u : Nat) (d : SubstationDyn) (w : Nat) : (l.setSubstationDyn u d).substationDyn w = if u = w then d else l.substationDyn w := tget_tset ..
@[simp] theorem Line.setSubstationDyn_level (u : Nat) (d : SubstationDyn) (y : Nat) : (l.setSubstationDyn u d).level y = l.level y := rfl
@[simp] theorem Line.setSubstationDyn_zoneDyn (u : Nat) (d : SubstationDyn) (w : Nat) : (l.setSubstationDyn u d).zoneDyn w = l.zoneDyn w := rfl
@[simp] theorem Line.setSubstationDyn_record (u : Nat) (d : SubstationDyn) (k : Nat) : (l.setSubstationDyn u d).record? k = l.record? k := rfl

/-! ### `Line.setLevel` -/

@[simp] theorem Line.setLevel_timer (x n : Nat) : (l.setLevel x n).timer = l.timer := rfl
@[simp] theorem Line.setLevel_strap (x n : Nat) : (l.setLevel x n).strap = l.strap := rfl
@[simp] theorem Line.setLevel_config (x n : Nat) : (l.setLevel x n).config = l.config := rfl
@[simp] theorem Line.setLevel_jobs (x n : Nat) : (l.setLevel x n).jobs = l.jobs := rfl
@[simp] theorem Line.setLevel_clock (x n : Nat) : (l.setLevel x n).clock = l.clock := rfl
@[simp] theorem Line.setLevel_tables (x n : Nat) : (l.setLevel x n).tables = l.tables := rfl
@[simp] theorem Line.setLevel_store (x n : Nat) : (l.setLevel x n).store = l.store := rfl
@[simp] theorem Line.setLevel_timetable (x n : Nat) : (l.setLevel x n).timetable = l.timetable := rfl
@[simp] theorem Line.setLevel_tracker (x n : Nat) : (l.setLevel x n).tracker = l.tracker := rfl
@[simp] theorem Line.setLevel_regulator (x n : Nat) : (l.setLevel x n).regulator = l.regulator := rfl
@[simp] theorem Line.setLevel_traction (x n : Nat) : (l.setLevel x n).traction = l.traction := rfl
@[simp] theorem Line.setLevel_incidents (x n : Nat) : (l.setLevel x n).incidents = l.incidents := rfl
@[simp] theorem Line.setLevel_announcer (x n : Nat) : (l.setLevel x n).announcer = l.announcer := rfl
@[simp] theorem Line.setLevel_counters (x n : Nat) : (l.setLevel x n).counters = l.counters := rfl
@[simp] theorem Line.setLevel_outbox (x n : Nat) : (l.setLevel x n).outbox = l.outbox := rfl
@[simp] theorem Line.setLevel_poisonWork (x n : Nat) : (l.setLevel x n).poisonWork = l.poisonWork := rfl
@[simp] theorem Line.setLevel_writeChecks (x n : Nat) : (l.setLevel x n).writeChecks = l.writeChecks := rfl
@[simp] theorem Line.setLevel_train (x n : Nat) (w : Nat) : (l.setLevel x n).train w = l.train w := rfl
@[simp] theorem Line.setLevel_runStatus (x n : Nat) (k : Nat) : (l.setLevel x n).runStatus k = l.runStatus k := rfl
@[simp] theorem Line.setLevel_occupancy (x n : Nat) (y : Nat) : (l.setLevel x n).occupancy y = l.occupancy y := rfl
@[simp] theorem Line.setLevel_lastDeparture (x n : Nat) (q : Nat) : (l.setLevel x n).lastDeparture q = l.lastDeparture q := rfl
@[simp] theorem Line.setLevel_operatorHold (x n : Nat) (q : Nat) : (l.setLevel x n).operatorHold q = l.operatorHold q := rfl
@[simp] theorem Line.setLevel_reserved (x n : Nat) (y : Nat) : (l.setLevel x n).reserved y = l.reserved y := rfl
@[simp] theorem Line.setLevel_majorDelay (x n : Nat) (w : Nat) : (l.setLevel x n).majorDelay w = l.majorDelay w := rfl
@[simp] theorem Line.setLevel_sectionDyn (x n : Nat) (y : Nat) : (l.setLevel x n).sectionDyn y = l.sectionDyn y := rfl
@[simp] theorem Line.setLevel_breakerDyn (x n : Nat) (c : Nat) : (l.setLevel x n).breakerDyn c = l.breakerDyn c := rfl
@[simp] theorem Line.setLevel_substationDyn (x n : Nat) (w : Nat) : (l.setLevel x n).substationDyn w = l.substationDyn w := rfl
@[simp] theorem Line.setLevel_level (x n : Nat) (y : Nat) : (l.setLevel x n).level y = if x = y then n else l.level y := tget_tset ..
@[simp] theorem Line.setLevel_zoneDyn (x n : Nat) (w : Nat) : (l.setLevel x n).zoneDyn w = l.zoneDyn w := rfl
@[simp] theorem Line.setLevel_record (x n : Nat) (k : Nat) : (l.setLevel x n).record? k = l.record? k := rfl

/-! ### `Line.setZoneDyn` -/

@[simp] theorem Line.setZoneDyn_timer (z : Nat) (d : ZoneDyn) : (l.setZoneDyn z d).timer = l.timer := rfl
@[simp] theorem Line.setZoneDyn_strap (z : Nat) (d : ZoneDyn) : (l.setZoneDyn z d).strap = l.strap := rfl
@[simp] theorem Line.setZoneDyn_config (z : Nat) (d : ZoneDyn) : (l.setZoneDyn z d).config = l.config := rfl
@[simp] theorem Line.setZoneDyn_jobs (z : Nat) (d : ZoneDyn) : (l.setZoneDyn z d).jobs = l.jobs := rfl
@[simp] theorem Line.setZoneDyn_clock (z : Nat) (d : ZoneDyn) : (l.setZoneDyn z d).clock = l.clock := rfl
@[simp] theorem Line.setZoneDyn_tables (z : Nat) (d : ZoneDyn) : (l.setZoneDyn z d).tables = l.tables := rfl
@[simp] theorem Line.setZoneDyn_store (z : Nat) (d : ZoneDyn) : (l.setZoneDyn z d).store = l.store := rfl
@[simp] theorem Line.setZoneDyn_timetable (z : Nat) (d : ZoneDyn) : (l.setZoneDyn z d).timetable = l.timetable := rfl
@[simp] theorem Line.setZoneDyn_tracker (z : Nat) (d : ZoneDyn) : (l.setZoneDyn z d).tracker = l.tracker := rfl
@[simp] theorem Line.setZoneDyn_regulator (z : Nat) (d : ZoneDyn) : (l.setZoneDyn z d).regulator = l.regulator := rfl
@[simp] theorem Line.setZoneDyn_traction (z : Nat) (d : ZoneDyn) : (l.setZoneDyn z d).traction = l.traction := rfl
@[simp] theorem Line.setZoneDyn_scanner (z : Nat) (d : ZoneDyn) : (l.setZoneDyn z d).scanner = l.scanner := rfl
@[simp] theorem Line.setZoneDyn_incidents (z : Nat) (d : ZoneDyn) : (l.setZoneDyn z d).incidents = l.incidents := rfl
@[simp] theorem Line.setZoneDyn_counters (z : Nat) (d : ZoneDyn) : (l.setZoneDyn z d).counters = l.counters := rfl
@[simp] theorem Line.setZoneDyn_outbox (z : Nat) (d : ZoneDyn) : (l.setZoneDyn z d).outbox = l.outbox := rfl
@[simp] theorem Line.setZoneDyn_poisonWork (z : Nat) (d : ZoneDyn) : (l.setZoneDyn z d).poisonWork = l.poisonWork := rfl
@[simp] theorem Line.setZoneDyn_writeChecks (z : Nat) (d : ZoneDyn) : (l.setZoneDyn z d).writeChecks = l.writeChecks := rfl
@[simp] theorem Line.setZoneDyn_train (z : Nat) (d : ZoneDyn) (w : Nat) : (l.setZoneDyn z d).train w = l.train w := rfl
@[simp] theorem Line.setZoneDyn_runStatus (z : Nat) (d : ZoneDyn) (k : Nat) : (l.setZoneDyn z d).runStatus k = l.runStatus k := rfl
@[simp] theorem Line.setZoneDyn_occupancy (z : Nat) (d : ZoneDyn) (y : Nat) : (l.setZoneDyn z d).occupancy y = l.occupancy y := rfl
@[simp] theorem Line.setZoneDyn_lastDeparture (z : Nat) (d : ZoneDyn) (q : Nat) : (l.setZoneDyn z d).lastDeparture q = l.lastDeparture q := rfl
@[simp] theorem Line.setZoneDyn_operatorHold (z : Nat) (d : ZoneDyn) (q : Nat) : (l.setZoneDyn z d).operatorHold q = l.operatorHold q := rfl
@[simp] theorem Line.setZoneDyn_reserved (z : Nat) (d : ZoneDyn) (y : Nat) : (l.setZoneDyn z d).reserved y = l.reserved y := rfl
@[simp] theorem Line.setZoneDyn_majorDelay (z : Nat) (d : ZoneDyn) (w : Nat) : (l.setZoneDyn z d).majorDelay w = l.majorDelay w := rfl
@[simp] theorem Line.setZoneDyn_sectionDyn (z : Nat) (d : ZoneDyn) (y : Nat) : (l.setZoneDyn z d).sectionDyn y = l.sectionDyn y := rfl
@[simp] theorem Line.setZoneDyn_breakerDyn (z : Nat) (d : ZoneDyn) (c : Nat) : (l.setZoneDyn z d).breakerDyn c = l.breakerDyn c := rfl
@[simp] theorem Line.setZoneDyn_substationDyn (z : Nat) (d : ZoneDyn) (w : Nat) : (l.setZoneDyn z d).substationDyn w = l.substationDyn w := rfl
@[simp] theorem Line.setZoneDyn_level (z : Nat) (d : ZoneDyn) (y : Nat) : (l.setZoneDyn z d).level y = l.level y := rfl
@[simp] theorem Line.setZoneDyn_zoneDyn (z : Nat) (d : ZoneDyn) (w : Nat) : (l.setZoneDyn z d).zoneDyn w = if z = w then d else l.zoneDyn w := tget_tset ..
@[simp] theorem Line.setZoneDyn_record (z : Nat) (d : ZoneDyn) (k : Nat) : (l.setZoneDyn z d).record? k = l.record? k := rfl

/-! ### `Line.setRecord` -/

@[simp] theorem Line.setRecord_timer (slot : Nat) (r : IncidentRecord) : (l.setRecord slot r).timer = l.timer := rfl
@[simp] theorem Line.setRecord_strap (slot : Nat) (r : IncidentRecord) : (l.setRecord slot r).strap = l.strap := rfl
@[simp] theorem Line.setRecord_config (slot : Nat) (r : IncidentRecord) : (l.setRecord slot r).config = l.config := rfl
@[simp] theorem Line.setRecord_jobs (slot : Nat) (r : IncidentRecord) : (l.setRecord slot r).jobs = l.jobs := rfl
@[simp] theorem Line.setRecord_clock (slot : Nat) (r : IncidentRecord) : (l.setRecord slot r).clock = l.clock := rfl
@[simp] theorem Line.setRecord_tables (slot : Nat) (r : IncidentRecord) : (l.setRecord slot r).tables = l.tables := rfl
@[simp] theorem Line.setRecord_store (slot : Nat) (r : IncidentRecord) : (l.setRecord slot r).store = l.store := rfl
@[simp] theorem Line.setRecord_timetable (slot : Nat) (r : IncidentRecord) : (l.setRecord slot r).timetable = l.timetable := rfl
@[simp] theorem Line.setRecord_tracker (slot : Nat) (r : IncidentRecord) : (l.setRecord slot r).tracker = l.tracker := rfl
@[simp] theorem Line.setRecord_regulator (slot : Nat) (r : IncidentRecord) : (l.setRecord slot r).regulator = l.regulator := rfl
@[simp] theorem Line.setRecord_traction (slot : Nat) (r : IncidentRecord) : (l.setRecord slot r).traction = l.traction := rfl
@[simp] theorem Line.setRecord_scanner (slot : Nat) (r : IncidentRecord) : (l.setRecord slot r).scanner = l.scanner := rfl
@[simp] theorem Line.setRecord_announcer (slot : Nat) (r : IncidentRecord) : (l.setRecord slot r).announcer = l.announcer := rfl
@[simp] theorem Line.setRecord_counters (slot : Nat) (r : IncidentRecord) : (l.setRecord slot r).counters = l.counters := rfl
@[simp] theorem Line.setRecord_outbox (slot : Nat) (r : IncidentRecord) : (l.setRecord slot r).outbox = l.outbox := rfl
@[simp] theorem Line.setRecord_poisonWork (slot : Nat) (r : IncidentRecord) : (l.setRecord slot r).poisonWork = l.poisonWork := rfl
@[simp] theorem Line.setRecord_writeChecks (slot : Nat) (r : IncidentRecord) : (l.setRecord slot r).writeChecks = l.writeChecks := rfl
@[simp] theorem Line.setRecord_train (slot : Nat) (r : IncidentRecord) (w : Nat) : (l.setRecord slot r).train w = l.train w := rfl
@[simp] theorem Line.setRecord_runStatus (slot : Nat) (r : IncidentRecord) (k : Nat) : (l.setRecord slot r).runStatus k = l.runStatus k := rfl
@[simp] theorem Line.setRecord_occupancy (slot : Nat) (r : IncidentRecord) (y : Nat) : (l.setRecord slot r).occupancy y = l.occupancy y := rfl
@[simp] theorem Line.setRecord_lastDeparture (slot : Nat) (r : IncidentRecord) (q : Nat) : (l.setRecord slot r).lastDeparture q = l.lastDeparture q := rfl
@[simp] theorem Line.setRecord_operatorHold (slot : Nat) (r : IncidentRecord) (q : Nat) : (l.setRecord slot r).operatorHold q = l.operatorHold q := rfl
@[simp] theorem Line.setRecord_reserved (slot : Nat) (r : IncidentRecord) (y : Nat) : (l.setRecord slot r).reserved y = l.reserved y := rfl
@[simp] theorem Line.setRecord_majorDelay (slot : Nat) (r : IncidentRecord) (w : Nat) : (l.setRecord slot r).majorDelay w = l.majorDelay w := rfl
@[simp] theorem Line.setRecord_sectionDyn (slot : Nat) (r : IncidentRecord) (y : Nat) : (l.setRecord slot r).sectionDyn y = l.sectionDyn y := rfl
@[simp] theorem Line.setRecord_breakerDyn (slot : Nat) (r : IncidentRecord) (c : Nat) : (l.setRecord slot r).breakerDyn c = l.breakerDyn c := rfl
@[simp] theorem Line.setRecord_substationDyn (slot : Nat) (r : IncidentRecord) (w : Nat) : (l.setRecord slot r).substationDyn w = l.substationDyn w := rfl
@[simp] theorem Line.setRecord_level (slot : Nat) (r : IncidentRecord) (y : Nat) : (l.setRecord slot r).level y = l.level y := rfl
@[simp] theorem Line.setRecord_zoneDyn (slot : Nat) (r : IncidentRecord) (w : Nat) : (l.setRecord slot r).zoneDyn w = l.zoneDyn w := rfl
@[simp] theorem Line.setRecord_record (slot : Nat) (r : IncidentRecord) (k : Nat) : (l.setRecord slot r).record? k = if slot = k then some r else l.record? k := tfind_tput ..

/-! ### `Line.removeRecord` -/

@[simp] theorem Line.removeRecord_timer (slot : Nat) : (l.removeRecord slot).timer = l.timer := rfl
@[simp] theorem Line.removeRecord_strap (slot : Nat) : (l.removeRecord slot).strap = l.strap := rfl
@[simp] theorem Line.removeRecord_config (slot : Nat) : (l.removeRecord slot).config = l.config := rfl
@[simp] theorem Line.removeRecord_jobs (slot : Nat) : (l.removeRecord slot).jobs = l.jobs := rfl
@[simp] theorem Line.removeRecord_clock (slot : Nat) : (l.removeRecord slot).clock = l.clock := rfl
@[simp] theorem Line.removeRecord_tables (slot : Nat) : (l.removeRecord slot).tables = l.tables := rfl
@[simp] theorem Line.removeRecord_store (slot : Nat) : (l.removeRecord slot).store = l.store := rfl
@[simp] theorem Line.removeRecord_timetable (slot : Nat) : (l.removeRecord slot).timetable = l.timetable := rfl
@[simp] theorem Line.removeRecord_tracker (slot : Nat) : (l.removeRecord slot).tracker = l.tracker := rfl
@[simp] theorem Line.removeRecord_regulator (slot : Nat) : (l.removeRecord slot).regulator = l.regulator := rfl
@[simp] theorem Line.removeRecord_traction (slot : Nat) : (l.removeRecord slot).traction = l.traction := rfl
@[simp] theorem Line.removeRecord_scanner (slot : Nat) : (l.removeRecord slot).scanner = l.scanner := rfl
@[simp] theorem Line.removeRecord_announcer (slot : Nat) : (l.removeRecord slot).announcer = l.announcer := rfl
@[simp] theorem Line.removeRecord_counters (slot : Nat) : (l.removeRecord slot).counters = l.counters := rfl
@[simp] theorem Line.removeRecord_outbox (slot : Nat) : (l.removeRecord slot).outbox = l.outbox := rfl
@[simp] theorem Line.removeRecord_poisonWork (slot : Nat) : (l.removeRecord slot).poisonWork = l.poisonWork := rfl
@[simp] theorem Line.removeRecord_writeChecks (slot : Nat) : (l.removeRecord slot).writeChecks = l.writeChecks := rfl
@[simp] theorem Line.removeRecord_train (slot : Nat) (w : Nat) : (l.removeRecord slot).train w = l.train w := rfl
@[simp] theorem Line.removeRecord_runStatus (slot : Nat) (k : Nat) : (l.removeRecord slot).runStatus k = l.runStatus k := rfl
@[simp] theorem Line.removeRecord_occupancy (slot : Nat) (y : Nat) : (l.removeRecord slot).occupancy y = l.occupancy y := rfl
@[simp] theorem Line.removeRecord_lastDeparture (slot : Nat) (q : Nat) : (l.removeRecord slot).lastDeparture q = l.lastDeparture q := rfl
@[simp] theorem Line.removeRecord_operatorHold (slot : Nat) (q : Nat) : (l.removeRecord slot).operatorHold q = l.operatorHold q := rfl
@[simp] theorem Line.removeRecord_reserved (slot : Nat) (y : Nat) : (l.removeRecord slot).reserved y = l.reserved y := rfl
@[simp] theorem Line.removeRecord_majorDelay (slot : Nat) (w : Nat) : (l.removeRecord slot).majorDelay w = l.majorDelay w := rfl
@[simp] theorem Line.removeRecord_sectionDyn (slot : Nat) (y : Nat) : (l.removeRecord slot).sectionDyn y = l.sectionDyn y := rfl
@[simp] theorem Line.removeRecord_breakerDyn (slot : Nat) (c : Nat) : (l.removeRecord slot).breakerDyn c = l.breakerDyn c := rfl
@[simp] theorem Line.removeRecord_substationDyn (slot : Nat) (w : Nat) : (l.removeRecord slot).substationDyn w = l.substationDyn w := rfl
@[simp] theorem Line.removeRecord_level (slot : Nat) (y : Nat) : (l.removeRecord slot).level y = l.level y := rfl
@[simp] theorem Line.removeRecord_zoneDyn (slot : Nat) (w : Nat) : (l.removeRecord slot).zoneDyn w = l.zoneDyn w := rfl
@[simp] theorem Line.removeRecord_record (slot : Nat) (k : Nat) : (l.removeRecord slot).record? k = if slot = k then none else l.record? k := tfind_terase ..

/-! ### `Line.bump` -/

@[simp] theorem Line.bump_timer (c : Counter) : (l.bump c).timer = l.timer := rfl
@[simp] theorem Line.bump_strap (c : Counter) : (l.bump c).strap = l.strap := rfl
@[simp] theorem Line.bump_config (c : Counter) : (l.bump c).config = l.config := rfl
@[simp] theorem Line.bump_jobs (c : Counter) : (l.bump c).jobs = l.jobs := rfl
@[simp] theorem Line.bump_clock (c : Counter) : (l.bump c).clock = l.clock := rfl
@[simp] theorem Line.bump_tables (c : Counter) : (l.bump c).tables = l.tables := rfl
@[simp] theorem Line.bump_store (c : Counter) : (l.bump c).store = l.store := rfl
@[simp] theorem Line.bump_timetable (c : Counter) : (l.bump c).timetable = l.timetable := rfl
@[simp] theorem Line.bump_tracker (c : Counter) : (l.bump c).tracker = l.tracker := rfl
@[simp] theorem Line.bump_regulator (c : Counter) : (l.bump c).regulator = l.regulator := rfl
@[simp] theorem Line.bump_traction (c : Counter) : (l.bump c).traction = l.traction := rfl
@[simp] theorem Line.bump_scanner (c : Counter) : (l.bump c).scanner = l.scanner := rfl
@[simp] theorem Line.bump_incidents (c : Counter) : (l.bump c).incidents = l.incidents := rfl
@[simp] theorem Line.bump_announcer (c : Counter) : (l.bump c).announcer = l.announcer := rfl
@[simp] theorem Line.bump_outbox (c : Counter) : (l.bump c).outbox = l.outbox := rfl
@[simp] theorem Line.bump_poisonWork (c : Counter) : (l.bump c).poisonWork = l.poisonWork := rfl
@[simp] theorem Line.bump_writeChecks (c : Counter) : (l.bump c).writeChecks = l.writeChecks := rfl
@[simp] theorem Line.bump_train (c : Counter) (w : Nat) : (l.bump c).train w = l.train w := rfl
@[simp] theorem Line.bump_runStatus (c : Counter) (k : Nat) : (l.bump c).runStatus k = l.runStatus k := rfl
@[simp] theorem Line.bump_occupancy (c : Counter) (y : Nat) : (l.bump c).occupancy y = l.occupancy y := rfl
@[simp] theorem Line.bump_lastDeparture (c : Counter) (q : Nat) : (l.bump c).lastDeparture q = l.lastDeparture q := rfl
@[simp] theorem Line.bump_operatorHold (c : Counter) (q : Nat) : (l.bump c).operatorHold q = l.operatorHold q := rfl
@[simp] theorem Line.bump_reserved (c : Counter) (y : Nat) : (l.bump c).reserved y = l.reserved y := rfl
@[simp] theorem Line.bump_majorDelay (c : Counter) (w : Nat) : (l.bump c).majorDelay w = l.majorDelay w := rfl
@[simp] theorem Line.bump_sectionDyn (c : Counter) (y : Nat) : (l.bump c).sectionDyn y = l.sectionDyn y := rfl
@[simp] theorem Line.bump_breakerDyn (c : Counter) (j : Nat) : (l.bump c).breakerDyn j = l.breakerDyn j := rfl
@[simp] theorem Line.bump_substationDyn (c : Counter) (w : Nat) : (l.bump c).substationDyn w = l.substationDyn w := rfl
@[simp] theorem Line.bump_level (c : Counter) (y : Nat) : (l.bump c).level y = l.level y := rfl
@[simp] theorem Line.bump_zoneDyn (c : Counter) (w : Nat) : (l.bump c).zoneDyn w = l.zoneDyn w := rfl
@[simp] theorem Line.bump_record (c : Counter) (k : Nat) : (l.bump c).record? k = l.record? k := rfl

/-! ### `emit` -/

@[simp] theorem emit_timer (a : Placer) (b : Port) (k : Byte) (d : Nat) (p : List Byte) : (emit a b k d p l).timer = l.timer := rfl
@[simp] theorem emit_strap (a : Placer) (b : Port) (k : Byte) (d : Nat) (p : List Byte) : (emit a b k d p l).strap = l.strap := rfl
@[simp] theorem emit_config (a : Placer) (b : Port) (k : Byte) (d : Nat) (p : List Byte) : (emit a b k d p l).config = l.config := rfl
@[simp] theorem emit_jobs (a : Placer) (b : Port) (k : Byte) (d : Nat) (p : List Byte) : (emit a b k d p l).jobs = l.jobs := rfl
@[simp] theorem emit_clock (a : Placer) (b : Port) (k : Byte) (d : Nat) (p : List Byte) : (emit a b k d p l).clock = l.clock := rfl
@[simp] theorem emit_tables (a : Placer) (b : Port) (k : Byte) (d : Nat) (p : List Byte) : (emit a b k d p l).tables = l.tables := rfl
@[simp] theorem emit_store (a : Placer) (b : Port) (k : Byte) (d : Nat) (p : List Byte) : (emit a b k d p l).store = l.store := rfl
@[simp] theorem emit_timetable (a : Placer) (b : Port) (k : Byte) (d : Nat) (p : List Byte) : (emit a b k d p l).timetable = l.timetable := rfl
@[simp] theorem emit_tracker (a : Placer) (b : Port) (k : Byte) (d : Nat) (p : List Byte) : (emit a b k d p l).tracker = l.tracker := rfl
@[simp] theorem emit_regulator (a : Placer) (b : Port) (k : Byte) (d : Nat) (p : List Byte) : (emit a b k d p l).regulator = l.regulator := rfl
@[simp] theorem emit_traction (a : Placer) (b : Port) (k : Byte) (d : Nat) (p : List Byte) : (emit a b k d p l).traction = l.traction := rfl
@[simp] theorem emit_scanner (a : Placer) (b : Port) (k : Byte) (d : Nat) (p : List Byte) : (emit a b k d p l).scanner = l.scanner := rfl
@[simp] theorem emit_incidents (a : Placer) (b : Port) (k : Byte) (d : Nat) (p : List Byte) : (emit a b k d p l).incidents = l.incidents := rfl
@[simp] theorem emit_announcer (a : Placer) (b : Port) (k : Byte) (d : Nat) (p : List Byte) : (emit a b k d p l).announcer = l.announcer := rfl
@[simp] theorem emit_counters (a : Placer) (b : Port) (k : Byte) (d : Nat) (p : List Byte) : (emit a b k d p l).counters = l.counters := rfl
@[simp] theorem emit_poisonWork (a : Placer) (b : Port) (k : Byte) (d : Nat) (p : List Byte) : (emit a b k d p l).poisonWork = l.poisonWork := rfl
@[simp] theorem emit_writeChecks (a : Placer) (b : Port) (k : Byte) (d : Nat) (p : List Byte) : (emit a b k d p l).writeChecks = l.writeChecks := rfl
@[simp] theorem emit_train (a : Placer) (b : Port) (k : Byte) (d : Nat) (p : List Byte) (w : Nat) : (emit a b k d p l).train w = l.train w := rfl
@[simp] theorem emit_runStatus (a : Placer) (b : Port) (k : Byte) (d : Nat) (p : List Byte) (j : Nat) : (emit a b k d p l).runStatus j = l.runStatus j := rfl
@[simp] theorem emit_occupancy (a : Placer) (b : Port) (k : Byte) (d : Nat) (p : List Byte) (y : Nat) : (emit a b k d p l).occupancy y = l.occupancy y := rfl
@[simp] theorem emit_lastDeparture (a : Placer) (b : Port) (k : Byte) (d : Nat) (p : List Byte) (q : Nat) : (emit a b k d p l).lastDeparture q = l.lastDeparture q := rfl
@[simp] theorem emit_operatorHold (a : Placer) (b : Port) (k : Byte) (d : Nat) (p : List Byte) (q : Nat) : (emit a b k d p l).operatorHold q = l.operatorHold q := rfl
@[simp] theorem emit_reserved (a : Placer) (b : Port) (k : Byte) (d : Nat) (p : List Byte) (y : Nat) : (emit a b k d p l).reserved y = l.reserved y := rfl
@[simp] theorem emit_majorDelay (a : Placer) (b : Port) (k : Byte) (d : Nat) (p : List Byte) (w : Nat) : (emit a b k d p l).majorDelay w = l.majorDelay w := rfl
@[simp] theorem emit_sectionDyn (a : Placer) (b : Port) (k : Byte) (d : Nat) (p : List Byte) (y : Nat) : (emit a b k d p l).sectionDyn y = l.sectionDyn y := rfl
@[simp] theorem emit_breakerDyn (a : Placer) (b : Port) (k : Byte) (d : Nat) (p : List Byte) (c : Nat) : (emit a b k d p l).breakerDyn c = l.breakerDyn c := rfl
@[simp] theorem emit_substationDyn (a : Placer) (b : Port) (k : Byte) (d : Nat) (p : List Byte) (w : Nat) : (emit a b k d p l).substationDyn w = l.substationDyn w := rfl
@[simp] theorem emit_level (a : Placer) (b : Port) (k : Byte) (d : Nat) (p : List Byte) (y : Nat) : (emit a b k d p l).level y = l.level y := rfl
@[simp] theorem emit_zoneDyn (a : Placer) (b : Port) (k : Byte) (d : Nat) (p : List Byte) (w : Nat) : (emit a b k d p l).zoneDyn w = l.zoneDyn w := rfl
@[simp] theorem emit_record (a : Placer) (b : Port) (k : Byte) (d : Nat) (p : List Byte) (j : Nat) : (emit a b k d p l).record? j = l.record? j := rfl

/-! ### `askWriteCheck` -/

@[simp] theorem askWriteCheck_timer (u : Nat) : (askWriteCheck u l).timer = l.timer := by unfold askWriteCheck; split <;> rfl
@[simp] theorem askWriteCheck_strap (u : Nat) : (askWriteCheck u l).strap = l.strap := by unfold askWriteCheck; split <;> rfl
@[simp] theorem askWriteCheck_config (u : Nat) : (askWriteCheck u l).config = l.config := by unfold askWriteCheck; split <;> rfl
@[simp] theorem askWriteCheck_jobs (u : Nat) : (askWriteCheck u l).jobs = l.jobs := by unfold askWriteCheck; split <;> rfl
@[simp] theorem askWriteCheck_clock (u : Nat) : (askWriteCheck u l).clock = l.clock := by unfold askWriteCheck; split <;> rfl
@[simp] theorem askWriteCheck_tables (u : Nat) : (askWriteCheck u l).tables = l.tables := by unfold askWriteCheck; split <;> rfl
@[simp] theorem askWriteCheck_store (u : Nat) : (askWriteCheck u l).store = l.store := by unfold askWriteCheck; split <;> rfl
@[simp] theorem askWriteCheck_timetable (u : Nat) : (askWriteCheck u l).timetable = l.timetable := by unfold askWriteCheck; split <;> rfl
@[simp] theorem askWriteCheck_tracker (u : Nat) : (askWriteCheck u l).tracker = l.tracker := by unfold askWriteCheck; split <;> rfl
@[simp] theorem askWriteCheck_regulator (u : Nat) : (askWriteCheck u l).regulator = l.regulator := by unfold askWriteCheck; split <;> rfl
@[simp] theorem askWriteCheck_traction (u : Nat) : (askWriteCheck u l).traction = l.traction := by unfold askWriteCheck; split <;> rfl
@[simp] theorem askWriteCheck_scanner (u : Nat) : (askWriteCheck u l).scanner = l.scanner := by unfold askWriteCheck; split <;> rfl
@[simp] theorem askWriteCheck_incidents (u : Nat) : (askWriteCheck u l).incidents = l.incidents := by unfold askWriteCheck; split <;> rfl
@[simp] theorem askWriteCheck_announcer (u : Nat) : (askWriteCheck u l).announcer = l.announcer := by unfold askWriteCheck; split <;> rfl
@[simp] theorem askWriteCheck_counters (u : Nat) : (askWriteCheck u l).counters = l.counters := by unfold askWriteCheck; split <;> rfl
@[simp] theorem askWriteCheck_outbox (u : Nat) : (askWriteCheck u l).outbox = l.outbox := by unfold askWriteCheck; split <;> rfl
@[simp] theorem askWriteCheck_poisonWork (u : Nat) : (askWriteCheck u l).poisonWork = l.poisonWork := by unfold askWriteCheck; split <;> rfl
@[simp] theorem askWriteCheck_train (u : Nat) (w : Nat) : (askWriteCheck u l).train w = l.train w := by unfold askWriteCheck; split <;> rfl
@[simp] theorem askWriteCheck_runStatus (u : Nat) (k : Nat) : (askWriteCheck u l).runStatus k = l.runStatus k := by unfold askWriteCheck; split <;> rfl
@[simp] theorem askWriteCheck_occupancy (u : Nat) (y : Nat) : (askWriteCheck u l).occupancy y = l.occupancy y := by unfold askWriteCheck; split <;> rfl
@[simp] theorem askWriteCheck_lastDeparture (u : Nat) (q : Nat) : (askWriteCheck u l).lastDeparture q = l.lastDeparture q := by unfold askWriteCheck; split <;> rfl
@[simp] theorem askWriteCheck_operatorHold (u : Nat) (q : Nat) : (askWriteCheck u l).operatorHold q = l.operatorHold q := by unfold askWriteCheck; split <;> rfl
@[simp] theorem askWriteCheck_reserved (u : Nat) (y : Nat) : (askWriteCheck u l).reserved y = l.reserved y := by unfold askWriteCheck; split <;> rfl
@[simp] theorem askWriteCheck_majorDelay (u : Nat) (w : Nat) : (askWriteCheck u l).majorDelay w = l.majorDelay w := by unfold askWriteCheck; split <;> rfl
@[simp] theorem askWriteCheck_sectionDyn (u : Nat) (y : Nat) : (askWriteCheck u l).sectionDyn y = l.sectionDyn y := by unfold askWriteCheck; split <;> rfl
@[simp] theorem askWriteCheck_breakerDyn (u : Nat) (c : Nat) : (askWriteCheck u l).breakerDyn c = l.breakerDyn c := by unfold askWriteCheck; split <;> rfl
@[simp] theorem askWriteCheck_substationDyn (u : Nat) (w : Nat) : (askWriteCheck u l).substationDyn w = l.substationDyn w := by unfold askWriteCheck; split <;> rfl
@[simp] theorem askWriteCheck_level (u : Nat) (y : Nat) : (askWriteCheck u l).level y = l.level y := by unfold askWriteCheck; split <;> rfl
@[simp] theorem askWriteCheck_zoneDyn (u : Nat) (w : Nat) : (askWriteCheck u l).zoneDyn w = l.zoneDyn w := by unfold askWriteCheck; split <;> rfl
@[simp] theorem askWriteCheck_record (u : Nat) (k : Nat) : (askWriteCheck u l).record? k = l.record? k := by unfold askWriteCheck; split <;> rfl

/-! ### A record written twice -/

@[simp] theorem Line.setTrain_setTrain (v : Nat) (t u : Train) : (l.setTrain v t).setTrain v u = l.setTrain v u := by
  simp [Line.setTrain]
@[simp] theorem Line.setRunStatus_setRunStatus (k : Nat) (r q : RunStatus) :
    (l.setRunStatus k r).setRunStatus k q = l.setRunStatus k q := by simp [Line.setRunStatus]
@[simp] theorem Line.setSectionDyn_setSectionDyn (x : Nat) (d e : SectionDyn) :
    (l.setSectionDyn x d).setSectionDyn x e = l.setSectionDyn x e := by simp [Line.setSectionDyn]
@[simp] theorem Line.setBreakerDyn_setBreakerDyn (b : Nat) (d e : BreakerDyn) :
    (l.setBreakerDyn b d).setBreakerDyn b e = l.setBreakerDyn b e := by simp [Line.setBreakerDyn]
@[simp] theorem Line.setSubstationDyn_setSubstationDyn (u : Nat) (d e : SubstationDyn) :
    (l.setSubstationDyn u d).setSubstationDyn u e = l.setSubstationDyn u e := by simp [Line.setSubstationDyn]
@[simp] theorem Line.setZoneDyn_setZoneDyn (z : Nat) (d e : ZoneDyn) :
    (l.setZoneDyn z d).setZoneDyn z e = l.setZoneDyn z e := by simp [Line.setZoneDyn]
@[simp] theorem Line.setRecord_setRecord (k : Nat) (r q : IncidentRecord) :
    (l.setRecord k r).setRecord k q = l.setRecord k q := by simp [Line.setRecord]

end Sys2Proof.Machine
end

