-- ==== Sys2Proof/Laws/Stable.lean ====
section
/-! SUPPORT. What the effects of an event can do to the line. `Quiet P` says that a property of the line is kept by each named update that the consequences
of an event are made of, but for the incident records; each theorem below then says that a shared operation keeps it. `Stable P` adds raises and
condition ends, which is what an event makes of the incident records, and the drop of a train whose run record a raise finds poisoned; `Loose P`
says that the records do not matter to the property. -/

namespace Sys2Proof.Machine

open Sys2Proof

/-- What the consequences of an event may do to a train: its holds, and its state between DWELLING and HELD. -/
structure Train.Follows (old new : Train) : Prop where
  active : new.active = old.active
  run : new.run = old.run
  stateBeforeLoss : new.stateBeforeLoss = old.stateBeforeLoss
  nextPassage : new.nextPassage = old.nextPassage
  lastSegment : new.lastSegment = old.lastSegment
  sect : new.sect = old.sect
  timingPoint : new.timingPoint = old.timingPoint
  lateness : new.lateness = old.lateness
  announcedDelay : new.announcedDelay = old.announcedDelay
  lastReport : new.lastReport = old.lastReport
  standing : (new.state = old.state ∧ new.holds = old.holds) ∨
    (old.standing = true ∧ old.timingPoint.isSome = true ∧ new.state = if new.holds.isEmpty then .dwelling else .held)

/-- What the consequences of an event may do to a section: not its restore-failed flag, and its deadline is kept or removed. -/
structure SectionDyn.Follows (old new : SectionDyn) : Prop where
  restoreFailed : new.restoreFailed = old.restoreFailed
  restoreDeadline : new.restoreDeadline = old.restoreDeadline ∨ new.restoreDeadline = none

/-- What the consequences of an event may do to a breaker: pulses and pending commands, not its reported state. -/
structure BreakerDyn.Follows (old new : BreakerDyn) : Prop where
  state : new.state = old.state
  localControl : new.localControl = old.localControl

/-- What the consequences of an event may do to a substation: its output image only. -/
def SubstationDyn.Follows (old new : SubstationDyn) : Prop := new = { old with image := new.image }

/-- A property of the line that the consequences of an event keep which leave the incident records as they are. -/
structure Quiet (P : Line → Prop) : Prop where
  touch : ∀ t i l, P l → P (touch t i l)
  bump : ∀ c l, P l → P (l.bump c)
  emit : ∀ a b k d p l, P l → P (emit a b k d p l)
  ask : ∀ u l, P l → P (askWriteCheck u l)
  reserved : ∀ x n l, P l → P (l.setReserved x n)
  train : ∀ v new l, P l → (l.train v).Follows new → P (l.setTrain v new)
  sectionDyn : ∀ x new l, P l → (l.sectionDyn x).Follows new → P (l.setSectionDyn x new)
  level : ∀ x n l, P l → P (l.setLevel x n)
  breakerDyn : ∀ b new l, P l → (l.breakerDyn b).Follows new → P (l.setBreakerDyn b new)
  substationDyn : ∀ u new l, P l → (l.substationDyn u).Follows new → P (l.setSubstationDyn u new)
  zoneDyn : ∀ z new l, P l → new.queue.length ≤ Nat.max 8 (l.zoneDyn z).queue.length → P (l.setZoneDyn z new)

/-- A property of the line that is kept when a train whose run record is poisoned loses its run and its major delay, which a raise located at
the train may bring about. -/
structure Dropping (P : Line → Prop) : Prop where
  unbound : ∀ v slot l, P l → l.jobs.timetable = true → (l.train v).run = some slot →
    l.usable (runId l.timetable.active) slot = false → P (unbindTrain v slot l)
  majorDelay : ∀ v b l, P l → P (l.setMajorDelay v b)

/-- A property of the line that the consequences of an event keep: those of `Quiet`, raises and condition ends. -/
structure Stable (P : Line → Prop) : Prop extends Quiet P, Dropping P where
  raiseOnce : ∀ (r : Raise) {l : Line}, P l → P (raiseOnce r l).1
  conditionEnd : ∀ (c : Nat) (loc : Location) {l : Line}, P l → P (conditionEnd c loc l)

/-- A property of the line that the incident records do not matter to. -/
structure Loose (P : Line → Prop) : Prop extends Quiet P, Dropping P where
  incidents : ∀ i l, P l → P { l with incidents := i }

/-- Two properties that the consequences of an event keep are kept together. -/
theorem Quiet.and {P Q : Line → Prop} (p : Quiet P) (q : Quiet Q) : Quiet fun l => P l ∧ Q l where
  touch _ _ _ h := ⟨p.touch _ _ _ h.1, q.touch _ _ _ h.2⟩
  bump _ _ h := ⟨p.bump _ _ h.1, q.bump _ _ h.2⟩
  emit _ _ _ _ _ _ h := ⟨p.emit _ _ _ _ _ _ h.1, q.emit _ _ _ _ _ _ h.2⟩
  ask _ _ h := ⟨p.ask _ _ h.1, q.ask _ _ h.2⟩
  reserved _ _ _ h := ⟨p.reserved _ _ _ h.1, q.reserved _ _ _ h.2⟩
  train _ _ _ h hf := ⟨p.train _ _ _ h.1 hf, q.train _ _ _ h.2 hf⟩
  sectionDyn _ _ _ h hf := ⟨p.sectionDyn _ _ _ h.1 hf, q.sectionDyn _ _ _ h.2 hf⟩
  level _ _ _ h := ⟨p.level _ _ _ h.1, q.level _ _ _ h.2⟩
  breakerDyn _ _ _ h hf := ⟨p.breakerDyn _ _ _ h.1 hf, q.breakerDyn _ _ _ h.2 hf⟩
  substationDyn _ _ _ h hf := ⟨p.substationDyn _ _ _ h.1 hf, q.substationDyn _ _ _ h.2 hf⟩
  zoneDyn _ _ _ h hq := ⟨p.zoneDyn _ _ _ h.1 hq, q.zoneDyn _ _ _ h.2 hq⟩

theorem Dropping.and {P Q : Line → Prop} (p : Dropping P) (q : Dropping Q) : Dropping fun l => P l ∧ Q l where
  unbound _ _ _ h hj hr hu := ⟨p.unbound _ _ _ h.1 hj hr hu, q.unbound _ _ _ h.2 hj hr hu⟩
  majorDelay _ _ _ h := ⟨p.majorDelay _ _ _ h.1, q.majorDelay _ _ _ h.2⟩

theorem Stable.and {P Q : Line → Prop} (p : Stable P) (q : Stable Q) : Stable fun l => P l ∧ Q l where
  toQuiet := p.toQuiet.and q.toQuiet
  toDropping := p.toDropping.and q.toDropping
  raiseOnce _ _ h := ⟨p.raiseOnce _ h.1, q.raiseOnce _ h.2⟩
  conditionEnd _ _ _ h := ⟨p.conditionEnd _ _ h.1, q.conditionEnd _ _ h.2⟩

/-- A property kept by one round is kept by a fold. -/
theorem foldl_keeps {α : Type} {P : Line → Prop} {f : Line → α → Line} (hf : ∀ l a, P l → P (f l a)) (xs : List α) {l : Line}
    (hl : P l) : P (xs.foldl f l) := by
  induction xs generalizing l with
  | nil => exact hl
  | cons a xs ih => exact ih (hf l a hl)

namespace Quiet

variable {P : Line → Prop} (h : Quiet P) {l : Line}
include h

/-! ### Reads -/

theorem touchAll (t : TableId) (is : List Nat) (hl : P l) : P (touchAll t is l) := foldl_keeps (fun l i => h.touch t i l) is hl

theorem touchRun (v : Nat) (hl : P l) : P (touchRun v l) := by
  unfold Machine.touchRun; split
  · exact h.touch _ _ _ hl
  · exact hl

theorem touchFeeders (x : Nat) (hl : P l) : P (touchFeeders x l) := by
  unfold Machine.touchFeeders; dsimp only; split
  · exact h.touchAll _ _ (h.touch _ _ _ hl)
  · exact h.touchAll _ _ (h.touch _ _ _ hl)

theorem touchLists (hl : P l) : P (touchLists l) :=
  foldl_keeps (fun l x hl => by
    dsimp only; split
    · exact h.touch _ _ _ hl
    · exact h.touchAll _ _ (h.touch _ _ _ hl)) _ hl

/-! ### Hold causes and orders -/

theorem sendOrder (k v p d f : Nat) (hs : HoldCauses) (hl : P l) : P (sendOrder k v p d f hs l) := by
  unfold Machine.sendOrder; dsimp only; split
  · exact h.bump _ _ (h.emit _ _ _ _ _ _ (h.touchRun v hl))
  · exact h.bump _ _ (h.touchRun v hl)

theorem sendRelease (v p : Nat) (hl : P l) : P (sendRelease v p l) := by
  unfold Machine.sendRelease; split
  · exact h.reserved _ _ _ (h.sendOrder _ _ _ _ _ _ hl)
  · exact h.sendOrder _ _ _ _ _ _ hl

theorem ordersOf (v p : Nat) (old new : HoldCauses) (hl : P l) : P (ordersOf v p old new l) := by
  unfold Machine.ordersOf; repeat' split
  · exact hl
  · exact h.sendOrder _ _ _ _ _ _ hl
  · exact h.sendRelease _ _ hl
  · exact hl

theorem evaluate (v : Nat) (hl : P l) : P (evaluate v l) := by
  unfold Machine.evaluate; dsimp only; split
  · exact hl
  · rename_i p hp
    split
    · rename_i hs
      refine h.ordersOf _ _ _ _ (h.train _ _ _ (h.touch _ _ _ hl) ?_)
      have ht : (Machine.touch .timingPoint p l).train v = l.train v := by
        unfold Machine.touch poisonEntry correctWords; dsimp only; repeat' split
        all_goals rfl
      rw [ht]
      refine ⟨rfl, rfl, rfl, rfl, rfl, rfl, rfl, rfl, rfl, rfl, .inr ⟨?_, by simp [hp], rfl⟩⟩
      simp only [Bool.and_eq_true] at hs
      exact hs.2
    · exact hl

theorem evaluateAt (ps : List Nat) (hl : P l) : P (evaluateAt ps l) :=
  foldl_keeps (fun l v hl => by
    repeat' split
    · exact h.evaluate v hl
    · exact hl
    · exact hl) _ hl

theorem evaluateSection (x : Nat) (hl : P l) : P (evaluateSection x l) := by
  unfold Machine.evaluateSection; split
  · refine foldl_keeps (fun l v hl => ?_) _ hl
    dsimp only; repeat' split
    · exact h.evaluate v (h.touch _ _ _ hl)
    · exact h.touch _ _ _ hl
    · exact h.touch _ _ _ hl
    · exact hl
  · exact hl

/-! ### Sections, images and pulses -/

theorem setImage (u : Nat) (i : Image) (hl : P l) : P (setImage u i l) := by
  unfold Machine.setImage; dsimp only; split
  · exact hl
  · exact h.ask _ _ (h.substationDyn _ _ _ hl rfl)

theorem setOutput (b : Nat) (o : Switching) (hl : P l) : P (setOutput b o l) := h.setImage _ _ hl

theorem setIndicators (hl : P l) : P (setIndicators l) := by
  unfold Machine.setIndicators
  exact foldl_keeps (fun l u hl => h.setImage u _ hl) _ (h.touchLists hl)

theorem deriveSection (x : Nat) (hl : P l) : P (deriveSection x l) := by
  unfold Machine.deriveSection; dsimp only; split
  · exact h.touchFeeders x hl
  · exact h.evaluateSection x (h.sectionDyn _ _ _ (h.touchFeeders x hl) ⟨rfl, .inl rfl⟩)

theorem deriveLevel (x : Nat) (hl : P l) : P (deriveLevel x l) := by
  unfold Machine.deriveLevel; dsimp only; split
  · exact h.touchFeeders x hl
  · exact h.evaluateSection x (h.level _ _ _ (h.touchFeeders x hl))

theorem deriveSections (xs : List Nat) (hl : P l) : P (deriveSections xs l) := foldl_keeps (fun _ x hl => h.deriveSection x hl) _ hl

theorem deriveLevels (xs : List Nat) (hl : P l) : P (deriveLevels xs l) := foldl_keeps (fun _ x hl => h.deriveLevel x hl) _ hl

theorem deriveConcerned (b : Nat) (x : Option Nat) (hl : P l) : P (deriveConcerned b x l) :=
  h.deriveSections _ (h.touchLists hl)

theorem startPulse (b : Nat) (c : Switching) (x : Nat) (hl : P l) : P (startPulse b c x l) := by
  unfold Machine.startPulse; dsimp only
  exact h.breakerDyn _ _ _ (h.setOutput _ _ (h.touch _ _ _ (h.touch _ _ _ hl))) ⟨rfl, rfl⟩

theorem endPulse (b : Nat) (hl : P l) : P (endPulse b l) := h.breakerDyn _ _ _ (h.setOutput _ _ hl) ⟨rfl, rfl⟩

theorem cutPulse (x b : Nat) (hl : P l) : P (cutPulse x b l) := by
  unfold Machine.cutPulse; dsimp only; split
  · exact h.bump _ _ (h.breakerDyn _ _ _ (h.endPulse b hl) ⟨rfl, rfl⟩)
  · exact hl

theorem isolationPulse (x b : Nat) (hl : P l) : P (isolationPulse x b l) := by
  unfold Machine.isolationPulse; split
  · exact hl
  · exact h.bump _ _ (h.startPulse _ _ _ hl)

theorem isolationPulses (x : Nat) (hl : P l) : P (isolationPulses x l) :=
  foldl_keeps (fun _ b hl => h.isolationPulse x b hl) _ (h.touchFeeders x hl)

theorem applyIsolation (x : Nat) (hl : P l) : P (applyIsolation x l) := by
  unfold Machine.applyIsolation
  extract_lets d l1 l2 l3 s l4
  have h1 : P l1 := h.deriveSection x (h.sectionDyn _ _ _ hl ⟨rfl, .inl rfl⟩)
  have h2 : P l2 := by
    show P (ite _ _ _)
    split
    · exact h.setIndicators h1
    · exact h1
  have h3 : P l3 := foldl_keeps (fun _ b hl => h.cutPulse x b hl) _ h2
  clear_value l3
  have h4 : P l4 := h.sectionDyn _ _ _ h3 ⟨rfl, .inr rfl⟩
  split
  · exact h.isolationPulses x h4
  · exact h4

theorem releaseIsolation (x : Nat) (hl : P l) : P (releaseIsolation x l) := by
  have h1 : P (l.setSectionDyn x { l.sectionDyn x with isolation := (l.sectionDyn x).isolation - 1 }) :=
    h.sectionDyn _ _ _ hl ⟨rfl, .inl rfl⟩
  unfold Machine.releaseIsolation; dsimp only; split
  · exact h.setIndicators (h.deriveSection x h1)
  · exact h1

/-! ### Zone queues and plays -/

theorem sendPlay (z : Nat) (hl : P l) : P (sendPlay z l) := by
  unfold Machine.sendPlay; dsimp only; split
  · exact hl
  · exact h.bump _ _ (h.zoneDyn _ _ _ (h.emit _ _ _ _ _ _ hl) (Nat.le_max_right ..))

theorem setQueue (z : Nat) (q : List Entry) (hl : P l) (hq : q.length ≤ Nat.max 8 (l.zoneDyn z).queue.length) :
    P (l.setQueue z q) := h.zoneDyn _ _ _ hl hq

theorem idleZone (z : Nat) (hl : P l) : P (l.idleZone z) := h.zoneDyn _ _ _ hl (Nat.le_max_right ..)

theorem selectPlay (r z n : Nat) (hl : P l) : P (selectPlay r z n l) := by
  induction n generalizing l with
  | zero => exact hl
  | succ n ih =>
    have hq : ∀ (m : Line) (e : Entry), (m.zoneDyn z).queue = (l.zoneDyn z).queue →
        ((l.zoneDyn z).queue.erase e).length ≤ Nat.max 8 (m.zoneDyn z).queue.length := fun m e hm => by
      rw [hm]; exact Nat.le_trans List.length_erase_le (Nat.le_max_right ..)
    have ht : ∀ i, ((Machine.touch .template i l).zoneDyn z).queue = (l.zoneDyn z).queue := fun i => by
      unfold Machine.touch poisonEntry correctWords; dsimp only; repeat' split
      all_goals rfl
    unfold Machine.selectPlay; dsimp only; split
    · exact hl
    · split
      · exact ih (h.bump _ _ (h.setQueue z _ hl (hq l _ rfl)))
      · split
        · exact ih (h.bump _ _ (h.setQueue z _ (h.touch _ _ _ hl) (hq _ _ (ht _))))
        · exact h.sendPlay z (h.zoneDyn _ _ _ (h.touch _ _ _ hl) (hq _ _ (ht _)))

theorem startPlay (z : Nat) (hl : P l) : P (startPlay z l) := by
  unfold Machine.startPlay; dsimp only; repeat' split
  · exact h.selectPlay _ _ _ (h.touch _ _ _ hl)
  · exact h.touch _ _ _ hl
  · exact h.touch _ _ _ hl
  · exact hl

theorem returnToHead (z : Nat) (e : Entry) (hl : P l) : P (returnToHead z e l) := by
  unfold Machine.returnToHead; dsimp only
  have hj : ∀ q : List Entry, (joinHead e q).length = q.length + 1 := fun q => by
    have := congrArg List.length (List.takeWhile_append_dropWhile (p := fun x : Entry => x.prio.code < e.prio.code) (l := q))
    simp only [List.length_append] at this
    simp only [joinHead, List.length_append, List.length_cons]; omega
  repeat' split
  · exact h.setQueue z _ hl (by rw [hj]; exact Nat.le_trans (by omega) (Nat.le_max_left 8 _))
  · refine h.bump _ _ (h.setQueue z _ hl ?_)
    rw [hj, List.length_dropLast]
    exact Nat.le_trans (by omega) (Nat.le_max_right 8 _)
  · exact h.bump _ _ hl

theorem preEmpt (z : Nat) (hl : P l) : P (preEmpt z l) := by
  have ht : ((Machine.touch .zone z l).zoneDyn z).queue = (l.zoneDyn z).queue := by
    unfold Machine.touch poisonEntry correctWords; dsimp only; repeat' split
    all_goals rfl
  unfold Machine.preEmpt; dsimp only; split
  · exact hl
  · have h1 := h.bump (.preEmption z) _ (h.emit .announce .f kindPaAbort ((Machine.touch .zone z l).paAddress z)
      [(l.zoneDyn z).tag] _ (h.touch .zone z l hl))
    have h2 := h.zoneDyn z { l.zoneDyn z with airtimeDeadline := none, retryTime := none, retries := 0 } _ h1
      (by simp only [Line.bump_zoneDyn, emit_zoneDyn, ht]; exact Nat.le_max_right ..)
    split
    · exact h.startPlay z (h.idleZone z h2)
    · exact h.startPlay z (h.idleZone z (h.returnToHead z _ h2))

theorem afterAdmission (z : Nat) (e : Entry) (hl : P l) : P (afterAdmission z e l) := by
  unfold Machine.afterAdmission; dsimp only; split
  · exact h.preEmpt z (h.bump _ _ hl)
  · exact h.startPlay z (h.bump _ _ hl)

end Quiet

theorem joinTail_length (e : Entry) (q : List Entry) : (joinTail e q).length = q.length + 1 := by
  have := congrArg List.length (List.takeWhile_append_dropWhile (p := fun x : Entry => x.prio.code ≤ e.prio.code) (l := q))
  simp only [List.length_append] at this
  simp only [joinTail, List.length_append, List.length_cons]; omega

theorem displaceFor_length {e : Entry} {q r : List Entry} (hd : displaceFor e q = some r) : r.length ≤ Nat.max 8 q.length := by
  unfold displaceFor at hd
  split at hd
  · rename_i last hlast
    split at hd
    · simp only [Option.some.injEq] at hd
      subst hd
      rw [joinTail_length, List.length_dropLast]
      have : 0 < q.length := by cases q <;> simp at hlast ⊢
      exact Nat.le_trans (by omega) (Nat.le_max_right ..)
    · simp at hd
  · simp at hd

/-- A read leaves a zone as it is. -/
theorem touch_zoneDyn (t : TableId) (i z : Nat) (l : Line) : (touch t i l).zoneDyn z = l.zoneDyn z := by
  unfold touch poisonEntry correctWords; dsimp only; repeat' split
  all_goals rfl

namespace Quiet

variable {P : Line → Prop} (h : Quiet P) {l : Line}
include h

theorem admission (z : Nat) (e : Entry) (hl : P l) : P (admission z e l).1 := by
  have h0 := h.touch .template e.template l hl
  unfold Machine.admission; dsimp only
  split
  · exact h.bump _ _ h0
  · rw [touch_zoneDyn]
    have hz : ∀ q : List Entry, q.length ≤ Nat.max 8 (l.zoneDyn z).queue.length →
        P ((Machine.touch .template e.template l).setQueue z q) := fun q hq =>
      h.setQueue z q h0 (by rw [touch_zoneDyn]; exact hq)
    repeat' split
    · exact h.bump _ _ h0
    · exact h.bump _ _ (hz _ (by rw [List.length_map]; exact Nat.le_max_right ..))
    · exact h.bump _ _ (h.zoneDyn _ _ _ h0 (by rw [touch_zoneDyn]; exact Nat.le_max_right ..))
    · rename_i hlen
      exact h.afterAdmission z e (hz _ (by rw [joinTail_length]; exact Nat.le_trans (by omega) (Nat.le_max_left 8 _)))
    · rename_i q hq
      exact h.afterAdmission z e (h.bump _ _ (hz _ (displaceFor_length hq)))
    · exact h.bump _ _ h0

theorem handEntry (z t : Nat) (n : Option Nat) (p : Priority) (o : Origin) (hl : P l) : P (handEntry z t n p o l) := by
  unfold Machine.handEntry; dsimp only; split
  · exact h.admission z _ (h.touch _ _ _ hl)
  · exact h.bump _ _ (h.touch _ _ _ hl)

theorem bumpBy (c : Counter) (n : Nat) (hl : P l) : P (l.bumpBy c n) := by
  induction n generalizing l with
  | zero => exact hl
  | succ n ih => exact ih (h.bump _ _ hl)

theorem purgeZone (k z : Nat) (hl : P l) : P (purgeZone k z l) := by
  have h1 := h.bumpBy (.purge z) ((l.zoneDyn z).queue.filter fun e => e.origin == .incident k).length
    (h.setQueue z ((l.zoneDyn z).queue.filter fun e => e.origin != .incident k) hl
      (Nat.le_trans (List.length_filter_le ..) (Nat.le_max_right ..)))
  unfold Machine.purgeZone; dsimp only; repeat' split
  · exact h.startPlay z (h.bump _ _ (h.idleZone z h1))
  · exact h.zoneDyn _ _ _ h1 (Nat.le_max_right ..)
  · exact h1
  · exact h1
  · exact h.startPlay z h1

theorem purge (k : Nat) (hl : P l) : P (purge k l) := foldl_keeps (fun _ z hl => h.purgeZone k z hl) _ hl

theorem sweepZone (z : Nat) (hl : P l) : P (sweepZone z l) := by
  unfold Machine.sweepZone; dsimp only; split
  · exact hl
  · exact h.startPlay z (h.bumpBy _ _ (h.setQueue z _ hl
      (Nat.le_trans (List.length_filter_le ..) (Nat.le_max_right ..))))

/-! ### Incidents -/

theorem findStation (bank : Nat) (ks : List Nat) (hl : P l) : P (findStation bank ks l).1 := by
  induction ks generalizing l with
  | nil => exact hl
  | cons k ks ih =>
    unfold Machine.findStation; dsimp only; repeat' split
    · exact ih (h.touch _ _ _ hl)
    · exact ih (h.touch _ _ _ hl)
    · exact h.touch _ _ _ (h.touch _ _ _ hl)
    · exact ih (h.touch _ _ _ (h.touch _ _ _ hl))

theorem stationAhead (v : Nat) (hl : P l) : P (stationAhead v l).1 := by
  unfold Machine.stationAhead; dsimp only; repeat' split
  · exact hl
  · exact h.findStation _ _ (h.touch _ _ _ hl)
  · exact h.touch _ _ _ hl

theorem stationOfTrain (v : Nat) (hl : P l) : P (stationOfTrain v l).1 := by
  have h1 := h.stationAhead v hl
  unfold Machine.stationOfTrain; split
  · rename_i heq; rw [heq] at h1; exact h1
  · rename_i heq; rw [heq] at h1
    split
    · exact h1
    · exact h.touch _ _ _ h1

theorem coverageOf (loc : Location) (hl : P l) : P (coverageOf loc l).1 := by
  have ha : ∀ m, P m → P (Machine.touchAll .timingPoint timingPointNumbers m) := fun m hm => h.touchAll _ _ hm
  unfold Machine.coverageOf; split <;> dsimp only
  · exact hl
  · exact ha _ hl
  · exact ha _ (h.touchAll _ _ hl)
  · exact ha _ hl
  · exact h.touch _ _ _ hl
  · exact h.stationOfTrain loc.index (ha _ hl)

theorem sendNotice (e : NoticeEvent) (b : List Byte) (hl : P l) : P (sendNotice e b l) := by
  unfold Machine.sendNotice; split
  · exact h.bump _ _ hl
  · exact h.emit _ _ _ _ _ _ hl

theorem noticeOf (e : NoticeEvent) (r : IncidentRecord) (hl : P l) : P (noticeOf e r l) := h.sendNotice _ _ hl

end Quiet

namespace Loose

variable {P : Line → Prop} (h : Loose P) {l : Line}
include h

theorem evaluateAlarm (hl : P l) : P (evaluateAlarm l) := by
  unfold Machine.evaluateAlarm; dsimp only; repeat' split
  · exact hl
  · exact h.bump _ _ (h.incidents _ _ hl)
  · exact h.emit _ _ _ _ _ _ (h.incidents _ _ hl)

theorem considerLatch (s : Severity) (c : Captured) (hl : P l) : P (considerLatch s c l) := h.incidents _ _ hl

theorem setRecord (slot : Nat) (r : IncidentRecord) (hl : P l) : P (l.setRecord slot r) := h.incidents _ _ hl

theorem removeRecord (slot : Nat) (hl : P l) : P (l.removeRecord slot) := h.incidents _ _ hl

theorem releaseHold (slot : Nat) (r : IncidentRecord) (hl : P l) : P (releaseHold slot r l) := by
  unfold Machine.releaseHold; split
  · exact h.evaluateAt _ (h.setRecord _ _ hl)
  · exact h.evaluateAt _ hl

theorem releaseEffects (slot : Nat) (r : IncidentRecord) (hl : P l) : P (releaseEffects slot r l) := by
  unfold Machine.releaseEffects
  extract_lets l1 l2
  have h1 : P l1 := by
    show P (ite _ _ _); split
    · exact foldl_keeps (fun _ x hl => h.releaseIsolation x hl) _ hl
    · exact hl
  have h2 : P l2 := by
    show P (ite _ _ _); split
    · exact h.releaseHold _ _ h1
    · exact h1
  exact h.purge _ h2

theorem handAllClear (r : IncidentRecord) (hl : P l) : P (handAllClear r l) := by
  unfold Machine.handAllClear; dsimp only; split
  · exact foldl_keeps (fun _ z hl => h.handEntry z _ _ _ _ hl) _ (h.touch _ _ _ hl)
  · exact h.touch _ _ _ hl

theorem clearRecord (slot : Nat) (r : IncidentRecord) (hl : P l) : P (clearRecord slot r l) := by
  unfold Machine.clearRecord
  extract_lets c l1 l2 l3 l4
  exact h.evaluateAlarm (h.incidents _ _ (h.noticeOf _ _ (h.handAllClear r
    (h.releaseEffects slot r (h.bump _ _ (h.setRecord slot c hl))))))

theorem collapseInto (raise : Raise) (slot : Nat) (r : IncidentRecord) (hl : P l) : P (collapseInto raise slot r l) := by
  unfold Machine.collapseInto
  extract_lets l1 reopened new l2
  have h2 : P l2 := by
    show P (ite _ _ _); split
    · exact h.bump _ _ (h.bump _ _ (h.touch _ _ _ hl))
    · exact h.bump _ _ (h.touch _ _ _ hl)
  clear_value l2
  split
  · exact h.noticeOf _ _ (h.considerLatch _ _ (h.bump _ _ (h.setRecord slot _ h2)))
  · split
    · exact h.noticeOf _ _ (h.setRecord slot _ h2)
    · exact h.setRecord slot _ h2

theorem applyEffects (slot : Nat) (r : IncidentRecord) (e : ClassEntry) (hl : P l) : P (applyEffects slot r e l) := by
  unfold Machine.applyEffects
  extract_lets l1 l2
  have h1 : P l1 := by
    show P (ite _ _ _); split
    · exact foldl_keeps (fun _ x hl => h.applyIsolation x hl) _ hl
    · exact hl
  have h2 : P l2 := by
    show P (ite _ _ _); split
    · exact h.evaluateAt _ (h.setRecord _ _ h1)
    · exact h1
  repeat' split
  · exact foldl_keeps (fun _ z hl => h.handEntry z _ _ _ _ hl) _ h2
  · exact h2
  · exact h2

theorem createRecord (raise : Raise) (e : ClassEntry) (slot : Nat) (hl : P l) : P (createRecord raise e slot l).1 := by
  unfold Machine.createRecord
  have h1 := h.coverageOf raise.location (h.incidents { l.incidents with nextSerial := serialAfter l.nextFreeSerial } _ hl)
  exact h.noticeOf _ _ (h.considerLatch _ _ (h.applyEffects _ _ _ (h.bump _ _ (h.setRecord _ _ h1))))

theorem displaceRecord (slot : Nat) (hl : P l) : P (displaceRecord slot l) := by
  unfold Machine.displaceRecord; split
  · exact h.removeRecord _ (h.bump _ _ (h.noticeOf _ _ (h.releaseEffects _ _ hl)))
  · exact hl

theorem loseRaise (raise : Raise) (s : Severity) (hl : P l) : P (loseRaise raise s l) := h.sendNotice _ _ (h.incidents _ _ hl)

theorem recordRaise (raise : Raise) (hl : P l) : P (recordRaise raise l).1 := by
  have h0 := h.touch .incidentClass raise.cls l hl
  unfold Machine.recordRaise; dsimp only; split
  · exact h.createRecord _ _ _ h0
  · exact h.createRecord _ _ _ (h.removeRecord _ h0)
  · exact h.createRecord _ _ _ (h.displaceRecord _ h0)
  · exact h.loseRaise _ _ h0

theorem raiseOnce (raise : Raise) (hl : P l) : P (raiseOnce raise l).1 := by
  unfold Machine.raiseOnce; split
  · split
    · exact h.evaluateAlarm (h.collapseInto _ _ _ hl)
    · have h1 := h.recordRaise raise hl
      split
      rename_i heq; rw [heq] at h1
      exact h.evaluateAlarm h1
  · exact h.bump _ _ hl

theorem conditionEnd (c : Nat) (loc : Location) (hl : P l) : P (conditionEnd c loc l) := by
  unfold Machine.conditionEnd; split
  · exact h.bump _ _ hl
  · split
    · exact hl
    · dsimp only; split
      · exact h.clearRecord _ _ (h.touch _ _ _ hl)
      · exact h.evaluateAlarm (h.noticeOf _ _ (h.setRecord _ _ (h.touch _ _ _ hl)))

/-- Raises and condition ends keep what the incident records do not matter to. -/
theorem stable : Stable P := { h.toQuiet, h.toDropping with
  raiseOnce := fun r _ hl => h.raiseOnce r hl
  conditionEnd := fun c loc _ hl => h.conditionEnd c loc hl }

end Loose

theorem Line.poisonedRun_spec {l : Line} {v slot : Nat} (h : l.poisonedRun? v = some slot) :
    (l.train v).run = some slot ∧ l.jobs.timetable = true ∧ l.usable (runId l.timetable.active) slot = false := by
  simpa [Line.poisonedRun?, Option.filter_eq_some_iff] using h

namespace Stable

variable {P : Line → Prop} (h : Stable P) {l : Line}
include h

theorem endMajorDelay (v : Nat) (hl : P l) : P (endMajorDelay v l) := by
  unfold Machine.endMajorDelay; split
  · exact h.conditionEnd _ _ (h.majorDelay _ _ _ hl)
  · exact hl

theorem raiseRunDropped (v : Nat) (hl : P l) : P (raiseRunDropped v l) := h.raiseOnce _ hl

theorem dropPoisonedRun (loc : Location) (o : RaiseOutcome) (hl : P l) : P (dropPoisonedRun loc o l) := by
  unfold Machine.dropPoisonedRun; split
  · rename_i slot _ hr
    obtain ⟨hr, hj, hu⟩ := Line.poisonedRun_spec hr
    exact h.endMajorDelay _ (h.raiseRunDropped _ (h.unbound _ _ _ hl hj hr hu))
  · exact hl

theorem takeRaise (raise : Raise) (hl : P l) : P (takeRaise raise l).1 := h.dropPoisonedRun _ _ (h.raiseOnce raise hl)

theorem raiseIncident (c : Nat) (k : LocationKind) (i s : Nat) (t : Option Nat) (hl : P l) : P (raiseIncident c k i s t l) :=
  h.takeRaise _ hl

end Stable

end Sys2Proof.Machine
end

