-- ==== Sys2Proof/Laws/Regulating.lean ====
section
/-! SUPPORT. What the Regulator's operations can do to the line. `Regulated P` says that a property is kept by the consequences of an event, and by a
lateness or an announced delay written; each theorem then says that an operation keeps it. -/

namespace Sys2Proof.Machine

open Sys2Proof

/-- A property of the line that every operation of the Regulator keeps. -/
structure Regulated (P : Line → Prop) : Prop extends Stable P where
  lateness : ∀ v n d l, P l → P (l.setTrain v { l.train v with lateness := n, announcedDelay := d })

namespace Regulated

variable {P : Line → Prop} (h : Regulated P) {l : Line}
include h

theorem setAnnouncedDelay (v n : Nat) (hl : P l) : P (l.setAnnouncedDelay v n) := h.lateness v (l.train v).lateness n l hl

theorem setLateness (v : Nat) (n : Option Int) (hl : P l) : P (l.setLateness v n) := h.lateness v n (l.train v).announcedDelay l hl

theorem sendAdherence (v p g d f : Nat) (hs : HoldCauses) (n : Int) (hl : P l) : P (sendAdherence v p g d f hs n l) := by
  unfold Machine.sendAdherence; dsimp only; split
  · exact h.touchRun v hl
  · exact h.emit _ _ _ _ _ _ (h.touchRun v hl)

theorem handDelay (v n : Nat) (hl : P l) : P (handDelay v n l) := by
  have h1 := h.stationOfTrain v hl
  unfold Machine.handDelay; split
  · rename_i heq; rw [heq] at h1; exact h.bump _ _ (h.handEntry _ _ _ _ _ h1)
  · rename_i heq; rw [heq] at h1; exact h.bump _ _ h1

theorem considerDelay (v p : Nat) (n : Int) (hl : P l) : P (considerDelay v p n l) := by
  have h0 := h.touch .timingPoint p l hl
  unfold Machine.considerDelay; dsimp only; repeat' split
  · exact h0
  · exact h.setAnnouncedDelay v 0 h0
  · exact h0
  · exact h.setAnnouncedDelay v _ (h.handDelay v _ h0)

theorem considerMajorDelay (v : Nat) (n : Int) (t : Option Nat) (hl : P l) : P (considerMajorDelay v n t l) := by
  unfold Machine.considerMajorDelay; repeat' split
  · exact h.endMajorDelay v hl
  · exact hl
  · exact h.raiseIncident _ _ _ _ _ (h.majorDelay _ _ _ hl)
  · exact hl

theorem latenessWritten (v p : Nat) (n : Int) (t : Option Nat) (hl : P l) : P (latenessWritten v p n t l) :=
  h.considerMajorDelay _ _ _ (h.considerDelay _ _ _ hl)

theorem orderDwellAt (v p t : Nat) (e : TimingPoint) (k : Passage) (n : Int) (hl : P l) : P (orderDwellAt v p t e k n l) := by
  unfold Machine.orderDwellAt
  extract_lets last eh l1 dt l2 chosen l3 l4 flags l5
  have h1 : P l1 := by
    show P (ite _ _ _); split
    · exact h.bump _ _ hl
    · exact hl
  have h3 : P l3 := by
    show P (ite _ _ _); split
    · exact h.bump _ _ (h.touch _ _ _ h1)
    · exact h.touch _ _ _ h1
  exact h.sendAdherence _ _ _ _ _ _ _ (h.sendOrder _ _ _ _ _ _ (h.reserved _ _ _ h3))

theorem regulate (v p k : Nat) (t : Option Nat) (hl : P l) : P (regulate v p k t l) := by
  have h0 := h.touch (passageId l.timetable.active) k _ (h.touch .timingPoint p l hl)
  unfold Machine.regulate; dsimp only; split
  · refine h.latenessWritten _ _ _ _ ?_
    split
    · exact h.orderDwellAt _ _ _ _ _ _ (h.setLateness _ _ h0)
    · exact h.sendAdherence _ _ _ _ _ _ _ (h.setLateness _ _ h0)
  · exact h.bump _ _ h0

theorem arrival (v p : Nat) (k t : Option Nat) (hl : P l) : P (arrival v p k t l) := by
  unfold Machine.arrival; dsimp only; split
  · exact h.regulate _ _ _ _ (h.evaluate v hl)
  · exact h.evaluate v hl

end Regulated

end Sys2Proof.Machine
end

