-- ==== Sys2Proof/Laws/Bindings.lean ====
section
/-! SUPPORT. What binding, matching and doing passages can do to the line. `Records P` says that a property is kept by the consequences of an event, by
any change of a train's record that leaves its place on the line alone, and by any change of a run's status; each theorem then says that an operation
keeps it. -/

namespace Sys2Proof.Machine

open Sys2Proof

/-- What a change of a train's record leaves alone where its place on the line is concerned. -/
structure Train.SamePlace (old new : Train) : Prop where
  active : new.active = old.active
  lastSegment : new.lastSegment = old.lastSegment
  sect : new.sect = old.sect
  lost : new.state = .lost ↔ old.state = .lost

/-- A property of the line that every change of bindings and passages keeps. -/
structure Records (P : Line → Prop) : Prop extends Regulated P where
  record : ∀ v new l, P l → (l.train v).SamePlace new → ((l.train v).ok = true → new.ok = true) → P (l.setTrain v new)
  runStatus : ∀ k r l, P l → P (l.setRunStatus k r)
  lastDeparture : ∀ p d l, P l → P (l.setLastDeparture p d)

/-- A read leaves a train as it is. -/
@[simp] theorem touch_train (t : TableId) (i v : Nat) (l : Line) : (touch t i l).train v = l.train v := by
  unfold touch poisonEntry correctWords; dsimp only; repeat' split
  all_goals rfl

@[simp] theorem Line.bumpBy_train (c : Counter) (n v : Nat) (l : Line) : (l.bumpBy c n).train v = l.train v := by
  induction n generalizing l with
  | zero => rfl
  | succ n ih => exact (ih (l.bump c)).trans rfl

/-- A property together with a train being active and not LOST. -/
def Tracked (v : Nat) (P : Line → Prop) (l : Line) : Prop := P l ∧ (l.train v).active = true ∧ (l.train v).state ≠ .lost

/-- The consequences of an event do not make a train LOST or inactive. -/
theorem tracked_loose (v : Nat) : Loose fun l => (l.train v).active = true ∧ (l.train v).state ≠ .lost where
  touch t i l hl := by simpa using hl
  bump c l hl := by simpa using hl
  emit a b k d p l hl := by simpa using hl
  ask u l hl := by simpa using hl
  reserved x n l hl := by simpa using hl
  train w new l hl hf := by
    rw [Line.setTrain_train]
    split
    · rename_i hw
      subst hw
      refine ⟨by rw [hf.active]; exact hl.1, ?_⟩
      rcases hf.standing with ⟨hs, _⟩ | ⟨_, _, hs⟩
      · rw [hs]; exact hl.2
      · rw [hs]; split <;> simp
    · exact hl
  sectionDyn x d l hl _ := by simpa using hl
  level x n l hl := by simpa using hl
  breakerDyn b d l hl _ := by simpa using hl
  substationDyn u d l hl _ := by simpa using hl
  zoneDyn z d l hl _ := by simpa using hl
  incidents i l hl := hl
  unbound w slot l hl _ _ _ := by
    unfold unbindTrain Line.clearRun
    rw [Line.setTrain_train]
    split
    · rename_i hw; subst hw; exact hl
    · exact hl
  majorDelay w b l hl := by simpa using hl

/-- What the Tracker's read of a run slot in a search can do: read the record, or read it and drop the train bound to it. -/
theorem searchRun_cases (slot : Nat) (l : Line) :
    searchRun slot l = touch (runId l.timetable.active) slot l ∨
      ∃ k w, k = touch (runId l.timetable.active) slot l ∧ (k.runStatus slot).vehicle = some w ∧ (k.train w).run = some slot ∧
        k.jobs.timetable = true ∧ k.usable (runId k.timetable.active) slot = false ∧ searchRun slot l = dropTrain w slot k := by
  unfold searchRun; dsimp only; split
  · rename_i w hw
    split
    · rename_i hp
      obtain ⟨hr, hj, hu⟩ := Line.poisonedRun_spec hp
      exact .inr ⟨_, w, rfl, hw, hr, hj, hu, rfl⟩
    · exact .inl rfl
  · exact .inl rfl

theorem Stable.tracked {P : Line → Prop} (h : Stable P) (v : Nat) : Stable (Tracked v P) := h.and (tracked_loose v).stable

theorem Records.tracked {P : Line → Prop} (h : Records P) (v : Nat) : Records (Tracked v P) where
  toStable := h.toStable.tracked v
  lateness w n d l hl := by
    refine ⟨h.lateness w n d l hl.1, ?_⟩
    rw [Line.setTrain_train]
    split
    · rename_i hw; subst hw; exact hl.2
    · exact hl.2
  runStatus k r l hl := ⟨h.runStatus k r l hl.1, hl.2⟩
  lastDeparture p d l hl := ⟨h.lastDeparture p d l hl.1, by simpa using hl.2⟩
  record w new l hl hp hok := by
    refine ⟨h.record w new l hl.1 hp hok, ?_⟩
    rw [Line.setTrain_train]
    split
    · rename_i hw
      subst hw
      exact ⟨by rw [hp.active]; exact hl.2.1, fun he => hl.2.2 (hp.lost.mp he)⟩
    · exact hl.2

namespace Records

variable {P : Line → Prop} (h : Records P) {l : Line}
include h

theorem eventTime (n : Nat) (hl : P l) : P (eventTime n l).1 := by
  unfold Machine.eventTime; repeat' split
  · exact hl
  · exact hl
  · exact h.bump _ _ hl

theorem clearRun (v : Nat) (hl : P l) : P (l.clearRun v) := h.record _ _ _ hl ⟨rfl, rfl, rfl, .rfl⟩ id

theorem bindTrain (v slot first : Nat) (hl : P l) : P (bindTrain v slot first l) := h.runStatus _ _ _ (h.record _ _ _ hl ⟨rfl, rfl, rfl, .rfl⟩ id)

theorem unbindTrain (v slot : Nat) (hl : P l) : P (unbindTrain v slot l) := h.clearRun v (h.runStatus _ _ _ hl)

theorem dropTrain (v slot : Nat) (hl : P l) : P (dropTrain v slot l) :=
  h.endMajorDelay v (h.raiseRunDropped v (h.unbindTrain v slot hl))

theorem searchRun (slot : Nat) (hl : P l) : P (searchRun slot l) := by
  have h0 := h.touch (runId l.timetable.active) slot l hl
  unfold Machine.searchRun; dsimp only; repeat' split
  · exact h.dropTrain _ _ h0
  · exact h0
  · exact h0

omit h in
theorem findRun {read : Nat → Line → Line} (hread : ∀ slot l, P l → P (read slot l)) (bank number : Nat) (ss : List Nat) (hl : P l) :
    P (findRun read bank number ss l).1 := by
  induction ss generalizing l with
  | nil => exact hl
  | cons s ss ih =>
    unfold Machine.findRun; dsimp only; repeat' split
    · exact hread _ _ hl
    · exact ih (hread _ _ hl)
    · exact ih (hread _ _ hl)

theorem bindRequest (v n : Nat) (hl : P l) : P (bindRequest v n l).1 := by
  have h1 := Records.findRun (fun s _ hl => h.searchRun s hl) l.timetable.active n runSlots hl
  unfold Machine.bindRequest; split
  · exact hl
  · split
    · rename_i heq; rw [heq] at h1; exact h1
    · rename_i heq; rw [heq] at h1
      repeat' split
      · exact h1
      · exact h1
      · exact h1
      · exact h.bindTrain _ _ _ h1

theorem unbindRequest (v : Nat) (hl : P l) : P (unbindRequest v l).1 := by
  unfold Machine.unbindRequest; repeat' split
  · exact hl
  · exact h.endMajorDelay v (h.unbindTrain v _ hl)
  · exact hl

theorem candidate (p t slot : Nat) (hl : P l) : P (candidate p t slot l).1 := by
  have h0 := h.searchRun slot hl
  unfold Machine.candidate; dsimp only; repeat' split
  · exact h.touch _ _ _ h0
  · exact h.touch _ _ _ h0
  · exact h.touch _ _ _ h0
  · exact h0
  · exact h0

theorem bestCandidate (p t : Nat) (ss : List Nat) (b : Option (Nat × Nat × Nat)) (hl : P l) : P (bestCandidate p t ss b l).1 := by
  induction ss generalizing l b with
  | nil => exact hl
  | cons s ss ih =>
    have h1 := h.candidate p t s hl
    unfold Machine.bestCandidate; split
    · rename_i heq; rw [heq] at h1; exact ih _ h1
    · rename_i heq; rw [heq] at h1; exact ih _ h1
    · rename_i heq; rw [heq] at h1; exact ih _ h1

theorem autoBind (v p : Nat) (t : Option Nat) (hl : P l) : P (autoBind v p t l) := by
  unfold Machine.autoBind; split
  · rename_i n _
    have h1 := h.bestCandidate p n runSlots none hl
    split
    · rename_i heq; rw [heq] at h1; exact h.bump _ _ (h.bindTrain _ _ _ h1)
    · rename_i heq; rw [heq] at h1; exact h1
  · exact hl

theorem findPassage (bank p : Nat) (ks : List Nat) (n : Nat) (hl : P l) : P (findPassage bank p ks n l).1 := by
  induction ks generalizing l n with
  | nil => exact hl
  | cons k ks ih =>
    unfold Machine.findPassage; dsimp only; repeat' split
    · exact h.touch _ _ _ hl
    · exact ih _ (h.touch _ _ _ hl)
    · exact ih _ (h.touch _ _ _ hl)

theorem matchPassage (v p : Nat) (hl : P l) : P (matchPassage v p l).1 := by
  unfold Machine.matchPassage; split
  · exact hl
  · rename_i slot _
    have h0 := h.touch (runId l.timetable.active) slot l hl
    dsimp only; split
    · exact h.dropTrain v _ h0
    · rename_i r _
      have h1 := h.findPassage l.timetable.active p
        (passagesFrom r ((touch (runId l.timetable.active) slot l).train v).nextPassage) 0 h0
      split
      · rename_i heq; rw [heq] at h1; exact h.record _ _ _ (h.bumpBy _ _ h1) (by rw [Line.bumpBy_train]; exact ⟨rfl, rfl, rfl, .rfl⟩) (by rw [Line.bumpBy_train]; exact id)
      · rename_i heq; rw [heq] at h1; exact h1

theorem passageDone (v slot k : Nat) (r : RunRecord) (hl : P l) : P (passageDone v slot k r l) := by
  unfold Machine.passageDone; dsimp only; split
  · exact h.endMajorDelay v (h.clearRun v (h.runStatus _ _ _ hl))
  · exact h.record _ _ _ (h.runStatus _ _ _ hl) ⟨rfl, rfl, rfl, .rfl⟩ id

theorem departed (p n : Nat) (k : Passage) (t : Option Nat) (hl : P l) : P (departed p n k t l) := by
  unfold Machine.departed; split
  · exact h.lastDeparture _ _ _ hl
  · exact hl

theorem passed (v p n : Nat) (k : Passage) (t : Option Nat) (hl : P l) : P (passed v p n k t l) := by
  unfold Machine.passed; split
  · exact h.latenessWritten _ _ _ _ (h.sendAdherence _ _ _ _ _ _ _ (h.setLateness _ _ (h.lastDeparture _ _ _ hl)))
  · exact hl

theorem passAt (v p : Nat) (t : Option Nat) (hl : P l) : P (passAt v p t l) := by
  unfold Machine.passAt; split
  · exact hl
  · dsimp only; repeat' split
    · exact h.touch _ _ _ hl
    · exact h.passageDone _ _ _ _ (h.passed _ _ _ _ _ (h.touch _ _ _ (h.touch _ _ _ hl)))
    · exact h.dropTrain _ _ (h.touch _ _ _ (h.touch _ _ _ hl))
    · exact h.touch _ _ _ hl

theorem overrideHold (v s : Nat) (t : Option Nat) (hl : P l) : P (overrideHold v s t l) := by
  unfold Machine.overrideHold; split
  · exact h.raiseIncident _ _ _ _ _ (h.bump _ _ hl)
  · exact hl

theorem departBound (v p : Nat) (t : Option Nat) (hl : P l) : P (departBound v p t l) := by
  unfold Machine.departBound; split
  · exact hl
  · rename_i slot _
    have h1 := h.touch (runId l.timetable.active) slot l hl
    dsimp only; repeat' split
    · exact h.dropTrain _ _ h1
    · exact h.passageDone _ _ _ _ (h.departed _ _ _ _ (h.touch _ _ _ h1))
    · exact h.touch _ _ _ h1
    · exact h.touch _ _ _ h1

end Records

end Sys2Proof.Machine
end

