-- ==== Sys2Proof/Laws/Plant.lean ====
section
/-! SUPPORT. What an event of the Traction Section Controller, the Substation Scanner or the Announcement Scheduler can do to the line. `Plant P` says
that a property is kept by the consequences of an event and by any change of a section, a breaker or a substation; each theorem then says that
such an event keeps it. -/

namespace Sys2Proof.Machine

open Sys2Proof

/-- A property of the line that every event of the plant and of the zones keeps. -/
structure Plant (P : Line → Prop) : Prop extends Stable P where
  anySection : ∀ x d l, P l → P (l.setSectionDyn x d)
  anyBreaker : ∀ b d l, P l → P (l.setBreakerDyn b d)
  anySubstation : ∀ u d l, P l → P (l.setSubstationDyn u d)

namespace Plant

variable {P : Line → Prop} (h : Plant P) {l : Line}
include h

/-! ### The Traction Section Controller -/

theorem openReport (b s : Nat) (hl : P l) : P (openReport b s l) := by
  unfold Machine.openReport; refine h.deriveConcerned _ _ ?_
  dsimp only; repeat' split
  · exact h.anyBreaker _ _ _ hl
  · unfold raiseTrip; split
    · exact h.bump _ _ (h.raiseIncident _ _ _ _ _ (h.anyBreaker _ _ _ hl))
    · exact h.anyBreaker _ _ _ hl
  · exact h.anyBreaker _ _ _ hl

theorem closedAgainst (b x s : Nat) (hl : P l) : P (closedAgainst b x s l) := by
  have h1 := h.bump .closeAgainstIsolation _ (h.raiseIncident 6 .sect x s
    (l.setBreakerDyn b { l.breakerDyn b with state := .closed }).lineTime? (h.anyBreaker b { l.breakerDyn b with state := .closed } _ hl))
  unfold Machine.closedAgainst; dsimp only; split
  · exact h.bump _ _ (h.startPulse _ _ _ h1)
  · exact h1

theorem closedNormally (b : Nat) (hl : P l) : P (closedNormally b l) := by
  unfold Machine.closedNormally
  extract_lets d d2 l2
  have h1 : P l2 := h.anyBreaker _ _ _ hl
  split
  · unfold sectionFed; dsimp only; split
    · exact h.conditionEnd _ _ (h.anySection _ _ _ h1)
    · exact h.anySection _ _ _ h1
  · exact h1

theorem closedReport (b s : Nat) (hl : P l) : P (closedReport b s l) := by
  unfold Machine.closedReport; dsimp only; refine h.deriveConcerned _ _ ?_
  repeat' split
  · exact h.closedAgainst _ _ _ hl
  · exact h.closedNormally _ hl
  · exact h.closedNormally _ hl

theorem breakerReport (b s : Nat) (i : Indication) (hl : P l) : P (breakerReport b s i l) := by
  unfold Machine.breakerReport
  extract_lets l1 l2 t l3 d
  have h2 : P l2 := by
    show P (ite _ _ _); split
    · exact h.bump _ _ (h.touch _ _ _ hl)
    · exact h.touch _ _ _ hl
  have h3 : P l3 := h.anyBreaker _ _ _ h2
  repeat' split
  · exact h3
  · exact h.closedReport _ _ h3
  · exact h.openReport _ _ h3
  · exact h3

theorem silenceBreakers (u : Nat) (hl : P l) : P (silenceBreakers u l) := by
  unfold Machine.silenceBreakers
  exact h.deriveLevels _ (h.deriveSections _ (h.touchLists (foldl_keeps (fun _ _ hl => h.anyBreaker _ _ _ hl) _ hl)))

theorem carryOut (b : Nat) (c : Switching) (x : Nat) (hl : P l) : P (carryOut b c x l) := by
  unfold Machine.carryOut
  extract_lets l1 l2 l3
  have h1 : P l1 := by
    show P (ite _ _ _); split
    · unfold withdrawClose; split
      · dsimp only; split
        · exact h.touchFeeders _ (h.anyBreaker _ _ _ hl)
        · exact h.anySection _ _ _ (h.touchFeeders _ (h.anyBreaker _ _ _ hl))
      · exact hl
    · exact hl
  have h3 : P l3 := by
    show P (ite _ _ _); split
    · unfold extendRestore; dsimp only; split
      · exact h.anySection _ _ _ (h.startPulse _ _ _ h1)
      · exact h.startPulse _ _ _ h1
    · exact h.startPulse _ _ _ h1
  exact h.deriveConcerned _ _ h3

theorem breakerCommand (u rtu s : Nat) (f c fo q : Byte) (hl : P l) : P (breakerCommand u rtu s f c fo q l) := by
  have h0 : P (touchCommand u f.toNat c.toNat l) := by
    unfold touchCommand; dsimp only; repeat' split
    · exact h.touch _ _ _ hl
    · exact h.touch _ _ _ (h.touch _ _ _ hl)
    · exact hl
  unfold Machine.breakerCommand; dsimp only; split
  · exact h.emit _ _ _ _ _ _ (h.bump _ _ (h.carryOut _ _ _ h0))
  · exact h.emit _ _ _ _ _ _ (h.bump _ _ h0)
  · exact h0

theorem pulseEnded (b : Nat) (hl : P l) : P (pulseEnded b l) := by
  unfold Machine.pulseEnded; split
  · exact h.deriveConcerned _ _ (h.endPulse b hl)
  · exact hl

theorem expectEnded (b : Nat) (hl : P l) : P (expectEnded b l) := by
  unfold Machine.expectEnded; split
  · exact h.bump _ _ (h.anyBreaker _ _ _ hl)
  · exact hl

theorem restoreEnded (x : Nat) (hl : P l) : P (restoreEnded x l) := by
  unfold Machine.restoreEnded; split
  · exact h.bump _ _ (h.anySection _ _ _ (h.raiseIncident _ _ _ _ _ (h.deriveSection _ (h.anySection _ _ _ hl))))
  · exact hl

theorem stopTraction (hl : P l) : P (stopTraction l) :=
  h.deriveSections _ (foldl_keeps (fun _ _ hl => h.anySection _ _ _ hl) _ (foldl_keeps (fun _ _ hl => h.anyBreaker _ _ _ hl) _ hl))

theorem startTraction (hl : P l) : P (startTraction l) := by
  refine foldl_keeps (fun l x hl => ?_) _ (h.deriveSections _ hl)
  split
  · exact h.isolationPulses x hl
  · exact hl

/-! ### The Substation Scanner -/

theorem sendRead (u a : Nat) (hl : P l) : P (sendRead u a l) := h.bump _ _ (h.emit _ _ _ _ _ _ (h.anySubstation _ _ _ hl))

theorem sendWrite (u a : Nat) (hl : P l) : P (sendWrite u a l) := h.bump _ _ (h.emit _ _ _ _ _ _ (h.anySubstation _ _ _ hl))

theorem beginExchange (u : Nat) (hl : P l) : P (beginExchange u l) := h.anySubstation _ _ _ hl

theorem writeCheck (u : Nat) (hl : P l) : P (writeCheck u l) := by
  unfold Machine.writeCheck; dsimp only; repeat' split
  · exact h.sendWrite _ _ (h.beginExchange _ (h.touch _ _ _ hl))
  · exact h.touch _ _ _ hl
  · exact hl

theorem declareSilent (u : Nat) (hl : P l) : P (declareSilent u l) := by
  unfold Machine.declareSilent
  exact h.bump _ _ (h.raiseIncident _ _ _ _ _ (h.silenceBreakers u (h.anySubstation _ _ _ hl)))

theorem leaveService (u : Nat) (hl : P l) : P (leaveService u l) := h.anySubstation _ _ _ hl

theorem substationPoisoned (u : Nat) (hl : P l) : P (substationPoisoned u l) := by
  unfold Machine.substationPoisoned; dsimp only; split
  · exact h.leaveService u hl
  · exact h.declareSilent u (h.leaveService u hl)

theorem notScanned (u : Nat) (hl : P l) : P (notScanned u l) := by
  unfold Machine.notScanned; split
  · exact h.leaveService u hl
  · exact h.substationPoisoned u hl

theorem scanNow (u a : Nat) (hl : P l) : P (scanNow u a l) := by
  unfold Machine.scanNow; dsimp only; repeat' split
  · exact h.sendRead _ _ (h.beginExchange _ hl)
  · exact h.sendRead _ _ hl
  · exact h.bump _ _ hl

theorem scanTimeReached (u : Nat) (hl : P l) : P (scanTimeReached u l) := by
  unfold Machine.scanTimeReached; split
  · exact hl
  · dsimp only; repeat' split
    · exact h.anySubstation _ _ _ (h.scanNow _ _ (h.touch _ _ _ hl))
    · exact h.notScanned _ (h.touch _ _ _ hl)
    · exact hl

theorem retryRequest (u a n : Nat) (hl : P l) : P (retryRequest u a n l) := by
  unfold Machine.retryRequest; dsimp only; repeat' split
  · exact h.sendWrite _ _ (h.bump _ _ (h.anySubstation _ _ _ hl))
  · exact h.sendRead _ _ (h.bump _ _ (h.anySubstation _ _ _ hl))
  · exact h.declareSilent _ hl

theorem replyDeadlineReached (u : Nat) (hl : P l) : P (replyDeadlineReached u l) := by
  unfold Machine.replyDeadlineReached; dsimp only; repeat' split
  · exact h.retryRequest _ _ _ (h.touch _ _ _ hl)
  · exact h.anySubstation _ _ _ (h.touch _ _ _ hl)
  · exact h.notScanned _ (h.touch _ _ _ hl)
  · exact hl

theorem takePoints (u s : Nat) (p : Points) (hl : P l) : P (takePoints u s p l) := by
  unfold Machine.takePoints
  refine h.anySubstation _ _ _ (foldl_keeps (fun l f hl => ?_) _ hl)
  unfold reportFeeder; dsimp only; split
  · exact hl
  · exact h.breakerReport _ _ _ hl

theorem compareEcho (u : Nat) (p : Points) (hl : P l) : P (compareEcho u p l) := by
  unfold Machine.compareEcho; dsimp only; split
  · exact h.bump _ _ (h.anySubstation _ _ _ hl)
  · exact hl

theorem earthFault (u s : Nat) (p : Points) (f : Nat) (hl : P l) : P (earthFault u s p f l) := by
  unfold Machine.earthFault setEarthFault; dsimp only; split
  · exact h.bump _ _ (h.anySubstation _ _ _ (h.raiseIncident _ _ _ _ _ (h.touch _ _ _ hl)))
  · exact h.anySubstation _ _ _ (h.conditionEnd _ _ hl)
  · exact hl

theorem levelChanged (u s a b : Nat) (hl : P l) : P (levelChanged u s a b l) := by
  unfold Machine.levelChanged; dsimp only; repeat' split
  · exact h.bump _ _ (h.raiseIncident _ _ _ _ _ (h.bump _ _ hl))
  · exact h.conditionEnd _ _ (h.bump _ _ hl)
  · exact h.bump _ _ hl

theorem moveLevel (u s : Nat) (p : Points) (hl : P l) : P (moveLevel u s p l) := by
  unfold Machine.moveLevel; split
  · exact hl
  · dsimp only; split
    · exact h.anySubstation _ _ _ hl
    · exact h.levelChanged _ _ _ _ (h.anySubstation _ _ _ hl)

theorem processReply (u s : Nat) (p : Points) (b : Bool) (hl : P l) : P (processReply u s p b l) := by
  unfold Machine.processReply
  refine h.deriveLevels _ (h.touchLists (h.moveLevel _ _ _ (foldl_keeps (fun _ f hl => h.earthFault u s p f hl) _ ?_)))
  split
  · exact h.compareEcho _ _ (h.takePoints _ _ _ hl)
  · exact h.takePoints _ _ _ hl

theorem endRequest (u : Nat) (hl : P l) : P (endRequest u l) := h.anySubstation _ _ _ hl

theorem recover (u s : Nat) (p : Points) (hl : P l) : P (recover u s p l) :=
  h.bump _ _ (h.conditionEnd _ _ (h.processReply _ _ _ _ (h.anySubstation _ _ _ hl)))

theorem pointsTaken (u s : Nat) (p : Points) (hl : P l) : P (pointsTaken u s p l) := by
  unfold Machine.pointsTaken; refine h.ask _ _ ?_; repeat' split
  · exact h.recover _ _ _ hl
  · exact h.processReply _ _ _ _ (h.endRequest _ hl)
  · exact h.processReply _ _ _ _ (h.bump _ _ hl)

theorem ackTaken (u : Nat) (i : BitVec 16) (hl : P l) : P (ackTaken u i l) := by
  unfold Machine.ackTaken; refine h.ask _ _ ?_; repeat' split
  · exact h.bump _ _ hl
  · exact h.endRequest _ (h.anySubstation _ _ _ hl)
  · exact h.bump _ _ (h.anySubstation _ _ _ hl)

theorem rtuTelegram (u s : Nat) {f : Line → Line} (hf : ∀ l, P l → P (f l)) (hl : P l) : P (rtuTelegram u s f l) := by
  unfold Machine.rtuTelegram; dsimp only; repeat' split
  · exact h.bump _ _ (h.substationPoisoned _ (h.touch _ _ _ hl))
  · exact h.bump _ _ (h.touch _ _ _ hl)
  · exact h.bump _ _ (h.touch _ _ _ hl)
  · exact hf _ (h.touch _ _ _ hl)

theorem stopScanning (hl : P l) : P (stopScanning l) := foldl_keeps (fun _ _ hl => h.anySubstation _ _ _ hl) _ hl

theorem startScanning (hl : P l) : P (startScanning l) := by
  refine foldl_keeps (fun l u hl => ?_) _ hl
  unfold takeUp; dsimp only; split
  · exact h.ask _ _ (h.anySubstation _ _ _ (h.touch _ _ _ hl))
  · exact h.touch _ _ _ hl

theorem rtuFieldWritten (u : Nat) (hl : P l) : P (rtuFieldWritten u l) := h.anySubstation _ _ _ hl

/-! ### The Announcement Scheduler -/

theorem endPlay (z : Nat) (hl : P l) : P (endPlay z l) := h.startPlay z (h.idleZone z hl)

theorem dropPlay (c : Nat) (k : Counter) (z : Nat) (hl : P l) : P (dropPlay c k z l) := by
  unfold Machine.dropPlay
  exact h.endPlay _ (h.bump _ _ (h.raiseIncident _ _ _ _ _ (h.zoneDyn _ _ _ (h.touch _ _ _ hl) (Nat.le_max_right ..))))

theorem returnPlay (z : Nat) (p : Play) (hl : P l) : P (returnPlay z p l) := by
  unfold Machine.returnPlay; dsimp only; repeat' split
  · exact hl
  · exact h.bump _ _ hl
  · rename_i hq
    refine h.setQueue _ _ hl ?_
    rw [joinTail_length]
    exact Nat.le_trans hq (Nat.le_max_left ..)
  · unfold returnFull; split
    · rename_i hd
      exact h.bump _ _ (h.bump _ _ (h.setQueue _ _ hl (displaceFor_length hd)))
    · exact h.bump _ _ hl

theorem playComplete (z : Nat) (p : Play) (hl : P l) : P (playComplete z p l) := h.endPlay _ (h.returnPlay _ _ (h.bump _ _ hl))

theorem waitRetry (z d : Nat) (hl : P l) : P (waitRetry z d l) := h.zoneDyn _ _ _ hl (Nat.le_max_right ..)

theorem playBusy (z : Nat) (e : ZoneEntry) (p : Play) (hl : P l) : P (playBusy z e p l) := by
  unfold Machine.playBusy; dsimp only; repeat' split
  · exact h.endPlay _ (h.bump _ _ hl)
  · exact h.endPlay _ (h.bump _ _ (h.bump _ _ hl))
  · exact h.idleZone _ (h.returnToHead _ _ (h.bump _ _ hl))
  · exact h.waitRetry _ _ (h.bump _ _ hl)
  · exact h.dropPlay _ _ _ (h.bump _ _ hl)

theorem statusTaken (z : Nat) (e : ZoneEntry) (t : Byte) (o : Nat) (hl : P l) : P (statusTaken z e t o l) := by
  unfold Machine.statusTaken; dsimp only; repeat' split
  · exact h.playComplete _ _ hl
  · exact h.playBusy _ _ _ hl
  · exact h.dropPlay _ _ _ hl
  · exact h.bump _ _ hl
  · exact h.bump _ _ hl

theorem paStatus (z s : Nat) (t : Byte) (o : Nat) (hl : P l) : P (paStatus z s t o l) := by
  unfold Machine.paStatus; dsimp only; repeat' split
  · exact h.statusTaken _ _ _ _ (h.touch _ _ _ hl)
  · exact h.bump _ _ (h.touch _ _ _ hl)
  · exact h.bump _ _ (h.touch _ _ _ hl)

theorem airtimeReached (z : Nat) (hl : P l) : P (airtimeReached z l) := by
  unfold Machine.airtimeReached; dsimp only; split
  · exact h.dropPlay _ _ _ hl
  · exact hl

theorem retryPlay (z : Nat) (p : Play) (hl : P l) : P (retryPlay z p l) := by
  unfold Machine.retryPlay; dsimp only; repeat' split
  · exact h.endPlay _ (h.bump _ _ (h.touch _ _ _ hl))
  · exact h.endPlay _ (h.touch _ _ _ hl)
  · exact h.idleZone _ (h.returnToHead _ _ (h.touch _ _ _ hl))
  · exact h.endPlay _ (h.bump _ _ (h.touch _ _ _ (h.touch _ _ _ hl)))
  · exact h.bump _ _ (h.sendPlay _ (h.touch _ _ _ (h.touch _ _ _ hl)))

theorem retryReached (z : Nat) (hl : P l) : P (retryReached z l) := by
  unfold Machine.retryReached; dsimp only; repeat' split
  · exact h.retryPlay _ _ hl
  · exact hl
  · exact hl

theorem sweepAll (hl : P l) : P (sweepAll l) := by
  unfold Machine.sweepAll; split
  · exact foldl_keeps (fun _ z hl => h.sweepZone z hl) _ hl
  · exact hl

theorem admitRequest (z s : Nat) (r : PaRequest) (hl : P l) : P (admitRequest z s r l).1 := by
  unfold Machine.admitRequest; dsimp only; repeat' split
  · exact h.bump _ _ hl
  · exact h.bump _ _ (h.touch _ _ _ hl)
  · exact h.admission _ _ (h.touch _ _ _ hl)
  · exact h.bump _ _ (h.touch _ _ _ hl)
  · exact h.admission _ _ hl

theorem paRequest (z d s : Nat) (q : Byte) (r : PaRequest) (hl : P l) : P (paRequest z d s q r l) := by
  have h1 := h.admitRequest z s r hl
  unfold Machine.paRequest; split
  rename_i heq; rw [heq] at h1; exact h.emit _ _ _ _ _ _ h1

theorem touchStations (z : Nat) (ps : List Nat) (hl : P l) : P (touchStations z ps l) := by
  induction ps generalizing l with
  | nil => exact hl
  | cons p ps ih =>
    unfold Machine.touchStations; dsimp only; split
    · exact h.touch _ _ _ hl
    · exact ih (h.touch _ _ _ hl)

theorem touchZones (zs : List Nat) (hl : P l) : P (touchZones zs l) := by
  induction zs generalizing l with
  | nil => exact hl
  | cons z zs ih =>
    unfold Machine.touchZones; dsimp only; repeat' split
    · exact h.touchStations _ _ (h.touch _ _ _ hl)
    · exact ih (h.touchStations _ _ (h.touch _ _ _ hl))
    · exact ih (h.touch _ _ _ hl)

theorem startAnnounce (hl : P l) : P (startAnnounce l) := foldl_keeps (fun _ z hl => h.startPlay z hl) _ hl

end Plant

end Sys2Proof.Machine
end

