-- ==== Sys2Proof/Laws/Wide.lean ====
section
/-! SUPPORT. What an event of the Train Tracker can do to the line. `Wide P` says that a property is kept by the events of `Plant` and by the named
updates that the events of the trains are made of; each theorem then says that such an event keeps it. -/

namespace Sys2Proof.Machine

open Sys2Proof

/-- The record and the count of a train that becomes LOST (R58). -/
def Line.putLost (v : Nat) (l : Line) : Line :=
  (l.setTrain v { l.train v with stateBeforeLoss := (l.train v).state, state := .lost }).leaveSection (l.train v).sect

/-- The record and the count of a train that returns from loss (R59). -/
def Line.putFound (v : Nat) (l : Line) : Line :=
  (l.setTrain v { l.train v with state := stateAfterLoss (l.train v).stateBeforeLoss (l.train v).holds }).enterSection (l.train v).sect

/-- A property of the line that every event of the blocks keeps. A train's record may be written in any way that keeps its relations and its place;
its place changes by the named updates of the Tracker only. -/
structure Wide (P : Line → Prop) : Prop extends Plant P, Records P where
  wake : ∀ v t l, P l → P (l.setTrain v { l.train v with active := true, lastReport := t })
  putLost : ∀ v l, P l → (l.train v).active = true → (l.train v).state ≠ .lost → P (l.putLost v)
  putFound : ∀ v l, P l → (l.train v).active = true → (l.train v).state = .lost → P (l.putFound v)
  takeSegment : ∀ v n e l, P l → (l.train v).active = true → (l.train v).state ≠ .lost → P (takeSegment v n e l)
  moveTrain : ∀ n x v l, P l → P (moveTrain n x v l)
  displaceTrain : ∀ n v l, P l → P (displaceTrain n v l)
  operatorHold : ∀ p b l, P l → P (l.setOperatorHold p b)
  work : ∀ p w l, P l → (∀ d ∈ p, d ∈ l.poisonWork) → P { l with poisonWork := p, writeChecks := w }
  outbox : ∀ o l, P l → P { l with outbox := o }

/-- A property that no train's record and no occupancy count matters to. -/
theorem Wide.ofPlaces {P : Line → Prop} (h : Plant P) (train : ∀ v new l, P l → P (l.setTrain v new)) (enter : ∀ x l, P l → P (l.enterSection x))
    (leave : ∀ x l, P l → P (l.leaveSection x)) (runStatus : ∀ k r l, P l → P (l.setRunStatus k r))
    (lastDeparture : ∀ p d l, P l → P (l.setLastDeparture p d))
    (operatorHold : ∀ p b l, P l → P (l.setOperatorHold p b))
    (work : ∀ p w l, P l → (∀ d ∈ p, d ∈ l.poisonWork) → P { l with poisonWork := p, writeChecks := w })
    (outbox : ∀ o l, P l → P { l with outbox := o }) : Wide P where
  toPlant := h
  record v new l hl _ _ := train v new l hl
  wake v _ l hl := train v _ l hl
  putLost v l hl _ _ := leave _ _ (train v _ l hl)
  putFound v l hl _ _ := enter _ _ (train v _ l hl)
  takeSegment v n e l hl _ _ := by
    unfold Machine.takeSegment; dsimp only; split
    · exact train v _ l hl
    · exact enter _ _ (leave _ _ (train v _ l hl))
  moveTrain n x v l hl := by
    unfold Machine.moveTrain; dsimp only; repeat' split
    · exact enter _ _ (leave _ _ (train v _ l hl))
    · exact train v _ l hl
    · exact hl
  displaceTrain n v l hl := by
    unfold Machine.displaceTrain; dsimp only; repeat' split
    · exact leave _ _ (train v _ l hl)
    · exact train v _ l hl
    · exact hl
  runStatus := runStatus
  lastDeparture := lastDeparture
  lateness v n d l hl := train v _ l hl
  operatorHold := operatorHold
  work := work
  outbox := outbox

namespace Wide

variable {P : Line → Prop} (h : Wide P) {l : Line}
include h

/-! ### The Train Tracker -/

theorem returnFromLoss (v : Nat) (ha : (l.train v).active = true) (hs : (l.train v).state = .lost) (hl : P l) :
    P (returnFromLoss v l) := h.evaluate v (h.conditionEnd _ _ (h.putFound v l hl ha hs))

/-- A train heard of is active and not LOST (R45). -/
theorem heard (v : Nat) (hl : P l) : Tracked v P (heard v l) := by
  unfold Machine.heard
  extract_lets t l1
  have h1 : P l1 := h.wake v l.timer l hl
  have ha : (l1.train v).active = true := by simp [l1]
  split
  · rename_i hs
    refine ⟨h.returnFromLoss v ha hs h1, ?_⟩
    have := (tracked_loose v).stable
    refine this.evaluate v (this.conditionEnd _ _ ?_)
    simp only [Line.enterSection_train, Line.setTrain_train, if_true]
    refine ⟨ha, ?_⟩
    cases (l1.train v).stateBeforeLoss <;> simp only [stateAfterLoss] <;> (try split) <;> simp
  · rename_i hs
    exact ⟨h1, ha, hs⟩

theorem loseTrain (v : Nat) (ha : (l.train v).active = true) (hs : (l.train v).state ≠ .lost) (hl : P l) : P (loseTrain v l) :=
  h.raiseIncident _ _ _ _ _ (h.putLost v l hl ha hs)

theorem position (v n : Nat) (t : Option Nat) (hl : Tracked v P l) : P (position v n t l) := by
  have h0 : Tracked v P (Machine.touch .segment n l) := ⟨h.touch .segment n l hl.1, by rw [touch_train]; exact hl.2⟩
  unfold Machine.position; dsimp only; repeat' split
  · exact h.bump _ _ h0.1
  · exact h0.1
  · exact h.passAt _ _ _ (h.takeSegment _ _ _ _ h0.1 h0.2.1 h0.2.2)
  · exact h.takeSegment _ _ _ _ h0.1 h0.2.1 h0.2.2
  · exact h.takeSegment _ _ _ _ h0.1 h0.2.1 h0.2.2

theorem setRunning (v : Nat) (hl : Tracked v P l) : P (l.setRunning v) :=
  h.record _ _ _ hl.1 ⟨rfl, rfl, rfl, by simp [hl.2.2]⟩
    (by simp only [Train.ok, Bool.and_eq_true]; exact fun hok => ⟨hok.1, rfl, rfl⟩)

theorem leaveUnseen (v s : Nat) (t : Option Nat) (hl : Tracked v P l) : P (leaveUnseen v s t l) :=
  h.bump _ _ (h.setRunning v ((h.tracked v).overrideHold v s t hl))

theorem arriveRunning (v p s : Nat) (t : Option Nat) (hs : (l.train v).state = .running) (hl : P l) :
    P (arriveRunning v p s t l) := by
  unfold Machine.arriveRunning
  have h1 : P (l.setTrain v { l.train v with state := .dwelling, timingPoint := some p }) :=
    h.record _ _ _ hl ⟨rfl, rfl, rfl, by simp [hs]⟩ (by
      generalize l.train v = t at hs
      intro hok
      simp only [Train.ok, hs, Bool.and_eq_true, beq_iff_eq] at hok ⊢
      exact ⟨hok.1, rfl, hok.2.2⟩)
  have h2 := h.matchPassage v p h1
  dsimp only; split
  · rename_i heq; rw [heq] at h2; exact h.arrival _ _ _ _ h2
  · rename_i heq; rw [heq] at h2; exact h.arrival _ _ _ _ h2
  · rename_i heq; rw [heq] at h2; exact h.arrival _ _ _ _ (h.raiseIncident _ _ _ _ _ h2)

theorem arrive (v p s : Nat) (t : Option Nat) (hl : Tracked v P l) : P (arrive v p s t l) := by
  unfold Machine.arrive; dsimp only; repeat' split
  · exact h.bump _ _ hl.1
  · exact h.arriveRunning _ _ _ _ (by simp [Machine.leaveUnseen, Line.setRunning]) (h.leaveUnseen _ _ _ hl)
  · rename_i hst
    refine h.arriveRunning _ _ _ _ ?_ hl.1
    have := hl.2.2
    cases hc : (l.train v).state <;> simp_all [Train.standing]

theorem depart (v p s : Nat) (t : Option Nat) (hl : Tracked v P l) : P (depart v p s t l) := by
  have ht := h.tracked v
  unfold Machine.depart; dsimp only; repeat' split
  · exact h.setRunning v (ht.departBound _ _ _ (ht.autoBind _ _ _ (ht.overrideHold _ _ _ hl)))
  · exact h.bump _ _ (h.leaveUnseen _ _ _ hl)
  · exact h.bump _ _ hl.1

theorem segmentWritten (n : Nat) (hl : P l) : P (segmentWritten n l) := foldl_keeps (fun l v hl => h.moveTrain _ _ v l hl) _ hl

theorem segmentPoisoned (n : Nat) (hl : P l) : P (segmentPoisoned n l) := foldl_keeps (fun l v hl => h.displaceTrain _ v l hl) _ hl

theorem startTimetable (hl : P l) : P (startTimetable l) := by
  refine foldl_keeps (fun _ v hl => h.evaluate v hl) _ (foldl_keeps (fun l v hl => ?_) _ hl)
  dsimp only; split
  · exact h.record _ _ _ hl ⟨rfl, rfl, rfl, .rfl⟩ id
  · exact hl

theorem changeOperatorHold (p : Nat) (b : Bool) (hl : P l) : P (changeOperatorHold p b l) := by
  unfold Machine.changeOperatorHold; split
  · exact hl
  · exact h.evaluateAt _ (h.operatorHold _ _ _ hl)

end Wide

end Sys2Proof.Machine
end

