-- ==== Sys2Proof/Laws/Events.lean ====
section
/-! SUPPORT. What the end of a step and the telegrams handed to the blocks can do to the line: each keeps every property of `Wide`. -/

namespace Sys2Proof.Machine

open Sys2Proof

namespace Wide

variable {P : Line → Prop} (h : Wide P) {l : Line}
include h

/-! ### The end of a step -/

theorem ownerReport (d : Detail) (hl : P l) : P (ownerReport d l) := by
  unfold Machine.ownerReport sectionEntryChanged breakerEntryChanged; split
  · exact h.segmentPoisoned _ hl
  · exact h.evaluateAt _ hl
  · exact h.deriveLevels _ (h.deriveSections _ hl)
  · dsimp only; exact h.deriveLevels _ (h.deriveSections _ (h.touchLists hl))
  · exact h.substationPoisoned _ hl
  all_goals exact hl

theorem poisonReport (d : Detail) (hl : P l) : P (poisonReport d l) := h.takeRaise _ (h.ownerReport d hl)

theorem settleFor (n : Nat) (hl : P l) : P (settleFor n l) := by
  induction n generalizing l with
  | zero => exact hl
  | succ n ih =>
    unfold Machine.settleFor; split
    · rename_i d rest heq
      refine ih (h.poisonReport _ (h.work rest l.writeChecks _ hl fun d hd => ?_))
      rw [heq]; exact List.mem_cons_of_mem _ hd
    · rename_i rest _ _
      exact ih (h.writeCheck _ (h.work l.poisonWork rest _ hl fun d hd => hd))
    · exact hl

/-- The end of a step keeps it. -/
theorem settle (hl : P l) : P (settle l) := h.work [] [] _ (h.settleFor _ hl) (by simp)

/-! ### Telegrams handed to the blocks -/

theorem takePosition (v : Nat) (p : List Byte) (hl : P l) : P (takePosition v p l) := by
  have h1 := h.eventTime (rd32 p 0) hl
  unfold Machine.takePosition; dsimp only; split
  · exact h.position _ _ _ (h.heard v h1)
  · exact h1

theorem translate (a : Nat) (hl : P l) : P (translate a l).1 := by
  unfold Machine.translate; split
  · exact hl
  · exact h.touch _ _ _ hl

theorem takePointsTelegram (u s : Nat) (p : List Byte) (hl : P l) : P (takePointsTelegram u s p l) :=
  h.rtuTelegram u s (fun _ hl => h.pointsTaken u s _ hl) hl

theorem takeAckTelegram (u s : Nat) (p : List Byte) (hl : P l) : P (takeAckTelegram u s p l) :=
  h.rtuTelegram u s (fun _ hl => h.ackTaken u _ hl) hl

theorem takeBreakerCmd (u : Nat) (t : Telegram) (hl : P l) : P (takeBreakerCmd u t l) := h.breakerCommand _ _ _ _ _ _ _ hl

theorem takeAlarm (loc : Location) (s : Nat) (p : List Byte) (hl : P l) : P (takeAlarm loc s p l) := by
  have h1 := h.eventTime (rd32 p 2) hl
  unfold Machine.takeAlarm; dsimp only; repeat' split
  · exact h.bump _ _ h1
  · exact h.raiseIncident _ _ _ _ _ h1
  · exact h.conditionEnd _ _ h1

theorem takeStopEvent (p s : Nat) (b : List Byte) (hl : P l) : P (takeStopEvent p s b l) := by
  have h0 := h.translate (rd16 b 0) (h.eventTime (rd32 b 3) hl)
  unfold Machine.takeStopEvent; dsimp only; repeat' split
  · exact h.bump _ _ h0
  · exact h.bump _ _ h0
  · exact h.arrive _ _ _ _ (h.heard _ h0)
  · exact h.depart _ _ _ _ (h.heard _ h0)
  · exact h0

theorem classify (port : Port) (t : Telegram) (hl : P l) : P (classify port t l).1 := by
  have h1 := h.translate t.src hl
  have h2 := h.translate t.dst hl
  unfold Machine.classify classifyBySource classifyByDestination
  repeat' split
  all_goals first
    | exact hl
    | (rename_i heq; rw [heq] at h1; exact h1)
    | (rename_i heq; rw [heq] at h2; exact h2)
    | (rename_i heq _; rw [heq] at h1; exact h1)
    | (rename_i heq _ _ _; rw [heq] at h1; exact h1)
    | (rename_i heq _ _ _ _; rw [heq] at h1; exact h1)

end Wide

end Sys2Proof.Machine
end

