-- ==== Sys2Proof/Laws/Whole.lean ====
section
/-! SUPPORT. What any command but POWER_ON can do to the line: the events of `Wide`, the clock, the activation, writes, jobs, a restart and the
scrubber. Each theorem says that an operation keeps every property of `Whole`. -/

namespace Sys2Proof.Machine

open Sys2Proof

/-- A property of the line that every command but POWER_ON keeps. -/
structure Whole (P : Line → Prop) : Prop extends Wide P where
  clock : ∀ c l, P l → c.anchorLine < dayLength → P { l with clock := c }
  timetable : ∀ a l, P l → P { l with timetable := a }
  runStatuses : ∀ r l, P l → P { l with tracker := { l.tracker with runStatus := r } }
  job : ∀ j b l, P l → P (l.setJob j b)
  restart : ∀ l, P l → P (restartLine l)
  written : ∀ t i f l new, writeEntry t i f l = some new → P l → P new
  fresh : ∀ t i l, P l → P (freshWords t i l)
  pass : ∀ l, P l → P (beginPass l)
  scrub : ∀ l, P l → P (advanceScrubber l)
  incidentAck : ∀ (r : Request) {l : Line}, P l → P (incidentAck r l).1
  incidentClear : ∀ (r : Request) {l : Line}, P l → P (incidentClear r l).1
  latchRead : ∀ (r : Request) {l : Line}, P l → P (latchRead r l).1

namespace Loose

variable {P : Line → Prop} (h : Loose P) {l : Line}
include h

theorem latchRead (r : Request) (hl : P l) : P (latchRead r l).1 := by
  unfold Machine.latchRead; repeat' split
  · exact h.incidents _ _ hl
  · exact hl
  · exact hl

theorem acknowledge (slot : Nat) (r : IncidentRecord) (hl : P l) : P (acknowledge slot r l) :=
  h.evaluateAlarm (h.noticeOf _ _ (h.setRecord _ _ hl))

theorem incidentAck (r : Request) (hl : P l) : P (incidentAck r l).1 := by
  unfold Machine.incidentAck; dsimp only; repeat' split
  · exact hl
  · exact hl
  · exact hl
  · exact h.clearRecord _ _ (h.touch _ _ _ hl)
  · exact h.acknowledge _ _ (h.touch _ _ _ hl)

theorem incidentClear (r : Request) (hl : P l) : P (incidentClear r l).1 := by
  unfold Machine.incidentClear; repeat' split
  · exact hl
  · exact hl
  · exact h.clearRecord _ _ hl
  · exact hl

end Loose

namespace Whole

variable {P : Line → Prop} (h : Whole P) {l : Line}
include h

/-! ### Activation and the clock -/

theorem expectation (b s k : Nat) (hl : P l) : P (expectation b s k l).1 := by
  unfold Machine.expectation; dsimp only; split
  · exact h.touch _ _ _ (h.touch _ _ _ hl)
  · exact h.touch _ _ _ (h.touch _ _ _ hl)

theorem successor (b n p : Nat) (hl : P l) : P (successor b n p l).1 := by
  have h1 := Records.findRun (fun s _ hl => h.touch (runId b) s _ hl) b n runSlots hl
  unfold Machine.successor; split
  · rename_i heq; rw [heq] at h1; exact h1
  · rename_i l1 slot r heq; rw [heq] at h1
    have h2 := h.findPassage b p (List.range' r.firstPassage r.passages) 0 h1
    split
    · rename_i heq; rw [heq] at h2; exact h2
    · rename_i heq; rw [heq] at h2; exact h2

theorem rebindTrain (a b : Nat) (t : Table RunStatus) (v : Nat) (ds : List Nat) (hl : P l) : P (rebindTrain a b t v (l, ds)).1 := by
  unfold Machine.rebindTrain; dsimp only; split
  · exact hl
  · rename_i slot _
    have h1 := h.expectation a slot (l.train v).nextPassage hl
    split
    · rename_i heq; rw [heq] at h1; exact h.clearRun _ h1
    · rename_i l1 n p heq; rw [heq] at h1
      have h2 := h.successor b n p h1
      split
      · rename_i heq; rw [heq] at h2; exact h.clearRun _ h2
      · rename_i heq; rw [heq] at h2; exact h.runStatus _ _ _ (h.record _ _ _ h2 ⟨rfl, rfl, rfl, .rfl⟩ id)

theorem runDropped (v : Nat) (hl : P l) : P (runDropped v l) := h.endMajorDelay v (h.raiseRunDropped v hl)

theorem activate (a : Activation) (hl : P l) : P (activate a l) := by
  unfold Machine.activate; dsimp only
  have h1 : P { l with timetable := ⟨a.bank, none⟩, tracker := { l.tracker with runStatus := [] } } :=
    h.runStatuses [] _ (h.timetable ⟨a.bank, none⟩ _ hl)
  have h2 : ∀ (vs : List Nat) (w : Line × List Nat), P w.1 →
      P (vs.foldl (fun work v => Machine.rebindTrain l.timetable.active a.bank l.tracker.runStatus v work) w).1 := by
    intro vs
    induction vs with
    | nil => exact fun _ hw => hw
    | cons v vs ih => exact fun w hw => ih _ (h.rebindTrain _ _ _ v w.2 hw)
  exact foldl_keeps (fun _ v hl => h.runDropped v hl) _ (h2 vehicles (_, []) h1)

theorem checkActivation (hl : P l) : P (checkActivation l) := by
  unfold Machine.checkActivation; repeat' split
  · exact h.activate _ hl
  · exact hl
  · exact hl

theorem setClock (d n : Nat) (hn : n < dayLength) (hl : P l) : P (setClock d n l) := by
  unfold Machine.setClock; refine h.clock _ _ ?_ hn; split
  · exact h.bump _ _ hl
  · exact hl

theorem takeTime (d n : Nat) (hl : P l) : P (takeTime d n l) := by
  unfold Machine.takeTime; split
  · exact h.bump _ _ hl
  · rename_i hn
    exact h.checkActivation (h.setClock _ _ (Nat.lt_of_not_le hn) hl)

theorem advanceLineTime (hl : P l) : P (advanceLineTime l) := by
  unfold Machine.advanceLineTime; split
  · refine h.checkActivation ?_
    unfold rollover; split
    · exact hl
    · exact h.clock _ _ hl (show 0 < dayLength by decide)
  · exact hl

/-! ### Reads and writes of tables -/

theorem readRun (t : TableId) (is : List Nat) (hl : P l) : P (readRun t is l).1 := by
  induction is generalizing l with
  | nil => exact hl
  | cons i is ih =>
    unfold Machine.readRun; dsimp only; split
    · exact h.touch _ _ _ hl
    · exact ih (h.touch _ _ _ hl)

theorem tableRead (r : Request) (hl : P l) : P (tableRead r l).1 := by
  unfold Machine.tableRead; split
  · exact hl
  · rename_i t _
    have h1 := h.readRun t (entryRun r.index r.count) hl
    split
    · exact hl
    · split
      · rename_i heq; rw [heq] at h1; exact h1
      · rename_i heq; rw [heq] at h1; exact h1

theorem writeRun (t : TableId) (r : Request) (js : List Nat) {new : Line} (hw : writeRun t r js l = .inl new) (hl : P l) : P new := by
  induction js generalizing l with
  | nil => unfold Machine.writeRun at hw; cases hw; exact hl
  | cons j js ih =>
    unfold Machine.writeRun at hw; split at hw
    · rename_i heq; exact ih hw (h.written _ _ _ _ _ heq hl)
    · cases hw

theorem startPlays (hl : P l) : P (startPlays l) := foldl_keeps (fun _ z hl => h.startPlay z hl) _ hl

theorem breakerEntryChanged (b : Nat) (hl : P l) : P (breakerEntryChanged b l) := by
  unfold Machine.breakerEntryChanged; dsimp only
  exact h.deriveLevels _ (h.deriveSections _ (h.touchLists hl))

theorem writtenEffect (t : TableId) (i : Nat) (m : BitVec 16) (c : Bool) (hl : P l) : P (writtenEffect t i m c l) := by
  unfold Machine.writtenEffect; dsimp only; split
  · exact h.segmentWritten _ hl
  · split
    · exact h.evaluateAt _ hl
    · exact hl
  · split
    · exact h.deriveLevels _ (h.deriveSections _ hl)
    · exact hl
  · exact h.breakerEntryChanged _ hl
  · generalize hk : (if (masked m 0 && !l.jobs.power) = true then Machine.rtuFieldWritten i l else l) = k
    have h1 : P k := by
      rw [← hk]; split
      · exact h.rtuFieldWritten _ hl
      · exact hl
    split
    · unfold substationCleared; split
      · exact h.anySubstation _ _ _ h1
      · exact h1
    · exact h1
  · split
    · exact h.startPlays hl
    · exact hl
  · split
    · exact h.startPlay _ hl
    · exact hl
  · split
    · exact h.startPlays hl
    · exact hl
  all_goals exact hl

theorem writeChecked (t : TableId) (r : Request) (hl : P l) : P (writeChecked t r l).1 := by
  unfold Machine.writeChecked; repeat' split
  · exact hl
  · exact hl
  · exact hl
  · rename_i hw _ _
    exact foldl_keeps (fun _ i hl => h.writtenEffect _ _ _ _ hl) _
      (foldl_keeps (fun _ i hl => h.fresh _ _ _ hl) _ (h.writeRun _ _ _ hw hl))

theorem checkReads (t : TableId) (r : Request) (hl : P l) : P (checkReads t r l) := h.settle (h.touchAll _ _ hl)

theorem windowReads (t : TableId) (r : Request) (hl : P l) : P (windowReads t r l) := by
  unfold Machine.windowReads; split
  · exact h.checkReads _ _ hl
  · exact hl

theorem tableWrite (r : Request) (hl : P l) : P (tableWrite r l).1 := by
  unfold Machine.tableWrite; split
  · exact hl
  · dsimp only; repeat' split
    · exact hl
    · exact h.windowReads _ _ hl
    · exact h.writeChecked _ _ (h.checkReads _ _ (h.windowReads _ _ hl))

/-! ### Operations of the agent -/

theorem bindOperation (r : Request) (hl : P l) : P (bindOperation r l).1 := by
  have h1 := h.bindRequest r.table r.index hl
  unfold Machine.bindOperation; split
  rename_i heq; rw [heq] at h1; exact h1

theorem unbindOperation (r : Request) (hl : P l) : P (unbindOperation r l).1 := by
  have h1 := h.unbindRequest r.table hl
  unfold Machine.unbindOperation; split
  rename_i heq; rw [heq] at h1; exact h1

theorem platformOperation (b : Bool) (r : Request) (hl : P l) : P (platformOperation b r l).1 := by
  unfold Machine.platformOperation; split
  · exact hl
  · exact h.changeOperatorHold _ _ hl

theorem incidentDeclare (r : Request) (hl : P l) : P (incidentDeclare r l).1 := by
  unfold Machine.incidentDeclare; repeat' split
  · exact hl
  · exact hl
  · exact hl
  · rename_i kind _ _ _ _ _ _ heq
    have h1 := h.takeRaise ⟨r.table, ⟨kind, r.index⟩, r.source, l.lineTime?, none⟩ hl
    rw [heq] at h1; exact h1

theorem checkPassages (b s : Nat) (ks : List Nat) (o : Option Nat) (hl : P l) : P (checkPassages b s ks o l).1 := by
  induction ks generalizing l o with
  | nil => exact hl
  | cons k ks ih =>
    unfold Machine.checkPassages; dsimp only; repeat' split
    · exact h.touch _ _ _ hl
    · exact h.touch _ _ _ (h.touch _ _ _ hl)
    · exact h.touch _ _ _ (h.touch _ _ _ hl)
    · exact ih _ (h.touch _ _ _ (h.touch _ _ _ hl))

theorem checkRuns (b : Nat) (ss ns : List Nat) (hl : P l) : P (checkRuns b ss ns l).1 := by
  induction ss generalizing l ns with
  | nil => exact hl
  | cons s ss ih =>
    have h0 := h.touch (runId b) s l hl
    unfold Machine.checkRuns; dsimp only; split
    · exact h0
    · rename_i r _
      have h1 := h.checkPassages b s (List.range' r.firstPassage r.passages) none h0
      repeat' split
      · exact ih _ h0
      · exact h0
      · exact h0
      · exact h0
      · rename_i heq; rw [heq] at h1; exact h1
      · rename_i heq; rw [heq] at h1; exact ih _ h1

theorem finishValidation (a : Activation) (hl : P l) : P (finishValidation a l).1 := by
  have h1 := h.checkRuns a.bank runSlots [] hl
  unfold Machine.finishValidation validate; split
  · rename_i heq; rw [heq] at h1; exact h1
  · rename_i heq; rw [heq] at h1; exact h.checkActivation (h.timetable ⟨_, some a⟩ _ h1)

theorem cancelOperation (r : Request) (hl : P l) : P (cancelOperation r l).1 := by
  unfold Machine.cancelOperation cancelActivation; split
  rename_i heq; split at heq
  · cases heq; exact h.timetable _ _ hl
  · cases heq; exact hl

theorem stopJob (j : Job) (hl : P l) : P (stopJob j l).1 := by
  cases j <;> unfold Machine.stopJob <;> dsimp only
  · exact h.job _ _ _ hl
  · split
    · exact hl
    · exact h.stopScanning (h.job _ _ _ (h.stopTraction hl))
  · exact h.job _ _ _ hl
  · exact h.job _ _ _ hl

theorem startJob (j : Job) (hl : P l) : P (startJob j l).1 := by
  cases j <;> unfold Machine.startJob <;> dsimp only
  · exact h.startTimetable (h.job _ _ _ hl)
  · have h1 : P (touchWiring l) := h.touchAll _ _ (h.touchAll _ _ hl)
    generalize touchWiring l = k at h1
    split
    · exact h1
    · have h2 := h.job .power true _ (h.startTraction h1)
      generalize Line.setJob .power true (Machine.startTraction k) = k2 at h2
      dsimp only
      exact h.startScanning h2
  · exact h.job _ _ _ hl
  · have h1 := h.touchZones zoneNumbers hl
    generalize Machine.touchZones zoneNumbers l = k at h1
    split
    · exact h1
    · have h2 := h.job .announce true _ h1
      generalize Line.setJob .announce true k = k2 at h2
      dsimp only
      exact h.startAnnounce h2

theorem jobOperation (b : Bool) (r : Request) (hl : P l) : P (jobOperation b r l).1 := by
  unfold Machine.jobOperation; repeat' split
  · exact hl
  · exact hl
  · exact h.startJob _ hl
  · exact h.stopJob _ hl

theorem scrubVisit (hl : P l) : P (scrubVisit l) := by
  unfold Machine.scrubVisit; split
  · exact h.scrub _ (h.touch _ _ _ (h.pass _ hl))
  · exact hl

end Whole

end Sys2Proof.Machine
end

