-- ==== Sys2Proof/Laws/Commands.lean ====
section
/-! SUPPORT. What a command does to the parts of the state: placing telegrams touches the ports only, the end of a command, the service of a request,
and the theorem that every command but POWER_ON keeps a property of `Whole`. -/

namespace Sys2Proof.Machine

open Sys2Proof

variable (s : State)

/-! ### Operations on ports -/

@[simp] theorem State.onPort_line (port : Port) (f : PortState → PortState) : (s.onPort port f).line = s.line := rfl
@[simp] theorem State.onPort_mgmt (port : Port) (f : PortState → PortState) : (s.onPort port f).mgmt = s.mgmt := rfl
@[simp] theorem State.onPort_pending (port : Port) (f : PortState → PortState) : (s.onPort port f).pending = s.pending := rfl
@[simp] theorem State.countAt_line (port : Port) (c : PathCounter) : (s.countAt port c).line = s.line := rfl
@[simp] theorem State.countAt_mgmt (port : Port) (c : PathCounter) : (s.countAt port c).mgmt = s.mgmt := rfl
@[simp] theorem State.countAt_pending (port : Port) (c : PathCounter) : (s.countAt port c).pending = s.pending := rfl
@[simp] theorem State.forwardFrom_line (port : Port) (x : Frame) : (s.forwardFrom port x).line = s.line := rfl
@[simp] theorem State.forwardFrom_mgmt (port : Port) (x : Frame) : (s.forwardFrom port x).mgmt = s.mgmt := rfl
@[simp] theorem State.forwardFrom_pending (port : Port) (x : Frame) : (s.forwardFrom port x).pending = s.pending := rfl
@[simp] theorem State.place_line (o : Outgoing) : (s.place o).line = s.line := rfl
@[simp] theorem State.place_mgmt (o : Outgoing) : (s.place o).mgmt = s.mgmt := rfl
@[simp] theorem State.place_pending (o : Outgoing) : (s.place o).pending = s.pending := rfl
@[simp] theorem State.onLine_line (f : Line → Line) : (s.onLine f).line = f s.line := rfl
@[simp] theorem State.onLine_path (f : Line → Line) : (s.onLine f).path = s.path := rfl
@[simp] theorem State.onLine_mgmt (f : Line → Line) : (s.onLine f).mgmt = s.mgmt := rfl
@[simp] theorem State.onLine_pending (f : Line → Line) : (s.onLine f).pending = s.pending := rfl

@[simp] theorem Path.port_setPort (p : Path) (a b : Port) (q : PortState) :
    (p.setPort a q).port b = if a = b then q else p.port b := by
  cases a <;> cases b <;> rfl

@[simp] theorem State.onPort_port (a b : Port) (f : PortState → PortState) :
    (s.onPort a f).path.port b = if a = b then f (s.path.port a) else s.path.port b := Path.port_setPort ..

@[simp] theorem State.onPort_linkCondition (a : Port) (f : PortState → PortState) :
    (s.onPort a f).path.linkCondition = s.path.linkCondition := by cases a <;> rfl

/-! ### Placing the telegrams of a step -/

/-- Placing telegrams changes the ports only. -/
theorem State.place_all (os : List Outgoing) : (os.foldl (fun s o => s.place o) s).line = s.line
    ∧ (os.foldl (fun s o => s.place o) s).mgmt = s.mgmt ∧ (os.foldl (fun s o => s.place o) s).pending = s.pending := by
  induction os generalizing s with
  | nil => exact ⟨rfl, rfl, rfl⟩
  | cons o os ih => exact ih (s.place o)

/-- After a step nothing is left in the outbox; the rest of the line is unchanged. -/
@[simp] theorem State.flushOutbox_line : s.flushOutbox.line = { s.line with outbox := [] } := rfl

@[simp] theorem State.flushOutbox_mgmt : s.flushOutbox.mgmt = s.mgmt := (State.place_all s s.line.outbox).2.1

@[simp] theorem State.flushOutbox_pending : s.flushOutbox.pending = s.pending := (State.place_all s s.line.outbox).2.2

/-- Nothing to place, nothing changed. -/
theorem State.flushOutbox_nil (h : s.line.outbox = []) : s.flushOutbox = s := by
  unfold State.flushOutbox; rw [h]
  show { s with line := { s.line with outbox := [] } } = s
  rw [← h]

/-! ### The end of a command -/

/-- Nothing left over, nothing done. -/
theorem settleFor_idle (n : Nat) (l : Line) (hp : l.poisonWork = []) (hw : l.writeChecks = []) : settleFor n l = l := by
  cases n with
  | zero => rfl
  | succ n => unfold settleFor; rw [hp, hw]

theorem settle_idle (l : Line) (hp : l.poisonWork = []) (hw : l.writeChecks = []) : settle l = l := by
  unfold settle; rw [settleFor_idle _ l hp hw]
  show { l with poisonWork := [], writeChecks := [] } = l
  cases l; simp_all

@[simp] theorem settle_poisonWork (l : Line) : (settle l).poisonWork = [] := rfl
@[simp] theorem settle_writeChecks (l : Line) : (settle l).writeChecks = [] := rfl

@[simp] theorem finish_line : (finish s).line = { settle s.line with outbox := [] } := rfl
@[simp] theorem finish_mgmt : (finish s).mgmt = s.mgmt := State.flushOutbox_mgmt _
@[simp] theorem finish_pending : (finish s).pending = s.pending := State.flushOutbox_pending _

/-- The work lists are empty after a command. -/
theorem finish_idleWork : (finish s).line.idleWork = true := rfl

/-- A command that leaves nothing to do and produces no telegram ends with what it did. -/
theorem finish_idle (h : s.line.idleWork = true) : finish s = s := by
  simp only [Line.idleWork, Bool.and_eq_true, List.isEmpty_iff] at h
  unfold finish
  have h1 : s.onLine settle = s := by
    show { s with line := settle s.line } = s
    rw [settle_idle _ h.1.2 h.2]
  rw [h1, State.flushOutbox_nil _ h.1.1]

/-! ### Reads of a Store without errors -/

/-- In a Store without errors an entry is poisoned or has no error. -/
theorem Line.health_of_errorFree {l : Line} (h : l.store.errorFree = true) (p : Nat) :
    (l.health p).poison = true ∨ ((l.health p).singles = 0 ∧ (l.health p).double = false) := by
  unfold Line.health tget
  cases hf : tfind l.store.health p with
  | none => exact .inr ⟨rfl, rfl⟩
  | some e =>
    have hm : (p, e) ∈ l.store.health := by
      revert hf
      generalize l.store.health = t
      induction t with
      | nil => intro hf; cases hf
      | cons a t ih =>
        obtain ⟨k, w⟩ := a
        intro hf
        unfold tfind at hf; split at hf
        · rename_i hk; cases hf; rw [hk]; exact List.mem_cons_self ..
        · exact List.mem_cons_of_mem _ (ih hf)
    have h1 := List.all_eq_true.mp h _ hm
    simpa using h1

/-- A read of a Store without errors changes nothing. -/
theorem touch_errorFree {l : Line} (h : l.store.errorFree = true) (t : TableId) (i : Nat) : touch t i l = l := by
  unfold touch correctWords
  split
  · rfl
  · rename_i p _
    rcases l.health_of_errorFree h p with h1 | ⟨h1, h2⟩
    · rw [if_pos h1]
    · simp [h1, h2]

/-! ### The service of a request -/

namespace Whole

variable {P : Line → Prop} (h : Whole P)
include h

theorem sendReply (r : Request) (p : Reply) {l : Line} (hl : P l) : P (sendReply r p l) := h.emit _ _ _ _ _ _ hl

theorem answer (r : Request) (p : Reply) (l : Line) (s : State) (hl : P l) : P (s.answer r p l).line :=
  h.sendReply _ _ (h.settle hl)

theorem answerUnknown (n : Nat) {s : State} (hs : P s.line) : P (answerUnknown n s).line := by
  induction n generalizing s with
  | zero => exact hs
  | succ n ih =>
    unfold Machine.answerUnknown; repeat' split
    · exact ih (h.answer _ _ _ _ hs)
    · exact hs
    · exact hs

theorem conclude (r : Request) (p : Reply) (l : Line) (s : State) (hl : P l) : P (s.conclude r p l).line :=
  h.answerUnknown _ (h.answer _ _ _ _ hl)

theorem authorise (o : Operation) (r : Request) {s : State} (hs : P s.line) : P (s.authorise o r).line := by
  unfold State.authorise; split
  · exact h.touchAll _ _ hs
  · exact hs

theorem serve (o : Operation) (body : Request → State → Line × Reply) {s : State} (hs : P s.line)
    (hb : ∀ r (s : State), P s.line → P (body r s).1) : P (s.serve o body).line := by
  unfold State.serve; split
  · exact hs
  · rename_i r _
    have h1 := h.authorise o r hs
    unfold State.perform; split
    · exact h.conclude _ _ _ _ h1
    · exact h.conclude _ _ _ _ (hb _ _ h1)

theorem handRequest (r : Request) {s : State} (hs : P s.line) : P (s.handRequest r).line := by
  unfold State.handRequest; split
  · exact h.answerUnknown _ hs
  · exact h.sendReply _ _ hs

theorem beginActivation {s : State} (hs : P s.line) : P s.beginActivation.line := by
  unfold State.beginActivation; split
  · exact hs
  · rename_i r _
    have h1 := h.authorise .ttActivate r hs
    unfold State.tryActivation; split
    · exact h.conclude _ _ _ _ h1
    · exact h.conclude _ _ _ _ h1
    · exact h1

theorem endValidation {s : State} (hs : P s.line) : P s.endValidation.line := by
  unfold State.endValidation; split
  · exact h.conclude _ _ _ _ (h.finishValidation _ hs)
  · exact hs

/-! ### Received frames -/

theorem handOff (t : Telegram) (k : Taker) {s : State} (hs : P s.line) : P (s.handOff t k).line := by
  unfold State.handOff; split
  · exact h.takeTime _ _ hs
  · exact h.takePosition _ _ hs
  · exact h.takeStopEvent _ _ _ hs
  · exact h.takePointsTelegram _ _ _ hs
  · exact h.takeAckTelegram _ _ _ hs
  · exact h.takeBreakerCmd _ _ hs
  · exact h.paStatus _ _ _ _ hs
  · exact h.paRequest _ _ _ _ _ hs
  · exact h.takeAlarm _ _ _ hs
  · exact h.handRequest _ hs

omit h in
theorem noticeCopy (x : Frame) (k : Taker) {s : State} (hs : P s.line) : P (s.noticeCopy x k).line := by
  unfold State.noticeCopy; repeat' split
  all_goals exact hs

theorem takeTelegram (port : Port) (x : Frame) (t : Telegram) {s : State} (hs : P s.line) : P (s.takeTelegram port x t).line := by
  have h1 := h.classify port t hs
  unfold State.takeTelegram; split
  rename_i l v heq; rw [heq] at h1
  extract_lets own s1 s2 s3 s4 s5
  have h2 : s2.line = l := by show State.line (ite _ _ _) = l; split <;> rfl
  have h3 : s3.line = l := by
    rw [← h2]; show State.line (match v.counted with | some c => s2.countAt port c | none => s2) = s2.line
    cases v.counted <;> rfl
  have h4 : s4.line = l := by rw [← h3]; show State.line (ite _ _ _) = _; split <;> rfl
  have h5 : s5.line = l := by rw [← h4]; show State.line (ite _ _ _) = _; split <;> rfl
  have h6 : P s5.line := by rw [h5]; exact h1
  clear_value s5
  split
  · exact h.handOff _ _ (noticeCopy _ _ h6)
  · exact h6

theorem receive (port : Port) (x : Frame) {s : State} (hs : P s.line) : P (s.receive port x).line := by
  unfold State.receive State.checkTelegram; repeat' split
  · exact hs
  · exact hs
  · exact hs
  · exact hs
  · exact h.takeTelegram _ _ _ hs

/-! ### Every command -/

theorem finish {s : State} (hs : P s.line) : P (finish s).line := h.outbox _ _ (h.settle hs)

/-- Every command but POWER_ON keeps the property. -/
theorem exec (c : Instr) (hc : ∀ b, c ≠ .powerOn b) {s t : State} (he : exec c s = .next t) (hs : P s.line) : P t.line := by
  cases c
  case powerOn b => exact absurd rfl (hc b)
  all_goals
    (cases he; refine h.finish ?_)
  case portUp port =>
    split
    · exact hs
    · unfold State.raiseLink; dsimp only; split
      · exact h.conditionEnd _ _ hs
      · exact hs
  case linkLoss port =>
    split
    · exact h.raiseIncident _ _ _ _ _ hs
    · exact hs
  case transmitComplete port => exact hs
  case frameReceived port x => exact h.receive _ _ hs
  case time => exact h.receive _ _ hs
  case position => exact h.receive _ _ hs
  case stopEvent => exact h.receive _ _ hs
  case rtuPoints => exact h.receive _ _ hs
  case rtuAck => exact h.receive _ _ hs
  case breakerCmd => exact h.receive _ _ hs
  case paStatus => exact h.receive _ _ hs
  case paRequest => exact h.receive _ _ hs
  case fieldAlarm => exact h.receive _ _ hs
  case mgmtRequest => exact h.receive _ _ hs
  case lineTimeAdvance => exact h.advanceLineTime hs
  case lossDeadline v =>
    show P (ite _ _ _); split
    · rename_i hd
      unfold Line.lossDue at hd; simp only [Bool.and_eq_true, bne_iff_ne, ne_eq] at hd
      exact h.loseTrain v hd.1.1.2 hd.1.2 hs
    · exact hs
  case pulseEnd b => exact h.pulseEnded _ hs
  case expectUntil b => exact h.expectEnded _ hs
  case restoreDeadline x => exact h.restoreEnded _ hs
  case scanTime u => exact h.scanTimeReached _ hs
  case replyDeadline u => exact h.replyDeadlineReached _ hs
  case airtimeDeadline z => exact h.airtimeReached _ hs
  case retryTime z => exact h.retryReached _ hs
  case sweep => exact h.sweepAll hs
  case tableRead => exact h.serve _ _ hs fun r _ hs => h.tableRead r hs
  case tableWrite => exact h.serve _ _ hs fun r _ hs => h.tableWrite r hs
  case statusRead => exact h.serve _ _ hs fun _ _ hs => hs
  case identify => exact h.serve _ _ hs fun _ _ hs => hs
  case latchRead => exact h.serve _ _ hs fun r _ hs => h.latchRead r hs
  case bind => exact h.serve _ _ hs fun r _ hs => h.bindOperation r hs
  case unbind => exact h.serve _ _ hs fun r _ hs => h.unbindOperation r hs
  case holdPlatform => exact h.serve _ _ hs fun r _ hs => h.platformOperation _ r hs
  case releasePlatform => exact h.serve _ _ hs fun r _ hs => h.platformOperation _ r hs
  case incidentAck => exact h.serve _ _ hs fun r _ hs => h.incidentAck r hs
  case incidentClear => exact h.serve _ _ hs fun r _ hs => h.incidentClear r hs
  case incidentDeclare => exact h.serve _ _ hs fun r _ hs => h.incidentDeclare r hs
  case ttActivate => exact h.beginActivation hs
  case validationEnd => exact h.endValidation hs
  case ttCancel => exact h.serve _ _ hs fun r _ hs => h.cancelOperation r hs
  case jobStop => exact h.serve _ _ hs fun r _ hs => h.jobOperation _ r hs
  case jobStart => exact h.serve _ _ hs fun r _ hs => h.jobOperation _ r hs
  case lineRestart => exact h.serve _ _ hs fun r _ hs => h.restart _ hs
  case scrubVisit => exact h.scrubVisit hs

end Whole

end Sys2Proof.Machine
end

