-- ==== Sys2Proof/Laws/Calm.lean ====
section
/-! SUPPORT. Commands on a Table Store without errors: nothing is poisoned, so the end of a step makes write checks only, and properties that
hold together with that are kept together. -/

namespace Sys2Proof.Machine

open Sys2Proof

/-- Two properties that the plant's events keep are kept together. -/
theorem Plant.and {P Q : Line → Prop} (p : Plant P) (q : Plant Q) : Plant fun l => P l ∧ Q l where
  toStable := p.toStable.and q.toStable
  anySection _ _ _ h := ⟨p.anySection _ _ _ h.1, q.anySection _ _ _ h.2⟩
  anyBreaker _ _ _ h := ⟨p.anyBreaker _ _ _ h.1, q.anyBreaker _ _ _ h.2⟩
  anySubstation _ _ _ h := ⟨p.anySubstation _ _ _ h.1, q.anySubstation _ _ _ h.2⟩

theorem Wide.and {P Q : Line → Prop} (p : Wide P) (q : Wide Q) : Wide fun l => P l ∧ Q l where
  toPlant := p.toPlant.and q.toPlant
  lateness _ _ _ _ h := ⟨p.lateness _ _ _ _ h.1, q.lateness _ _ _ _ h.2⟩
  record _ _ _ h hp hn := ⟨p.record _ _ _ h.1 hp hn, q.record _ _ _ h.2 hp hn⟩
  wake _ _ _ h := ⟨p.wake _ _ _ h.1, q.wake _ _ _ h.2⟩
  putLost _ _ h ha hs := ⟨p.putLost _ _ h.1 ha hs, q.putLost _ _ h.2 ha hs⟩
  putFound _ _ h ha hs := ⟨p.putFound _ _ h.1 ha hs, q.putFound _ _ h.2 ha hs⟩
  takeSegment _ _ _ _ h ha hs := ⟨p.takeSegment _ _ _ _ h.1 ha hs, q.takeSegment _ _ _ _ h.2 ha hs⟩
  moveTrain _ _ _ _ h := ⟨p.moveTrain _ _ _ _ h.1, q.moveTrain _ _ _ _ h.2⟩
  displaceTrain _ _ _ h := ⟨p.displaceTrain _ _ _ h.1, q.displaceTrain _ _ _ h.2⟩
  runStatus _ _ _ h := ⟨p.runStatus _ _ _ h.1, q.runStatus _ _ _ h.2⟩
  lastDeparture _ _ _ h := ⟨p.lastDeparture _ _ _ h.1, q.lastDeparture _ _ _ h.2⟩
  operatorHold _ _ _ h := ⟨p.operatorHold _ _ _ h.1, q.operatorHold _ _ _ h.2⟩
  work _ _ _ h hm := ⟨p.work _ _ _ h.1 hm, q.work _ _ _ h.2 hm⟩
  outbox _ _ h := ⟨p.outbox _ _ h.1, q.outbox _ _ h.2⟩

/-- The Store is as given and holds no error, and nothing has been poisoned. -/
def Line.calmWith (c : Store) (l : Line) : Prop := l.store = c ∧ l.store.errorFree = true ∧ l.poisonWork = []

/-- No event disturbs a Store without errors. -/
theorem Line.calm_wide (c : Store) : Wide (Line.calmWith c) := by
  have ht : ∀ t i l, Line.calmWith c l → Line.calmWith c (touch t i l) := fun t i l h => by rw [touch_errorFree h.2.1]; exact h
  have hx : ∀ (x : Option Nat) l, Line.calmWith c l → Line.calmWith c (l.enterSection x) := fun x l h => by cases x <;> exact h
  have hy : ∀ (x : Option Nat) l, Line.calmWith c l → Line.calmWith c (l.leaveSection x) := fun x l h => by cases x <;> exact h
  refine .ofPlaces ⟨Loose.stable ⟨⟨ht, ?_, ?_, ?_, ?_, ?_, ?_, ?_, ?_, ?_, ?_⟩, ⟨?_, ?_⟩, ?_⟩, ?_, ?_, ?_⟩ ?_ hx hy ?_ ?_ ?_ ?_ ?_
  case refine_3 =>
    intro u l h
    exact ⟨by simpa using h.1, by simpa using h.2.1, by simpa using h.2.2⟩
  case refine_21 =>
    intro p w l h hm
    refine ⟨h.1, h.2.1, ?_⟩
    cases p with
    | nil => rfl
    | cons d p => have := hm d (List.mem_cons_self ..); rw [h.2.2] at this; cases this
  all_goals intros; assumption

/-- The end of a step on a Store without errors makes write checks only, so it keeps what the plant's events keep. -/
theorem Plant.settle_calm {P : Line → Prop} (h : Plant P) (c : Store) (hw : ∀ w l, P l → P { l with writeChecks := w }) {l : Line}
    (hl : P l) (hc : l.calmWith c) : P (settle l) ∧ (settle l).calmWith c := by
  have hq : Plant fun l => P l ∧ l.calmWith c := h.and (Line.calm_wide c).toPlant
  have key : ∀ n (l : Line), P l ∧ l.calmWith c → P (settleFor n l) ∧ (settleFor n l).calmWith c := by
    intro n
    induction n with
    | zero => exact fun _ hl => hl
    | succ n ih =>
      intro l hl
      unfold settleFor; split
      · rename_i heq; rw [hl.2.2.2] at heq; cases heq
      · rename_i u rest _ _
        exact ih _ (hq.writeCheck u ⟨hw rest _ hl.1, hl.2⟩)
      · exact hl
  have h1 := key l.settleRounds l ⟨hl, hc⟩
  have h2 : settle l = { settleFor l.settleRounds l with writeChecks := [] } := by
    have h3 := h1.2.2.2
    unfold settle
    generalize settleFor l.settleRounds l = k at h3
    cases k; simp_all
  rw [h2]
  exact ⟨hw [] _ h1.1, h1.2⟩

end Sys2Proof.Machine
end

