-- ==== Sys2Proof/Laws/Raises.lean ====
section
/-! SUPPORT. What the Incident Manager's operations do to the records: the effects of an event leave the records as they are, a raise with no live
record and a free slot creates one, a collapse changes the record it falls into, and a cleared record is CLEARED. -/

namespace Sys2Proof.Machine

open Sys2Proof

/-- The effects of an event on trains, plant and zones leave the incident records alone. -/
theorem incidents_quiet (i : Incidents) : Quiet fun l => l.incidents = i := by
  constructor
  case touch =>
    intro t k l h
    unfold touch poisonEntry correctWords; dsimp only; repeat' split
    all_goals exact h
  case ask => intro u l h; rw [askWriteCheck_incidents]; exact h
  all_goals intros; assumption

@[simp] theorem touch_incidents (t : TableId) (k : Nat) (l : Line) : (touch t k l).incidents = l.incidents :=
  (incidents_quiet _).touch t k l rfl
@[simp] theorem applyIsolation_incidents (x : Nat) (l : Line) : (applyIsolation x l).incidents = l.incidents :=
  (incidents_quiet _).applyIsolation x rfl
@[simp] theorem releaseIsolation_incidents (x : Nat) (l : Line) : (releaseIsolation x l).incidents = l.incidents :=
  (incidents_quiet _).releaseIsolation x rfl
@[simp] theorem evaluateAt_incidents (ps : List Nat) (l : Line) : (evaluateAt ps l).incidents = l.incidents :=
  (incidents_quiet _).evaluateAt ps rfl
@[simp] theorem handEntry_incidents (z t : Nat) (n : Option Nat) (p : Priority) (o : Origin) (l : Line) :
    (handEntry z t n p o l).incidents = l.incidents := (incidents_quiet _).handEntry z t n p o rfl
@[simp] theorem startPlay_incidents (z : Nat) (l : Line) : (startPlay z l).incidents = l.incidents :=
  (incidents_quiet _).startPlay z rfl
@[simp] theorem purge_incidents (k : Nat) (l : Line) : (purge k l).incidents = l.incidents := (incidents_quiet _).purge k rfl

theorem foldl_incidents {α : Type} {f : Line → α → Line} (hf : ∀ l a, (f l a).incidents = l.incidents) (xs : List α) (l : Line) :
    (xs.foldl f l).incidents = l.incidents := by
  induction xs generalizing l with
  | nil => rfl
  | cons a xs ih => exact (ih (f l a)).trans (hf l a)

/-- A write check leaves the records alone. -/
@[simp] theorem writeCheck_incidents (u : Nat) (l : Line) : (writeCheck u l).incidents = l.incidents := by
  unfold writeCheck; split
  · have h := touch_incidents .substation u l
    generalize touch .substation u l = m at h
    dsimp only; rw [← h]; split
    · simp [sendWrite, beginExchange]
    · rfl
  · rfl

/-- The write checks at the end of a step leave the records alone on a Store without errors. -/
theorem settle_incidents {l : Line} {c : Store} (h : l.calmWith c) : (settle l).incidents = l.incidents := by
  have key : ∀ n (l : Line), l.calmWith c → (settleFor n l).incidents = l.incidents := by
    intro n
    induction n with
    | zero => exact fun _ _ => rfl
    | succ n ih =>
      intro l hl
      unfold settleFor; split
      · rename_i heq; rw [hl.2.2] at heq; cases heq
      · rename_i u rest _ _
        have h1 : Line.calmWith c { l with writeChecks := rest } := hl
        rw [ih _ ((Line.calm_wide c).toPlant.writeCheck u h1), writeCheck_incidents]
      · rfl
  exact key _ l h

/-- The alarm summary does not touch the records. -/
@[simp] theorem evaluateAlarm_record (l : Line) (k : Nat) : (evaluateAlarm l).record? k = l.record? k := by
  unfold evaluateAlarm; dsimp only; repeat' split
  all_goals rfl

@[simp] theorem noticeOf_incidents (e : NoticeEvent) (r : IncidentRecord) (l : Line) : (noticeOf e r l).incidents = l.incidents :=
  (incidents_quiet _).noticeOf e r rfl

@[simp] theorem sendNotice_incidents (e : NoticeEvent) (b : List Byte) (l : Line) : (sendNotice e b l).incidents = l.incidents :=
  (incidents_quiet _).sendNotice e b rfl

@[simp] theorem considerLatch_record (s : Severity) (c : Captured) (l : Line) (k : Nat) : (considerLatch s c l).record? k = l.record? k := rfl

theorem Line.record_congr {l m : Line} (h : l.incidents = m.incidents) (k : Nat) : l.record? k = m.record? k := by
  unfold Line.record?; rw [h]

@[simp] theorem coverageOf_incidents (loc : Location) (l : Line) : (coverageOf loc l).1.incidents = l.incidents :=
  (incidents_quiet _).coverageOf loc rfl

/-- The effects of a new record leave the records as they are, but for the mark that the Regulator has been told of a hold. -/
theorem applyEffects_incidents (slot : Nat) (r : IncidentRecord) (e : ClassEntry) (l : Line) :
    (applyEffects slot r e (l.setRecord slot r)).incidents
      = (if r.effects.hold then l.setRecord slot { r with holdTold := true } else l.setRecord slot r).incidents := by
  unfold applyEffects
  extract_lets l1 l2
  have h1 : l1.incidents = (l.setRecord slot r).incidents := by
    show (ite _ _ _ : Line).incidents = _; split
    · exact foldl_incidents (fun l x => applyIsolation_incidents x l) _ _
    · rfl
  have h2 : l2.incidents = (if r.effects.hold then l.setRecord slot { r with holdTold := true } else l.setRecord slot r).incidents := by
    show (ite _ _ _ : Line).incidents = _
    by_cases hh : r.effects.hold
    · rw [if_pos hh, if_pos hh, evaluateAt_incidents]
      unfold Line.setRecord; dsimp only; rw [h1]; simp [Line.setRecord]
    · rw [if_neg hh, if_neg hh]; exact h1
  rw [← h2]
  repeat' split
  · exact foldl_incidents (fun l z => handEntry_incidents z _ none _ _ l) _ _
  · rfl
  · rfl

/-- The record of a raise that creates one, as it stands after its effects have been applied (R128). -/
theorem createRecord_spec (raise : Raise) (entry : ClassEntry) (slot : Nat) (l : Line) :
    (createRecord raise entry slot l).2 = .created l.nextFreeSerial
      ∧ (∃ r, (createRecord raise entry slot l).1.record? slot = some r ∧ r.serial = l.nextFreeSerial ∧ r.cls = raise.cls
          ∧ r.severity = entry.severity ∧ r.effects = entry.effects ∧ r.location = raise.location ∧ r.source = raise.source
          ∧ r.detail = raise.detail ∧ r.firstTime = raise.time ∧ r.lastTime = raise.time ∧ r.count = 1 ∧ r.state = .opened
          ∧ r.conditionEnded = false)
      ∧ ∀ k, k ≠ slot → (createRecord raise entry slot l).1.record? k = l.record? k := by
  unfold createRecord
  extract_lets serial i0 l0
  split
  rename_i l1 cov heq
  have h1 : l1.incidents = l0.incidents := by have := coverageOf_incidents raise.location l0; rw [heq] at this; exact this
  extract_lets r l2 l3
  refine ⟨rfl, ?_⟩
  have h2 : ∀ k, (noticeOf .raised r l3).record? k
      = if slot = k then some (if r.effects.hold then { r with holdTold := true } else r) else l.record? k := by
    intro k
    rw [Line.record_congr (noticeOf_incidents ..)]
    refine (Line.record_congr (applyEffects_incidents slot r entry (l1.bump .creation)) k).trans ?_
    have h3 : (l1.bump .creation).record? k = l.record? k := Line.record_congr (m := l0) h1 k
    split
    · rw [Line.setRecord_record, h3]
    · rw [Line.setRecord_record, h3]
  refine ⟨⟨_, (h2 slot).trans (if_pos rfl), ?_⟩, fun k hk => (h2 k).trans (if_neg (Ne.symm hk))⟩
  split <;> exact ⟨rfl, rfl, rfl, rfl, rfl, rfl, rfl, rfl, rfl, rfl, rfl, rfl⟩

/-- A free slot is what the allocation takes first (R125 step 1). -/
theorem allocate_free {l : Line} (hf : ∃ slot, slot < 32 ∧ l.record? slot = none) (severity : Severity) :
    ∃ slot, slot < 32 ∧ l.record? slot = none ∧ l.allocate severity = .free slot := by
  obtain ⟨slot, hs, hn⟩ := hf
  unfold Line.allocate
  cases hx : slotNumbers.find? fun i => (l.record? i).isNone with
  | none => have := List.find?_eq_none.1 hx slot (by simpa [slotNumbers] using hs); simp [hn] at this
  | some i =>
    have h1 := List.find?_some hx
    have h2 := List.mem_of_find?_eq_some hx
    exact ⟨i, by simpa [slotNumbers] using h2, by simpa using h1, rfl⟩

/-- A raise with no live record of its key and a free slot, on a Store without errors: a record is created in a free slot, and no other record
changes (R123, R125, R128). -/
theorem raiseOnce_creates {raise : Raise} {l : Line} (he : l.store.errorFree = true) (hj : l.jobs.incident = true)
    (hn : l.liveRecord? raise.cls raise.location = none) (hf : ∃ slot, slot < 32 ∧ l.record? slot = none) :
    (raiseOnce raise l).2 = .created l.nextFreeSerial
      ∧ ∃ slot r, slot < 32 ∧ l.record? slot = none ∧ (raiseOnce raise l).1.record? slot = some r ∧ r.serial = l.nextFreeSerial
        ∧ r.cls = raise.cls ∧ r.severity = (l.classAs raise.cls).severity ∧ r.effects = (l.classAs raise.cls).effects
        ∧ r.location = raise.location ∧ r.source = raise.source ∧ r.detail = raise.detail ∧ r.firstTime = raise.time
        ∧ r.lastTime = raise.time ∧ r.count = 1 ∧ r.state = .opened ∧ r.conditionEnded = false
        ∧ ∀ k, k ≠ slot → (raiseOnce raise l).1.record? k = l.record? k := by
  obtain ⟨slot, hs, hfree, ha⟩ := allocate_free hf (l.classAs raise.cls).severity
  have hr : recordRaise raise l = createRecord raise (l.classAs raise.cls) slot l := by
    unfold recordRaise; rw [touch_errorFree he]; dsimp only; rw [ha]
  have ht : raiseOnce raise l = (evaluateAlarm (createRecord raise (l.classAs raise.cls) slot l).1,
      (createRecord raise (l.classAs raise.cls) slot l).2) := by
    unfold raiseOnce; rw [if_pos hj, hn]; dsimp only; rw [hr]
  obtain ⟨h1, ⟨r, h2, h3⟩, h4⟩ := createRecord_spec raise (l.classAs raise.cls) slot l
  rw [ht]
  refine ⟨h1, slot, r, hs, hfree, ?_, h3.1, h3.2.1, h3.2.2.1, h3.2.2.2.1, h3.2.2.2.2.1, h3.2.2.2.2.2.1, h3.2.2.2.2.2.2.1,
    h3.2.2.2.2.2.2.2.1, h3.2.2.2.2.2.2.2.2.1, h3.2.2.2.2.2.2.2.2.2.1, h3.2.2.2.2.2.2.2.2.2.2.1, h3.2.2.2.2.2.2.2.2.2.2.2, ?_⟩
  · rw [evaluateAlarm_record]; exact h2
  · intro k hk; rw [evaluateAlarm_record]; exact h4 k hk

/-- The record that a raise falls into, as the collapse leaves it (R124). -/
def collapsesTo (raise : Raise) (now : Ticks) (escalation : Nat) (r : IncidentRecord) : IncidentRecord :=
  match escalatesTo escalation r with
  | some severity => { collapsedRecord raise now r with severity := severity, escalated := true }
  | none => collapsedRecord raise now r

/-- A raise with a live record falls into that record (R124). -/
theorem raiseOnce_collapses {raise : Raise} {l : Line} {slot : Nat} {old : IncidentRecord} (he : l.store.errorFree = true)
    (hj : l.jobs.incident = true) (hn : l.liveRecord? raise.cls raise.location = some (slot, old)) :
    (raiseOnce raise l).2 = .collapsed old.serial
      ∧ (raiseOnce raise l).1.record? slot = some (collapsesTo raise l.timer (l.classAs raise.cls).escalation old)
      ∧ ∀ k, k ≠ slot → (raiseOnce raise l).1.record? k = l.record? k := by
  have ht : raiseOnce raise l = (evaluateAlarm (collapseInto raise slot old l), .collapsed old.serial) := by
    unfold raiseOnce; rw [if_pos hj, hn]
  rw [ht]
  refine ⟨rfl, ?_⟩
  simp only [evaluateAlarm_record]
  unfold collapseInto collapsesTo
  rw [touch_errorFree he]
  extract_lets l0 reopened new l1
  have h0 : l1.classAs raise.cls = l.classAs raise.cls := by show (ite _ _ _ : Line).classAs _ = _; split <;> rfl
  rw [h0]
  have h1 : ∀ k, l1.record? k = l.record? k := by
    intro k; show (ite _ _ _ : Line).record? k = _; split <;> rfl
  generalize escalatesTo (l.classAs raise.cls).escalation old = risen
  cases risen with
  | some severity =>
    dsimp only
    refine ⟨?_, fun k hk => ?_⟩
    · rw [Line.record_congr (noticeOf_incidents ..)]
      show Line.record? _ slot = _
      rw [considerLatch_record, Line.bump_record, Line.setRecord_record, if_pos rfl]
    · rw [Line.record_congr (noticeOf_incidents ..)]
      show Line.record? _ k = _
      rw [considerLatch_record, Line.bump_record, Line.setRecord_record, if_neg (Ne.symm hk), h1]
  | none =>
    dsimp only
    refine ⟨?_, fun k hk => ?_⟩
    · split
      · rw [Line.record_congr (noticeOf_incidents ..), Line.setRecord_record, if_pos rfl]
      · rw [Line.setRecord_record, if_pos rfl]
    · split
      · rw [Line.record_congr (noticeOf_incidents ..), Line.setRecord_record, if_neg (Ne.symm hk), h1]
      · rw [Line.setRecord_record, if_neg (Ne.symm hk), h1]

/-- Away from the trains a raise has no other effect than that on the incident records and what follows from it. -/
theorem takeRaise_elsewhere {raise : Raise} (h : raise.location.kind ≠ .train) (l : Line) : takeRaise raise l = raiseOnce raise l := by
  unfold takeRaise dropPoisonedRun; dsimp only; repeat' split
  · rename_i hk _; exact absurd hk h
  · rfl

/-- A raise that falls into a live record has no other effect than that on the incident records. -/
theorem takeRaise_of_live {raise : Raise} {l : Line} {e : Nat × IncidentRecord} (hj : l.jobs.incident = true)
    (hn : l.liveRecord? raise.cls raise.location = some e) : takeRaise raise l = raiseOnce raise l := by
  have h : (raiseOnce raise l).2 = .collapsed e.2.serial := by unfold raiseOnce; rw [if_pos hj, hn]
  unfold takeRaise dropPoisonedRun; dsimp only; rw [h]; exact Prod.ext rfl h.symm

/-- A record cleared (R132): it stands in its slot, CLEARED, with the Regulator told of the end of its hold; the other records stay. -/
theorem clearRecord_record (slot : Nat) (r : IncidentRecord) (l : Line) :
    (clearRecord slot r l).record? slot
        = some { r with
            state := .cleared, lastUpdate := l.timer, holdTold := if r.effects.hold then false else r.holdTold }
      ∧ (∀ k, k ≠ slot → (clearRecord slot r l).record? k = l.record? k)
      ∧ (clearRecord slot r l).incidents.overflow = false := by
  unfold clearRecord
  extract_lets cleared l1 l2 l3 i3 l4
  have h1 : ∀ k, l1.record? k = if slot = k then some cleared else l.record? k := fun k => by
    show ((l.setRecord slot cleared).bump _).record? k = _; rw [Line.bump_record, Line.setRecord_record]
  have h2 : l2.incidents = (if r.effects.hold then l1.setRecord slot { cleared with holdTold := false } else l1).incidents := by
    show (handAllClear r (releaseEffects slot r l1)).incidents = _
    rw [show ∀ m, (handAllClear r m).incidents = m.incidents from fun m => by
      unfold handAllClear; dsimp only; split
      · rw [foldl_incidents fun l z => handEntry_incidents z _ none _ _ l, touch_incidents]
      · rw [touch_incidents]]
    unfold releaseEffects
    extract_lets m1 m2
    rw [purge_incidents]
    have hm : m1.incidents = l1.incidents := by
      show (ite _ _ _ : Line).incidents = _; split
      · exact foldl_incidents (fun l x => releaseIsolation_incidents x l) _ _
      · rfl
    show (ite _ _ _ : Line).incidents = _
    by_cases hh : r.effects.hold
    · rw [if_pos hh, if_pos hh]
      unfold releaseHold
      rw [Line.record_congr hm, h1 slot, if_pos rfl]
      dsimp only; rw [evaluateAt_incidents]; unfold Line.setRecord; dsimp only; rw [hm]
    · rw [if_neg hh, if_neg hh, hm]
  have h3 : l3.incidents = l2.incidents := noticeOf_incidents ..
  have h5 : ∀ k, (evaluateAlarm l4).record? k = l2.record? k := fun k => by
    rw [evaluateAlarm_record, ← Line.record_congr h3 k]; rfl
  have h6 : (evaluateAlarm l4).incidents.overflow = false := by
    unfold evaluateAlarm; dsimp only; repeat' split
    all_goals rfl
  refine ⟨?_, fun k hk => ?_, h6⟩
  · rw [h5, Line.record_congr h2]
    by_cases hh : r.effects.hold
    · rw [if_pos hh, Line.setRecord_record, if_pos rfl]; simp [cleared, hh]
    · rw [if_neg hh, h1, if_pos rfl]; simp [cleared, hh]
  · rw [h5, Line.record_congr h2]
    by_cases hh : r.effects.hold
    · rw [if_pos hh, Line.setRecord_record, if_neg (Ne.symm hk), h1, if_neg (Ne.symm hk)]
    · rw [if_neg hh, h1, if_neg (Ne.symm hk)]

/-- The end of a condition without a live record changes no record (R134). -/
theorem conditionEnd_unmatched {l : Line} {cls : Nat} {loc : Location} (h : l.liveRecord? cls loc = none) :
    conditionEnd cls loc l = l.bump .unmatchedEnd := by
  unfold conditionEnd; rw [h]

end Sys2Proof.Machine
end

