-- ==== Sys2Proof/Laws/IncidentTable.lean ====
section
/-! SUPPORT. The incident records as a table: each operation of the Incident Manager keeps them as the chapter says, serials and collapse keys unique
(R121, R123), and the alarm summary right (R135). -/

namespace Sys2Proof.Machine
open Sys2Proof

/-- An entry found is in the table. -/
theorem mem_of_tfind {α} {t : Table α} {k : Nat} {v : α} (h : tfind t k = some v) : (k, v) ∈ t := by
  induction t with
  | nil => cases h
  | cons e t ih =>
    obtain ⟨j, w⟩ := e
    unfold tfind at h
    split at h
    · rename_i hj; cases h; subst hj; exact List.mem_cons_self ..
    · exact List.mem_cons_of_mem _ (ih h)

/-- In a table with rising indices every entry is found. -/
theorem tfind_of_mem {α} {t : Table α} (ht : trising t = true) {k : Nat} {v : α} (h : (k, v) ∈ t) : tfind t k = some v := by
  induction t with
  | nil => cases h
  | cons e t ih =>
    obtain ⟨j, w⟩ := e
    unfold tfind
    rcases List.mem_cons.1 h with h1 | h1
    · cases h1; simp
    · have := trising_head ht _ h1
      rw [if_neg (by simp at this; omega)]
      exact ih (trising_tail ht) h1

/-- An entry put keeps the indices rising. -/
theorem trising_tput {α} {t : Table α} (h : trising t = true) (i : Nat) (v : α) : trising (tput t i v) = true :=
  trising_tinsert (trising_terase h i) (terase_ne t i) v

/-- A record changed without its serial, key or coverage, and not made live, keeps the table right. -/
theorem Incidents.recordsOk.set {i : Incidents} (h : i.recordsOk) {slot : Nat} {old new : IncidentRecord} (ho : tfind i.slots slot = some old)
    (hs : new.serial = old.serial) (hc : new.cls = old.cls) (hl : new.location = old.location)
    (hlive : new.state ≠ .cleared → old.state ≠ .cleared) (h1 : 1 ≤ new.count) (h2 : new.count ≤ 255)
    (hn : new.coverage = old.coverage) : Incidents.recordsOk { i with slots := tput i.slots slot new } := by
  obtain ⟨a, b, c, d, e, f⟩ := h
  refine ⟨trising_tput a _ _, ?_, ?_, ?_, ?_, f⟩
  · intro x hx
    rcases mem_tinsert hx with h | h
    · rw [h]; exact b (slot, old) (mem_of_tfind ho)
    · exact b _ (List.mem_filter.1 h).1
  · intro k r hr
    dsimp only at hr; rw [tfind_tput] at hr; split at hr
    · cases hr; have := c _ _ ho; rw [hs, hn]; exact ⟨this.1, this.2.1, h1, h2, this.2.2.2.2⟩
    · exact c _ _ hr
  · intro x y r q hr hq hrq
    dsimp only at hr hq; rw [tfind_tput] at hr hq; split at hr <;> split at hq
    · omega
    · cases hr; subst_vars; exact d _ _ _ _ ho hq (hs ▸ hrq)
    · cases hq; subst_vars; exact d _ _ _ _ hr ho (hrq.trans hs)
    · exact d _ _ _ _ hr hq hrq
  · intro x y r q hr hq lr lq ec el
    dsimp only at hr hq; rw [tfind_tput] at hr hq; split at hr <;> split at hq
    · omega
    · cases hr; subst_vars; exact e _ _ _ _ ho hq (hlive lr) lq (hc ▸ ec) (hl ▸ el)
    · cases hq; subst_vars; exact e _ _ _ _ hr ho lr (hlive lq) (ec.trans hc) (el.trans hl)
    · exact e _ _ _ _ hr hq lr lq ec el

/-- A new record with a fresh serial and a key that no live record has keeps the table right. -/
theorem Incidents.recordsOk.create {i : Incidents} (h : i.recordsOk) {slot : Nat} {new : IncidentRecord} (hslot : slot < 32)
    (hs : ∀ a r, tfind i.slots a = some r → a ≠ slot → r.serial ≠ new.serial)
    (hk : ∀ a r, tfind i.slots a = some r → a ≠ slot → r.state ≠ .cleared → r.cls = new.cls → r.location = new.location → False)
    (hr : 1 ≤ new.serial) (hr' : new.serial ≤ 65535) (h1 : new.count = 1) (hn : new.coverage.sections.Nodup) :
    Incidents.recordsOk { i with slots := tput i.slots slot new } := by
  obtain ⟨a, b, c, d, e, f⟩ := h
  refine ⟨trising_tput a _ _, ?_, ?_, ?_, ?_, f⟩
  · intro x hx
    rcases mem_tinsert hx with h | h
    · subst h; exact hslot
    · exact b _ (List.mem_filter.1 h).1
  · intro k r hr
    dsimp only at hr; rw [tfind_tput] at hr; split at hr
    · cases hr; exact ⟨by assumption, hr', by omega, by omega, hn⟩
    · exact c _ _ hr
  · intro x y r q hr hq hrq
    dsimp only at hr hq; rw [tfind_tput] at hr hq; split at hr <;> split at hq
    · omega
    · cases hr; exact absurd hrq.symm (hs _ _ hq (by omega))
    · cases hq; exact absurd hrq (hs _ _ hr (by omega))
    · exact d _ _ _ _ hr hq hrq
  · intro x y r q hr hq lr lq ec el
    dsimp only at hr hq; rw [tfind_tput] at hr hq; split at hr <;> split at hq
    · omega
    · cases hr; exact (hk _ _ hq (by omega) lq ec.symm el.symm).elim
    · cases hq; exact (hk _ _ hr (by omega) lr ec el).elim
    · exact e _ _ _ _ hr hq lr lq ec el

/-- A record removed keeps the table right. -/
theorem Incidents.recordsOk.remove {i : Incidents} (h : i.recordsOk) (slot : Nat) : Incidents.recordsOk { i with slots := terase i.slots slot } := by
  obtain ⟨a, b, c, d, e, f⟩ := h
  have key : ∀ x r, tfind (terase i.slots slot) x = some r → tfind i.slots x = some r := by
    intro x r hr; rw [tfind_terase] at hr; split at hr
    · cases hr
    · exact hr
  exact ⟨trising_terase a _, fun x hx => b _ (List.mem_filter.1 hx).1, fun k r hr => c _ _ (key _ _ hr),
    fun x y r q hr hq => d _ _ _ _ (key _ _ hr) (key _ _ hq), fun x y r q hr hq => e _ _ _ _ (key _ _ hr) (key _ _ hq), f⟩

/-! ### Serials -/
/-- A list without repeats is no longer than a list that has all its members. -/
theorem nodup_length_le {xs : List Nat} : ∀ {ys : List Nat}, xs.Nodup → (∀ x ∈ xs, x ∈ ys) → xs.length ≤ ys.length := by
  induction xs with
  | nil => intro ys _ _; exact Nat.zero_le _
  | cons x xs ih =>
    intro ys hn hs
    rw [List.nodup_cons] at hn
    have hx : x ∈ ys := hs x (List.mem_cons_self ..)
    have := ih (ys := ys.erase x) hn.2 fun y hy => (List.mem_erase_of_ne (fun h => hn.1 (by rw [← h]; exact hy))).2 (hs y (List.mem_cons_of_mem _ hy))
    rw [List.length_erase_of_mem hx] at this
    have : 0 < ys.length := List.length_pos_of_mem hx
    simp only [List.length_cons]; omega

/-- The serial `k` places after `n`, wrapping from 65,535 to 1 (R121). -/
def serialAt (n k : Nat) : Nat := (n - 1 + k) % 65535 + 1

theorem serialAfter_at (n k : Nat) : serialAfter (serialAt n k) = serialAt n (k + 1) := by
  unfold serialAfter serialAt; split <;> omega

/-- The search for a free serial ends at one that is not held, unless every serial it tried is held. -/
theorem freeSerial_cases (held : List Nat) : ∀ fuel n k,
    (freeSerial held fuel (serialAt n k) ∉ held ∧ ∃ j, freeSerial held fuel (serialAt n k) = serialAt n j)
      ∨ ∀ j, k ≤ j → j < k + fuel → serialAt n j ∈ held := by
  intro fuel
  induction fuel with
  | zero => intro n k; right; intro j _ _; omega
  | succ fuel ih =>
    intro n k
    unfold freeSerial
    by_cases hc : held.contains (serialAt n k)
    · rw [if_pos hc, serialAfter_at]
      rcases ih n (k + 1) with h | h
      · exact .inl h
      · right; intro j h1 h2
        by_cases hj : j = k
        · subst hj; simpa using hc
        · exact h j (by omega) (by omega)
    · rw [if_neg hc]; left; exact ⟨by simpa using hc, k, rfl⟩

/-- With fewer than 32 serials held the search finds one that is not. -/
theorem freeSerial_fresh {held : List Nat} {n : Nat} (h1 : 1 ≤ n) (h2 : n ≤ 65535) (hl : held.length < 32) :
    freeSerial held 32 n ∉ held ∧ 1 ≤ freeSerial held 32 n ∧ freeSerial held 32 n ≤ 65535 := by
  have hn : n = serialAt n 0 := by unfold serialAt; omega
  rcases freeSerial_cases held 32 n 0 with ⟨h, j, hj⟩ | h
  · rw [← hn] at h hj; refine ⟨h, ?_⟩; rw [hj]; unfold serialAt; omega
  · exfalso
    have hd : ((List.range 32).map (serialAt n)).Nodup := by
      rw [List.nodup_iff_pairwise_ne, List.pairwise_map]
      refine List.Pairwise.imp_of_mem ?_ (List.nodup_iff_pairwise_ne.1 List.nodup_range)
      intro a b ha hb hab
      rw [List.mem_range] at ha hb
      unfold serialAt; omega
    have := nodup_length_le hd (ys := held) (by
      intro x hx
      obtain ⟨j, hj, rfl⟩ := List.mem_map.1 hx
      exact h j (Nat.zero_le _) (by simpa using hj))
    simp at this; omega

/-! ### The operations -/

/-- Rising indices do not repeat. -/
theorem trising_keys_nodup {α} {t : Table α} (h : trising t = true) : (t.map Prod.fst).Nodup := by
  induction t with
  | nil => simp
  | cons e t ih =>
    rw [List.map_cons, List.nodup_cons]
    refine ⟨fun hm => ?_, ih (trising_tail h)⟩
    obtain ⟨f, hf, he⟩ := List.mem_map.1 hm
    have := trising_head h f hf; omega

/-- With a free slot there are fewer than 32 records. -/
theorem Incidents.recordsOk.slots_lt {i : Incidents} (h : i.recordsOk) {slot : Nat} (hs : slot < 32) (hf : tfind i.slots slot = none) :
    i.slots.length < 32 := by
  have h1 := nodup_length_le (trising_keys_nodup h.1) (ys := (List.range 32).erase slot) (by
    intro x hx
    obtain ⟨e, he, rfl⟩ := List.mem_map.1 hx
    refine (List.mem_erase_of_ne fun hh => ?_).2 (List.mem_range.2 (h.2.1 e he))
    obtain ⟨k, v⟩ := e
    have := tfind_of_mem h.1 he
    simp only at hh; subst hh; rw [hf] at this; cases this)
  rw [List.length_erase_of_mem (List.mem_range.2 hs)] at h1
  simp at h1; omega

/-- The serial of the next record is held by none and lies from 1 to 65,535 (R121). -/
theorem nextFreeSerial_fresh {l : Line} (h : l.incidents.recordsOk) {slot : Nat} (hs : slot < 32) (hf : l.record? slot = none) :
    (∀ a r, l.record? a = some r → r.serial ≠ l.nextFreeSerial) ∧ 1 ≤ l.nextFreeSerial ∧ l.nextFreeSerial ≤ 65535 := by
  have h1 := freeSerial_fresh (held := l.incidents.slots.map fun s => s.2.serial) h.2.2.2.2.2.1 h.2.2.2.2.2.2
    (by simpa using Incidents.recordsOk.slots_lt h hs hf)
  refine ⟨fun a r hr hh => h1.1 ?_, h1.2⟩
  show l.nextFreeSerial ∈ _
  rw [← hh]
  exact List.mem_map.2 ⟨(a, r), mem_of_tfind hr, rfl⟩

/-- The evaluation of the alarm summary writes the summary and no record (R135). -/
theorem evaluateAlarm_incidents (l : Line) : (evaluateAlarm l).incidents = { l.incidents with asserted := l.alarmNow } := by
  unfold evaluateAlarm; dsimp only; repeat' split
  · rename_i h; rw [h]
  · rfl
  · rfl

theorem Line.alarmNow_congr {l m : Line} (h : l.incidents = m.incidents) : l.alarmNow = m.alarmNow := by unfold Line.alarmNow; rw [h]

theorem Incidents.recordsOk.alarm {i : Incidents} (h : i.recordsOk) (b : Bool) : Incidents.recordsOk { i with asserted := b } := h
theorem Incidents.recordsOk.latch {i : Incidents} (h : i.recordsOk) (b : Quad Latch) : Incidents.recordsOk { i with latches := b } := h
theorem Incidents.recordsOk.over {i : Incidents} (h : i.recordsOk) (b : Bool) (n : Nat) : Incidents.recordsOk { i with overflow := b, overflowCount := n } := h

/-- After its evaluation the alarm summary is right. -/
theorem evaluateAlarm_ok {l : Line} (h : l.incidents.recordsOk) : (evaluateAlarm l).incidentsOk := by
  refine ⟨by rw [evaluateAlarm_incidents]; exact h, ?_⟩
  have h1 : (evaluateAlarm l).alarmNow = l.alarmNow := by
    unfold Line.alarmNow; rw [evaluateAlarm_incidents]
  rw [h1, evaluateAlarm_incidents]

theorem Line.incidentsOk_congr {l m : Line} (h : l.incidentsOk) (he : m.incidents = l.incidents) : m.incidentsOk := by
  unfold Line.incidentsOk; rw [Line.alarmNow_congr he, he]; exact h

/-- A live record found for a key stands in its slot. -/
theorem liveRecord_spec {l : Line} (h : l.incidents.recordsOk) {c : Nat} {loc : Location} {slot : Nat} {r : IncidentRecord}
    (hr : l.liveRecord? c loc = some (slot, r)) : l.record? slot = some r ∧ r.state ≠ .cleared ∧ r.cls = c ∧ r.location = loc := by
  unfold Line.liveRecord? at hr
  have h1 := List.find?_some hr
  have h2 := List.mem_of_find?_eq_some hr
  simp [IncidentRecord.live] at h1
  exact ⟨tfind_of_mem h.1 h2, h1.1.1, h1.1.2, h1.2⟩

/-- With no live record found for a key, no record in the table is one. -/
theorem liveRecord_none {l : Line} {c : Nat} {loc : Location} (hr : l.liveRecord? c loc = none) {a : Nat} {r : IncidentRecord}
    (ha : l.record? a = some r) (hs : r.state ≠ .cleared) (hc : r.cls = c) (hl : r.location = loc) : False := by
  have := List.find?_eq_none.1 hr (a, r) (mem_of_tfind ha)
  simp [IncidentRecord.live, hs, hc, hl] at this

/-- A raise that falls into a live record keeps the table right (R124). -/
theorem collapseInto_ok {raise : Raise} {slot : Nat} {r : IncidentRecord} {l : Line} (h : l.incidents.recordsOk) (hr : l.record? slot = some r)
    (hl : r.state ≠ .cleared) : (collapseInto raise slot r l).incidents.recordsOk := by
  unfold collapseInto
  extract_lets l0 reopened new l1
  have h1 : l1.incidents = l.incidents := by
    show (ite _ _ _ : Line).incidents = _; split <;> exact touch_incidents ..
  have hc := (h.2.2.1 _ _ hr).2.2
  have c1 : 1 ≤ Nat.min (r.count + 1) 255 := Nat.le_min.2 ⟨by omega, by omega⟩
  have c2 : Nat.min (r.count + 1) 255 ≤ 255 := Nat.min_le_right ..
  split
  · rename_i sev _
    rw [noticeOf_incidents]
    show Incidents.recordsOk { l1.incidents with slots := tput l1.incidents.slots slot { new with severity := sev, escalated := true }, latches := _ }
    rw [h1]
    exact Incidents.recordsOk.latch (h.set (new := { new with severity := sev, escalated := true }) hr rfl rfl rfl (fun _ => hl) c1 c2 rfl) _
  · have h2 : (l1.setRecord slot new).incidents.recordsOk := by
      show Incidents.recordsOk { l1.incidents with slots := tput l1.incidents.slots slot new }
      rw [h1]
      exact h.set hr rfl rfl rfl (fun _ => hl) c1 c2 rfl
    split
    · rw [noticeOf_incidents]; exact h2
    · exact h2

/-- A coverage names no section twice (R122). -/
theorem coverageOf_sections_nodup (loc : Location) (l : Line) : (coverageOf loc l).2.sections.Nodup := by
  have hr : ∀ p, (sectionNumbers.filter p).Nodup := fun p => List.Pairwise.filter _ (by decide)
  unfold coverageOf; split <;> dsimp only
  · decide
  · simp [Line.coverSections]
  · unfold Line.coverSections; dsimp only; exact hr _
  · unfold Line.departureSectionsOf; exact hr _
  · unfold Line.departureSectionsOf; exact hr _
  · cases ((touchAll .timingPoint timingPointNumbers l).train loc.index).sect <;> simp

/-- A record created in a free slot for a key without a live record keeps the table right (R128). -/
theorem createRecord_ok {raise : Raise} {entry : ClassEntry} {slot : Nat} {l : Line} (h : l.incidents.recordsOk) (hs : slot < 32)
    (hf : l.record? slot = none) (hk : ∀ a r, l.record? a = some r → r.state ≠ .cleared → r.cls = raise.cls → r.location = raise.location → False) :
    (createRecord raise entry slot l).1.incidents.recordsOk := by
  obtain ⟨f1, f2, f3⟩ := nextFreeSerial_fresh h hs hf
  unfold createRecord
  extract_lets serial i0 l0
  have hcov := coverageOf_sections_nodup raise.location l0
  split
  rename_i l1 cov heq
  have h1 : l1.incidents = l0.incidents := by have := coverageOf_incidents raise.location l0; rw [heq] at this; exact this
  rw [heq] at hcov
  extract_lets r l2 l3
  show (noticeOf .raised r l3).incidents.recordsOk
  rw [noticeOf_incidents]
  refine Incidents.recordsOk.latch (i := l2.incidents) ?_ _
  show (applyEffects slot r entry ((l1.bump .creation).setRecord slot r)).incidents.recordsOk
  rw [applyEffects_incidents slot r entry (l1.bump .creation)]
  have h0 : l0.incidents.recordsOk := by
    refine ⟨h.1, h.2.1, h.2.2.1, h.2.2.2.1, h.2.2.2.2.1, ?_⟩
    show 1 ≤ serialAfter serial ∧ serialAfter serial ≤ 65535
    unfold serialAfter
    have : serial ≤ 65535 := f3
    split <;> omega
  split
  · show Incidents.recordsOk { l1.incidents with slots := tput l1.incidents.slots slot { r with holdTold := true } }
    rw [h1]
    exact h0.create hs (fun a q hq _ => f1 a q hq) (fun a q hq _ => hk a q hq) f2 f3 rfl hcov
  · show Incidents.recordsOk { l1.incidents with slots := tput l1.incidents.slots slot r }
    rw [h1]
    exact h0.create hs (fun a q hq _ => f1 a q hq) (fun a q hq _ => hk a q hq) f2 f3 rfl hcov

/-- Releasing the effects of a record changes at most the mark that the Regulator has been told of its hold. -/
theorem releaseEffects_incidents (slot : Nat) (r : IncidentRecord) (l : Line) :
    (releaseEffects slot r l).incidents = l.incidents
      ∨ ∃ now, l.record? slot = some now ∧ (releaseEffects slot r l).incidents = (l.setRecord slot { now with holdTold := false }).incidents := by
  unfold releaseEffects
  extract_lets l1 l2
  have h1 : l1.incidents = l.incidents := by
    show (ite _ _ _ : Line).incidents = _; split
    · exact foldl_incidents (fun l x => releaseIsolation_incidents x l) _ _
    · rfl
  rw [purge_incidents]
  show (ite _ _ _ : Line).incidents = _ ∨ ∃ now, _ ∧ (ite _ _ _ : Line).incidents = _
  split
  · unfold releaseHold
    rw [Line.record_congr h1]
    split
    · rename_i now hn
      right; refine ⟨now, hn, ?_⟩
      rw [evaluateAt_incidents]; unfold Line.setRecord; dsimp only; rw [h1]
    · left; rw [evaluateAt_incidents]; exact h1
  · left; exact h1

theorem releaseEffects_ok {slot : Nat} {r : IncidentRecord} {l : Line} (h : l.incidents.recordsOk) : (releaseEffects slot r l).incidents.recordsOk := by
  rcases releaseEffects_incidents slot r l with h1 | ⟨now, hn, h1⟩
  · rw [h1]; exact h
  · rw [h1]; exact h.set hn rfl rfl rfl id (h.2.2.1 _ _ hn).2.2.1 (h.2.2.1 _ _ hn).2.2.2.1 rfl

theorem releaseEffects_other {slot : Nat} {r : IncidentRecord} {l : Line} {k : Nat} (hk : k ≠ slot) :
    (releaseEffects slot r l).record? k = l.record? k := by
  rcases releaseEffects_incidents slot r l with h1 | ⟨now, hn, h1⟩
  · exact Line.record_congr h1 k
  · rw [Line.record_congr h1, Line.setRecord_record, if_neg (Ne.symm hk)]

theorem handAllClear_incidents (r : IncidentRecord) (m : Line) : (handAllClear r m).incidents = m.incidents := by
  unfold handAllClear; dsimp only; split
  · rw [foldl_incidents fun l z => handEntry_incidents z _ none _ _ l, touch_incidents]
  · rw [touch_incidents]

/-- A record cleared keeps the table right (R132). -/
theorem clearRecord_ok {slot : Nat} {r : IncidentRecord} {l : Line} (h : l.incidents.recordsOk) (hr : l.record? slot = some r) :
    (clearRecord slot r l).incidentsOk := by
  unfold clearRecord
  extract_lets cleared l1 l2 l3 i3 l4
  refine evaluateAlarm_ok ?_
  show Incidents.recordsOk { l3.incidents with overflow := false }
  refine Incidents.recordsOk.over (i := l3.incidents) ?_ false l3.incidents.overflowCount
  have h3 : l3.incidents = (releaseEffects slot r l1).incidents := by
    show (noticeOf _ _ l2).incidents = _
    rw [noticeOf_incidents]; exact handAllClear_incidents ..
  rw [h3]
  refine releaseEffects_ok ?_
  show Incidents.recordsOk { l.incidents with slots := tput l.incidents.slots slot cleared }
  exact h.set hr rfl rfl rfl (fun hh => absurd rfl hh) (h.2.2.1 _ _ hr).2.2.1 (h.2.2.1 _ _ hr).2.2.2.1 rfl

/-- A displaced record is gone, and the others stay (R126). -/
theorem displaceRecord_spec {slot : Nat} {l : Line} (h : l.incidents.recordsOk) :
    (displaceRecord slot l).incidents.recordsOk ∧ (displaceRecord slot l).record? slot = none
      ∧ ∀ k, k ≠ slot → (displaceRecord slot l).record? k = l.record? k := by
  unfold displaceRecord
  split
  · rename_i r hr
    have h1 : ((noticeOf .displaced r (releaseEffects slot r l)).bump .displacement).incidents = (releaseEffects slot r l).incidents := by
      have hb : ∀ m : Line, (m.bump .displacement).incidents = m.incidents := fun _ => rfl
      rw [hb, noticeOf_incidents]
    generalize (noticeOf .displaced r (releaseEffects slot r l)).bump .displacement = m at h1 ⊢
    refine ⟨?_, ?_, fun k hk => ?_⟩
    · have h2 := (releaseEffects_ok (r := r) (slot := slot) h).remove slot
      rw [← h1] at h2; exact h2
    · show tfind (terase m.incidents.slots slot) slot = none
      rw [tfind_terase, if_pos rfl]
    · show tfind (terase m.incidents.slots slot) k = _
      rw [tfind_terase, if_neg (Ne.symm hk)]
      exact (Line.record_congr h1 k).trans (releaseEffects_other hk)
  · rename_i hr; exact ⟨h, hr, fun _ _ => rfl⟩

theorem oldestSlot_lt {l : Line} (h : l.incidents.recordsOk) {p : IncidentRecord → Bool} {slot : Nat} (hs : l.oldestSlot? p = some slot) : slot < 32 := by
  unfold Line.oldestSlot? at hs
  have key : ∀ (xs : List (Nat × IncidentRecord)) (b : Option (Nat × Nat)), (∀ e ∈ xs, e.1 < 32) → (∀ q, b = some q → q.1 < 32) →
      ∀ q, xs.foldl (fun best slot => let age := (l.timer - slot.2.lastUpdate).toNat
      match best with
      | some (_, oldest) => if oldest < age then some (slot.1, age) else best
      | none => some (slot.1, age)) b = some q → q.1 < 32 := by
    intro xs
    induction xs with
    | nil => intro b _ hb q hq; exact hb q hq
    | cons e xs ih =>
      intro b hx hb q hq
      refine ih _ (fun f hf => hx f (List.mem_cons_of_mem _ hf)) ?_ q hq
      intro q hq; dsimp only at hq
      split at hq
      · split at hq
        · cases hq; exact hx e (List.mem_cons_self ..)
        · exact hb _ hq
      · cases hq; exact hx e (List.mem_cons_self ..)
  obtain ⟨q, hq, rfl⟩ := Option.map_eq_some_iff.1 hs
  exact key _ none (fun e he => h.2.1 e (List.mem_filter.1 he).1) (fun _ h => nomatch h) q hq

/-- A raise that finds no live record keeps the table right (R125 to R128). -/
theorem recordRaise_ok {raise : Raise} {l : Line} (h : l.incidents.recordsOk) (hn : l.liveRecord? raise.cls raise.location = none) :
    (recordRaise raise l).1.incidents.recordsOk := by
  unfold recordRaise
  extract_lets l0 entry
  have h0 : l0.incidents = l.incidents := touch_incidents ..
  have hr0 : l0.incidents.recordsOk := h0 ▸ h
  have hk : ∀ a r, l0.record? a = some r → r.state ≠ .cleared → r.cls = raise.cls → r.location = raise.location → False :=
    fun a r ha => liveRecord_none hn ((Line.record_congr h0 a).symm.trans ha)
  split
  · rename_i slot ha
    unfold Line.allocate at ha
    split at ha
    · rename_i i hi
      cases ha
      have h1 := List.find?_some hi
      have h2 := List.mem_of_find?_eq_some hi
      exact createRecord_ok hr0 (by simpa [slotNumbers] using h2) (by simpa using h1) hk
    · split at ha
      · cases ha
      · split at ha
        · split at ha <;> cases ha
        · cases ha
  · rename_i slot ha
    have hs : slot < 32 := by
      unfold Line.allocate at ha; split at ha
      · cases ha
      · split at ha
        · rename_i hx; cases ha; exact oldestSlot_lt hr0 hx
        · split at ha
          · split at ha <;> cases ha
          · cases ha
    refine createRecord_ok (l := l0.removeRecord slot) (hr0.remove slot) hs ?_ ?_
    · unfold Line.removeRecord Line.record?; dsimp only; rw [tfind_terase, if_pos rfl]
    · intro a r har
      refine hk a r ?_
      change tfind (terase _ _) _ = _ at har
      rw [tfind_terase] at har; split at har
      · cases har
      · exact har
  · rename_i slot ha
    have hs : slot < 32 := by
      unfold Line.allocate at ha; split at ha
      · cases ha
      · split at ha
        · cases ha
        · split at ha
          · split at ha
            · rename_i hx; cases ha; exact oldestSlot_lt hr0 hx
            · cases ha
          · cases ha
    obtain ⟨d1, d2, d3⟩ := displaceRecord_spec (slot := slot) hr0
    refine createRecord_ok d1 hs d2 ?_
    intro a r har
    by_cases hh : a = slot
    · subst hh; rw [d2] at har; cases har
    · exact hk a r ((d3 a hh).symm.trans har)
  · unfold loseRaise; dsimp only; rw [sendNotice_incidents]; exact hr0

/-- A raise keeps the incident records right (R123). -/
theorem raiseOnce_ok {raise : Raise} {l : Line} (h : l.incidentsOk) : (raiseOnce raise l).1.incidentsOk := by
  unfold raiseOnce
  split
  · split
    · rename_i slot r hr
      obtain ⟨h1, h2, -, -⟩ := liveRecord_spec h.1 hr
      exact evaluateAlarm_ok (collapseInto_ok h.1 h1 h2)
    · rename_i hr
      have h1 := recordRaise_ok h.1 hr
      split; rename_i heq; rw [heq] at h1
      exact evaluateAlarm_ok h1
  · exact Line.incidentsOk_congr h rfl

/-- The end of a condition keeps the incident records right (R134). -/
theorem conditionEnd_ok {c : Nat} {loc : Location} {l : Line} (h : l.incidentsOk) : (conditionEnd c loc l).incidentsOk := by
  unfold conditionEnd
  split
  · exact Line.incidentsOk_congr h rfl
  · rename_i slot r hr
    obtain ⟨h1, h2, -, -⟩ := liveRecord_spec h.1 hr
    split
    · exact h
    · extract_lets l0
      have h0 : l0.incidents = l.incidents := touch_incidents ..
      split
      · exact clearRecord_ok (h0 ▸ h.1) ((Line.record_congr h0 _).trans h1)
      · refine evaluateAlarm_ok ?_
        rw [noticeOf_incidents]
        show Incidents.recordsOk { l0.incidents with slots := tput l0.incidents.slots slot _ }
        rw [h0]
        exact h.1.set h1 rfl rfl rfl (fun _ => h2) (h.1.2.2.1 _ _ h1).2.2.1 (h.1.2.2.1 _ _ h1).2.2.2.1 rfl

theorem recordOf_record {l : Line} (h : l.incidents.recordsOk) {n slot : Nat} {r : IncidentRecord} (hr : l.recordOf? n = some (slot, r)) :
    l.record? slot = some r := tfind_of_mem h.1 (List.mem_of_find?_eq_some hr)

/-- An acknowledgement keeps the incident records right (R131). -/
theorem incidentAck_ok {q : Request} {l : Line} (h : l.incidentsOk) : (incidentAck q l).1.incidentsOk := by
  unfold incidentAck
  split
  · exact h
  · split
    · exact h
    · rename_i slot r hr
      have h1 := recordOf_record h.1 hr
      split
      · exact h
      · rename_i hs
        extract_lets l0
        have h0 : l0.incidents = l.incidents := touch_incidents ..
        split
        · exact clearRecord_ok (h0 ▸ h.1) ((Line.record_congr h0 _).trans h1)
        · unfold acknowledge; dsimp only
          refine evaluateAlarm_ok ?_
          rw [noticeOf_incidents]
          show Incidents.recordsOk { l0.incidents with slots := tput l0.incidents.slots slot _ }
          rw [h0]
          refine h.1.set h1 rfl rfl rfl (fun _ => ?_) (h.1.2.2.1 _ _ h1).2.2.1 (h.1.2.2.1 _ _ h1).2.2.2.1 rfl
          simp at hs; rw [hs]; simp

/-- A clear keeps the incident records right (R132). -/
theorem incidentClear_ok {q : Request} {l : Line} (h : l.incidentsOk) : (incidentClear q l).1.incidentsOk := by
  unfold incidentClear
  split
  · exact h
  · split
    · exact h
    · rename_i slot r hr
      split
      · exact clearRecord_ok h.1 (recordOf_record h.1 hr)
      · exact h

/-- What leaves the incident records alone keeps them right. -/
theorem Line.incidentsOk_quiet : Quiet Line.incidentsOk where
  touch _ _ _ h := Line.incidentsOk_congr h (touch_incidents ..)
  bump _ _ h := Line.incidentsOk_congr h rfl
  emit _ _ _ _ _ _ h := Line.incidentsOk_congr h rfl
  ask _ _ h := Line.incidentsOk_congr h (askWriteCheck_incidents ..)
  reserved _ _ _ h := Line.incidentsOk_congr h rfl
  train _ _ _ h _ := Line.incidentsOk_congr h rfl
  sectionDyn _ _ _ h _ := Line.incidentsOk_congr h rfl
  level _ _ _ h := Line.incidentsOk_congr h rfl
  breakerDyn _ _ _ h _ := Line.incidentsOk_congr h rfl
  substationDyn _ _ _ h _ := Line.incidentsOk_congr h rfl
  zoneDyn _ _ _ h _ := Line.incidentsOk_congr h rfl

theorem Line.incidentsOk_stable : Stable Line.incidentsOk :=
  { Line.incidentsOk_quiet with
    unbound := fun _ _ _ h _ _ _ => Line.incidentsOk_congr h rfl
    majorDelay := fun _ _ _ h => Line.incidentsOk_congr h rfl
    raiseOnce := fun _ _ h => raiseOnce_ok h
    conditionEnd := fun _ _ _ h => conditionEnd_ok h }

end Sys2Proof.Machine
end

