-- ==== Sys2Proof/Laws/Service.lean ====
section
/-! SUPPORT. The service of a request on a Table Store without errors: what a command does that serves the head request, in one equation for each outcome. -/

namespace Sys2Proof.Machine

open Sys2Proof

theorem Line.idleWork_iff (l : Line) : l.idleWork = true ↔ l.outbox = [] ∧ l.poisonWork = [] ∧ l.writeChecks = [] := by
  simp [Line.idleWork, and_assoc]

theorem State.calm_iff (s : State) : s.calm = true ↔ s.line.store.errorFree = true ∧ s.line.idleWork = true := by simp [State.calm]

/-- Every waiting request asks for an operation in use, so none is answered out of turn. -/
theorem answerUnknown_known {s : State} (h : s.mgmt.known = true) (n : Nat) : answerUnknown n s = s := by
  cases n with
  | zero => rfl
  | succ n =>
    unfold answerUnknown; split
    · rename_i r rest heq
      rw [Mgmt.known, heq, List.all_cons, Bool.and_eq_true, decide_eq_true_iff] at h
      simp [Nat.not_le.2 h.1]
    · rfl

theorem Mgmt.known_finish {m : Mgmt} (h : m.known = true) (status : Status) : (m.finish status).known = true := by
  rw [Mgmt.known, List.all_eq_true] at h ⊢
  exact fun r hr => h r (List.mem_of_mem_drop hr)

/-- A single telegram left at the end of a command is placed. -/
theorem finish_emit (s : State) (o : Outgoing) (h : s.line.outbox = [o]) (hp : s.line.poisonWork = []) (hw : s.line.writeChecks = []) :
    finish s = State.place o { s with line := { s.line with outbox := [] } } := by
  unfold finish
  have h1 : s.onLine settle = s := by
    show { s with line := settle s.line } = s
    rw [settle_idle _ hp hw]
  rw [h1]; unfold State.flushOutbox; rw [h]; rfl

/-- The end of a command that has answered the head request: the reply is placed, and the request has left. -/
theorem finish_conclude (s : State) (r : Request) (reply : Reply) {l : Line} (hk : s.mgmt.known = true) (hl : l.idleWork = true) :
    finish (s.conclude r reply l) = State.replied { s with line := l } r reply := by
  have hi := l.idleWork_iff.1 hl
  unfold State.conclude
  rw [answerUnknown_known]
  · unfold State.answer
    rw [settle_idle l hi.2.1 hi.2.2]
    rw [finish_emit _ ⟨.management, .c, ⟨kindMgmtReply, r.source,
      [u8 r.operation, r.sequence, u8 reply.status.code] ++ be16 reply.index ++ reply.data⟩⟩]
    · show State.place _ { s with line := { l with outbox := [] }, mgmt := _ } = _
      rw [show { l with outbox := [] } = l by rw [← hi.1]]; rfl
    · show l.outbox ++ _ = _; rw [hi.1]; rfl
    · exact hi.2.1
    · exact hi.2.2
  · exact Mgmt.known_finish hk _

theorem State.serves.errorFree {s : State} {o : Operation} {r : Request} (h : s.serves o r) : s.line.store.errorFree = true :=
  (s.calm_iff.1 h.1).1

theorem State.serves.idleWork {s : State} {o : Operation} {r : Request} (h : s.serves o r) : s.line.idleWork = true :=
  (s.calm_iff.1 h.1).2

/-- Reads of a Store without errors change nothing. -/
theorem touchAll_errorFree {l : Line} (h : l.store.errorFree = true) (t : TableId) (is : List Nat) : touchAll t is l = l := by
  unfold touchAll
  induction is with
  | nil => rfl
  | cons i is ih => rw [List.foldl_cons, touch_errorFree h]; exact ih

/-- The reads for the commissioning state change nothing in a Store without errors. -/
theorem State.authorise_errorFree {s : State} (h : s.line.store.errorFree = true) (o : Operation) (r : Request) : s.authorise o r = s := by
  unfold State.authorise; split
  · show { s with line := touchAll _ _ s.line } = s
    rw [touchAll_errorFree h]
  · rfl

/-- The service of the head request by an operation: the reply that the operation gives, on the line that it leaves. -/
theorem State.serves.finish_serve {s : State} {o : Operation} {r : Request} (h : s.serves o r) (body : Request → State → Line × Reply)
    (hb : (body r s).1.idleWork = true) :
    finish (s.serve o body) = State.replied { s with line := (body r s).1 } r (body r s).2 := by
  unfold State.serve; rw [h.2.2.1]; dsimp only; rw [State.authorise_errorFree h.errorFree]; unfold State.perform; rw [h.2.2.2]; dsimp only
  exact finish_conclude s r _ h.2.1 hb

/-- The service of the head request by an operation that changes nothing on the line. -/
theorem State.serves.finish_serve_same {s : State} {o : Operation} {r : Request} (h : s.serves o r)
    (body : Request → State → Line × Reply) (hb : (body r s).1 = s.line) : finish (s.serve o body) = s.replied r (body r s).2 := by
  rw [h.finish_serve body (by rw [hb]; exact (s.calm_iff.1 h.1).2), hb]

end Sys2Proof.Machine
end

