-- ==== Sys2Proof/Tests/Slice0.lean ====
section
/-! SUPPORT. Tests: what is ill formed is refused by the checks, numbers of the spec's worked examples, and, for every statement that has hypotheses, a
state and operands that meet them, clause by clause. -/

namespace Sys2Proof.Tests

open Sys2Proof Sys2Proof.Machine

/-! ## A small line -/

/-- Six units in a window of 64 addresses from 64 on: a clock, a train unit, a platform controller, an RTU, a PA controller, a CONTROL workstation. -/
def tables : Tables :=
  { Tables.powerOn with
    unitMap :=
      [(0, ⟨.clock, 0, .view⟩), (1, ⟨.trainUnit, 3, .view⟩), (2, ⟨.platform, 5, .view⟩), (3, ⟨.rtu, 0, .view⟩),
        (4, ⟨.paController, 2, .view⟩), (5, ⟨.workstation, 0, .control⟩)]
    run0 := [(0, ⟨true, 100, 0, 2⟩)]
    passage0 := [(0, ⟨5, 5000, 300, false⟩), (1, ⟨5, 6000, 300, false⟩)]
    segment := [(7, ⟨1, some 5, some 2⟩)]
    timingPoint := [(5, ⟨2, some 2, 1, 200, 900, 8, 16, 3000, 300, 30⟩)]
    sect := [(1, ⟨[0], 150, 300, 10⟩)]
    breaker := [(0, ⟨some 1⟩)]
    substation := [(0, ⟨some 3, 1000, 200, 2, 500, 3000, 4500, 6000, 400⟩)]
    template := [(6, ⟨[10], none, .routine, 10, 2, 300⟩)]
    zone := [(2, ⟨some 4, [5], .three, 5, 2⟩)] }

/-- The line with these tables, every job RUNNING, and the clock SET to day 5, line time 1,000 at service time 100,000. -/
def line : Line :=
  { Line.powerOn 0 with
    timer := 100000
    config := { LineConfig.powerOn 0 with windowBase := 64, windowSize := 64 }
    jobs := ⟨true, true, true, true⟩
    clock := ⟨true, 1000, 5, 100000⟩
    tables := tables
    store := { Store.powerOn with passStart := 150000 } }

/-- Both ports UP, and that line. -/
def bench : State :=
  { State.powerOn 0 with path := { Path.powerOn with portC := { PortState.powerOn with up := true }, portF := { PortState.powerOn with up := true } }, line := line }

def onLine (f : Line → Line) : State := bench.onLine f

/-- The line with the train unit's Unit Map entry poisoned, and with template 6 poisoned. -/
def poisonedLine (l : Line) : Line := { l with store := { l.store with health := [(1, ⟨0, true, true⟩)] } }
def poisonedTemplate (l : Line) : Line := { l with store := { l.store with health := [(39674, ⟨0, true, true⟩)] } }

/-- The head of a telegram from `src` to `dst`. -/
def head (dst src : BitVec 16) : Head := ⟨0, dst, src, 9, []⟩

/-- A request of the CONTROL workstation for an operation. -/
def request (o : Operation) (table index : Nat) (data : List Byte) : Request :=
  ⟨69, some ⟨.workstation, 0, .control⟩, 7, o.code, o.space, table, 1, index, 0, data⟩

def asked (r : Request) (s : State) : State := { s with mgmt := { s.mgmt with queue := [r] } }

/-! ## Ill-formed commands, one for each check -/

theorem test_ill_formed_objects :
    (Instr.lossDeadline 64).wellFormed = false ∧ (Instr.pulseEnd 48).wellFormed = false ∧ (Instr.expectUntil 48).wellFormed = false
      ∧ (Instr.restoreDeadline 24).wellFormed = false ∧ (Instr.scanTime 12).wellFormed = false
      ∧ (Instr.replyDeadline 12).wellFormed = false ∧ (Instr.airtimeDeadline 40).wellFormed = false
      ∧ (Instr.retryTime 40).wellFormed = false := by decide

/-- A head whose extra bytes leave no room for the fields of any kind that has some. -/
def longHead : Head := { head 1 65 with extra := List.replicate 55 0 }

theorem test_ill_formed_telegrams :
    (Instr.time .c longHead 0 0).wellFormed = false ∧ (Instr.position .f longHead 0 0).wellFormed = false
      ∧ (Instr.stopEvent .f longHead 0 0 0).wellFormed = false ∧ (Instr.rtuPoints .f longHead 0 0 0 0 0 0).wellFormed = false
      ∧ (Instr.rtuAck .f longHead 0).wellFormed = false ∧ (Instr.breakerCmd .c longHead 0 0 0).wellFormed = false
      ∧ (Instr.paStatus .f longHead 0 0).wellFormed = false ∧ (Instr.paRequest .c longHead 0 0 0 0 0 0).wellFormed = false
      ∧ (Instr.fieldAlarm .f longHead 0 0 0).wellFormed = false
      ∧ (Instr.mgmtRequest .c longHead 0 0 0 0 0 0 []).wellFormed = false := by decide

theorem test_well_formed_at_the_bounds :
    (Instr.lossDeadline 63).wellFormed = true ∧ (Instr.pulseEnd 47).wellFormed = true ∧ (Instr.restoreDeadline 23).wellFormed = true
      ∧ (Instr.scanTime 11).wellFormed = true ∧ (Instr.retryTime 39).wellFormed = true
      ∧ (Instr.mgmtRequest .c (head 1 65) 0 0 0 0 0 0 (List.replicate 48 0)).wellFormed = true := by decide

/-- No row of the table has bits, so no word spells a command. -/
theorem test_no_word_spells_a_command : decodeTableWord 16 0 = none ∧ State.reset.withFetchWord 16 0 = State.reset := by decide

/-! ## Worked examples of the spec -/

/-- Section 2.2's example: 123 whole intervals of 100 ms after a TIME of line time 300,000. -/
theorem test_line_time : ({ line with clock := ⟨true, 300000, 5, 1000000⟩, timer := 1012345 } : Line).lineTime = 300123 := by decide

/-- Section 4.11, case 1: R71 to R75 on a loaded section. -/
theorem test_dwell_case1 :
    arrivalLateness 29820 30000 300 = 120 ∧ scheduleError 29820 30000 300 = 120
      ∧ headwayError 29820 30000 300 3000 (some ⟨1, 27400, 27600⟩) = some 320
      ∧ targetDwell ⟨0, none, 0, 200, 900, 8, 16, 3000, 0, 0⟩ 300 120 (some 320) = 200
      ∧ stagger 29820 200 150 900 (some 30000) = (330, false) ∧ dwellSeconds 330 = 33 := by decide

/-- Section 4.11, case 2: across the start of the service day. -/
theorem test_dwell_case2 :
    arrivalLateness 863900 5 150 = 45 ∧ scheduleError 863900 5 150 = 45
      ∧ headwayError 863900 5 150 2400 (some ⟨1, 863830, 863800⟩) = some 15
      ∧ targetDwell ⟨0, none, 0, 100, 600, 4, 24, 2400, 0, 0⟩ 150 45 (some 15) = 134
      ∧ lineTimePlus 863900 134 = 34 ∧ dwellSeconds 134 = 13 := by decide

/-- Section 6.6's table, replies 2 to 11: level and low-count. -/
theorem test_load_levels :
    (let e : SubstationEntry := ⟨none, 1000, 200, 2, 500, 3000, 4500, 6000, 400⟩
     levelAfter e 0 0 3200 = (1, 0) ∧ levelAfter e 1 0 4700 = (2, 0) ∧ levelAfter e 2 0 6100 = (3, 0) ∧ levelAfter e 3 0 5700 = (3, 0)
       ∧ levelAfter e 3 0 5500 = (3, 1) ∧ levelAfter e 3 1 5400 = (3, 2) ∧ levelAfter e 3 2 6050 = (3, 0)
       ∧ levelAfter e 3 2 4000 = (2, 0) ∧ levelAfter e 2 0 3900 = (2, 1)) := by decide

/-- Section 1.7's example: Port F with R = 2, three forwarded and sixteen injected telegrams, H held for TIMETABLE. -/
def arbitration : PortState :=
  { PortState.powerOn with
    up := true, sequence := 17
    forward := (List.range 3).map fun k => ⟨BitVec.ofNat 96 k, 0, [], true⟩
    inject := (List.range 16).map fun k => ⟨BitVec.ofNat 8 k, 0, []⟩
    holding := { Holding.empty with timetable := some ⟨99, 0, []⟩ } }

/-- The port after `n` grants, each followed by the end of its transmission. -/
def grants : Nat → PortState
  | 0 => arbitration
  | n + 1 => ({ grants n with transmitting := none } : PortState).grant ⟨2, 1⟩

theorem test_arbitration_after_grant_1 :
    (grants 1).sequence = 18 ∧ (grants 1).consecutive = 1 ∧ (grants 1).inject.length = 16 ∧ (grants 1).holding.timetable = none
      ∧ (grants 1).inject.getLast? = some ⟨99, 0, []⟩ := by decide

theorem test_arbitration_after_grant_6 :
    (grants 6).sequence = 21 ∧ (grants 6).consecutive = 0 ∧ (grants 6).forward.map Frame.addresses = [2]
      ∧ (grants 6).inject.map Injected.kind = [4, 5, 6, 7, 8, 9, 10, 11, 12, 13, 14, 15, 99] := by decide

/-- A TIME telegram byte by byte from R172, from the clock at 64 to the unit: day 5, line time 300,000; header words 0x0105, 0xFFFF, 0x0040, 0x0906 and
payload words 0x0005, 0x0004, 0x93E0 sum to 0x9E33 modulo 65,536. -/
def timeTelegram : List Byte :=
  [1, 5, 0xFF, 0xFF, 0, 64, 9, 6, 0, 5, 0, 4, 0x93, 0xE0, 0x9E, 0x33] ++ List.replicate 30 0

theorem test_time_telegram : receiveChecks timeTelegram = .good ⟨5, 65535, 64, 9, [0, 5, 0, 4, 0x93, 0xE0]⟩ := by decide

theorem test_time_telegram_built : (headFrame (head 0xFFFF 64) kindTime (be16 5 ++ be32 300000)).data = timeTelegram := by decide

/-- After POWER_ON nothing is due but the first visit of the scrubber (log entry 2). -/
theorem test_reset_due : State.reset.due = [.scrubVisit] := by decide

/-! ## What meets the hypotheses of the statements -/

theorem bench_calm : bench.calm = true := by decide

theorem tget_one {α : Type} (i v : α) (k j : Nat) : tget i [(k, v)] j = if k = j then v else i := by
  unfold tget tfind; split <;> rfl

/-- StepTakesFront. -/
theorem witness_step_takes_front : ∃ t, exec .identify bench = .next t := ⟨_, rfl⟩

/-- IdleStep: with nothing due, and with a visit of the scrubber due. -/
theorem witness_idle_step : bench.pending = [] ∧ bench.due = [] ∧ State.reset.pending = [] ∧ State.reset.due ≠ [] := by decide

/-- SoundnessKept, at the reset state and on the bench. -/
theorem witness_soundness : bench.ok = true ∧ State.reset.ok = true ∧ ∃ t, step bench = .next t := ⟨by decide, by decide, _, rfl⟩

/-- A train in section 1, as the Tracker holds it. -/
def standing : Train :=
  { Train.inactive with active := true, state := .dwelling, lastSegment := some 7, sect := some 1, timingPoint := some 5, lastReport := 90000 }

def withTrain (t : Train) (l : Line) : Line :=
  { l with tracker := { l.tracker with trains := [(3, t)], occupancy := [(1, 1)] } }

/-- TrainRelationsKept. -/
theorem witness_train_relations : (withTrain standing line).trainsOk := by
  intro v; unfold Line.train tget withTrain tfind; split
  · decide
  · rfl

/-- OccupancyKept. -/
theorem witness_occupancy : (withTrain standing line).occupancyOk := by
  refine ⟨by decide, fun v => ?_, fun x => ?_⟩
  · unfold Line.train tget withTrain tfind; split
    · decide
    · exact fun _ => ⟨rfl, rfl⟩
  · by_cases h : 1 = x
    · subst h; decide
    · have hb : (some 1 == some x) = false := by simpa using h
      simp [Line.occupancy, Line.trainsIn, withTrain, tget, tfind, h, standing]

/-- A record of class 20 at station 2, with a severity, a state, a time of last update and whether its condition has ended. -/
def record (severity : Severity) (state : IncidentState) (lastUpdate : Ticks) (ended : Bool) : IncidentRecord :=
  { serial := 9, cls := 20, severity := severity, effects := .alarmOnly, location := ⟨.station, 2⟩, coverage := ⟨[1], [5], [2]⟩
    source := 69, detail := none, firstTime := none, lastTime := none, lastUpdate := lastUpdate, count := 255, state := state
    conditionEnded := ended, holdTold := false, escalated := false }

def withRecord (r : IncidentRecord) (l : Line) : Line := l.setRecord 31 r

/-- IncidentsKept: a line with one record, OPEN with an alarm and the summary ASSERTED. -/
def alarmed : Line :=
  { line with incidents := { line.incidents with slots := [(31, record .minor .opened 7 false)], nextSerial := 10, asserted := true } }

theorem witness_incidents : alarmed.incidentsOk := by
  have one : ∀ slot r, tfind alarmed.incidents.slots slot = some r → slot = 31 ∧ r = record .minor .opened 7 false := by
    intro slot r h
    by_cases hs : (31 : Nat) = slot
    · subst hs; cases h; exact ⟨rfl, rfl⟩
    · simp [alarmed, tfind, hs] at h
  refine ⟨⟨by decide, by decide, fun slot r h => ?_, fun a b r q hr hq _ => ?_, fun a b r q hr hq _ _ _ _ => ?_, by decide, by decide⟩, by decide⟩
  · rw [(one slot r h).2]; decide
  · rw [(one a r hr).1, (one b q hq).1]
  · rw [(one a r hr).1, (one b q hq).1]

/-- An entry of template 6 from the centre, and a line whose zone 2 is in a given state with it as current play. -/
def entry (repeats : Nat) : Entry := ⟨6, none, .routine, .centre 69, repeats, 200000⟩

def playing (state : PlayState) (repeats : Nat) (queue : List Entry) (retries : Nat) (l : Line) : Line :=
  l.setZoneDyn 2 ⟨queue, state, some ⟨entry repeats, false⟩, 7, some 100000, some 100000, retries, 0⟩

/-- ZonesKept: a zone that plays, with an entry waiting. -/
theorem witness_zones :
    (line.setZoneDyn 2 ⟨[{ entry 1 with template := 7 }], .playing, some ⟨entry 1, false⟩, 7, some 100000, none, 0, 0⟩).zonesOk := by
  intro z; show ZoneDyn.ok (tget _ [(2, _)] z); rw [tget_one]; split
  · refine ⟨by decide, by decide, fun play e hp he => ?_, by decide, by decide, by decide⟩
    cases hp; cases he with
    | head => decide
    | tail _ h => nomatch h
  · refine ⟨by decide, by decide, fun _ _ h => ?_, by decide⟩
    cases h

/-- Train 3 bound to run 0, which is ACTIVE. -/
def bindTo (t : Train) (l : Line) : Line := (withTrain { t with run := some 0 } l).setRunStatus 0 ⟨.active, some 3⟩

/-- Bank 1 with run 100 in slot 4, whose second passage is at timing point 5; its activation is pending for line time 1,001 of day 5, and line
time advances to it. -/
def rebinding : State :=
  { bench with
    line :=
      bindTo standing
        { line with
          timer := 100100, timetable := ⟨0, some ⟨1, 5, 1001⟩⟩
          tables := { tables with run1 := [(4, ⟨true, 100, 9, 2⟩)], passage1 := [(10, ⟨5, 7000, 300, false⟩)] } } }

/-- BindingsKept. -/
theorem witness_bindings : rebinding.line.bindingsOk := by
  have numbers (k : Nat) (r : RunRecord) (a b : Nat) (ha : (tget RunRecord.initial [(k, r)] a).valid = true)
      (hb : (tget RunRecord.initial [(k, r)] b).valid = true) : a = b := by
    rw [tget_one] at ha hb
    split at ha
    · split at hb
      · omega
      · cases hb
    · cases ha
  refine ⟨fun v slot h => ?_, fun slot v h => ?_, fun slot h => ?_, by decide, fun a b _ _ ha hb _ => numbers 0 _ a b ha hb, fun a h => ?_⟩
  · replace h : (tget Train.inactive [(3, _)] v).run = some slot := h
    rw [tget_one] at h; split at h
    · cases h; subst v; decide
    · cases h
  · replace h : (tget RunStatus.initial [(0, _)] slot).vehicle = some v := h
    rw [tget_one] at h; split at h
    · cases h; subst slot; decide
    · cases h
  · replace h : (tget RunStatus.initial [(0, _)] slot).state = .active := h
    show (tget RunStatus.initial [(0, _)] slot).vehicle.isSome = true
    rw [tget_one] at h ⊢; split at h
    · rw [if_pos ‹_›]; rfl
    · cases h
  · cases h; exact ⟨by decide, fun a b _ _ ha hb _ => numbers 4 _ a b ha hb⟩

/-- IsolationCountsKept: section 1 isolated by one record. -/
theorem witness_isolation_counts :
    (Line.setSectionDyn 1 ⟨.isolated, 1, none, false⟩
      (withRecord { record .major .opened 7 false with effects := ⟨true, false, false, true⟩ } line)).isolationOk := by
  intro x; show (tget SectionDyn.initial [(1, _)] x).isolation = _; rw [tget_one]; split
  · subst x; decide
  · rename_i h
    have hc : (([1] : List Nat).contains x) = false := by simpa using Ne.symm h
    simp [withRecord, record, Line.setRecord, Line.setSectionDyn, line, Line.powerOn, Incidents.powerOn, tput, terase, tinsert, Ne.symm h]
    rfl

/-- PlantRelationsKept. -/
theorem witness_plant : bench.ok = true ∧ line.plantOk := by
  refine ⟨by decide, fun b => ?_, fun _ => ?_, fun _ => ?_⟩
  · have h : line.output b = .none := by
      show Quad.get (⟨Switching.none, Switching.none, Switching.none, Switching.none⟩ : Quad Switching) (b % 4) = _
      unfold Quad.get; split <;> rfl
    rw [Line.breakerOk, h]
    have hb : line.breakerDyn b = .initial := rfl
    rw [hb]; decide
  · show SubstationDyn.ok .initial; decide
  · show SectionDyn.ok .initial; decide

/-- The frame statements: a command of each that they exempt from nothing. -/
theorem witness_frames : bench.calm = true ∧ (∃ t, exec .sweep bench = .next t) ∧ (∃ t, exec (.lossDeadline 3) bench = .next t)
    ∧ ∃ t, exec (.pulseEnd 0) bench = .next t := ⟨bench_calm, ⟨_, rfl⟩, ⟨_, rfl⟩, _, rfl⟩

/-- TelegramsReadBack, at the largest payload, and for the notice copy. -/
theorem witness_read_back :
    (List.replicate 56 (0 : Byte)).length + (head 1 2).extra.length ≤ 56
      ∧ leastPayload kindIncidentNotice ≤ (List.replicate 56 (0 : Byte)).length + (head 1 2).extra.length
      ∧ receiveChecks timeTelegram = .good ⟨5, 65535, 64, 9, [0, 5, 0, 4, 0x93, 0xE0]⟩ ∧ 300 < 65536 := by decide

/-- BadFramesDropped: a DOWN port, and each cause on an UP port, with frames of 45 and 46 bytes. -/
theorem witness_bad_frames :
    bench.line.idleWork = true ∧ (State.reset.path.port .c).up = false ∧ (bench.path.port .c).up = true
      ∧ (List.replicate 45 (0 : Byte)).length < 46 ∧ 46 ≤ timeTelegram.length
      ∧ 56 < rd8 (timeTelegram.set 7 57) 7
      ∧ rd16 (timeTelegram.set 15 0) (8 + rd8 timeTelegram 7) ≠ wordSum (timeTelegram.take (8 + rd8 timeTelegram 7)) % 65536
      ∧ rd8 (timeTelegram.set 0 2) 0 ≠ 1 ∧ rd8 timeTelegram 0 = 1 ∧ rd8 (timeTelegram.set 7 5) 7 < leastPayload (timeTelegram.getD 1 0) := by
  decide

/-- TransparentUnit: the window disabled, and a telegram to another unit and to the LX4 itself. -/
theorem witness_transparent :
    State.reset.line.idleWork = true ∧ State.reset.line.config.windowSize = 0 ∧ (bench.path.port .f).up = true
      ∧ 65535 ≠ State.reset.line.config.ownAddress ∧ State.reset.line.config.ownAddress = 65024 ∧ kindTime ≠ kindMgmtRequest
      ∧ (onLine fun _ => Line.powerOn 0).line.config.windowSize = 0 := by decide

/-- TransparentUnit, with the window enabled on addresses 64 to 127: an invalid address, a source outside, one whose entry is poisoned, one UNASSIGNED
(the last of the window), one of another kind, and destinations of the right kind and of another. -/
theorem witness_untaken :
    (poisonedLine line).store.errorFree = true ∧ line.config.windowBase = 64 ∧ 64 + line.config.windowSize = 128
      ∧ (poisonedLine line).unitEntry? (65 - 64) = none ∧ line.unitEntry? (127 - 64) = some ⟨.unassigned, 0, .view⟩
      ∧ line.unitEntry? (64 - 64) = some ⟨.clock, 0, .view⟩ ∧ (line.mapped 67).map UnitEntry.kind = some .rtu
      ∧ (line.mapped 68).map UnitEntry.kind ≠ some .rtu ∧ (line.mapped 128).map UnitEntry.kind = none
      ∧ receiveChecks timeTelegram = .good ⟨5, 65535, 64, 9, [0, 5, 0, 4, 0x93, 0xE0]⟩
      ∧ receiveChecks (headFrame (head 0 64) kindTime (be16 5 ++ be32 300000)).data = .good ⟨5, 0, 64, 9, [0, 5, 0, 4, 0x93, 0xE0]⟩ := by
  decide

/-- PortQueues: an UP port with an idle transmitter and nothing queued. -/
theorem witness_idle_port :
    (bench.path.port .f).up = true ∧ (bench.path.port .f).transmitting = none ∧ (bench.path.port .f).forward = []
      ∧ (bench.path.port .f).inject = [] ∧ ∀ k, (bench.path.port .f).holding.get k = none := by
  refine ⟨rfl, rfl, rfl, rfl, fun k => ?_⟩; cases k <;> rfl

/-- PortQueues: a DOWN port, full queues at their bounds, an occupied holding place; both queues waiting below and at R, with and without a held
telegram. -/
theorem witness_port_queues :
    PortState.powerOn.up = false ∧ (List.replicate 32 (0 : Byte)).length ≥ 32 ∧ arbitration.up = true
      ∧ (arbitration.holding.get .timetable).isSome = true ∧ arbitration.holding.get .power = none ∧ 16 ≤ arbitration.inject.length
      ∧ (grants 3).inject.length < 16 ∧ (grants 3).transmitting.isSome = true ∧ (grants 1).transmitting.isSome = true
      ∧ (grants 1).inject.length ≤ 16 ∧ (grants 1).consecutive < 2 ∧ (grants 2).consecutive = 2
      ∧ (placers.find? fun k => (arbitration.holding.get k).isSome) = some .timetable := by decide

theorem witness_no_held : ∀ p, (grants 1).holding.get p = none := by intro p; cases p <;> decide

/-- One port DOWN with the condition flag set, and both UP. -/
def oneDown : State := { bench with path := { bench.path with portC := PortState.powerOn, linkCondition := true } }

/-- LINK_DOWN recorded, in a state, its condition ended or not. -/
def linkDown (state : IncidentState) (ended : Bool) : Line := withRecord { record .major state 7 ended with cls := 14, location := ⟨.line, 0⟩ } line

/-- LinkChanges: both ports in both states, no record, and a live one OPEN, ended, or ACKNOWLEDGED in a class that clears itself. -/
theorem witness_links :
    bench.calm = true ∧ (bench.path.port .c).up = true ∧ (State.reset.path.port .c).up = false
      ∧ (State.reset.path.port (opposite .c)).up = false ∧ (oneDown.path.port .c).up = false
      ∧ (oneDown.path.port (opposite .c)).up = true ∧ oneDown.path.linkCondition = true ∧ oneDown.line.liveRecord? 14 ⟨.line, 0⟩ = none
      ∧ State.reset.line.jobs.incident = false ∧ bench.line.jobs.incident = true ∧ bench.line.record? 31 = none
      ∧ (bench.path.port .c).counter .flushed + (bench.path.port .c).queued ≤ counterMax
      ∧ ((linkDown .opened false).liveRecord? 14 ⟨.line, 0⟩).map (fun e => (e.1, e.2.state, e.2.conditionEnded)) = some (31, .opened, false)
      ∧ ((linkDown .acknowledged true).liveRecord? 14 ⟨.line, 0⟩).isSome = true ∧ (line.classAs 14).autoClear = true := by decide

/-- TimeSetsClock: at line times 863,999 and 864,000, with the clock UNSET and SET, and steps of 50 and 51 ds. -/
theorem witness_time :
    bench.calm = true ∧ bench.accepts .c (head 0xFFFF 64) 6 = true ∧ bench.line.unitAt 64 .clock 0 ∧ (863999 : BitVec 32).toNat < 864000
      ∧ 864000 ≤ (864000 : BitVec 32).toNat ∧ bench.line.timetable.activation = none ∧ bench.line.clock.isSet = true
      ∧ (Line.powerOn 0).clock.isSet = false ∧ bench.line.dayNumber = 5 ∧ bench.line.lineTime = 1000
      ∧ bench.line.lineTime + 50 < 1051 ∧ ¬bench.line.lineTime + 50 < 1050 := by decide

/-- TimeSetsClock over midnight (R27): the table's cases of 40 and of 120 ds, the day before 0 and the day after 65,535, and a day further off. -/
theorem witness_time_midnight :
    (let l : Line := { line with clock := ⟨true, 863980, 411, 100000⟩ }
     l.lineTime = 863980 ∧ l.dayNumber = 411 ∧ 20 + 864000 ≤ l.lineTime + 50 ∧ 20 + 864000 - l.lineTime = 40 ∧ ¬100 + 864000 ≤ l.lineTime + 50
       ∧ (412 : BitVec 16).toNat = (l.dayNumber + 1) % 65536 ∧ (413 : BitVec 16).toNat ≠ (l.dayNumber + 1) % 65536)
      ∧ (let l : Line := { line with clock := ⟨true, 20, 0, 100000⟩ }
         l.dayNumber = ((65535 : BitVec 16).toNat + 1) % 65536 ∧ l.lineTime + 864000 ≤ (863980 : BitVec 32).toNat + 50) := by decide

/-- Section 2.3's table: 40 ds over midnight is not counted, 120 ds is. -/
theorem test_clock_step :
    stepCounted (clockStep 411 863980 412 20) = false ∧ stepCounted (clockStep 411 863980 412 100) = true
      ∧ stepCounted (clockStep 411 863980 411 863900) = true ∧ stepCounted (clockStep 411 863980 413 0) = true := by decide

/-- LineTimeAdvances: not advancing, advancing within the day, reaching its end, and an activation due at the line time itself. -/
theorem witness_line_time :
    bench.line.advancing = false ∧ ({ line with timer := 100100 } : Line).advancing = true
      ∧ ({ line with timer := 100100 } : Line).sinceAnchor < 864000 ∧ line.clock.anchorLine < 864000
      ∧ (let l : Line := { line with timer := 100100, clock := ⟨true, 863999, 5, 100000⟩ }
         l.advancing = true ∧ 864000 ≤ l.sinceAnchor ∧ l.clock.anchorLine < 864000)
      ∧ (let l : Line := { line with timer := 100100, timetable := ⟨0, some ⟨1, 5, 1001⟩⟩ }
         l.advancing = true ∧ dayOffset l.dayNumber 5 = 0 ∧ 1001 ≤ l.lineTime ∧ 0 < dayOffset l.dayNumber 4) := by decide

/-- ActivationRequests: bank 1 at the largest line time, the refused values, and a pending activation to cancel. -/
theorem witness_activation :
    (asked (request .ttActivate 1 5 (be32 863999)) bench).serves .ttActivate (request .ttActivate 1 5 (be32 863999))
      ∧ rd32 (be32 863999) 0 < 864000 ∧ 864000 ≤ rd32 (be32 864000) 0 ∧ bench.line.timetable.activation = none
      ∧ 1 ≠ bench.line.timetable.active ∧ 0 = bench.line.timetable.active
      ∧ (asked (request .ttCancel 0 0 []) bench).serves .ttCancel (request .ttCancel 0 0 [])
      ∧ ({ line with timetable := ⟨0, some ⟨1, 6, 0⟩⟩ } : Line).timetable.activation = some ⟨1, 6, 0⟩ := by decide

/-- ActivationRebinds (its bindings: witness_bindings): train 3 has run 100 and is due at timing point 5; slot 4 of bank 1 is that run's lowest slot, and passage 10 its first at
timing point 5. Without the passage, without the run, and with the old run poisoned, the train is dropped. -/
theorem witness_rebinding :
    (let l := rebinding.line
     rebinding.calm = true ∧ l.advancing = true ∧ l.clock.anchorLine < 864000 ∧ l.timetable.activation = some ⟨1, 5, 1001⟩
       ∧ dayOffset l.dayNumber 5 = 0 ∧ 1001 ≤ l.lineTime ∧ (l.train 3).run = some 0 ∧ (l.train 4).run = none
       ∧ l.run? 0 0 = some ⟨true, 100, 0, 2⟩ ∧ l.passage? 0 (l.train 3).nextPassage = some ⟨5, 5000, 300, false⟩
       ∧ l.run? 1 4 = some ⟨true, 100, 9, 2⟩ ∧ ((List.range 4).all fun i => (l.run? 1 i).all fun g => !g.valid) = true
       ∧ l.passage? 1 10 = some ⟨5, 7000, 300, false⟩ ∧ (l.passage? 1 9).all (fun g => g.timingPoint != 5) = true
       ∧ ({ l with tables := { l.tables with passage1 := [] } } : Line).passage? 1 10 = some .initial
       ∧ ({ l with tables := { l.tables with run1 := [] } } : Line).run? 1 4 = some .initial
       ∧ ({ l with store := { l.store with health := [(4096, ⟨0, true, true⟩)] } } : Line).run? 0 0 = none
       ∧ l.jobs.incident = true ∧ l.liveRecord? 9 ⟨.train, 3⟩ = none ∧ l.record? 0 = none) := by decide

/-- A validation of bank 1 under way, with a valid run of number 0 in slot 0 of it. -/
def validating : State :=
  { asked (request .ttActivate 1 5 (be32 0)) (onLine fun l => { l with tables := { l.tables with run1 := [(0, ⟨true, 0, 0, 1⟩)] } }) with
    mgmt := { Mgmt.powerOn with queue := [request .ttActivate 1 5 (be32 0)], validating := some ⟨⟨1, 5, 0⟩, 99960⟩ } }

/-- ValidationEnds: a validation that fails at the first slot, due and not due. -/
theorem witness_validation_fails :
    validating.calm = true ∧ validating.mgmt.known = true ∧ validating.mgmt.validating = some ⟨⟨1, 5, 0⟩, 99960⟩
      ∧ validating.line.activationDue ⟨1, 5, 0⟩ = true ∧ validating.line.activationDue ⟨1, 6, 0⟩ = false := by decide

theorem witness_validation_failure : (validate 1 validating.line).2 = some ⟨0, .runNumber, 0⟩ := by
  unfold validate runSlots; rw [List.range_succ_eq_map]
  generalize List.map Nat.succ (List.range 1023) = rest
  rfl

/-- An empty run slot passes. -/
theorem empty_bank_passes (slots : List Nat) (h : ∀ k, k ∈ slots → k < 1024) : (checkRuns 1 slots [] line).2 = none := by
  induction slots with
  | nil => rfl
  | cons k slots ih =>
    have hk : k < 1024 := h k (List.mem_cons_self ..)
    have hp : storePlace .run1 k = some (5120 + k) := by simp [storePlace, TableId.base?, TableId.size, hk]
    have hr : line.run? 1 k = some .initial := by
      unfold Line.run? Line.usable; rw [show runId 1 = TableId.run1 from rfl, hp]; rfl
    have ht : touch .run1 k line = line := by unfold touch; rw [hp]; rfl
    unfold checkRuns
    rw [show runId 1 = TableId.run1 from rfl, ht]; dsimp only
    rw [hr]
    exact ih fun j hj => h j (List.mem_cons_of_mem _ hj)

/-- ValidationEnds: a bank without a valid run passes. -/
theorem witness_validation_passes : line.store.errorFree = true ∧ (validate 1 line).2 = none :=
  ⟨by decide, empty_bank_passes _ fun _ hk => List.mem_range.1 hk⟩

/-- PositionTaken: TIMETABLE RUNNING and STOPPED; segment 7, in another section than the train's, and a segment number that names none. -/
theorem witness_position :
    bench.calm = true ∧ bench.accepts .f (head 69 65) 6 = true ∧ bench.line.unitAt 65 .trainUnit 3 ∧ bench.line.jobs.timetable = true
      ∧ State.reset.line.jobs.timetable = false ∧ bench.line.segment? 7 = some ⟨1, some 5, some 2⟩ ∧ bench.line.segment? 512 = none
      ∧ bench.line.segment? 511 ≠ none
      ∧ (bench.line.train 3).lastSegment ≠ some 7 ∧ (bench.line.train 3).state ≠ .lost ∧ (bench.line.train 3).sect ≠ some 1
      ∧ ((withTrain standing line).train 3).lastSegment = some 7 := by decide

/-- Train 3 LOST at timing point 5 in section 1, or on the way, with or without a record of its loss. -/
def lost (before : TrainState) (state : IncidentState) (ended : Bool) : Line :=
  withTrain { standing with state := .lost, stateBeforeLoss := before, timingPoint := if before = .running then none else some 5 }
    (withRecord { record .major state 7 ended with cls := 7, location := ⟨.train, 3⟩ } line)

/-- PositionTaken, StopEventTaken and StopEventMatching: a LOST train that stood and one that ran, with its loss recorded, OPEN or ended. -/
theorem witness_lost_train :
    (onLine fun _ => lost .held .opened false).calm = true ∧ ((lost .dwelling .opened false).train 3).stoodAt 5
      ∧ ((lost .running .opened false).train 3).ran ∧ ((lost .held .opened false).train 3).sect = some 1
      ∧ ((lost .held .opened false).liveRecord? 7 ⟨.train, 3⟩).map (fun e => (e.1, e.2.state, e.2.conditionEnded)) = some (31, .opened, false)
      ∧ ((lost .held .acknowledged true).liveRecord? 7 ⟨.train, 3⟩).map (fun e => e.2.conditionEnded) = some true
      ∧ (lost .held .cleared true).liveRecord? 7 ⟨.train, 3⟩ = none ∧ ((lost .held .opened false).train 3).lastSegment = some 7 := by decide

theorem witness_loss_stands : (lost .held .opened false).lossStands 3 := by
  intro slot old h
  have : (lost .held .opened false).liveRecord? 7 ⟨.train, 3⟩
      = some (31, { record .major .opened 7 false with cls := 7, location := ⟨.train, 3⟩ }) := by decide
  rw [this] at h; cases h; exact .inl rfl

/-- StopEventTaken: no train unit at an address; a time out of range, while TIMETABLE is STOPPED too, in a telegram of every outcome (R28, R29). -/
theorem witness_stop_event_counted :
    (bench.line.mapped 66).map UnitEntry.kind ≠ some .trainUnit ∧ (bench.line.mapped 300).map UnitEntry.kind ≠ some .trainUnit
      ∧ (State.reset.line.jobs.timetable = false) ∧ ¬bench.line.timely 864000 ∧ ¬bench.line.timely 1301 ∧ bench.line.timely 1300
      ∧ bench.line.eventTimeOf 1301 = some 1000 ∧ (Line.powerOn 0).eventTimeOf 1301 = none := by decide

/-- A skew is counted while TIMETABLE is STOPPED, and for an event of an unknown train (R29). -/
theorem test_skew_counted :
    (takePosition 3 (be32 864000 ++ be16 7) { line with jobs := .stopped }).counter .timeSkew = 1
      ∧ (takeStopEvent 5 66 (be16 300 ++ [0] ++ be32 1301) line).counter .timeSkew = 1
      ∧ (takeStopEvent 5 66 (be16 65 ++ [2] ++ be32 1300) line).counter .timeSkew = 0 := by decide

/-- Train 3 RUNNING on the way to the passage `next` of its run, which calls at timing point 5 or passes it at 1,200 and at 1,400. -/
def running (next : Nat) (pass : Bool) : State :=
  onLine fun l =>
    bindTo { Train.inactive with active := true, nextPassage := next }
      { l with tables := { tables with passage0 := [(0, ⟨5, 1200, 300, pass⟩), (1, ⟨5, 1400, 300, pass⟩)] } }

/-- PassingTaken: at the first passage and at the last, with a lateness below every threshold. -/
theorem witness_passing :
    (running 0 true).calm = true ∧ (running 0 true).accepts .f (head 69 65) 6 = true ∧ (running 0 true).line.unitAt 65 .trainUnit 3
      ∧ (running 0 true).line.jobs.timetable = true ∧ ((running 0 true).line.train 3).state = .running
      ∧ (running 0 true).line.segment? 7 = some ⟨1, some 5, some 2⟩ ∧ ((running 0 true).line.train 3).lastSegment ≠ some 7
      ∧ (running 0 true).line.nextIs 3 0 ⟨true, 100, 0, 2⟩ ⟨5, 1200, 300, true⟩
      ∧ (running 1 true).line.nextIs 3 0 ⟨true, 100, 0, 2⟩ ⟨5, 1400, 300, true⟩
      ∧ (running 0 true).line.timely 1300 ∧ ¬(running 0 true).line.timely 1301 ∧ diff 1300 1200 = 100
      ∧ ((running 0 true).line.timingPoint? 5).map (fun q => q.threshold) = some 300 ∧ (running 0 true).line.majorDelay 3 = false := by decide

/-- StopEventTaken: an ARRIVE of a RUNNING train, bound and not, with a cause and without; a DEPART of one that stands there bound to run 0; event
codes 1 and 2. -/
theorem witness_stop_event :
    bench.calm = true ∧ bench.accepts .f (head 69 66) 7 = true ∧ bench.line.unitAt 66 .platform 5 ∧ bench.line.unitAt 65 .trainUnit 3
      ∧ bench.line.jobs.timetable = true ∧ (bench.line.train 3).state = .running ∧ (bench.line.train 3).run = none
      ∧ (bench.line.train 3).holds = .empty ∧ bench.line.timingPoint? 5 = some ⟨2, some 2, 1, 200, 900, 8, 16, 3000, 300, 30⟩
      ∧ bench.line.clock.isSet = true ∧ bench.line.unitAddress? (some 2) = some 66
      ∧ bench.line.causesAt 5 ⟨2, some 2, 1, 200, 900, 8, 16, 3000, 300, 30⟩ = .empty
      ∧ ((line.setLevel 1 3).setOperatorHold 5 true).causesAt 5 ⟨2, some 2, 1, 200, 900, 8, 16, 3000, 300, 30⟩ = ⟨false, true, false, true⟩
      ∧ (let l := bindTo standing line
         (l.train 3).state ≠ .running ∧ (l.train 3).state ≠ .lost ∧ (l.train 3).timingPoint = some 5 ∧ (l.train 3).run = some 0
           ∧ l.run? l.timetable.active 0 = some ⟨true, 100, 0, 2⟩
           ∧ l.passage? l.timetable.active (l.train 3).nextPassage = some ⟨5, 5000, 300, false⟩ ∧ l.timely 1300)
      ∧ 2 ≤ (2 : Byte).toNat ∧ ¬2 ≤ (1 : Byte).toNat := by decide

/-- StopEventMatching: a RUNNING train bound to run 0, whose first passage is elsewhere (a match at the second) or whose remaining one is (off route); one standing unbound or
standing elsewhere, and HELD. -/
theorem witness_matching :
    (let l := (running 0 false).line
     let away := { l with tables := { l.tables with passage0 := [(1, ⟨5, 1400, 300, false⟩)] } }
     l.timely 1300 ∧ (l.train 3).state = .running ∧ (l.train 3).run = some 0 ∧ l.run? 0 0 = some ⟨true, 100, 0, 2⟩
       ∧ away.passage? 0 1 = some ⟨5, 1400, 300, false⟩ ∧ (away.passage? 0 0).all (fun g => g.timingPoint != 5) = true
       ∧ away.counter .missedPassage + 1 ≤ counterMax
       ∧ ({ l with tables := { l.tables with passage0 := [] } } : Line).passage? 0 1 = some .initial
       ∧ l.liveRecord? 8 ⟨.train, 3⟩ = none ∧ l.record? 0 = none)
      ∧ ((withTrain standing line).train 3).standing = true ∧ ((withTrain standing line).train 3).timingPoint = some 5
      ∧ ((withTrain { standing with state := .held, timingPoint := some 4 } line).train 3).standing = true
      ∧ ((withTrain { standing with state := .held, timingPoint := some 4 } line).train 3).timingPoint ≠ some 5 := by decide

/-- StopEventMatching: run 0, whose first passage departs from timing point 5 at 1,200, is a candidate 100 ds later; of 1,201 ds later it is none. -/
theorem witness_auto_bind :
    (running 0 false).line.tables.run0 = [(0, ⟨true, 100, 0, 2⟩)]
      ∧ Line.offers { (running 0 false).line with tracker := .powerOn } 5 1300 0 100 ∧ ¬(diff 2401 1200).natAbs ≤ 1200 :=
  ⟨by decide, ⟨by decide, by decide, ⟨true, 100, 0, 2⟩, ⟨5, 1200, 300, false⟩, by decide⟩, by decide⟩

/-- RegulatedArrival and DelaysConsidered: an arrival without causes and with one, below the threshold, at it, and at the major delay; the flag set and clear. -/
theorem witness_regulated :
    (running 0 false).arrives .f (head 69 66) 65 5 3 ⟨2, some 2, 1, 200, 900, 8, 16, 3000, 300, 30⟩
      ∧ (running 0 false).line.nextIs 3 0 ⟨true, 100, 0, 2⟩ ⟨5, 1200, 300, false⟩ ∧ (running 0 false).line.timely 1300
      ∧ diff (700 + 300) 1200 = -200 ∧ diff (1200 + 300) 1200 = 300 ∧ diff (2700 + 300) 1200 = 1800
      ∧ (running 0 false).line.config.majorDelay = 1800 ∧ (running 0 false).line.majorDelay 3 = false
      ∧ ((running 0 false).line.setMajorDelay 3 true).majorDelay 3 = true
      ∧ ((running 0 false).line.setOperatorHold 5 true).causesAt 5 ⟨2, some 2, 1, 200, 900, 8, 16, 3000, 300, 30⟩ ≠ .empty
      ∧ ((running 0 false).line.train 3).announcedDelay ≠ 1 ∧ ((running 0 false).line.zoneDyn 2).queue.length < 8
      ∧ (running 0 false).line.template? 1 = some .initial ∧ (running 0 false).line.liveRecord? 10 ⟨.train, 3⟩ = none
      ∧ (running 0 false).line.record? 0 = none := by decide

/-- LossDeadlineLosesTrain: one millisecond before the deadline, and at it; a run that can be read, and a poisoned one. -/
theorem witness_loss_deadline :
    (let l := bindTo standing line
     (l.train 3).active = true ∧ (l.train 3).state ≠ .lost ∧ l.jobs.timetable = true ∧ (l.train 3).sect = some 1
       ∧ reached ((l.train 3).lastReport + ms (1000 * l.config.lossTimeout)) 149999 = false
       ∧ reached ((l.train 3).lastReport + ms (1000 * l.config.lossTimeout)) 150000 = true
       ∧ (l.train 3).run = some 0 ∧ l.usable .run0 0 = true
       ∧ ({ l with store := { l.store with health := [(4096, ⟨0, true, true⟩)] } } : Line).usable .run0 0 = false
       ∧ l.liveRecord? 7 ⟨.train, 3⟩ = none ∧ l.record? 31 = none) := by decide

/-- LossDeadlineLosesTrain: INCIDENT STOPPED, and a live record of an earlier loss. -/
theorem witness_loss_recorded :
    ({ line with jobs := .stopped } : Line).jobs.incident = false ∧ line.jobs.incident = true
      ∧ ((lost .held .opened false).liveRecord? 7 ⟨.train, 3⟩).isSome = true := by decide

/-- A bound train whose major delay is flagged or not. -/
def bound (flag : Bool) : State := asked (request .unbind 3 0 []) (onLine fun l => (bindTo standing l).setMajorDelay 3 flag)

/-- BindRequests: the bounds of its arguments, a run number that no run has, and run 100 in slot 0; a bound train with its flag set and clear, and
one that is not bound. -/
theorem witness_bind :
    (asked (request .bind 63 100 []) bench).serves .bind (request .bind 63 100 [])
      ∧ 64 ≤ (request .bind 64 100 []).table ∧ (request .bind 63 0 []).index = 0
      ∧ bench.line.run? bench.line.timetable.active 0 = some ⟨true, 100, 0, 2⟩ ∧ (bench.line.runStatus 0).state = .notStarted
      ∧ (bench.line.runStatus 0).vehicle = none ∧ (bench.line.train 63).run = none
      ∧ ((line.setRunStatus 0 ⟨.active, some 1⟩).runStatus 0).state ≠ .notStarted
      ∧ (bound false).serves .unbind (request .unbind 3 0 []) ∧ (bound true).serves .unbind (request .unbind 3 0 [])
      ∧ ((bound true).line.train 3).run = some 0 ∧ (bound true).line.majorDelay 3 = true ∧ (bound false).line.majorDelay 3 = false
      ∧ ((bound true).line.train 4).run = none ∧ 64 ≤ (request .unbind 64 0 []).table := by decide

theorem witness_bind_no_run (slot : Nat) (q : RunRecord) (h : (Line.powerOn 0).run? 0 slot = some q) : q.valid = false := by
  unfold Line.run? at h; split at h
  · cases h; rfl
  · cases h

/-- Train 3 stands bound to run 0, whose record is poisoned; run 101 in slot 1 is free. -/
def dropping : Line :=
  { bindTo standing line with
    tables := { tables with run0 := [(0, ⟨true, 100, 0, 2⟩), (1, ⟨true, 101, 0, 2⟩)] }
    store := { line.store with health := [(4096, ⟨0, true, true⟩)] } }

/-- BindRequests, StopEventMatching and TrainFrame: a search that drops train 3 as it reads slot 0, by a BIND of another train, of train 3 itself,
and of a run that does not exist. -/
theorem witness_search_drops :
    dropping.searchDrops 0 3 ∧ (asked (request .bind 63 101 []) (onLine fun _ => dropping)).serves .bind (request .bind 63 101 [])
      ∧ (request .bind 3 101 []).table = 3 ∧ dropping.run? dropping.timetable.active 1 = some ⟨true, 101, 0, 2⟩
      ∧ dropping.runStatus 1 = ⟨.notStarted, none⟩ ∧ dropping.liveRecord? 9 ⟨.train, 3⟩ = none ∧ dropping.record? 0 = none
      ∧ (dropping.train 63).run = none := by decide

/-- The only drop of that search is the one at slot 0, and the small line's search drops no train. -/
theorem witness_search_leaves : (∀ i u, dropping.searchDrops i u → i = 0) ∧ line.searchLeaves 1024 := by
  refine ⟨fun i u h => ?_, fun k _ w h => nomatch h.2.2.1⟩
  have h2 : (tget RunStatus.initial [(0, ⟨.active, some 3⟩)] i).vehicle = some u := h.2.2.1
  by_cases hi : i = 0
  · exact hi
  · simp [tget, tfind, Ne.symm hi, RunStatus.initial] at h2

/-- The Tracker's search drops the train as it reads the poisoned record (R39, R60), but not while TIMETABLE is STOPPED. -/
theorem test_search_drops :
    (let l := searchRun 0 { dropping with jobs := { dropping.jobs with incident := false } }
     (l.train 3).run = none ∧ l.runStatus 0 = ⟨.cancelled, none⟩)
      ∧ ((searchRun 0 { dropping with jobs := .stopped }).train 3).run = some 0 := by decide

/-- A command without a code is refused before any entry is read (R92). -/
theorem test_refused_unread (l : Line) : touchCommand 0 0 2 l = l := by simp [touchCommand, commandOf?]

/-- PlatformHolds, for both commands, at the last timing point and beyond it. -/
theorem witness_platform_holds :
    (asked (request .holdPlatform 95 0 []) bench).serves .holdPlatform (request .holdPlatform 95 0 [])
      ∧ (asked (request .releasePlatform 96 0 []) bench).serves .releasePlatform (request .releasePlatform 96 0 [])
      ∧ bench.line.operatorHold 95 ≠ true ∧ bench.line.operatorHold 95 = false ∧ bench.line.jobs.timetable = true
      ∧ ((withTrain standing line).train 3).timingPoint = some 5 ∧ ((withTrain standing line).train 3).state = .dwelling := by decide

/-- TargetDwell and StaggeredDwell: their bounds, an interval made up, and one that is not met. -/
theorem witness_dwell :
    (⟨0, none, 0, 200, 900, 16, 0, 0, 0, 0⟩ : TimingPoint).dmin ≤ (⟨0, none, 0, 200, 900, 16, 0, 0, 0, 0⟩ : TimingPoint).dmax
      ∧ (2550 : Nat) ≤ 2550 ∧ (600 : Nat) ≤ 600 ∧ diff (lineTimePlus 0 2550) 2550 < 600 ∧ diff (lineTimePlus 0 0) 0 = 0
      ∧ (2550 : Int) < 2550 + (600 - 0) ∧ (0 : Int) + (600 - 0) ≤ 2550 := by decide

/-- Section 1 isolated `n` times, with feeder 0 of substation 0 in a CLOSE pulse for it. -/
def isolatedLine (n : Nat) : Line :=
  ((line.setSectionDyn 1 ⟨if n = 0 then .restoring else .isolated, n, none, false⟩).setBreakerDyn 0
    ⟨.unknown, false, .close, some 1, some 100500, some 110500⟩).setSubstationDyn 0
    { SubstationDyn.initial with image := ⟨⟨.close, .none, .none, .none⟩, false⟩ }

/-- IsolationEffects. -/
theorem witness_isolation :
    (isolatedLine 0).store.errorFree = true ∧ ((isolatedLine 0).breakerDyn 0).commandSection = some 1
      ∧ ((isolatedLine 0).breakerDyn 0).pulseEnd.isSome = true ∧ (isolatedLine 0).output 0 = .close ∧ 0 ∈ (isolatedLine 0).feeders 1
      ∧ ((isolatedLine 0).breakerDyn 0).state ≠ .opened ∧ (isolatedLine 0).jobs.power = true
      ∧ 1 < ((isolatedLine 2).sectionDyn 1).isolation ∧ ((isolatedLine 2).sectionDyn 1).state = .isolated
      ∧ ((isolatedLine 1).sectionDyn 1).isolation = 1 := by decide

/-- BreakerCommands: a unit at its address, each reason, and a command accepted. -/
theorem witness_breaker_cmd :
    bench.calm = true ∧ bench.accepts .c (head 67 69) 3 = true ∧ bench.line.unitAt 67 .rtu 0 ∧ 67 ≠ bench.line.config.ownAddress
      ∧ (69 : BitVec 16) ≠ 0 ∧ (69 : BitVec 16) ≠ 65535 ∧ line.sectionOf 0 = some 1
      ∧ line.substation? 0 = some ⟨some 3, 1000, 200, 2, 500, 3000, 4500, 6000, 400⟩
      ∧ line.section? 1 = some ⟨[0], 150, 300, 10⟩ ∧ line.commandRefusal 0 0 1 false = none := by decide

/-- BreakerCommands: the reasons in the order of R92. -/
theorem witness_breaker_reasons :
    [((Line.powerOn 0), 0, 0, 0), (line, 0, 4, 0), (line, 0, 3, 2), (line, 1, 0, 0), (line, 0, 3, 1),
        (line.setBreakerDyn 0 { BreakerDyn.initial with localControl := true }, 0, 0, 1), (isolatedLine 1, 0, 0, 1),
        (withTrain standing line, 0, 0, 0), (isolatedLine 0, 0, 0, 1)].map
        (fun (l, u, f, c) => l.commandRefusal u f c false)
      = [.jobStopped, .range, .range, .noRtu, .noBreaker, .localControl, .isolated, .occupied, .busy].map some
      ∧ (withTrain standing line).commandRefusal 0 0 0 true = none := by decide

/-- BreakerCommands: an OPEN that withdraws the waiting CLOSE of feeder 0, with another feeder of the section waiting and without; a CLOSE with a
restore deadline standing. -/
theorem witness_breaker_accepted :
    (let waiting (l : Line) := (l.setBreakerDyn 0 ⟨.opened, false, .close, none, none, some 110500⟩).setSectionDyn 1 ⟨.dead, 0, some 110500, false⟩
     let l := waiting { line with tables := { tables with sect := [(1, ⟨[0, 1], 150, 300, 10⟩)] } }
     l.commandRefusal 0 0 0 false = none ∧ (l.breakerDyn 0).pending = .close ∧ (l.section? 1).map SectionEntry.feeders = some [0, 1]
       ∧ (l.breakerDyn 1).pending ≠ .close
       ∧ ((l.setBreakerDyn 1 ⟨.opened, false, .close, none, none, some 110500⟩).breakerDyn 1).pending = .close
       ∧ l.commandRefusal 0 0 1 false = none ∧ (l.sectionDyn 1).restoreDeadline = some 110500 ∧ (l.breakerDyn 0).state = .opened
       ∧ ((l.setBreakerDyn 0 ⟨.closed, false, .none, none, none, none⟩).breakerDyn 0).state = .closed) := by decide

/-- PlantDeadlines and CommandUnconfirmed: one millisecond before a deadline, at it, and half the timer's range after it. -/
theorem witness_deadlines :
    bench.calm = true ∧ due (some 100001) bench.line.timer = false ∧ due (some 100000) bench.line.timer = true
      ∧ due (some (100000 - 2147483647)) bench.line.timer = true ∧ due (some (100000 - 2147483648)) bench.line.timer = false
      ∧ bench.line.liveRecord? 4 ⟨.sect, 1⟩ = none ∧ bench.line.record? 31 = none := by decide

/-- Substation 0 in each scan state, its scan time and reply deadline at `when`. -/
def scanning (scan : ScanState) (outstanding : ScanRequest) (retries : Nat) (when : Ticks) : State :=
  onLine fun l =>
    l.setSubstationDyn 0
      { SubstationDyn.initial with
        scan := scan, outstanding := outstanding, retries := retries, nextScan := some when, replyDeadline := some when
        acknowledged := some 0 }

/-- ScanTimers, in and out of service, with retries left and none left. -/
theorem witness_scanning :
    (scanning .idle .none 0 100000).calm = true ∧ reached 100000 line.timer = true ∧ reached 100001 line.timer = false
      ∧ (scanning .idle .none 0 100000).line.substation? 0 = some ⟨some 3, 1000, 200, 2, 500, 3000, 4500, 6000, 400⟩
      ∧ line.unitAddress? (some 3) = some 67 ∧ line.unitAddress? (some 64) = none ∧ line.jobs.power = true
      ∧ ((scanning .silent .none 0 100000).line.substationDyn 0).scan = .silent
      ∧ ((scanning .awaitReply .read 1 100000).line.substationDyn 0).retries < 2
      ∧ 2 ≤ ((scanning .awaitReply .read 2 100000).line.substationDyn 0).retries
      ∧ ((scanning .awaitReply .read 2 100000).line.substationDyn 0).acknowledged
          = some ((scanning .awaitReply .read 2 100000).line.substationDyn 0).image.bits := by decide

/-- Substation 0 awaiting a reply to a READ, with the points and the level of its last one. -/
def polled (level : Nat) : State :=
  onLine fun l =>
    l.setSubstationDyn 0
      { SubstationDyn.initial with
        scan := .awaitReply, outstanding := .read, replyDeadline := some 100100, acknowledged := some 0, level := level
        previous := some ⟨⟨true, false⟩, ⟨false, false⟩, ⟨false, false⟩, ⟨false, false⟩⟩ }

/-- RtuPointsProcessed: a reply like the last one and a first reply; an image echoed and another; an earth fault in section 1; a rise to level 3 and a fall from it; entries within
their ranges at the first threshold, below it, and at the last current that counts as low at level 2. RtuAckProcessed. -/
theorem witness_rtu :
    (polled 0).calm = true ∧ bench.accepts .f (head 69 67) 8 = true ∧ bench.accepts .f (head 69 67) 2 = true ∧ bench.line.unitAt 67 .rtu 0
      ∧ bench.line.jobs.power = true ∧ bench.line.substation? 0 = some ⟨some 3, 1000, 200, 2, 500, 3000, 4500, 6000, 400⟩
      ∧ bench.line.unitAddress? (some 3) = some 67 ∧ (bench.line.substationDyn 0).previous = none
      ∧ ((polled 0).line.substationDyn 0).previous
          = some ⟨indicationOf 1, indicationOf 0, indicationOf 0, indicationOf 0⟩
      ∧ ((polled 0).line.substationDyn 0).earthFault.get 0 = none ∧ (4 : Byte).getLsbD 2 = true ∧ (polled 0).line.sectionOf 0 = some 1
      ∧ (polled 0).line.incidents.slots = [] ∧ ((polled 0).line.substationDyn 0).image.bits = 0
      ∧ (let e : SubstationEntry := ⟨some 3, 1000, 200, 2, 500, 3000, 4500, 6000, 400⟩
         levelAfter e 0 0 6000 = (3, 0) ∧ levelAfter e 3 2 5599 = (2, 0) ∧ levelAfter e 0 0 2999 = (0, 0) ∧ e.inRange = true ∧ e.levelOf 3000 = 1
           ∧ 4099 + e.hysteresis < e.l2 ∧ e.l2 ≤ 4100 + e.hysteresis)
      ∧ ((List.range 24).all fun x => (polled 0).line.derivedLevel x == (polled 0).line.level x) = true
      ∧ ((scanning .awaitReply .write 0 100000).line.substationDyn 0).outstanding = .write
      ∧ (0 : BitVec 16) = ((scanning .awaitReply .write 0 100000).line.substationDyn 0).image.bits := by decide

/-- ScanTimers: an RTU declared SILENT with its silence recorded already, and with none recorded. -/
theorem witness_silence :
    (withRecord { record .major .opened 7 false with cls := 3, location := ⟨.substation, 0⟩ } line).liveRecord? 3 ⟨.substation, 0⟩
        = some (31, { record .major .opened 7 false with cls := 3, location := ⟨.substation, 0⟩ })
      ∧ line.liveRecord? 3 ⟨.substation, 0⟩ = none ∧ line.record? 31 = none := by decide

/-- The last reply of `polled`, with feeder 0's breaker in a state, its command waiting, and section 1 isolated `n` times or left unrestored. -/
def reporting (state : BreakerState) (pending : Switching) (isolation : Nat) : Line :=
  (((polled 0).line.setBreakerDyn 0 ⟨state, false, pending, none, none, if pending = .none then none else some 110500⟩).setSectionDyn 1
    ⟨.dead, isolation, none, isolation == 0⟩).setRecord 31 { record .major .opened 7 false with cls := 4, location := ⟨.sect, 1⟩ }

/-- RtuPointsProcessed, from known previous points (feeder 0 closed): feeder 0 reported open and feeder 0 reported under local control, the others as they
were; the breaker CLOSED, waiting for an OPEN, OPEN and waiting for a CLOSE; section 1 free with a restore that failed, and ISOLATED. -/
theorem witness_reports :
    (let known : Quad Indication := ⟨⟨true, false⟩, ⟨false, false⟩, ⟨false, false⟩, ⟨false, false⟩⟩
     ((polled 0).line.substationDyn 0).previous = some known ∧ known.get 0 ≠ indicationOf 0 ∧ known.get 0 ≠ indicationOf 3
       ∧ known.get 1 = indicationOf 0 ∧ known.get 2 = indicationOf 0 ∧ known.get 3 = indicationOf 0
       ∧ ((reporting .closed .none 0).breakerDyn 0).state = .closed ∧ ((reporting .closed .opening 0).breakerDyn 0).pending = .opening
       ∧ (reporting .opened .close 0).sectionOf 0 = some 1 ∧ ((reporting .opened .close 0).sectionDyn 1).restoreFailed = true
       ∧ (reporting .opened .close 0).liveRecord? 4 ⟨.sect, 1⟩
         = some (31, { record .major .opened 7 false with cls := 4, location := ⟨.sect, 1⟩ })
       ∧ 0 < ((reporting .opened .none 1).sectionDyn 1).isolation ∧ (reporting .opened .none 1).pulsing 0 .opening = false
       ∧ (polled 0).line.incidents.slots = []) := by decide

/-- The small line with substation 0's entry poisoned. -/
def poisonedRtu : Line := { line with store := { line.store with health := [(39592, ⟨0, true, true⟩)] } }

/-- RtuPointsProcessed: a reply to a poisoned entry, of a substation that is not SILENT. -/
theorem witness_poisoned_reply :
    (onLine fun _ => poisonedRtu).calm = true ∧ poisonedRtu.poisoned .substation 0 = true ∧ poisonedRtu.unitAt 67 .rtu 0
      ∧ (poisonedRtu.substationDyn 0).scan ≠ .silent := by decide

/-- Such a reply is foreign, and the substation is then as a scan time that finds it poisoned leaves it (R117). -/
theorem test_poisoned_reply (taken : Line → Line) :
    rtuTelegram 0 67 taken poisonedRtu = (notScanned 0 poisonedRtu).bump .foreignReply := by
  have hp : poisonedRtu.poisoned .substation 0 = true := by decide
  have hu : poisonedRtu.usable .substation 0 = false := by decide
  have ht : touch .substation 0 poisonedRtu = poisonedRtu := rfl
  simp [rtuTelegram, notScanned, hp, hu, ht]

/-- RtuPointsProcessed: a live overload record, OPEN and not ended. -/
theorem witness_overload :
    (withRecord { record .major .opened 7 false with cls := 5, location := ⟨.substation, 0⟩ } line).liveRecord? 5 ⟨.substation, 0⟩
      = some (31, { record .major .opened 7 false with cls := 5, location := ⟨.substation, 0⟩ }) := by decide

/-- Every slot in use by a record. -/
def fullTable (r : IncidentRecord) (l : Line) : Line := { l with incidents := { l.incidents with slots := (List.range 32).map fun i => (i, r) } }

/-- RecordAllocation: a free slot, a full table with CLEARED records, and one with none of them, MINOR or MAJOR. -/
theorem witness_record_allocation :
    trising line.incidents.slots = true ∧ line.record? 0 = none
      ∧ (fullTable (record .minor .cleared 7 false) line).allocate .minor = .evict 0
      ∧ (fullTable (record .minor .opened 7 false) line).allocate .minor = .lost :=
  ⟨rfl, rfl, rfl, by decide⟩

theorem witness_displacement :
    (fullTable (record .minor .opened 7 false) line).allocate .major = .displace 0
      ∧ (fullTable (record .major .opened 7 false) line).allocate .critical = .lost :=
  ⟨rfl, by decide⟩

/-- RecordAllocation: the keys of a full table rise and are all in use. -/
theorem witness_full_table (r : IncidentRecord) :
    (fullTable r line).incidents.slots.length = 32 ∧ (fullTable r line).record? 31 = some r := ⟨rfl, rfl⟩

theorem witness_full_rising (r : IncidentRecord) : trising (fullTable r line).incidents.slots = true := rfl

/-- What a section and a timing point of the small line cover (R122). -/
theorem test_coverage :
    (coverageOf ⟨.sect, 1⟩ line).2 = ⟨[1], [5], [2]⟩ ∧ (coverageOf ⟨.timingPoint, 5⟩ line).2 = ⟨[1], [5], [2]⟩ := by
  constructor
  · show (touchAll .timingPoint timingPointNumbers line).coverSections [1] = _
    rw [touchAll_errorFree (by decide)]; decide
  · decide

/-- A declaration of class 20 at a station, and the class with every effect. -/
def declared (l : Line) : State := asked (request .incidentDeclare 20 2 [3]) { bench with line := l }

def fullClass (l : Line) : Line :=
  { l with tables := { l.tables with incidentClass := [(20, ⟨true, .major, ⟨true, true, true, true⟩, some 6, .service, none, true, 2⟩)] } }

/-- RecordCreated: a free slot, one displaced and none, with every effect; a train standing at a covered timing point; a train whose run is poisoned. -/
theorem witness_record_created :
    (declared (fullClass line)).serves .incidentDeclare (request .incidentDeclare 20 2 [3])
      ∧ LocationKind.ofCode? 3 = some .station ∧ 2 < LocationKind.station.size ∧ line.jobs.incident = true
      ∧ (fullClass line).liveRecord? 20 ⟨.station, 2⟩ = none ∧ trising line.incidents.slots = true
      ∧ (fullClass line).allocate ((fullClass line).classAs 20).severity = .free 0
      ∧ (let other := { record .minor .opened 7 false with cls := 21 }
         (fullTable other (fullClass line)).allocate .major = .displace 0 ∧ trising (fullTable other line).incidents.slots = true
           ∧ (fullTable other line).allocate .minor = .lost ∧ (fullTable other line).liveRecord? 20 ⟨.station, 2⟩ = none)
      ∧ ((fullClass line).classAs 20).effects = ⟨true, true, true, true⟩ ∧ ((withTrain standing line).train 3).standing = true
      ∧ line.template? 6 = some ⟨[10], none, .routine, 10, 2, 300⟩ ∧ (line.zoneDyn 2).queue.length < 8
      ∧ ({ bindTo standing line with store := { line.store with health := [(4096, ⟨0, true, true⟩)] } } : Line).poisonedRun? 3 = some 0
      ∧ (bindTo standing line).poisonedRun? 3 = none := by decide

/-- Class 20 clears itself. -/
def autoClass (l : Line) : Line :=
  { l with tables := { l.tables with incidentClass := [(20, { ClassEntry.initial with defined := true, autoClear := true, escalation := 255 })] } }

/-- FieldAlarmTaken: the bounds of the codes; no record; a live record OPEN, which the next raise escalates, ACKNOWLEDGED, and ended. -/
theorem witness_field_alarm :
    bench.calm = true ∧ bench.accepts .f (head 69 68) 6 = true ∧ bench.line.mapped 68 = some ⟨.paController, 2, .view⟩
      ∧ alarmLocation? ⟨.paController, 2, .view⟩ = some ⟨.station, 2⟩ ∧ bench.line.liveRecord? 20 ⟨.station, 2⟩ = none
      ∧ bench.line.record? 31 = none
      ∧ (withRecord (record .minor .opened 7 false) line).liveRecord? 20 ⟨.station, 2⟩ = some (31, record .minor .opened 7 false)
      ∧ (withRecord (record .minor .acknowledged 7 false) line).liveRecord? 20 ⟨.station, 2⟩ = some (31, record .minor .acknowledged 7 false)
      ∧ (record .minor .opened 7 true).conditionEnded = true ∧ ((autoClass line).classAs 20).autoClear = true
      ∧ ((autoClass line).classAs 20).escalation = 255 ∧ Nat.min ((record .minor .opened 7 false).count + 1) 255 = 255
      ∧ (record .minor .opened 7 false).escalated = false ∧ (record .minor .opened 7 false).severity ≠ .critical
      ∧ bench.line.jobs.incident = true ∧ State.reset.line.jobs.incident = false ∧ (15 : Byte).toNat < 16 ∧ 16 ≤ (16 : Byte).toNat
      ∧ (63 : Byte).toNat ≤ 63 ∧ 63 < (64 : Byte).toNat ∧ 2 ≤ (2 : Byte).toNat := by decide

/-- A record escalates once: its class's escalation count raised afterwards does not let it escalate again (R124; log entry 27). -/
theorem test_escalates_once :
    escalatesTo 255 (record .minor .opened 7 false) = some .major
      ∧ escalatesTo 255 { record .minor .opened 7 false with escalated := true } = none := by decide

/-- IncidentRequests: each refusal and each way of going on. -/
theorem witness_incident_requests :
    (asked (request .incidentAck 0 9 []) (onLine (withRecord (record .minor .opened 7 false)))).serves .incidentAck (request .incidentAck 0 9 [])
      ∧ (asked (request .incidentClear 0 9 []) (onLine (withRecord (record .minor .opened 7 false)))).serves .incidentClear
          (request .incidentClear 0 9 [])
      ∧ (asked (request .incidentDeclare 63 2 [3]) bench).serves .incidentDeclare (request .incidentDeclare 63 2 [3])
      ∧ (withRecord (record .minor .opened 7 true) line).recordOf? 9 = some (31, record .minor .opened 7 true)
      ∧ (withRecord (record .minor .opened 7 true) line).recordOf? 10 = none
      ∧ ((autoClass line).classAs 20).autoClear = true ∧ (line.classAs 20).autoClear = false
      ∧ LocationKind.ofCode? 6 = none ∧ LocationKind.ofCode? 5 = some .train ∧ LocationKind.station.size ≤ 40
      ∧ 39 < LocationKind.station.size ∧ line.liveRecord? 63 ⟨.station, 2⟩ = none ∧ line.record? 31 = none := by decide

/-- A record of class 20 that holds and announces, its announcement playing, and the class's all-clear. -/
def holding : Line :=
  (withTrain { standing with state := .held, holds := ⟨false, false, true, false⟩ }
    (withRecord { record .major .opened 7 false with effects := ⟨false, true, true, true⟩, holdTold := true }
      { line with
        jobs := { line.jobs with announce := false }
        tables := { tables with incidentClass := [(20, ⟨true, .major, ⟨false, true, true, true⟩, some 6, .service, some 6, false, 0⟩)] } })).setZoneDyn
    2 ⟨[], .playing, some ⟨{ entry 1 with origin := .incident 9 }, false⟩, 7, some 100000, none, 0, 0⟩

/-- IncidentRequests: what a clear releases: the current play of the record, an all-clear for its zone, a train that it holds. -/
theorem witness_clear_releases :
    (asked (request .incidentClear 0 9 []) { bench with line := holding }).serves .incidentClear (request .incidentClear 0 9 [])
      ∧ (holding.recordOf? 9).map (fun e => (e.1, e.2.effects.hold, e.2.coverage.zones, e.2.coverage.timingPoints)) = some (31, true, [2], [5])
      ∧ (holding.zoneDyn 2).current.map (fun p => p.entry.origin) = some (.incident 9) ∧ (holding.zoneDyn 2).state = .playing
      ∧ (holding.classAs 20).allClear = some 6 ∧ holding.template? 6 = some ⟨[10], none, .routine, 10, 2, 300⟩
      ∧ (holding.zoneDyn 2).current.all (fun p => !p.entry.sameAs ⟨6, none, .service, .system, 2, 400000⟩) = true
      ∧ trising holding.incidents.slots = true ∧ holding.jobs.timetable = true ∧ holding.jobs.announce = false
      ∧ (holding.train 3).standing = true ∧ (holding.train 3).timingPoint = some 5
      ∧ ((holding.setZoneDyn 2 { holding.zoneDyn 2 with state := .retryWait }).zoneDyn 2).state = .retryWait := by decide

/-- PaStatusTaken, AnnouncerTimers and PaRequestAdmitted, while ANNOUNCE is STOPPED: a final play, an expired one, a full queue with ROUTINE entries and
without, and one whose last entry has a lower priority. -/
theorem witness_announce_stopped :
    (let service := { entry 1 with prio := .service }
     ({ line with jobs := .stopped } : Line).jobs.announce = false ∧ (⟨entry 1, true⟩ : Play).final = true
       ∧ reached { entry 1 with expiry := 100000 }.expiry line.timer = true ∧ reached (entry 1).expiry line.timer = false
       ∧ (List.replicate 8 (entry 1)).any (fun x => x.prio == .routine) = true
       ∧ (List.replicate 8 service).any (fun x => x.prio == .routine) = false ∧ 8 ≤ (List.replicate 8 service).length
       ∧ (List.replicate 8 (entry 1)).getLast? = some (entry 1) ∧ service.prio.code < (entry 1).prio.code
       ∧ (poisonedTemplate line).template? 6 = none ∧ (poisonedTemplate line).playable 2 = true) := by decide

/-- BUSY for an expired play while ANNOUNCE is STOPPED removes it (R143). -/
theorem test_busy_expired :
    (let l := playing .playing 2 [] 0 { line with jobs := .stopped, timer := 200000 }
     let after := playBusy 2 ⟨some 4, [5], .three, 5, 2⟩ ⟨entry 2, false⟩ l
     (after.zoneDyn 2).queue = [] ∧ (after.zoneDyn 2).current = none ∧ after.counter (.expiry 2) = 1) := by decide

/-- An entry without a parameter is read as 65,535 there, with its presence byte 0 (R172, R174). -/
theorem test_entry_without_parameter : (entry 1).fields.getD 4 [] = [0] ∧ (entry 1).fields.getD 5 [] = [0xFF, 0xFF] := by decide

/-- PaStatusTaken. -/
theorem witness_pa_status :
    (onLine (playing .playing 1 [] 0)).calm = true ∧ bench.accepts .f (head 69 68) 2 = true ∧ bench.line.unitAt 68 .paController 2
      ∧ bench.line.zone? 2 = some ⟨some 4, [5], .three, 5, 2⟩ ∧ bench.line.unitAddress? (some 4) = some 68
      ∧ bench.line.unitAddress? (some 5) ≠ some 68 ∧ ((playing .playing 1 [] 0 line).zoneDyn 2).state = .playing
      ∧ ((playing .playing 2 [entry 1] 2 line).zoneDyn 2).queue.length < 8 ∧ RetryLimit.three.number? = some 3
      ∧ ((playing .playing 2 [] 2 line).zoneDyn 2).retries < 3 ∧ ¬((playing .playing 2 [] 3 line).zoneDyn 2).retries < 3
      ∧ reached (entry 2).expiry line.timer = false ∧ 1 < (entry 2).repeatsLeft ∧ 3 ≤ (3 : Byte).toNat
      ∧ line.liveRecord? 12 ⟨.station, 2⟩ = none := by decide

/-- AnnouncerTimers: deadlines at the timer's value and one later, an expired and a live play, playable and not, and a sweep at 100,000 ms. -/
theorem witness_announcer_timers :
    due ((playing .playing 1 [] 0 line).zoneDyn 2).airtimeDeadline line.timer = true
      ∧ due ((playing .retryWait 1 [] 0 line).zoneDyn 2).retryTime line.timer = true ∧ due (some 100001) line.timer = false
      ∧ reached (entry 1).expiry 200000 = true ∧ reached (entry 1).expiry 199999 = false ∧ line.playable 2 = true ∧ line.playable 3 = false
      ∧ line.jobs.announce = true ∧ line.template? 6 = some ⟨[10], none, .routine, 10, 2, 300⟩ ∧ line.timer.toNat % 1000 = 0
      ∧ ({ line with timer := 100001 } : Line).timer.toNat % 1000 ≠ 0 := by decide

/-- PaRequestAdmitted: a usable template, an undefined one and one beyond the table; an entry equal to a queued one and to the current play, and a full queue. -/
theorem witness_pa_request :
    bench.calm = true ∧ bench.accepts .c (head 68 69) 8 = true ∧ bench.line.unitAt 68 .paController 2 ∧ 68 ≠ bench.line.config.ownAddress
      ∧ (69 : BitVec 16) ≠ 0 ∧ (69 : BitVec 16) ≠ 65535 ∧ bench.line.template? 128 = none
      ∧ bench.line.template? 7 = some Template.initial ∧ Template.initial.fragments = []
      ∧ bench.line.template? 6 = some ⟨[10], none, .routine, 10, 2, 300⟩
      ∧ ((playing .playing 1 [entry 1] 0 line).zoneDyn 2).queue.any (fun x => x.sameAs (entry 4)) = true
      ∧ ((playing .playing 1 [] 0 line).zoneDyn 2).current.any (fun p => p.entry.sameAs (entry 4)) = true
      ∧ (line.zoneDyn 2).queue.any (fun x => x.sameAs (entry 4)) = false ∧ (line.zoneDyn 2).queue.length < 8
      ∧ 8 ≤ (List.replicate 8 (entry 1)).length ∧ (List.replicate 8 (entry 1)).getLast? = some (entry 1)
      ∧ (entry 1).prio.code ≤ (entry 4).prio.code := by decide

/-- PlaysChosen: each group's head, below and at the rotation limit; an expired and an unplayable last entry; a full queue with a last entry of a lower and of the
same priority; the retry limit used; and an EMERGENCY request at a queue of six and of seven. -/
theorem witness_plays_chosen :
    (let service := { entry 1 with prio := .service }
     let head (q : List Entry) (g : Priority) := q.find? fun x => x.prio == g
     head [service, entry 2] .service = some service ∧ head [service, entry 2] .routine = some (entry 2)
       ∧ head [service, entry 2] .emergency = none ∧ ((playing .playing 1 [service, entry 2] 0 line).zoneDyn 2).consecutive < 2
       ∧ reached { entry 1 with expiry := 100000 }.expiry line.timer = true ∧ line.template? 300 = none
       ∧ 8 ≤ (List.replicate 8 (entry 1)).length ∧ service.prio.code < (entry 1).prio.code ∧ RetryLimit.one.number? = some 1
       ∧ line.liveRecord? 11 ⟨.station, 2⟩ = none ∧ line.record? 31 = none
       ∧ (entry 1).prio ≠ .emergency ∧ (List.replicate 7 (entry 1)).length = 7 ∧ (List.replicate 6 service).length < 7
       ∧ ((List.replicate 7 service).any fun x => x.prio == .routine) = false ∧ (2 : BitVec 16) ≠ 0
       ∧ (entry 1).sameAs ⟨6, none, .emergency, .centre 70, 1, 0⟩ = false) := by decide

/-- MgmtRequestQueued: a queue of three, of four and an empty one; operation codes 16 and 17. -/
theorem witness_mgmt_request :
    bench.calm = true ∧ bench.mgmt.known = true ∧ bench.accepts .c (head 65024 69) (8 + 48) = true
      ∧ (65024 : BitVec 16).toNat = bench.line.config.ownAddress ∧ (16 : Byte).toNat < 17 ∧ 17 ≤ (17 : Byte).toNat
      ∧ (let m : Mgmt := { Mgmt.powerOn with queue := List.replicate 4 (request .identify 0 0 []) }
         m.known = true ∧ 4 ≤ m.queue.length ∧ (m.queue.drop 1).length < 4) := by decide

/-- A request of a VIEW workstation, and one of a unit outside the window. -/
def viewer (o : Operation) : Request := { request o 0 0 [] with translation := some ⟨.workstation, 0, .view⟩ }
def stranger (o : Operation) : Request := { request o 0 0 [] with translation := none }

/-- RequestsRefused: no head, a head of another operation, one of the wrong space or short of data, and each privilege in and out of the
commissioning state. -/
theorem witness_requests_refused :
    bench.headFor .bind = none ∧ (asked (request .unbind 0 0 []) bench).headFor .bind = none
      ∧ (asked (viewer .bind) bench).headFor .bind = some (viewer .bind) ∧ line.commissioning = false ∧ (Line.powerOn 0).commissioning = true
      ∧ line.requestRefusal .bind (viewer .bind) = some .privilege ∧ line.requestRefusal .identify (viewer .identify) = none
      ∧ line.requestRefusal .identify (stranger .identify) = some .privilege
      ∧ line.requestRefusal .ttActivate (request .ttActivate 1 0 [0, 0, 0]) = some .range
      ∧ line.requestRefusal .bind { request .bind 0 0 [] with space := 0 } = some .range
      ∧ (Line.powerOn 0).requestRefusal .bind (stranger .bind) = none ∧ (asked (viewer .bind) bench).mgmt.known = true := by decide

/-- ReadsAnswered: a table that does not exist, the last run of the Unit Map and one beyond it, a run too long, and a poisoned entry; the last status item; the latches
with and without the clear flag. -/
theorem witness_reads :
    (asked (request .tableRead 2 0 []) bench).serves .tableRead (request .tableRead 2 0 []) ∧ TableId.ofCode? 0 = none
      ∧ TableId.ofCode? 19 = none ∧ TableId.ofCode? 2 = some .unitMap ∧ TableId.unitMap.size < 4089 + 8 ∧ 4088 + 8 ≤ TableId.unitMap.size
      ∧ 51 < 3 * TableId.template.recordSize ∧ 2 * TableId.template.recordSize ≤ 51 ∧ ¬51 < 8 * TableId.unitMap.recordSize
      ∧ line.poisoned .unitMap 1 = false ∧ (poisonedLine line).poisoned .unitMap 1 = true ∧ (poisonedLine line).poisoned .unitMap 0 = false
      ∧ (asked (request .statusRead 10 3 []) bench).serves .statusRead (request .statusRead 10 3 [])
      ∧ (asked (request .identify 0 0 []) bench).serves .identify (request .identify 0 0 [])
      ∧ (asked (request .latchRead 4 0 []) bench).serves .latchRead (request .latchRead 4 0 [])
      ∧ (asked { request .latchRead 4 0 [] with mask := 1 } bench).serves .latchRead { request .latchRead 4 0 [] with mask := 1 }
      ∧ bench.groupItems 10 = some [0, 0, 0, 0] ∧ bench.groupItems 11 = none ∧ masked 1 0 = true ∧ masked 0 0 = false := by decide

/-- A TABLE_WRITE of a run of entries of a table. -/
def write (table index count : Nat) (mask : BitVec 16) (data : List Byte) : Request :=
  { request .tableWrite table index data with mask := mask, count := count }

def stopped (s : State) : State := s.onLine fun l => { l with jobs := .stopped }

/-- TableWriteReplies: a write that fits, one that does not, and the cause of each refusal. -/
theorem witness_write_refused :
    (asked (write 2 4095 1 7 [1, 63, 0]) (stopped bench)).serves .tableWrite (write 2 4095 1 7 [1, 63, 0])
      ∧ writeFits .unitMap (write 2 4095 1 7 [1, 63, 0]) = true ∧ writeFits .unitMap (write 2 4096 1 7 [1, 63, 0]) = false
      ∧ (tableWrite (write 2 0 1 7 [1, 63, 0]) line).2.status = .state
      ∧ UnitEntry.ofFields [[1], [63], [0]] = some ⟨.trainUnit, 63, .view⟩ ∧ UnitEntry.ofFields [[1], [64], [0]] = none
      ∧ writeFits .segment (write 7 511 1 7 [0, 0, 0]) = true ∧ line.jobs.timetable = true ∧ line.bankWritable 0 = false
      ∧ ({ line with timetable := ⟨0, some ⟨1, 5, 0⟩⟩ } : Line).bankWritable 1 = false ∧ line.bankWritable 1 = true
      ∧ writeFits .train (write 8 63 1 7 [0, 0, 0, 0]) = true ∧ writeFits .timingPoint (write 10 94 2 32 [16, 16]) = true
      ∧ (32 : BitVec 16).toNat % 8 = 0 ∧ (6 : BitVec 16).toNat % 2 = 0 ∧ writeFits .unitMap (write 2 1 1 6 [0, 0]) = true
      ∧ ({ line with store := { line.store with health := [(39424 + 95, ⟨0, true, true⟩)] } } : Line).poisoned .timingPoint 95 = true
      ∧ (⟨[10], none, .routine, 10, 2, 300⟩ : Template).inRange = true
      ∧ ((playing .playing 1 [] 0 line).zoneDyn 2).current.map (fun p => p.entry.template) = some 6 := by decide

/-- A partial write of a poisoned Unit Map entry is answered INTEGRITY whatever the jobs are (R160, R169). -/
theorem test_partial_write_poisoned :
    (tableWrite (write 2 1 1 2 [0]) (poisonedLine line)).2 = .refuseAt .integrity 1 := by decide

/-- TableWritesMade: each write is served, and what it writes is within its ranges. -/
theorem witness_writes_made :
    (asked (write 10 5 2 32 [4, 12]) bench).serves .tableWrite (write 10 5 2 32 [4, 12])
      ∧ (asked (write 1 0 1 24 [1, 44, 1, 45]) bench).serves .tableWrite (write 1 0 1 24 [1, 44, 1, 45])
      ∧ (asked (write 1 0 1 7 [0, 64, 0, 64, 254, 0]) (stopped bench)).serves .tableWrite (write 1 0 1 7 [0, 64, 0, 64, 254, 0])
      ∧ bench.line.timingPoint? 6 = some .initial ∧ TimingPoint.initial.inRange = true ∧ bench.line.config.inRange = true
      ∧ (asked (write 7 7 1 1 [2]) (stopped bench)).serves .tableWrite (write 7 7 1 1 [2])
      ∧ (⟨1, some 5, some 2⟩ : Segment).inRange = true
      ∧ (let e : SectionEntry := ⟨[0], 150, 300, 10⟩
         e.inRange = true ∧ (asked (write 11 1 1 15 e.fields.flatten) (stopped bench)).serves .tableWrite (write 11 1 1 15 e.fields.flatten)
           ∧ bench.line.breaker? 0 = some ⟨some 1⟩ ∧ (bench.line.breakerDyn 0).pulseEnd = none)
      ∧ (let e : SubstationEntry := ⟨some 3, 1000, 200, 2, 500, 3000, 4500, 6000, 400⟩
         let s := onLine fun l => { l with store := { l.store with health := [(39592, ⟨0, true, true⟩)] } }
         e.inRange = true ∧ (asked (write 13 0 1 511 e.fields.flatten) s).serves .tableWrite (write 13 0 1 511 e.fields.flatten)
           ∧ s.line.poisoned .substation 0 = true ∧ s.line.jobs.power = true)
      ∧ (let m : Template := ⟨[10], none, .routine, 10, 2, 300⟩
         let s :=
           onLine fun l =>
             { l with store := { l.store with health := [(39674, ⟨0, true, true⟩)] } }.setZoneDyn 2 { ZoneDyn.initial with queue := [entry 1] }
         m.inRange = true ∧ (asked (write 16 6 1 63 m.fields.flatten) s).serves .tableWrite (write 16 6 1 63 m.fields.flatten)
           ∧ s.line.poisoned .template 6 = true ∧ (s.line.zoneDyn 2).state = .idle ∧ (s.line.zoneDyn 2).queue = [entry 1]) := by decide

/-- Three status groups have the number of items that section 11.4 lists (R163). -/
theorem test_status_group_sizes : bench.unitItems.length = 19 ∧ bench.line.clockItems.length = 3 ∧ bench.mgmt.items.length = 4 := by decide

/-- JobRequests: every job, RUNNING and STOPPED; POWER busy and free; tables that agree and that do not. -/
theorem witness_job_requests :
    (asked (request .jobStop 1 0 []) bench).serves .jobStop (request .jobStop 1 0 [])
      ∧ (asked (request .jobStart 3 0 []) (stopped bench)).serves .jobStart (request .jobStart 3 0 [])
      ∧ Job.ofCode? 3 = some .announce ∧ Job.ofCode? 4 = none ∧ line.jobs.running .announce = true ∧ Jobs.stopped.running .power = false
      ∧ 0 < ((isolatedLine 1).sectionDyn 1).isolation ∧ ((isolatedLine 0).breakerDyn 0).pulseEnd.isSome = true
      ∧ line.wiringDisagreement = none ∧ ({ line with tables := { tables with breaker := [] } } : Line).wiringDisagreement = some (0, 1)
      ∧ line.zoneDisagreement = none
      ∧ ({ line with tables := { tables with timingPoint := [] } } : Line).zoneDisagreement = some (2, 5) ∧ line.inService 0 = true
      ∧ ((withTrain standing line).train 3).active = true ∧ ((withTrain standing line).train 3).state ≠ .lost := by decide

theorem witness_power_free : (∀ x, (line.sectionDyn x).isolation = 0) ∧ ∀ b, (line.breakerDyn b).pulseEnd = none := ⟨fun _ => rfl, fun _ => rfl⟩

/-- LineRestartEffect. -/
theorem witness_line_restart : (asked (request .lineRestart 0 0 []) bench).serves .lineRestart (request .lineRestart 0 0 []) := by decide

/-- The scrubber at a place of the Store, in a pass that began at service time 90,000 or waiting for the pass after it, with the health of entry 1. -/
def scrubbing (position : Nat) (awaiting : Bool) (h : Health) : State :=
  onLine fun l => { l with store := { l.store with passStart := 90000, awaiting := awaiting, scrubPosition := position, health := [(1, h)] } }

/-- The scrub-pass counter rises when a new pass begins, not with the last visit of the pass before (R170). -/
theorem test_scrub_pass_counted :
    (scrubVisit (scrubbing 39835 false .clean).line).store.scrubPasses = 0
      ∧ (scrubVisit (scrubbing 0 true .clean).line).store.scrubPasses = 1 := by decide

/-- ScrubVisitReads: visits due at and after the timer's value, a poisoned, a clean and an erroneous entry, the end of a pass, and a live record. -/
theorem witness_scrub_visit :
    (scrubbing 1 false ⟨2, true, false⟩).line.idleWork = true ∧ storePlace .unitMap 1 = some 1 ∧ storePlace .zone 39 = some 39835
      ∧ reached ((90000 : Ticks) + ms (39835 * 10000 / 39836)) 100000 = true ∧ reached ((90000 : Ticks) + ms (39835 * 10000 / 39836)) 99998 = false
      ∧ reached ((90000 : Ticks) + ms 10000 + ms (0 * 10000 / 39836)) 100000 = true ∧ 1000 * line.config.scrubPeriod = 10000
      ∧ ((scrubbing 1 false ⟨2, true, false⟩).line.health 1).poison = false ∧ 0 < ((scrubbing 1 false ⟨2, true, false⟩).line.health 1).singles
      ∧ ((scrubbing 1 false ⟨0, true, true⟩).line.health 1).poison = true ∧ (bench.line.health 1).double = false
      ∧ (scrubbing 1 false ⟨2, true, false⟩).line.jobs.incident = true ∧ (scrubbing 1 false ⟨2, true, false⟩).line.incidents.slots = []
      ∧ (withRecord { record .major .opened 7 false with cls := 13, location := ⟨.line, 0⟩ } line).liveRecord? 13 ⟨.line, 0⟩
          = some (31, { record .major .opened 7 false with cls := 13, location := ⟨.line, 0⟩ }) := by decide

theorem witness_scrub_others (h : Health) (k : Nat) (hk : k ≠ 1) : (scrubbing 1 false h).line.health k = .clean := by
  show tget Health.clean [(1, h)] k = _
  rw [tget_one, if_neg (Ne.symm hk)]

/-- Between two passes a change of the scrub period moves the first visit of the next one (R170). -/
theorem test_scrub_period :
    ({ (scrubbing 0 true .clean).line with config := { line.config with scrubPeriod := 11 } } : Line).visitDue = false
      ∧ (scrubbing 0 true .clean).line.visitDue = true := by decide

/-- TableFieldsReadBack: an entry of each table within its ranges, and a byte list that no entry has. -/
theorem witness_fields :
    line.config.inRange = true ∧ (⟨.platform, 95, .view⟩ : UnitEntry).inRange = true ∧ (⟨true, 65535, 16383, 64⟩ : RunRecord).inRange = true
      ∧ (⟨95, 863999, 2550, true⟩ : Passage).inRange = true ∧ (⟨23, some 95, some 39⟩ : Segment).inRange = true
      ∧ (⟨2, some 2, 1, 200, 900, 8, 16, 3000, 300, 30⟩ : TimingPoint).inRange = true ∧ (⟨[0, 47], 600, 600, 30⟩ : SectionEntry).inRange = true
      ∧ (⟨some 23⟩ : BreakerEntry).inRange = true ∧ (⟨some 3, 1000, 200, 2, 500, 3000, 4500, 6000, 400⟩ : SubstationEntry).inRange = true
      ∧ (ClassEntry.internal .major .alarmOnly true 0).inRange 3 = true ∧ (⟨[10], none, .routine, 10, 2, 300⟩ : Template).inRange = true
      ∧ (⟨some 4, [5], .three, 5, 2⟩ : ZoneEntry).inRange = true ∧ UnitEntry.ofFields [[1], [64], [0]] = none := by decide

end Sys2Proof.Tests
end

section
/-! The target dwell of R73: what the blend, the correction and the clamp say, each once, and TargetDwell from them. -/

namespace Sys2Proof.Machine

open Sys2Proof

/-! ## The clamp -/

/-- The clamp as R73 words it, over the integers: the conversion of `clampDwell` loses nothing, since a value that is not below Dmin is not
negative. -/
theorem coe_clampDwell (dmin dmax : Nat) (d : Int) :
    (clampDwell dmin dmax d : Int) = if d < dmin then (dmin : Int) else if dmax < d then (dmax : Int) else d := by
  unfold clampDwell
  split_ifs with hlow hhigh
  · rfl
  · rfl
  · exact Int.toNat_of_nonneg (by omega)

theorem le_clampDwell {dmin dmax : Nat} (h : dmin ≤ dmax) (d : Int) : dmin ≤ clampDwell dmin dmax d := by
  have heq := coe_clampDwell dmin dmax d
  split_ifs at heq <;> omega

theorem clampDwell_le {dmin dmax : Nat} (h : dmin ≤ dmax) (d : Int) : clampDwell dmin dmax d ≤ dmax := by
  have heq := coe_clampDwell dmin dmax d
  split_ifs at heq <;> omega

/-- A dwell within the range stays. -/
theorem clampDwell_of_within {dmin dmax n : Nat} (hlow : dmin ≤ n) (hhigh : n ≤ dmax) : clampDwell dmin dmax n = n := by
  have heq := coe_clampDwell dmin dmax n
  rw [if_neg (by omega), if_neg (by omega)] at heq
  exact Int.ofNat.inj heq

/-- The clamp raises a dwell to Dmin at most. -/
theorem clampDwell_le_of_le {dmin dmax n : Nat} {d : Int} (hlow : dmin ≤ n) (hd : d ≤ n) : clampDwell dmin dmax d ≤ n := by
  have heq := coe_clampDwell dmin dmax d
  split_ifs at heq <;> omega

/-! ## The blend and the correction -/

/-- A weight of 16 regulates against the schedule alone. -/
theorem blendedError_weight_sixteen (es eh : Int) : blendedError 16 es (some eh) = es :=
  calc ((16 : Nat) * es + (16 - (16 : Nat)) * eh).tdiv 16
      = (16 * es).tdiv 16 := by congr 1; simp
    _ = es := Int.mul_tdiv_cancel_left es (by decide)

/-- A weight of 0 regulates against the headway alone. -/
theorem blendedError_weight_zero (es eh : Int) : blendedError 0 es (some eh) = eh :=
  calc ((0 : Nat) * es + (16 - (0 : Nat)) * eh).tdiv 16
      = (16 * eh).tdiv 16 := by congr 1; simp
    _ = eh := Int.mul_tdiv_cancel_left eh (by decide)

/-- A gain of 0 corrects nothing. -/
theorem correction_gain_zero (b : Int) : correction b 0 = 0 := by
  rw [correction, Int.natCast_zero, Int.mul_zero, Int.zero_tdiv]

/-! ## The target dwell -/

theorem targetDwell_of_gain_zero {e : TimingPoint} {d0 : Nat} (hg : e.gain = 0) (hlow : e.dmin ≤ d0) (hhigh : d0 ≤ e.dmax)
    (es : Int) (eh : Option Int) : targetDwell e d0 es eh = d0 := by
  rw [targetDwell, hg, correction_gain_zero, Int.sub_zero, clampDwell_of_within hlow hhigh]

theorem targetDwell_of_weight_sixteen {e : TimingPoint} (hw : e.weight = 16) (d0 : Nat) (es eh : Int) :
    targetDwell e d0 es (some eh) = clampDwell e.dmin e.dmax (d0 - correction es e.gain) := by
  rw [targetDwell, hw, blendedError_weight_sixteen]

theorem targetDwell_of_weight_zero {e : TimingPoint} (hw : e.weight = 0) (d0 : Nat) (es eh : Int) :
    targetDwell e d0 es (some eh) = clampDwell e.dmin e.dmax (d0 - correction eh e.gain) := by
  rw [targetDwell, hw, blendedError_weight_zero]

/-- A correction that is not negative does not lengthen a dwell of at least Dmin. -/
theorem targetDwell_le_of_correction_nonneg {e : TimingPoint} {d0 : Nat} {es : Int} {eh : Option Int}
    (hc : 0 ≤ correction (blendedError e.weight es eh) e.gain) (hlow : e.dmin ≤ d0) : targetDwell e d0 es eh ≤ d0 :=
  clampDwell_le_of_le hlow (Int.sub_le_self _ hc)

end Sys2Proof.Machine

namespace Sys2Proof.Proofs

open Sys2Proof Sys2Proof.Machine

/-- Settles O35: the first clause is the clamp's own equation at D0 less the correction; with a weight of 16 or 0 both sides are the same
clamp, of an error that does not name the other one. -/
theorem targetDwell : Obligations.TargetDwell := by
  intro e d0 es eh hrange
  refine ⟨coe_clampDwell e.dmin e.dmax _, le_clampDwell hrange _, clampDwell_le hrange _, ?gain, ?schedule, ?headway, ?shorter⟩
  case gain => exact fun hg hlow hhigh => targetDwell_of_gain_zero hg hlow hhigh es (some eh)
  case schedule =>
    intro hw other
    rw [targetDwell_of_weight_sixteen hw, targetDwell_of_weight_sixteen hw]
  case headway =>
    intro hw other
    rw [targetDwell_of_weight_zero hw, targetDwell_of_weight_zero hw]
  case shorter => exact fun hc hlow => targetDwell_le_of_correction_nonneg hc hlow

end Sys2Proof.Proofs
end

section
/-! The unconfirmed breaker command of R95: what EXPECT_UNTIL does to the line, and CommandUnconfirmed from it. -/

namespace Sys2Proof.Machine

open Sys2Proof

/-! ## The work lists -/

/-- Counting an event adds no work. -/
@[simp] theorem Line.bump_idleWork (c : Counter) (l : Line) : (l.bump c).idleWork = l.idleWork := rfl

/-- Writing a breaker adds no work. -/
@[simp] theorem Line.setBreakerDyn_idleWork (b : Nat) (d : BreakerDyn) (l : Line) : (l.setBreakerDyn b d).idleWork = l.idleWork := rfl

/-! ## EXPECT_UNTIL -/

theorem exec_expectUntil (b : Nat) (s : State) : exec (.expectUntil b) s = .next (finish (s.onLine (expectEnded b))) := rfl

/-- The time reached: the command is settled and counted as unconfirmed. -/
theorem expectEnded_of_due {b : Nat} {l : Line} (h : due (l.breakerDyn b).expectUntil l.timer = true) :
    expectEnded b l = (l.setBreakerDyn b (l.breakerDyn b).settled).bump .unconfirmedCommand := if_pos h

/-- Reached or not, EXPECT_UNTIL sends nothing and adds no work. -/
theorem expectEnded_idleWork (b : Nat) (l : Line) : (expectEnded b l).idleWork = l.idleWork := by
  unfold expectEnded
  split
  · rw [Line.bump_idleWork, Line.setBreakerDyn_idleWork]
  · rfl

end Sys2Proof.Machine

namespace Sys2Proof.Proofs

open Sys2Proof Sys2Proof.Machine

/-- Settles O40: the command adds no work to none, so its end changes nothing, and what it did to the line is the settled breaker and the count. -/
theorem commandUnconfirmed : Obligations.CommandUnconfirmed := by
  intro b s hidle hdue
  have hquiet : (s.onLine (expectEnded b)).line.idleWork = true := (expectEnded_idleWork b s.line).trans hidle
  rw [exec_expectUntil, finish_idle _ hquiet, State.onLine, expectEnded_of_due hdue, BreakerDyn.settled]

end Sys2Proof.Proofs
end
